-- ==== Sys2Proof/Word.lean ====
section
/-! DEFINITION. The plain data the whole model is written over: bytes, words, and the numbers that name a
port, a bank, a group, a row and a job. -/

namespace Sys2Proof

/-- Eight bits: a character of the command link, a byte of the array. -/
abbrev Byte := BitVec 8

/-- The 32 data bits of an array word (R1). -/
abbrev Word := BitVec 32

/-- The 39 stored bits of a word, data in bits 31:0 and check bits in 38:32 (R1, R5). -/
abbrev Bits39 := BitVec 39

/-- A stream port, 0 to 3 (R58). -/
abbrev Port := Fin 4

/-- A bank, 0 to 15 (R1). -/
abbrev Bank := Fin 16

/-- A bank group, 0 to 3 (R3). -/
abbrev Group := Fin 4

/-- A logical row of a bank, 0 to 8191 (R1). -/
abbrev Row := Fin 8192

/-- A spare row of a bank, 0 to 7 (R1). -/
abbrev Spare := Fin 8

/-- A fuse slot of a bank, 0 to 3 (R113). -/
abbrev Slot := Fin 4

/-- A job's tag, 0 to 65535 (R37). -/
abbrev Tag := BitVec 16

/-- The outcome of reading one word through the check code (R6). -/
inductive CheckOutcome where
  | clean | corrected | uncorrectable
  deriving DecidableEq, Repr, Inhabited

end Sys2Proof
end

