-- ==== Sys2Proof/Config.lean ====
section
/-! DEFINITION. What the part fixes (geometry, limits, codes) and the values the spec leaves open, as constants
without a body: no proof can see what they are. -/

namespace Sys2Proof.Config

/-! ### Geometry (R1, R2) -/

/-- Bytes of the logical address space: 268,435,456. -/
def arrayBytes : Nat := 268435456

/-- Bytes of one row. -/
def rowBytes : Nat := 2048

/-- Words of one row. -/
def rowWords : Nat := 512

/-- Cells of the array, the 128 spare rows after the logical ones (log 8). -/
def cellBytes : Nat := arrayBytes + 128 * rowBytes

/-- Words of the array, spare rows included. -/
def cellWords : Nat := cellBytes / 4

/-- Row positions of the scrub and of the start-up clear (R104, R168). -/
def rowPositions : Nat := 131072

/-- Bursts of one row. -/
def rowBursts : Nat := 64

/-- Row positions of a refresh rotation (R87). -/
def rotationPositions : Nat := 8200

/-! ### Limits -/

/-- Slots of the job table (R38). -/
def jobSlots : Nat := 32
/-- Unfinished jobs of a port (R39). -/
def portJobs : Nat := 8
/-- The longest job (R40). -/
def maxJobLength : Nat := 4194304
/-- The most bytes of a HOST READ or HOST WRITE (R160). -/
def maxHostCount : Nat := 1024
/-- Entries of the outbox, and those an ORDINARY notice may use (R141). -/
def outboxEntries : Nat := 16
def ordinaryEntries : Nat := 12
/-- Notices awaiting acknowledgement at once (R145). -/
def sentWindow : Nat := 4
/-- Transmissions of a notice before STALE (R146). -/
def maxSends : Nat := 4
/-- Entries of the weak-row list (R95). -/
def weakEntries : Nat := 32
/-- The limit of a hit-run counter (R27). -/
def hitRunLimit : Nat := 16
/-- The debt at which a group becomes URGENT, and the debt at which it ceases to be (R85, R88). -/
def urgentDebt : Nat := 8
def calmDebt : Nat := 4
/-- The intake queue, the reply cache, the response queue and the error log (R129, R132, R134, R136). -/
def intakeDepth : Nat := 8
def cacheDepth : Nat := 8
def responseDepth : Nat := 8
def errorLogDepth : Nat := 4
/-- LEN of a frame (R125). -/
def minLen : Nat := 2
def maxLen : Nat := 1042

/-! ### Temperature thresholds, in thousandths of a degree Celsius (R92, log 5) -/

def hotAbove : Int := 85000
def normalBelow : Int := 80000

/-- The inter-byte gap limit in nanoseconds, 16 character times at the strapped rate (R124). -/
def gapLimitNs (baud : BitVec 3) : Nat :=
  match baud.toNat with
  | 0 => 160000
  | 1 => 80000
  | 2 => 40000
  | 3 => 20000
  | 4 => 12800
  | _ => 6400

/-! ### Free values: nothing constrains them -/

/-- Which of two ways the part takes where the spec allows either, applied to State's freeCtr (R86 log 12; R30
and R95 log 13). -/
opaque freeChoice : Nat → Bool

/-- How many words an abandoned copy had written into its spare, applied to freeCtr and taken modulo 513
(R13, log 16). -/
opaque abandonedWords : Nat → Nat

/-- The outcome of reading a word of which three or more of the 39 bits are wrong, from its data and its
wrong bits (R6, log 7). -/
opaque multiFaultOutcome : Word → Bits39 → CheckOutcome

/-- The corrected data the decoder delivers for such a word when its outcome is CORRECTED (R6, log 7). -/
opaque multiFaultData : Word → Bits39 → Word

/-- Whether a 16-bit OUT or COMPARE job stops with MEDIA when the next byte precedes the marked word and the
unit's other byte lies in it (R71, log 15). -/
opaque straddleStops : Bool

end Sys2Proof.Config
end

