-- ==== Sys2Proof/Syntax.lean ====
section
/-! DEFINITION. The commands of the part: one constructor for each row of spec/opcode_table.json, with what the
event brings from outside. -/

namespace Sys2Proof

/-- The levels of one port's sampled input lines at a command (R58, log 4). -/
structure Lines where
  /-- HOLDN is asserted (driven low). -/
  holdn : Bool
  pstat : BitVec 4
  /-- D[15:0] as the device drives it, for the end of a PORT IN strobe (R81). -/
  d : BitVec 16
  deriving DecidableEq, Repr

/-- The sampled input lines of the four ports. -/
abbrev PortLines := Vector Lines 4

/-- Stored bits of one word that have changed since the array was last read (R6, R90, log 6): the word by its
cell number (the cell address divided by 4), and the bits that flipped. -/
structure Decay where
  word : Nat
  bits : Bits39
  deriving DecidableEq, Repr

/-- One constructor for each row of the table. The rows of the Request Processor carry no field of the request: it
stands at the head of the intake queue (R135, log 2). The rows of the receiver carry characters (log 3). -/
inductive Instr where
  /-- POWER_ON (R167): the straps and the die temperature as they are read. -/
  | powerOn (baud : BitVec 3) (temp : Int)
  /-- RESETN_ASSERT (R167). -/
  | resetnAssert
  /-- SPARE_STEP_END (R168). -/
  | spareStepEnd
  /-- REQUEST_ARRIVAL (R132): the characters of the frame not yet received, its last CHECK byte included. -/
  | requestArrival (chars : List Byte)
  /-- FRAME_ERROR (R128): the characters not yet received, up to the one at which the frame fails. -/
  | frameError (chars : List Byte)
  /-- GAP_TIMER_EXPIRY (R127). -/
  | gapTimerExpiry
  /-- LINK_OPEN (R131). -/
  | linkOpen (chars : List Byte)
  /-- NOTICE_ACK (R149). -/
  | noticeAck (chars : List Byte) (lines : PortLines)
  /-- UNKNOWN_REQUEST (R135). -/
  | unknownRequest
  /-- IDENTIFY (R153). -/
  | identify
  /-- STATUS (R154); it reads PSTAT. -/
  | status (lines : PortLines)
  /-- GET_SETTING (R157). -/
  | getSetting
  /-- SET_SETTING (R158). -/
  | setSetting
  /-- SUBMIT (R40). -/
  | submit (lines : PortLines)
  /-- CANCEL (R52). -/
  | cancel (lines : PortLines)
  /-- JOB_QUERY (R56). -/
  | jobQuery
  /-- HOST_WRITE (R160). -/
  | hostWrite
  /-- HOST_READ (R160). -/
  | hostRead
  /-- PORT_OUT (R80). -/
  | portOut
  /-- PORT_IN (R81). -/
  | portIn
  /-- READ_WEAK_LIST (R103). -/
  | readWeakList
  /-- CLEAR_WEAK_ENTRY (R102). -/
  | clearWeakEntry
  /-- REPAIR_ROW (R115). -/
  | repairRow
  /-- READ_REMAP (R123). -/
  | readRemap
  /-- READ_ERROR_LOG (R164). -/
  | readErrorLog
  /-- CLEAR_ERROR (R165). -/
  | clearError
  /-- ENGINE_RESET (R172). -/
  | engineReset
  /-- SLEEP (R169). -/
  | sleep
  /-- WAKE (R171). -/
  | wake
  /-- FRAME_TRANSMIT_END (R136). -/
  | frameTransmitEnd
  /-- NOTICE_RESEND_EXPIRY (R146), of the notice with this number. -/
  | noticeResendExpiry (number : Byte)
  /-- REFRESH_TICK (R85). -/
  | refreshTick
  /-- GROUP_REFRESH_COMPLETE (R87). -/
  | groupRefreshComplete (g : Group)
  /-- TEMPERATURE_CHANGE (R92): the die temperature reached, in thousandths of a degree Celsius (log 5). -/
  | temperatureChange (temp : Int)
  /-- BANK_OPEN_COMPLETE (R9). -/
  | bankOpenComplete (b : Bank)
  /-- BANK_CLOSE_COMPLETE (R11). -/
  | bankCloseComplete (b : Bank)
  /-- BURST_COMPLETE (R7): what has decayed by the time the burst reads. -/
  | burstComplete (decay : List Decay) (lines : PortLines)
  /-- LOCK_WAIT_EXPIRY (R34). -/
  | lockWaitExpiry (b : Bank)
  /-- UNIT_REQUEST (R63): XREQ rises with XDIR, XEND and D. -/
  | unitRequest (p : Port) (xdir xend : Bool) (d : BitVec 16) (lines : PortLines)
  /-- XREQ_REMOVED (R63). -/
  | xreqRemoved (p : Port)
  /-- HOLDN_DEASSERT (R76). -/
  | holdnDeassert (p : Port) (lines : PortLines)
  /-- ATTN_EDGE (R77). -/
  | attnEdge (p : Port) (lines : PortLines)
  /-- STROBE_END (R80): the end of the strobe that holds the Request Processor. -/
  | strobeEnd (lines : PortLines)
  /-- SCRUB_TIMER_EXPIRY (R108). -/
  | scrubTimerExpiry
  /-- REPAIR_COPY_END (R119): what has decayed by the time the copy has read. -/
  | repairCopyEnd (decay : List Decay)
  /-- FUSE_VERIFY (R120). -/
  | fuseVerify (pass : Bool)
  /-- WAKE_COMPLETE (R171). -/
  | wakeComplete
  /-- CHARACTER_ARRIVAL (R127). -/
  | characterArrival (c : Byte)
  deriving DecidableEq, Repr

end Sys2Proof
end

