-- ==== Sys2Proof/Machine/State.lean ====
section
/-! DEFINITION. The state of the part, block by block, as plain data, with the state after reset. -/

namespace Sys2Proof.Machine

/-! ### Reasons to stop -/

/-- Faults. None: the spec lets no event stop the part (INVENTORY, Faults), so no meaning raises one (safe). -/
inductive Fault where
  deriving DecidableEq, Repr

/-- Refusals. -/
inductive Refusal where
  /-- Raised by an arm of exec for a command that has no meaning yet, and by nothing else; safe. -/
  | notModelled (mnemonic : String)
  deriving DecidableEq, Repr

/-! ### The array (R1, R5, R6) -/

/-- The array's contents (log 6, log 8): the data last written, byte by byte, and for each word the stored bits
that have gone wrong since. A byte not listed holds 0, a word not listed has no wrong bit. -/
structure Memory where
  cells : List Host.Cell
  faults : List (Nat × Bits39)
  deriving DecidableEq, Repr

/-- The physical row of an open row: the logical row itself or a spare (R8). -/
inductive PhysRow where
  | native
  | spare (i : Spare)
  deriving DecidableEq, Repr

/-- The open row of a bank record (R8). -/
structure OpenRow where
  logical : Row
  physical : PhysRow
  deriving DecidableEq, Repr

/-- The state of a bank; an open row is recorded in OPENING, OPEN and CLOSING (R8). -/
inductive BankState where
  | closed
  | opening (r : OpenRow)
  | opened (r : OpenRow)
  | closing (r : OpenRow)
  | refreshing
  | repairing
  deriving DecidableEq, Repr

/-- A bank record (R8). -/
structure BankRecord where
  state : BankState
  lockHolder : Option Tag
  /-- The lock wait timer: STOPPED, or RUNNING from this HOLD LIMIT in microseconds (R33). -/
  lockTimer : Option Byte
  hitRun : Nat
  deriving DecidableEq, Repr

/-! ### Accesses (R18 to R20) -/

inductive MaintPurpose where
  | clear | scrub
  deriving DecidableEq, Repr

/-- The client of an access, with the job tag of a port's access and the purpose of MAINT's (R19). -/
inductive Client where
  | port (p : Port) (tag : Tag)
  | link
  | maint (purpose : MaintPurpose)
  deriving DecidableEq, Repr

/-- READ, or WRITE with the data and byte masks of the 8 words of its burst (R19). -/
inductive AccessKind where
  | read
  | write (data : List Word) (masks : List (BitVec 4))
  deriving DecidableEq, Repr

/-- The condition of a pending access (R20). An access in flight remembers whether its bank was opened for it,
which R27 asks. -/
inductive Condition where
  | waiting
  | granted
  | inFlight (openedForIt : Bool)
  deriving DecidableEq, Repr

/-- An access in the pending access list (R19, R20). -/
structure Access where
  client : Client
  bank : Bank
  row : Row
  firstWord : Nat
  wordCount : Nat
  kind : AccessKind
  condition : Condition
  deriving DecidableEq, Repr

/-- What one word of a completed access gave (R28, R29): its word address, the data of a read, the check outcome
of the read it needed, and whether a write wrote it. -/
structure WordResult where
  address : Nat
  data : Word
  outcome : Option CheckOutcome
  written : Bool
  deriving DecidableEq, Repr

/-! ### Jobs (R37) -/

inductive Mode where
  | inn | out | count | compare
  deriving DecidableEq, Repr

inductive JobState where
  | queued | active | draining | stopping | held | reported
  deriving DecidableEq, Repr

inductive JobOutcome where
  | done | short | cancelled | media | direction | mismatch
  deriving DecidableEq, Repr

/-- A job record (R37). -/
structure Job where
  tag : Tag
  port : Port
  mode : Mode
  address : Option Nat
  length : Nat
  steer : BitVec 4
  hold : Bool
  state : JobState
  moved : Nat
  outcome : Option JobOutcome
  faultAddress : Option Nat
  holdBroken : Bool
  correctedSeen : Bool
  noticeNumber : Option Byte
  deriving DecidableEq, Repr

/-! ### Port Engines (R60) -/

inductive EngineState where
  | inert | idle | running | draining | stopping | held | control
  deriving DecidableEq, Repr

/-- A bound staging half (R60, R66): the burst of the region (its address divided by 32), and what it holds from
`start` on. A FREE half is not listed (log 17). -/
inductive Half where
  | filling (burst start : Nat) (bytes : List Byte)
  | awaiting (burst : Nat)
  | loaded (burst start : Nat) (bytes : List Byte)
  deriving DecidableEq, Repr

/-- A pending attention (R78). -/
structure Attention where
  pstat : BitVec 4
  merged : Bool
  deriving DecidableEq, Repr

inductive ControlOp where
  | portOut (steer : BitVec 4) (byte : Byte)
  | portIn (steer : BitVec 4)
  deriving DecidableEq, Repr

/-- A Port Engine (R60). -/
structure Engine where
  state : EngineState
  activeJob : Option Tag
  nextAddress : Option Nat
  halves : List Half
  /-- The next burst of the region to be read (R69). -/
  nextBurst : Option Nat
  faultMark : Option Nat
  attention : Option Attention
  control : Option ControlOp
  deriving DecidableEq, Repr

/-- What the device holds stable while XREQ is asserted (R63). -/
structure UnitRequest where
  xdir : Bool
  xend : Bool
  d : BitVec 16
  deriving DecidableEq, Repr

/-- The input pins of a port (R58): XREQ is asserted exactly when `xreq` is present. -/
structure Pins where
  xreq : Option UnitRequest
  holdn : Bool
  pstat : BitVec 4
  d : BitVec 16
  deriving DecidableEq, Repr

/-- What an engine drives on D (R62). -/
inductive Drive where
  | off
  | low (b : Byte)
  | full (w : BitVec 16)
  deriving DecidableEq, Repr

/-- The output pins of a port (R62). PCLR is a pulse: `pclrPulses` counts those since reset and `pclrSel` is what SEL
carried at the last one (log 24). -/
structure Outs where
  xack : Bool
  sel : BitVec 4
  cout : Bool
  cin : Bool
  d : Drive
  pclrPulses : Nat
  pclrSel : BitVec 4
  deriving DecidableEq, Repr

/-! ### Refresh and temperature (R83, R92) -/

inductive TempRange where
  | normal | hot
  deriving DecidableEq, Repr

structure GroupRefresh where
  debt : Nat
  urgent : Bool
  rotation : Nat
  deriving DecidableEq, Repr

/-- The Refresh Unit. The tick timer is STOPPED, or RUNNING with the period of the range it started in (R84). -/
structure Refresh where
  groups : Vector GroupRefresh 4
  tick : Option TempRange
  deriving DecidableEq, Repr

/-! ### Media Monitor (R95, R96) -/

/-- A source of a report (R30). -/
inductive Source where
  | port (p : Port)
  | link
  | scrub
  deriving DecidableEq, Repr

structure WeakEntry where
  bank : Bank
  row : Row
  correctedCount : Nat
  uncorrectable : Bool
  remapped : Bool
  firstSource : Source
  deriving DecidableEq, Repr

structure Media where
  list : List WeakEntry
  listFull : Bool
  scrubMark : Option (Bank × Row)
  deriving DecidableEq, Repr

/-! ### Maintenance Engine (R104, R111, R113, R114) -/

inductive RepairKind where
  | soft | hard
  deriving DecidableEq, Repr

structure RemapEntry where
  row : Row
  spare : Spare
  kind : RepairKind
  deriving DecidableEq, Repr

inductive FuseSlot where
  | free
  | programming
  | used (row : Row) (spare : Spare)
  | spoiled
  deriving DecidableEq, Repr

inductive RepairOutcome where
  | ok | fuseFail
  deriving DecidableEq, Repr

inductive RepairPhase where
  | claiming | copying | programming | reporting
  deriving DecidableEq, Repr

/-- The repair record (R114). -/
structure RepairRecord where
  bank : Bank
  row : Row
  kind : RepairKind
  target : Spare
  phase : RepairPhase
  fuseSlot : Option Slot
  uncorrectable : Nat
  outcome : Option RepairOutcome
  deriving DecidableEq, Repr

/-- Where the start-up clear stands (R168): the spare step in a bank (claimed once the bank is REPAIRING), or the
logical step at a row position and burst. -/
inductive ClearStep where
  | spares (b : Bank)
  | logical (position burst : Nat)
  deriving DecidableEq, Repr

/-- The maintenance operation (R114): the repair record is present in REPAIR COPY and FUSE PROGRAM. -/
inductive MaintOp where
  | none
  | clear (step : ClearStep)
  | repair (r : RepairRecord)
  deriving DecidableEq, Repr

inductive Visit where
  | betweenRows | inRow | atPassEnd
  deriving DecidableEq, Repr

/-- The values of a SCRUB PASS notice as offered (R107). -/
structure PassReport where
  passNumber : BitVec 16
  corrected : Nat
  uncorrectable : Nat
  deriving DecidableEq, Repr

/-- The patrol scrub (R104). The timer is STOPPED, or RUNNING with the SCRUB RATE of its start (R108). -/
structure Scrub where
  position : Nat
  burst : Nat
  visit : Visit
  credit : Bool
  timer : Option Byte
  passNumber : BitVec 16
  corrected : Nat
  uncorrectable : Nat
  /-- The notice kept while the scrub producer waits for room (R107). -/
  waitingPass : Option PassReport
  /-- IN ROW, stopped by a SCRUB RATE of 0: to resume only at the next expiry (R108). -/
  resumeAtExpiry : Bool
  /-- The scrub access in the list was there at an engine reset: its result is discarded (R110). -/
  discardResult : Bool
  deriving DecidableEq, Repr

structure Maint where
  op : MaintOp
  scrub : Scrub
  deriving DecidableEq, Repr

/-! ### Notices (R141, R142) -/

/-- The eleven ORDINARY producers (R143). -/
inductive Producer where
  | job (p : Port)
  | attention (p : Port)
  | scrub
  | repair
  | partControl
  deriving DecidableEq, Repr

/-- A notice's kind with its fields. -/
inductive NoticeBody where
  | jobEnd (tag : Tag) (port : Port) (mode : Mode) (outcome : Option JobOutcome) (moved : Nat)
      (faultAddress : Option Nat) (holdBroken correctedSeen : Bool)
  | attention (port : Port) (pstat : BitVec 4) (merged : Bool)
  | scrubPass (r : PassReport)
  | repairEnd (bank : Bank) (row : Row) (kind : RepairKind) (outcome : Option RepairOutcome)
      (uncorrectable : Nat)
  | started
  | uncorrectable (source : Source) (bank : Bank) (row : Row) (address : Nat)
  | refreshOverrun (g : Group)
  | temperature (range : TempRange)
  | weakListFull (bank : Bank) (row : Row)
  deriving DecidableEq, Repr

inductive NoticeClass where
  | ordinary | alert
  deriving DecidableEq, Repr

/-- The class of a notice, by its kind (R141). -/
def NoticeBody.cls : NoticeBody → NoticeClass
  | .jobEnd _ _ _ _ _ _ _ _ => .ordinary
  | .attention _ _ _ => .ordinary
  | .scrubPass _ => .ordinary
  | .repairEnd _ _ _ _ _ => .ordinary
  | .started => .ordinary
  | .uncorrectable _ _ _ _ => .alert
  | .refreshOverrun _ => .alert
  | .temperature _ => .alert
  | .weakListFull _ _ => .alert

/-- A notice record (R141); its class is NoticeBody.cls of its kind. -/
structure Notice where
  number : Byte
  body : NoticeBody
  sent : Bool
  sendCount : Nat
  resendDue : Bool
  /-- The resend timer: STOPPED, or RUNNING from this NOTICE TIMEOUT in milliseconds (R145). -/
  timer : Option Byte
  deriving DecidableEq, Repr

structure NoticeUnit where
  outbox : List Notice
  nextNumber : Byte
  stale : Bool
  alertsLost : Bool
  waiting : List Producer
  /-- NPEND is asserted (R150). -/
  npend : Bool
  deriving DecidableEq, Repr

/-! ### The command link (R125 to R137) -/

/-- A frame; START, LEN and CHECK follow from it (R125). -/
structure Frame where
  kind : Byte
  seq : Byte
  payload : List Byte
  deriving DecidableEq, Repr

/-- A request in the intake queue (R132). -/
structure Request where
  seq : Byte
  payload : List Byte
  deriving DecidableEq, Repr

/-- A response: the SEQ it echoes and its whole payload (R140). -/
structure Response where
  seq : Byte
  payload : List Byte
  deriving DecidableEq, Repr

inductive FrameErrorCause where
  | check | length | kind | gap
  deriving DecidableEq, Repr

/-- A frame error record (R128). -/
structure ErrorRecord where
  cause : FrameErrorCause
  kind : Byte
  seq : Byte
  len : Nat
  deriving DecidableEq, Repr

/-- The receiver (R127): IN FRAME it keeps the bytes taken since START. -/
inductive Receiver where
  | hunting
  | inFrame (bytes : List Byte)
  deriving DecidableEq, Repr

/-- The frame on the line, with the notice's number when it is a notice (R145). -/
structure TxFrame where
  frame : Frame
  notice : Option Byte
  deriving DecidableEq, Repr

structure Link where
  isOpen : Bool
  expected : Byte
  rx : Receiver
  intake : List Request
  cache : List Response
  queue : List Response
  openResponse : Option Response
  linkError : Option ErrorRecord
  tx : Option TxFrame
  log : List ErrorRecord
  overflow : Bool
  halt : Bool
  deriving DecidableEq, Repr

/-! ### Request Processor and Part Control (R135, R156, R166) -/

/-- What a request in execution is held for (R135). -/
inductive Work where
  /-- A HOST READ: its region, the burst its access is for, and the bytes read so far. -/
  | hostRead (address count burst : Nat) (got : List Byte)
  /-- A HOST WRITE: its region's start, its data, and the burst its access is for. -/
  | hostWrite (address : Nat) (data : List Byte) (burst : Nat)
  | portOut (p : Port)
  | portIn (p : Port)
  | sleep
  | wake
  | engineReset
  deriving DecidableEq, Repr

/-- A request in execution; `discard` says a LINK OPEN has condemned its response (R131). -/
structure Execution where
  seq : Byte
  code : Byte
  work : Work
  discard : Bool
  deriving DecidableEq, Repr

structure Processor where
  executing : Option Execution
  held : Option Response
  deriving DecidableEq, Repr

inductive Width where
  | w8 | w16
  deriving DecidableEq, Repr

structure PortSettings where
  enable : Bool
  width : Width
  attention : Bool
  deriving DecidableEq, Repr

inductive RefreshRange where
  | auto | hot
  deriving DecidableEq, Repr

/-- The settings record (R156). -/
structure Settings where
  ports : Vector PortSettings 4
  holdLimit : Byte
  refreshRange : RefreshRange
  scrubRate : Byte
  noticeTimeout : Byte
  frameErrorHalt : Bool
  wakeOnAttention : Bool
  deriving DecidableEq, Repr

inductive PartState where
  | starting | ready | sleeping | waking | resetting
  deriving DecidableEq, Repr

inductive WakeTarget where
  | ready | resetting
  deriving DecidableEq, Repr

/-- Part Control (R166). -/
structure Part where
  state : PartState
  sleepEntry : Bool
  wakeTarget : Option WakeTarget
  wakeWaiting : Bool
  deriving DecidableEq, Repr

/-! ### The whole part -/

end Sys2Proof.Machine

namespace Sys2Proof.Machine

/-- The state of the part. -/
structure State where
  /-- The commands waiting, first in first out. -/
  pending : List Instr
  /-- RESETN is asserted (R167). -/
  resetn : Bool
  /-- BAUD[2:0] as sampled (R124). -/
  baud : BitVec 3
  link : Link
  proc : Processor
  settings : Settings
  part : Part
  /-- The occupied slots of the job table (R38). -/
  jobs : List Job
  /-- The per-port queues, head first (R39). -/
  queues : Vector (List Tag) 4
  engines : Vector Engine 4
  pins : Vector Pins 4
  outs : Vector Outs 4
  banks : Vector BankRecord 16
  /-- The pending access list, in order of arrival (R18). -/
  accesses : List Access
  refresh : Refresh
  /-- The measured range (R92). -/
  range : TempRange
  media : Media
  maint : Maint
  remap : Vector (List RemapEntry) 16
  fuses : Vector (Vector FuseSlot 4) 16
  notices : NoticeUnit
  mem : Memory
  /-- The counter Config's free choices are applied to (log 12). -/
  freeCtr : Nat
  deriving DecidableEq, Repr

/-! ### Reset values -/

def Memory.empty : Memory := { cells := [], faults := [] }

def BankRecord.reset : BankRecord :=
  { state := .closed, lockHolder := none, lockTimer := none, hitRun := 0 }

/-- R60's table. -/
def Engine.reset : Engine :=
  { state := .inert, activeJob := none, nextAddress := none, halves := [], nextBurst := none,
    faultMark := none, attention := none, control := none }

def Pins.reset : Pins := { xreq := none, holdn := false, pstat := 0, d := 0 }

def Outs.reset : Outs :=
  { xack := false, sel := 0, cout := false, cin := false, d := .off, pclrPulses := 0, pclrSel := 0 }

/-- R138's table. -/
def Link.reset : Link :=
  { isOpen := false, expected := 0, rx := .hunting, intake := [], cache := [], queue := [],
    openResponse := none, linkError := none, tx := none, log := [], overflow := false, halt := false }

/-- R156's defaults. -/
def Settings.reset : Settings :=
  { ports := Vector.replicate 4 { enable := false, width := .w8, attention := true },
    holdLimit := 32, refreshRange := .auto, scrubRate := 0, noticeTimeout := 20,
    frameErrorHalt := false, wakeOnAttention := false }

/-- R83: debts 0, URGENT clear; the tick timer runs from the first measurement. -/
def Refresh.reset (range : TempRange) : Refresh :=
  { groups := Vector.replicate 4 { debt := 0, urgent := false, rotation := 0 }, tick := some range }

/-- R104's power-on column. -/
def Scrub.reset : Scrub :=
  { position := 0, burst := 0, visit := .betweenRows, credit := false, timer := none, passNumber := 0,
    corrected := 0, uncorrectable := 0, waitingPass := none, resumeAtExpiry := false,
    discardResult := false }

def NoticeUnit.reset : NoticeUnit :=
  { outbox := [], nextNumber := 0, stale := false, alertsLost := false, waiting := [], npend := false }

/-- The part right after power-on or the release of RESETN, with the straps at 0, the die in the NORMAL range and a fuse
store never programmed (log 9): every block at its reset value, and start-up about to claim bank 0. -/
def State.reset : State :=
  { pending := [], resetn := false, baud := 0, link := Link.reset,
    proc := { executing := none, held := none }, settings := Settings.reset,
    part := { state := .starting, sleepEntry := false, wakeTarget := none, wakeWaiting := false },
    jobs := [], queues := Vector.replicate 4 [], engines := Vector.replicate 4 Engine.reset,
    pins := Vector.replicate 4 Pins.reset, outs := Vector.replicate 4 Outs.reset,
    banks := Vector.replicate 16 BankRecord.reset, accesses := [], refresh := Refresh.reset .normal,
    range := .normal, media := { list := [], listFull := false, scrubMark := none },
    maint := { op := .clear (.spares 0), scrub := Scrub.reset },
    remap := Vector.replicate 16 [], fuses := Vector.replicate 16 (Vector.replicate 4 .free),
    notices := NoticeUnit.reset, mem := Memory.empty, freeCtr := 0 }

end Sys2Proof.Machine
end

