-- ==== Sys2Proof/Machine/Ops.lean ====
section
/-! DEFINITION. The named operations over the array and over the tables of the state: every block reads and
writes through these. -/

namespace Sys2Proof.Machine

/-! ### Sparse lists in canonical form -/

/-- What a sparse list holds at a key; `z` where it lists none. -/
def Sparse.get {α : Type} (z : α) : List (Nat × α) → Nat → α
  | [], _ => z
  | (k', v) :: t, k => if k = k' then v else Sparse.get z t k

/-- A sparse list with one key written; writing `z` takes the entry away. -/
def Sparse.set {α : Type} [DecidableEq α] (z : α) : List (Nat × α) → Nat → α → List (Nat × α)
  | [], k, v => if v = z then [] else [(k, v)]
  | (k', v') :: t, k, v =>
    if k < k' then (if v = z then (k', v') :: t else (k, v) :: (k', v') :: t)
    else if k = k' then (if v = z then t else (k, v) :: t)
    else (k', v') :: Sparse.set z t k v

/-- A sparse list with the keys from `lo` up to, not including, `hi` at `z`. -/
def Sparse.clear {α : Type} (l : List (Nat × α)) (lo hi : Nat) : List (Nat × α) :=
  l.filter fun x => !(decide (lo ≤ x.1) && decide (x.1 < hi))

/-- The keys rise strictly, from above `lo`. -/
def Sparse.risingFrom {α : Type} : Option Nat → List (Nat × α) → Bool
  | _, [] => true
  | none, (k, _) :: t => Sparse.risingFrom (some k) t
  | some lo, (k, _) :: t => decide (lo < k) && Sparse.risingFrom (some k) t

/-- The canonical form: keys strictly rising, no entry equal to what an unlisted key reads as. -/
def Sparse.wf {α : Type} [DecidableEq α] (z : α) (l : List (Nat × α)) : Bool :=
  Sparse.risingFrom none l && l.all fun x => decide (x.2 ≠ z)

/-! ### The array (R1, R5, R6) -/

/-- What a byte of the array that is not listed holds (log 8). -/
def Memory.unlisted : Byte := 0

/-- The canonical form of the array. -/
def Memory.wf (m : Memory) : Bool :=
  Sparse.wf Memory.unlisted m.cells && Sparse.wf (0 : Bits39) m.faults

/-- The byte last written at a cell. -/
def Memory.byte (m : Memory) (a : Nat) : Byte := Sparse.get Memory.unlisted m.cells a

def Memory.setByte (m : Memory) (a : Nat) (b : Byte) : Memory :=
  { m with cells := Sparse.set Memory.unlisted m.cells a b }

/-- The stored bits of a word that are wrong. -/
def Memory.wrong (m : Memory) (w : Nat) : Bits39 := Sparse.get 0 m.faults w

def Memory.setWrong (m : Memory) (w : Nat) (e : Bits39) : Memory :=
  { m with faults := Sparse.set 0 m.faults w e }

/-- The data last written into the word that begins at cell `a`, least significant byte first. -/
def Memory.word (m : Memory) (a : Nat) : Word :=
  m.byte (a + 3) ++ m.byte (a + 2) ++ m.byte (a + 1) ++ m.byte a

/-- A word's four bytes, least significant first. -/
def wordBytes (w : Word) : List Byte :=
  [w.extractLsb' 0 8, w.extractLsb' 8 8, w.extractLsb' 16 8, w.extractLsb' 24 8]

/-- A write of a whole word with a fresh check code (R5). -/
def Memory.setWord (m : Memory) (a : Nat) (w : Word) : Memory :=
  ((((m.setByte a (w.extractLsb' 0 8)).setByte (a + 1) (w.extractLsb' 8 8)).setByte (a + 2)
    (w.extractLsb' 16 8)).setByte (a + 3) (w.extractLsb' 24 8)).setWrong (a / 4) 0

/-- How many of the 39 stored bits are wrong. -/
def wrongCount (e : Bits39) : Nat := ((List.range 39).filter fun i => e.getLsbD i).length

/-- The check outcome of a word and the data delivered, from the data last written and the wrong bits (R6). -/
def checkWord (d : Word) (e : Bits39) : CheckOutcome × Word :=
  match wrongCount e with
  | 0 => (.clean, d)
  | 1 => (.corrected, d)
  | 2 => (.uncorrectable, d ^^^ e.setWidth 32)
  | _ =>
    match Config.multiFaultOutcome d e with
    | .clean => (.clean, d ^^^ e.setWidth 32)
    | .corrected => (.corrected, Config.multiFaultData d e)
    | .uncorrectable => (.uncorrectable, d ^^^ e.setWidth 32)

/-- A read of the word at cell `a` through the check code (R6). -/
def Memory.read (m : Memory) (a : Nat) : CheckOutcome × Word :=
  checkWord (m.word a) (m.wrong (a / 4))

/-- The first cell of a physical row of a bank; spare rows follow the logical ones (log 8). -/
def rowCell (b : Bank) (r : Row) : PhysRow → Nat
  | .native => r.val * 32768 + b.val * 2048
  | .spare i => Config.arrayBytes + (b.val * 8 + i.val) * Config.rowBytes

/-- The word address of a word of a logical row (R19). -/
def wordAddress (b : Bank) (r : Row) (w : Nat) : Nat := r.val * 32768 + b.val * 2048 + w * 4

/-- The reads of a READ access: `n` words from word `w` on, of the row at cell `base` (R28). -/
def readWords (m : Memory) (base : Nat) (b : Bank) (r : Row) : Nat → Nat → List WordResult
  | _, 0 => []
  | w, n + 1 =>
    let (o, d) := m.read (base + 4 * w)
    { address := wordAddress b r w, data := d, outcome := some o, written := false } ::
      readWords m base b r (w + 1) n

/-- A word's enabled bytes replaced (R15). -/
def mergeWord (old new : Word) (mask : BitVec 4) : Word :=
  (if mask.getLsbD 3 then new.extractLsb' 24 8 else old.extractLsb' 24 8) ++
  (if mask.getLsbD 2 then new.extractLsb' 16 8 else old.extractLsb' 16 8) ++
  (if mask.getLsbD 1 then new.extractLsb' 8 8 else old.extractLsb' 8 8) ++
  (if mask.getLsbD 0 then new.extractLsb' 0 8 else old.extractLsb' 0 8)

/-- The write of one word of a client's WRITE access: direct, untouched, or read-merge-write (R15, R16). -/
def writeOne (m : Memory) (a : Nat) (addr : Nat) (d : Word) (mask : BitVec 4) : Memory × WordResult :=
  if mask = 0 then (m, { address := addr, data := 0, outcome := none, written := true })
  else if mask = 15 then
    (m.setWord a d, { address := addr, data := 0, outcome := none, written := true })
  else
    let (o, old) := m.read a
    if o = .uncorrectable then (m, { address := addr, data := old, outcome := some o, written := false })
    else (m.setWord a (mergeWord old d mask), { address := addr, data := old, outcome := some o, written := true })

/-- The write of one word of a scrub rewrite, guarded by a read of its own (R106). A word with an empty mask is reported as
left, not as written: R15 and R106 put it in different words, nothing uses the value, and it is the model's choice (log 38). -/
def rewriteOne (m : Memory) (a : Nat) (addr : Nat) (d : Word) (mask : BitVec 4) : Memory × WordResult :=
  if mask = 0 then (m, { address := addr, data := 0, outcome := none, written := false })
  else
    let (o, old) := m.read a
    if o = .corrected ∧ old = d then
      (m.setWord a d, { address := addr, data := 0, outcome := none, written := true })
    else (m, { address := addr, data := 0, outcome := none, written := false })

/-- The writes of a WRITE access, in ascending word order; `guarded` for a scrub rewrite. -/
def writeWords (guarded : Bool) (base : Nat) (b : Bank) (r : Row) (data : List Word)
    (masks : List (BitVec 4)) : Memory → Nat → Nat → Memory × List WordResult
  | m, _, 0 => (m, [])
  | m, w, n + 1 =>
    let d := data.getD (w % 8) 0
    let mask := masks.getD (w % 8) 0
    let one := if guarded then rewriteOne m (base + 4 * w) (wordAddress b r w) d mask
      else writeOne m (base + 4 * w) (wordAddress b r w) d mask
    let rest := writeWords guarded base b r data masks one.1 (w + 1) n
    (rest.1, one.2 :: rest.2)

/-- All words of a row zero with valid codes. -/
def Memory.zeroRows (m : Memory) (lo hi : Nat) : Memory :=
  { cells := Sparse.clear m.cells lo hi, faults := Sparse.clear m.faults (lo / 4) (hi / 4) }

/-- The spare step of the start-up clear in one bank: its 8 spares zero (R168). -/
def Memory.zeroSpares (m : Memory) (b : Bank) : Memory :=
  m.zeroRows (rowCell b 0 (.spare 0)) (rowCell b 0 (.spare 0) + 8 * Config.rowBytes)

/-- A repair copy of `n` words from word `w` on, from the row at cell `src` into the one at `dst`, with the number
that read UNCORRECTABLE (R118). -/
def copyWords (src dst : Nat) : Memory → Nat → Nat → Memory × Nat
  | m, _, 0 => (m, 0)
  | m, w, n + 1 =>
    let (o, d) := m.read (src + 4 * w)
    let bad := decide (o = .uncorrectable)
    let rest := copyWords src dst (m.setWord (dst + 4 * w) (if bad then 0 else d)) (w + 1) n
    (rest.1, rest.2 + (if bad then 1 else 0))

/-- Stored bits flip; a word that is no word of the array is disregarded (log 6). -/
def Memory.decayOne (m : Memory) (x : Decay) : Memory :=
  if x.word < Config.cellWords then m.setWrong x.word (m.wrong x.word ^^^ x.bits) else m

def Memory.decay (m : Memory) (xs : List Decay) : Memory := xs.foldl Memory.decayOne m

/-! ### Tables of the state -/

def allPorts : List Port := [0, 1, 2, 3]
def allGroups : List Group := [0, 1, 2, 3]
def allBanks : List Bank := [0, 1, 2, 3, 4, 5, 6, 7, 8, 9, 10, 11, 12, 13, 14, 15]

/-- The group of a bank (R3). -/
def groupOf (b : Bank) : Group := ⟨b.val / 4, by omega⟩

/-- The four banks of a group (R3). -/
def banksOf (g : Group) : List Bank :=
  [⟨4 * g.val, by omega⟩, ⟨4 * g.val + 1, by omega⟩, ⟨4 * g.val + 2, by omega⟩, ⟨4 * g.val + 3, by omega⟩]

namespace State

def bank (s : State) (b : Bank) : BankRecord := s.banks[b]
def setBank (s : State) (b : Bank) (r : BankRecord) : State := { s with banks := s.banks.set b r }

def engine (s : State) (p : Port) : Engine := s.engines[p]
def setEngine (s : State) (p : Port) (e : Engine) : State := { s with engines := s.engines.set p e }

def pin (s : State) (p : Port) : Pins := s.pins[p]
def setPin (s : State) (p : Port) (x : Pins) : State := { s with pins := s.pins.set p x }

def outp (s : State) (p : Port) : Outs := s.outs[p]
def setOutp (s : State) (p : Port) (o : Outs) : State := { s with outs := s.outs.set p o }

def queueOf (s : State) (p : Port) : List Tag := s.queues[p]
def setQueue (s : State) (p : Port) (q : List Tag) : State := { s with queues := s.queues.set p q }

def group (s : State) (g : Group) : GroupRefresh := s.refresh.groups[g]
def setGroup (s : State) (g : Group) (x : GroupRefresh) : State :=
  { s with refresh := { s.refresh with groups := s.refresh.groups.set g x } }

def remapOf (s : State) (b : Bank) : List RemapEntry := s.remap[b]
def setRemap (s : State) (b : Bank) (l : List RemapEntry) : State := { s with remap := s.remap.set b l }

def fuseOf (s : State) (b : Bank) (i : Slot) : FuseSlot := s.fuses[b][i]
def setFuse (s : State) (b : Bank) (i : Slot) (x : FuseSlot) : State :=
  { s with fuses := s.fuses.set b (s.fuses[b].set i x) }

def portSettings (s : State) (p : Port) : PortSettings := s.settings.ports[p]
def setPortSettings (s : State) (p : Port) (x : PortSettings) : State :=
  { s with settings := { s.settings with ports := s.settings.ports.set p x } }

def setScrub (s : State) (x : Scrub) : State := { s with maint := { s.maint with scrub := x } }
def setOp (s : State) (x : MaintOp) : State := { s with maint := { s.maint with op := x } }

/-- The outbox is written here alone, and NPEND follows it (R150). -/
def setOutbox (s : State) (o : List Notice) : State :=
  { s with notices := { s.notices with outbox := o, npend := !o.isEmpty } }

/-- The occupied slot that holds a tag (R38). -/
def jobOf (s : State) (t : Tag) : Option Job := s.jobs.find? fun j => decide (j.tag = t)

/-- The record of a tag rewritten. -/
def updateJob (s : State) (t : Tag) (f : Job → Job) : State :=
  { s with jobs := s.jobs.map fun j => if j.tag = t then f j else j }

/-- An access joins the tail of the pending access list (R18). -/
def post (s : State) (a : Access) : State := { s with accesses := s.accesses ++ [a] }

/-- A bank's lock holder is removed and its lock wait timer STOPPED (R32). -/
def unlock (s : State) (b : Bank) : State :=
  s.setBank b { s.bank b with lockHolder := none, lockTimer := none }

/-- Every lock of a job is released (R32). -/
def releaseLocksOf (s : State) (t : Tag) : State :=
  allBanks.foldl (fun s b => if (s.bank b).lockHolder = some t then s.unlock b else s) s

/-- Every lock is released (R36). -/
def releaseAllLocks (s : State) : State := allBanks.foldl unlock s

/-- A bank's lock is broken: HOLD BROKEN is set on its job (R34, R35). -/
def breakLock (s : State) (b : Bank) : State :=
  match (s.bank b).lockHolder with
  | none => s
  | some t => (s.updateJob t fun j => { j with holdBroken := true }).unlock b

/-- The sampled input lines are as a command brings them (R58, log 4). -/
def sample (s : State) (lines : PortLines) : State :=
  allPorts.foldl
    (fun s p => s.setPin p { s.pin p with holdn := lines[p].holdn, pstat := lines[p].pstat, d := lines[p].d }) s

end State

/-- The physical row an open resolves to (R4, R112). -/
def State.resolve (s : State) (b : Bank) (r : Row) : PhysRow :=
  match (s.remapOf b).find? fun e => decide (e.row = r) with
  | some e => .spare e.spare
  | none => .native

/-- Spare state: IN USE exactly while an entry names it (R111). -/
def State.spareInUse (s : State) (b : Bank) (i : Spare) : Bool :=
  (s.remapOf b).any fun e => decide (e.spare = i)

/-- One turn after another until nothing is left to do, at most `n` of them. -/
def iterate (f : State → Option State) : Nat → State → State
  | 0, s => s
  | n + 1, s =>
    match f s with
    | some s' => iterate f n s'
    | none => s

end Sys2Proof.Machine
end

