-- ==== Sys2Proof/Machine/Operands.lean ====
section
/-! DEFINITION. Operands and layouts: byte fields, frames and their CHECK, request fields, address mapping, the
accesses that serve a region, and the bytes of every response, notice and link error. -/

namespace Sys2Proof.Machine

/-! ### Multi-byte fields, most significant byte first (R125) -/

/-- The low `k` bytes of a number. -/
def natBytes : Nat → Nat → List Byte
  | 0, _ => []
  | k + 1, n => natBytes k (n / 256) ++ [BitVec.ofNat 8 n]

/-- The number a list of bytes spells. -/
def beNat (bs : List Byte) : Nat := bs.foldl (fun n b => n * 256 + b.toNat) 0

/-- The field of `k` bytes at offset `off` of a payload. -/
def field (payload : List Byte) (off k : Nat) : Nat := beNat ((payload.drop off).take k)

/-- A flag byte (R139). -/
def flagByte (b : Bool) : Byte := if b then 1 else 0

/-- A number in one byte. -/
def byteOf (n : Nat) : Byte := BitVec.ofNat 8 n

/-! ### Frames and the CRC (R125, R126) -/

/-- One bit of the CRC with generator 0x1021. -/
def crcBit (c : BitVec 16) : BitVec 16 := if c.msb then (c <<< 1) ^^^ 0x1021#16 else c <<< 1

/-- One byte of the CRC, most significant bit first. -/
def crcByte (c : BitVec 16) (b : Byte) : BitVec 16 :=
  let x := c ^^^ (b.setWidth 16 <<< 8)
  crcBit (crcBit (crcBit (crcBit (crcBit (crcBit (crcBit (crcBit x)))))))

/-- The CHECK of the bytes of LEN, KIND, SEQ and PAYLOAD. -/
def crc16 (bs : List Byte) : BitVec 16 := bs.foldl crcByte 0xFFFF#16

/-- START. -/
def startByte : Byte := 0xC3#8

def kindRequest : Byte := 1
def kindResponse : Byte := 2
def kindNotice : Byte := 3
def kindNoticeAck : Byte := 4
def kindLinkError : Byte := 5

/-- LEN, KIND, SEQ and PAYLOAD of a frame. -/
def Frame.body (f : Frame) : List Byte :=
  natBytes 2 (f.payload.length + 2) ++ [f.kind, f.seq] ++ f.payload

/-- The characters of a frame on the line. -/
def Frame.chars (f : Frame) : List Byte :=
  startByte :: f.body ++ natBytes 2 (crc16 f.body).toNat

/-! ### The receiver (R127, R128) -/

/-- What a character or the gap timer brings the receiver to hand on. -/
inductive RxEvent where
  | good (f : Frame)
  | error (r : ErrorRecord)
  deriving DecidableEq, Repr

/-- The error record of a frame cut off after these bytes (R128): what has not been received is 0. -/
def errorRecord (cause : FrameErrorCause) (bytes : List Byte) : ErrorRecord :=
  { cause := cause, kind := bytes.getD 2 0, seq := bytes.getD 3 0,
    len := if 2 ≤ bytes.length then field bytes 0 2 else 0 }

/-- The end of a frame, at its second CHECK byte: CHECK first, then KIND (R127). -/
def frameEnd (bytes : List Byte) : RxEvent :=
  let body := bytes.take (bytes.length - 2)
  if natBytes 2 (crc16 body).toNat ≠ bytes.drop (bytes.length - 2) then .error (errorRecord .check bytes)
  else if bytes.getD 2 0 ≠ kindRequest ∧ bytes.getD 2 0 ≠ kindNoticeAck then .error (errorRecord .kind bytes)
  else .good { kind := bytes.getD 2 0, seq := bytes.getD 3 0, payload := body.drop 4 }

/-- The receiver takes one character (R127). -/
def Receiver.take (rx : Receiver) (c : Byte) : Receiver × Option RxEvent :=
  match rx with
  | .hunting => if c = startByte then (.inFrame [], none) else (.hunting, none)
  | .inFrame bytes =>
    let bytes' := bytes ++ [c]
    if bytes'.length = 2 ∧ (field bytes' 0 2 < Config.minLen ∨ Config.maxLen < field bytes' 0 2) then
      (.hunting, some (.error (errorRecord .length bytes')))
    else if 2 ≤ bytes'.length ∧ bytes'.length = field bytes' 0 2 + 4 then
      (.hunting, some (frameEnd bytes'))
    else (.inFrame bytes', none)

/-- The inter-byte gap timer runs exactly while the receiver is IN FRAME (R127, log 26). -/
def Receiver.gapTimerRunning : Receiver → Bool
  | .hunting => false
  | .inFrame _ => true

/-! ### Codes (R139) -/

def Mode.code : Mode → Nat
  | .inn => 0 | .out => 1 | .count => 2 | .compare => 3

def Mode.ofCode : Nat → Option Mode
  | 0 => some .inn | 1 => some .out | 2 => some .count | 3 => some .compare | _ => none

def JobState.code : JobState → Nat
  | .queued => 0 | .active => 1 | .draining => 2 | .stopping => 3 | .held => 4 | .reported => 5

def JobOutcome.code : JobOutcome → Nat
  | .done => 0 | .short => 1 | .cancelled => 2 | .media => 3 | .direction => 4 | .mismatch => 5

def PartState.code : PartState → Nat
  | .starting => 0 | .ready => 1 | .sleeping => 2 | .waking => 3 | .resetting => 4

def EngineState.code : EngineState → Nat
  | .inert => 0 | .idle => 1 | .running => 2 | .draining => 3 | .stopping => 4 | .held => 5 | .control => 6

def TempRange.code : TempRange → Nat
  | .normal => 0 | .hot => 1

/-- The maintenance operation follows the phase (R114). -/
def MaintOp.code : MaintOp → Nat
  | .none => 0
  | .clear _ => 1
  | .repair r =>
    match r.phase, r.kind with
    | .claiming, _ => 2
    | .copying, _ => 2
    | .programming, _ => 3
    | .reporting, .soft => 2
    | .reporting, .hard => 3

def Source.code : Source → Nat
  | .port p => p.val | .link => 4 | .scrub => 5

def RepairKind.code : RepairKind → Nat
  | .soft => 0 | .hard => 1

def RepairKind.ofCode : Nat → Option RepairKind
  | 0 => some .soft | 1 => some .hard | _ => none

def RepairOutcome.code : RepairOutcome → Nat
  | .ok => 0 | .fuseFail => 1

def FrameErrorCause.code : FrameErrorCause → Nat
  | .check => 1 | .length => 2 | .kind => 3 | .gap => 4

/-- The status codes. -/
inductive Status where
  | ok | accepted | busy | range | full | sequence | unknown | length | noSlot | tagInUse | noTag
  | tooLate | starting | asleep | halted | media | already | noSpare | noFuse | portOff | closed | notListed
  deriving DecidableEq, Repr

def Status.code : Status → Byte
  | .ok => 0x00 | .accepted => 0x01 | .busy => 0x02 | .range => 0x03 | .full => 0x04 | .sequence => 0x05
  | .unknown => 0x06 | .length => 0x07 | .noSlot => 0x08 | .tagInUse => 0x09 | .noTag => 0x0A
  | .tooLate => 0x0B | .starting => 0x0C | .asleep => 0x0D | .halted => 0x0E | .media => 0x0F
  | .already => 0x10 | .noSpare => 0x11 | .noFuse => 0x12 | .portOff => 0x13 | .closed => 0x14
  | .notListed => 0x15

/-! ### Requests (R135, R139) -/

/-- The request code: the first payload byte, 0x00 for an empty payload (R130). -/
def Request.code (r : Request) : Byte := r.payload.headD 0

def codeLinkOpen : Byte := 0x01
def codeIdentify : Byte := 0x02
def codeStatus : Byte := 0x03
def codeGetSetting : Byte := 0x04
def codeSetSetting : Byte := 0x05
def codeSubmit : Byte := 0x10
def codeCancel : Byte := 0x11
def codeJobQuery : Byte := 0x12
def codeHostWrite : Byte := 0x20
def codeHostRead : Byte := 0x21
def codePortOut : Byte := 0x22
def codePortIn : Byte := 0x23
def codeReadWeakList : Byte := 0x30
def codeClearWeakEntry : Byte := 0x31
def codeRepairRow : Byte := 0x32
def codeReadRemap : Byte := 0x33
def codeReadErrorLog : Byte := 0x40
def codeClearError : Byte := 0x41
def codeEngineReset : Byte := 0x50
def codeSleep : Byte := 0x51
def codeWake : Byte := 0x52

/-- The assigned request codes. -/
def assignedCodes : List Byte :=
  [codeLinkOpen, codeIdentify, codeStatus, codeGetSetting, codeSetSetting, codeSubmit, codeCancel, codeJobQuery,
   codeHostWrite, codeHostRead, codePortOut, codePortIn, codeReadWeakList, codeClearWeakEntry, codeRepairRow,
   codeReadRemap, codeReadErrorLog, codeClearError, codeEngineReset, codeSleep, codeWake]

/-- The codes HALT does not bar (R132). -/
def haltExempt (code : Byte) : Bool :=
  [codeStatus, codeIdentify, codeReadErrorLog, codeClearError, codeGetSetting].any (· = code)

/-- The payload has the length its code asks for (R135). -/
def lengthOk (r : Request) : Bool :=
  let n := r.payload.length
  match r.code.toNat with
  | 0x02 => n = 1
  | 0x03 => n = 1
  | 0x04 => n = 2
  | 0x05 => n = 3
  | 0x10 => n = 15
  | 0x11 => n = 3
  | 0x12 => n = 3
  | 0x20 => decide (7 ≤ n) && decide (n = 7 + field r.payload 5 2)
  | 0x21 => n = 7
  | 0x22 => n = 4
  | 0x23 => n = 3
  | 0x30 => n = 1
  | 0x31 => n = 4
  | 0x32 => n = 5
  | 0x33 => n = 2
  | 0x40 => n = 1
  | 0x41 => n = 2
  | 0x50 => n = 1
  | 0x51 => n = 1
  | 0x52 => n = 1
  | _ => true

/-- The response to a request: its SEQ, its code, the status and the fields (R140). -/
def responseOf (seq code : Byte) (st : Status) (fields : List Byte) : Response :=
  { seq := seq, payload := code :: st.code :: fields }

/-- The RESPONSE frame. -/
def Response.frame (r : Response) : Frame := { kind := kindResponse, seq := r.seq, payload := r.payload }

/-- The LINK ERROR frame of an error record (R128). -/
def ErrorRecord.frame (r : ErrorRecord) : Frame :=
  { kind := kindLinkError, seq := 0, payload := [byteOf r.cause.code, r.kind, r.seq] }

/-- A setting named by a parameter id (R156). -/
inductive Param where
  | enable (p : Port)
  | width (p : Port)
  | attention (p : Port)
  | holdLimit | refreshRange | scrubRate | noticeTimeout | frameErrorHalt | wakeOnAttention
  deriving DecidableEq, Repr

def Param.ofId (id : Nat) : Option Param :=
  if h : id < 4 then some (.enable ⟨id, h⟩)
  else if h : id - 4 < 4 then some (.width ⟨id - 4, h⟩)
  else if h : id - 8 < 4 then some (.attention ⟨id - 8, h⟩)
  else match id with
    | 0x10 => some .holdLimit
    | 0x11 => some .refreshRange
    | 0x12 => some .scrubRate
    | 0x13 => some .noticeTimeout
    | 0x14 => some .frameErrorHalt
    | 0x15 => some .wakeOnAttention
    | _ => none

/-- A value is within a setting's values (R156). -/
def Param.valueOk (x : Param) (v : Nat) : Bool :=
  match x with
  | .enable _ => decide (v ≤ 1)
  | .width _ => decide (v = 8) || decide (v = 16)
  | .attention _ => decide (v ≤ 1)
  | .holdLimit => decide (1 ≤ v)
  | .refreshRange => decide (v ≤ 1)
  | .scrubRate => decide (v ≤ 64)
  | .noticeTimeout => decide (1 ≤ v)
  | .frameErrorHalt => decide (v ≤ 1)
  | .wakeOnAttention => decide (v ≤ 1)

/-- The value of a setting in force (R157). -/
def State.setting (s : State) : Param → Byte
  | .enable p => flagByte (s.portSettings p).enable
  | .width p => match (s.portSettings p).width with | .w8 => 8 | .w16 => 16
  | .attention p => flagByte (s.portSettings p).attention
  | .holdLimit => s.settings.holdLimit
  | .refreshRange => match s.settings.refreshRange with | .auto => 0 | .hot => 1
  | .scrubRate => s.settings.scrubRate
  | .noticeTimeout => s.settings.noticeTimeout
  | .frameErrorHalt => flagByte s.settings.frameErrorHalt
  | .wakeOnAttention => flagByte s.settings.wakeOnAttention

/-! ### Address mapping (R2) and the accesses of a region (R66, R161) -/

def bankOfAddress (a : Nat) : Bank := Fin.ofNat 16 (a / 2048)
def rowOfAddress (a : Nat) : Row := Fin.ofNat 8192 (a / 32768)
def wordOfAddress (a : Nat) : Nat := a / 4 % 512
/-- The burst of the whole address space that holds an address. -/
def burstOfAddress (a : Nat) : Nat := a / 32

/-- Of the region from `a` up to, not including, `e`: where its part in a burst begins, and where it ends. -/
def partLow (a burst : Nat) : Nat := max a (32 * burst)
def partHigh (e burst : Nat) : Nat := min e (32 * burst + 32)

/-- The access whose words are those that hold the bytes from `lo` up to, not including, `hi`, of one burst. -/
def accessFor (c : Client) (lo hi : Nat) (k : AccessKind) : Access :=
  { client := c, bank := bankOfAddress lo, row := rowOfAddress lo, firstWord := wordOfAddress lo,
    wordCount := (hi - 1) / 4 - lo / 4 + 1, kind := k, condition := .waiting }

/-- The byte at an address, where bytes stand from `start` on. -/
def byteAt (start : Nat) (bytes : List Byte) (a : Nat) : Option Byte :=
  if start ≤ a then bytes[a - start]? else none

/-- Data and masks of a burst's WRITE that carries bytes from `start` on: word `j` of the burst. -/
def writeWord (start : Nat) (bytes : List Byte) (burst j : Nat) : Word × BitVec 4 :=
  let at' (k : Nat) : Option Byte := byteAt start bytes (32 * burst + 4 * j + k)
  (((at' 3).getD 0 ++ (at' 2).getD 0 ++ (at' 1).getD 0 ++ (at' 0).getD 0),
   BitVec.ofBool (at' 3).isSome ++ BitVec.ofBool (at' 2).isSome ++ BitVec.ofBool (at' 1).isSome ++
     BitVec.ofBool (at' 0).isSome)

/-- The WRITE of exactly these bytes of one burst (R67, R161). -/
def writeKind (start : Nat) (bytes : List Byte) (burst : Nat) : AccessKind :=
  .write ((List.range 8).map fun j => (writeWord start bytes burst j).1)
    ((List.range 8).map fun j => (writeWord start bytes burst j).2)

/-- The bytes of a read's words, in address order. -/
def resultBytes (rs : List WordResult) : List Byte := rs.flatMap fun r => wordBytes r.data

/-- The burst an access is in. -/
def Access.burst (a : Access) : Nat := (wordAddress a.bank a.row a.firstWord) / 32

/-! ### Bytes of what the part sends (R140) -/

/-- The fields of a notice after its kind, with its kind code before them. -/
def NoticeBody.bytes : NoticeBody → List Byte
  | .jobEnd t p m o mv fa hb cs =>
    [0x01] ++ natBytes 2 t.toNat ++ [byteOf p.val, byteOf m.code, byteOf ((o.map JobOutcome.code).getD 0)] ++
      natBytes 4 mv ++ [flagByte fa.isSome] ++ natBytes 4 (fa.getD 0) ++ [flagByte hb, flagByte cs]
  | .attention p ps mg => [0x02, byteOf p.val, byteOf ps.toNat, flagByte mg]
  | .scrubPass r => [0x03] ++ natBytes 2 r.passNumber.toNat ++ natBytes 4 r.corrected ++ natBytes 4 r.uncorrectable
  | .repairEnd b r k o n =>
    [0x04, byteOf b.val] ++ natBytes 2 r.val ++ [byteOf k.code, byteOf ((o.map RepairOutcome.code).getD 0)] ++
      natBytes 2 n
  | .started => [0x05]
  | .uncorrectable src b r a => [0x81, byteOf src.code, byteOf b.val] ++ natBytes 2 r.val ++ natBytes 4 a
  | .refreshOverrun g => [0x82, byteOf g.val]
  | .temperature r => [0x83, byteOf r.code]
  | .weakListFull b r => [0x84, byteOf b.val] ++ natBytes 2 r.val

/-- The NOTICE frame (R145). -/
def Notice.frame (n : Notice) : Frame := { kind := kindNotice, seq := n.number, payload := n.body.bytes }

/-- The presence byte of a job record. -/
def Job.presence (j : Job) : Nat :=
  (if j.address.isSome then 1 else 0) + (if j.outcome.isSome then 2 else 0) +
    (if j.faultAddress.isSome then 4 else 0) + (if j.noticeNumber.isSome then 8 else 0)

/-- The 28 bytes of a JOB QUERY (R56, R140). -/
def Job.bytes (j : Job) : List Byte :=
  natBytes 2 j.tag.toNat ++ [byteOf j.port.val, byteOf j.mode.code] ++ natBytes 4 (j.address.getD 0) ++
    natBytes 4 j.length ++ [byteOf j.steer.toNat, flagByte j.hold, byteOf j.state.code] ++ natBytes 4 j.moved ++
    [byteOf j.presence, byteOf ((j.outcome.map JobOutcome.code).getD 0)] ++ natBytes 4 (j.faultAddress.getD 0) ++
    [flagByte j.holdBroken, flagByte j.correctedSeen, j.noticeNumber.getD 0]

/-- A weak-row entry in a READ WEAK LIST. -/
def WeakEntry.bytes (e : WeakEntry) : List Byte :=
  [byteOf e.bank.val] ++ natBytes 2 e.row.val ++
    [byteOf e.correctedCount, flagByte e.uncorrectable, flagByte e.remapped, byteOf e.firstSource.code]

def RemapEntry.bytes (e : RemapEntry) : List Byte :=
  natBytes 2 e.row.val ++ [byteOf e.spare.val, byteOf e.kind.code]

def FuseSlot.bytes : FuseSlot → List Byte
  | .free => [0, 0, 0, 0]
  | .programming => [1, 0, 0, 0]
  | .used r i => [2] ++ natBytes 2 r.val ++ [byteOf i.val]
  | .spoiled => [3, 0, 0, 0]

/-- An error record in a READ ERROR LOG. -/
def ErrorRecord.bytes (r : ErrorRecord) : List Byte :=
  [byteOf r.cause.code, r.kind, r.seq] ++ natBytes 2 r.len

end Sys2Proof.Machine
end

