-- ==== Sys2Proof/Machine/Flags.lean ====
section
/-! DEFINITION. The conditions the rules test: the scheduler's eligibility and choices, the claims on groups and
banks, room in the outbox, the scrub's permission, and the part-state refusals. -/

namespace Sys2Proof.Machine

/-! ### Accesses and banks -/

def Access.isWaiting (a : Access) : Bool := decide (a.condition = .waiting)
def Access.isGranted (a : Access) : Bool := decide (a.condition = .granted)
def Access.isInFlight (a : Access) : Bool :=
  match a.condition with
  | .inFlight _ => true
  | _ => false

def Client.isScrub : Client → Bool
  | .maint .scrub => true
  | _ => false

def Client.isMaint : Client → Bool
  | .maint _ => true
  | _ => false

/-- The job tag of a port's access; LINK and MAINT have none (R21). -/
def Client.tag? : Client → Option Tag
  | .port _ t => some t
  | _ => none

def Client.isPort (p : Port) : Client → Bool
  | .port q _ => decide (q = p)
  | _ => false

def BankState.isClosed : BankState → Bool
  | .closed => true
  | _ => false

def BankState.isRepairing : BankState → Bool
  | .repairing => true
  | _ => false

def BankState.isRefreshing : BankState → Bool
  | .refreshing => true
  | _ => false

/-- The logical row at which a bank is OPEN. -/
def BankState.openLogical : BankState → Option Row
  | .opened r => some r.logical
  | _ => none

namespace State

/-- A burst is in flight on the bank. -/
def inFlightOn (s : State) (b : Bank) : Bool := s.accesses.any fun a => a.isInFlight && decide (a.bank = b)

/-- A GRANTED access is still to be served on the bank. -/
def grantedOn (s : State) (b : Bank) : Bool := s.accesses.any fun a => a.isGranted && decide (a.bank = b)

/-- A burst is in flight. -/
def burstInFlight (s : State) : Bool := s.accesses.any Access.isInFlight

/-- An engine's outstanding count (R60, log 26). -/
def outstanding (s : State) (p : Port) : Nat := (s.accesses.filter fun a => a.client.isPort p).length

def urgentBank (s : State) (b : Bank) : Bool := (s.group (groupOf b)).urgent

/-- The bank a repair claim, or the spare step's claim, waits on (R117, R168). -/
def claimBank (s : State) : Option Bank :=
  match s.maint.op with
  | .clear (.spares b) => if (s.bank b).state.isRepairing then none else some b
  | .repair r => if r.phase = .claiming then some r.bank else none
  | _ => none

/-- Condition 2 of R21: no lock, or the access's own job's. -/
def lockAllows (s : State) (a : Access) : Bool :=
  match (s.bank a.bank).lockHolder with
  | none => true
  | some t => decide (a.client.tag? = some t)

/-- R22: the bank is held by a group refresh or by a repair. -/
def heldBank (s : State) (b : Bank) : Bool :=
  (s.bank b).state.isRefreshing || (s.bank b).state.isRepairing ||
    (decide (s.claimBank = some b) && (s.bank b).lockHolder.isNone)

/-- R23: a WAITING scrub access is left out while another client's access to its bank is in the list. -/
def leftOut (s : State) (a : Access) : Bool :=
  a.client.isScrub && a.isWaiting && s.accesses.any fun x => decide (x.bank = a.bank) && !x.client.isMaint

/-- Conditions 2 to 4 of R21, for a WAITING access that is not left out. -/
def mayServe (s : State) (a : Access) : Bool :=
  a.isWaiting && s.lockAllows a && !s.urgentBank a.bank && !s.heldBank a.bank && !s.leftOut a

/-- A WAITING access eligible for the open of its CLOSED bank (R21, R24). -/
def eligibleToOpen (s : State) (a : Access) : Bool := s.mayServe a && (s.bank a.bank).state.isClosed

/-- A WAITING access eligible as a row hit of its OPEN bank (R21, R25). -/
def eligibleHit (s : State) (a : Access) : Bool :=
  s.mayServe a && decide ((s.bank a.bank).state.openLogical = some a.row) && !s.grantedOn a.bank

/-- A candidate for the data path (R25). -/
def burstCandidate (s : State) (a : Access) : Bool :=
  (a.isGranted && (s.bank a.bank).state.openLogical.isSome) || s.eligibleHit a

/-- Class 1 of R23: an access of its locked bank's lock holder. -/
def ofLockHolder (s : State) (a : Access) : Bool :=
  (s.bank a.bank).lockHolder.isSome && decide ((s.bank a.bank).lockHolder = a.client.tag?)

/-- R26: a WAITING access for which the bank, OPEN at another row, is to be closed. -/
def missOf (s : State) (b : Bank) (row : Row) (a : Access) : Bool :=
  decide (a.bank = b) && decide (a.row ≠ row) && s.mayServe a

/-- R26: the bank is to be closed for another row. -/
def closesForMiss (s : State) (b : Bank) : Bool :=
  match (s.bank b).state.openLogical with
  | none => false
  | some row =>
    !s.inFlightOn b && !s.grantedOn b && s.accesses.any (s.missOf b row) &&
      (!(s.accesses.any fun a => decide (a.bank = b) && s.eligibleHit a) ||
        decide ((s.bank b).hitRun = Config.hitRunLimit))

/-- The other closes of R11: URGENT, a repair claim that holds the bank, sleep entry once the list is empty (R170, log 21).
Where a claim waits and a burst's completion has just locked the bank (R31), the claim finds a locked bank and the bank
stays OPEN, which is the model's choice (log 37). -/
def mustClose (s : State) (b : Bank) : Bool :=
  (s.bank b).state.openLogical.isSome && !s.inFlightOn b && !s.grantedOn b &&
    (s.urgentBank b || (decide (s.claimBank = some b) && (s.bank b).lockHolder.isNone) ||
      (s.part.sleepEntry && s.accesses.isEmpty))

/-- The Refresh Unit's claim on a group may be taken (R83, R86, R88). -/
def refreshReady (s : State) (g : Group) : Bool :=
  decide (1 ≤ (s.group g).debt) && (banksOf g).all (fun b => (s.bank b).state.isClosed) &&
    ((s.group g).urgent || !(s.accesses.any fun a => decide (groupOf a.bank = g)))

/-- A repair claim on the bank may be taken (R13, R117). -/
def repairReady (s : State) (b : Bank) : Bool :=
  decide (s.claimBank = some b) && (s.bank b).state.isClosed && (s.bank b).lockHolder.isNone &&
    !s.inFlightOn b && !s.urgentBank b

/-- R33: a party waits for a locked bank. -/
def lockWaited (s : State) (b : Bank) : Bool :=
  (s.accesses.any fun a => decide (a.bank = b) && a.isWaiting && !s.lockAllows a && !a.client.isScrub) ||
    decide (s.claimBank = some b)

/-! ### Jobs and ports -/

/-- The number of a port's unfinished jobs (R39). -/
def unfinished (s : State) (p : Port) : Nat := (s.queueOf p).length

/-- Some port has an unfinished job (R169). -/
def anyUnfinished (s : State) : Bool := allPorts.any fun p => !(s.queueOf p).isEmpty

/-- A job's hold is in force (R31, R37). -/
def holdInForce (j : Job) : Bool :=
  j.hold && !j.holdBroken && (decide (j.state = .active) || decide (j.state = .draining))

/-- The effective range (R93). -/
def effectiveRange (s : State) : TempRange :=
  match s.settings.refreshRange with
  | .auto => s.range
  | .hot => .hot

/-- The scrub is allowed to advance (R104). -/
def scrubAllowed (s : State) : Bool :=
  decide (1 ≤ s.settings.scrubRate.toNat) && decide (s.part.state = .ready) && !s.part.sleepEntry &&
    decide (s.maint.op = .none)

/-- MAINT has an access in the list (R18). -/
def maintPosted (s : State) : Bool := s.accesses.any fun a => a.client.isMaint

/-! ### The outbox (R143 to R145) -/

def ordinaryCount (s : State) : Nat :=
  (s.notices.outbox.filter fun n => decide (n.body.cls = .ordinary)).length

/-- There is room for an ORDINARY notice (R143). -/
def roomForOrdinary (s : State) : Bool :=
  decide (s.notices.outbox.length < Config.outboxEntries) && decide (s.ordinaryCount < Config.ordinaryEntries)

end State

/-- The notice the Notice Unit has ready for the transmitter (R145). -/
def NoticeUnit.ready (u : NoticeUnit) : Option Notice :=
  if u.stale then none
  else match u.outbox.find? fun n => n.sent && n.resendDue with
    | some n => some n
    | none =>
      if (u.outbox.filter Notice.sent).length < Config.sentWindow then u.outbox.find? fun n => !n.sent else none

/-! ### Part-state refusals (R40, R80, R103, R160, R169) -/

/-- For a request executed in READY alone: the status in the other part states. -/
def PartState.refusal : PartState → Option Status
  | .ready => none
  | .starting => some .starting
  | .sleeping => some .asleep
  | .waking => some .busy
  | .resetting => some .busy

/-- For READ WEAK LIST and READ REMAP, executed in READY and in SLEEPING (R103, R123). -/
def PartState.readRefusal : PartState → Option Status
  | .ready => none
  | .starting => some .starting
  | .sleeping => none
  | .waking => some .busy
  | .resetting => some .busy

end Sys2Proof.Machine
end

