-- ==== Sys2Proof/Machine/Notices.lean ====
section
/-! DEFINITION. The Notice Unit: numbering, admission, the waiting producers, resending, STALE and its revival, and
what an admission tells its producer. -/

namespace Sys2Proof.Machine

/-- The first number from `n` on that no notice in the outbox holds, in at most `fuel` raises (R142). -/
def freshNumber (outbox : List Notice) : Nat → Byte → Byte
  | 0, n => n
  | fuel + 1, n => if outbox.any fun x => decide (x.number = n) then freshNumber outbox fuel (n + 1) else n

namespace State

/-- The number the next admission takes (R142). -/
def admissionNumber (s : State) : Byte :=
  freshNumber s.notices.outbox Config.outboxEntries s.notices.nextNumber

/-- A notice is appended to the outbox with its initial values (R142 to R144). -/
def admitNotice (s : State) (body : NoticeBody) : State :=
  let n := s.admissionNumber
  let s1 := s.setOutbox (s.notices.outbox ++
    [{ number := n, body := body, sent := false, sendCount := 0, resendDue := false, timer := none }])
  { s1 with notices := { s1.notices with nextNumber := n + 1 } }

/-- An ALERT is offered: admitted to any free entry, otherwise dropped with alerts-lost set (R144). -/
def offerAlert (s : State) (body : NoticeBody) : State :=
  if s.notices.outbox.length < Config.outboxEntries then s.admitNotice body
  else { s with notices := { s.notices with alertsLost := true } }

/-- The engine enters INERT, or IDLE, with SEL at 0 and no job (R61, R62). -/
def restEngine (s : State) (p : Port) (st : EngineState) : State :=
  (s.setEngine p { s.engine p with
      state := st, activeJob := none, nextAddress := none, halves := [], nextBurst := none,
      faultMark := none, control := none }).setOutp p { s.outp p with sel := 0 }

/-- The head job of a port is REPORTED under a notice number (R49): it leaves its queue, its lock if any is released,
and the engine goes to IDLE. -/
def reportJob (s : State) (p : Port) (number : Byte) : State :=
  match s.queueOf p with
  | [] => s
  | t :: rest =>
    (((s.updateJob t fun j => { j with state := .reported, noticeNumber := some number }).setQueue p
      rest).releaseLocksOf t).restEngine p .idle

/-- What the notice of a producer carries now; none where the producer has nothing to report. -/
def bodyOf (s : State) : Producer → Option NoticeBody
  | .job p =>
    match s.queueOf p with
    | [] => none
    | t :: _ =>
      match s.jobOf t with
      | none => none
      | some j =>
        some (.jobEnd j.tag j.port j.mode j.outcome j.moved j.faultAddress j.holdBroken j.correctedSeen)
  | .attention p => (s.engine p).attention.map fun a => .attention p a.pstat a.merged
  | .scrub => s.maint.scrub.waitingPass.map NoticeBody.scrubPass
  | .repair =>
    match s.maint.op with
    | .repair r => some (.repairEnd r.bank r.row r.kind r.outcome r.uncorrectable)
    | _ => none
  | .partControl => some .started

/-- What a producer does when its notice has been admitted (R49, R78, R107, R121). -/
def onAdmitted (s : State) (x : Producer) (number : Byte) : State :=
  match x with
  | .job p => s.reportJob p number
  | .attention p => s.setEngine p { s.engine p with attention := none }
  | .scrub => s.setScrub { s.maint.scrub with visit := .betweenRows, waitingPass := none }
  | .repair => s.setOp .none
  | .partControl => s

/-- A producer's notice is admitted, and the producer is told. -/
def admitFrom (s : State) (x : Producer) : State :=
  match s.bodyOf x with
  | none => s
  | some body => (s.admitNotice body).onAdmitted x s.admissionNumber

/-- An ORDINARY producer offers its notice: admitted when there is room, otherwise the producer joins the
waiting-producer list (R143). -/
def offer (s : State) (x : Producer) : State :=
  if s.roomForOrdinary then s.admitFrom x
  else { s with notices := { s.notices with waiting := s.notices.waiting ++ [x] } }

/-- One waiting producer admitted, if there is room (R143). -/
def admitWaitingOne (s : State) : Option State :=
  match s.notices.waiting with
  | [] => none
  | x :: rest =>
    if s.roomForOrdinary then
      some ({ s with notices := { s.notices with waiting := rest } }.admitFrom x)
    else none

/-- Room opened by a removal goes to the waiting producers in their order (R143); there are at most 11. -/
def admitWaiting (s : State) : State := iterate admitWaitingOne 11 s

/-- Every notice returns to UNSENT with send count 0 (R147, R148). -/
def unsendAll (s : State) : State :=
  (s.setOutbox (s.notices.outbox.map fun n =>
    { n with sent := false, sendCount := 0, resendDue := false, timer := none }))

/-- A good frame revives a STALE link (R147). -/
def reviveStale (s : State) : State :=
  if s.notices.stale then { s.unsendAll with notices := { s.unsendAll.notices with stale := false } } else s

/-- LINK OPEN at the Notice Unit (R148). -/
def openNotices (s : State) : State :=
  { s.unsendAll with notices := { s.unsendAll.notices with stale := false } }

/-- A NOTICE ACK's number leaves the outbox, with the slot of the job it reports (R51, R149); none where no notice
holds the number. -/
def ackNotice (s : State) (number : Byte) : Option State :=
  match s.notices.outbox.find? fun n => decide (n.number = number) with
  | none => none
  | some n =>
    let s1 := s.setOutbox (s.notices.outbox.filter fun x => decide (x.number ≠ number))
    match n.body with
    | .jobEnd _ _ _ _ _ _ _ _ =>
      some { s1 with jobs := s1.jobs.filter fun j =>
        !(decide (j.state = .reported) && decide (j.noticeNumber = some number)) }
    | _ => some s1

/-- A notice's record rewritten. -/
def updateNotice (s : State) (number : Byte) (f : Notice → Notice) : State :=
  s.setOutbox (s.notices.outbox.map fun n => if n.number = number then f n else n)

/-- STALE is set: every resend timer stops and every resend due is cleared (R147). -/
def setStale (s : State) : State :=
  let s1 := s.setOutbox (s.notices.outbox.map fun n => { n with resendDue := false, timer := none })
  { s1 with notices := { s1.notices with stale := true } }

/-- Engine reset takes the JOB END notices out of the outbox (R151). -/
def dropJobEnds (s : State) : State :=
  s.setOutbox (s.notices.outbox.filter fun n =>
    match n.body with
    | .jobEnd _ _ _ _ _ _ _ _ => false
    | _ => true)

/-- Engine reset withdraws the job and attention producers of every port (R151). -/
def withdrawPorts (s : State) : State :=
  { s with notices := { s.notices with waiting := s.notices.waiting.filter fun x =>
      match x with
      | .job _ => false
      | .attention _ => false
      | _ => true } }

end State
end Sys2Proof.Machine
end

