-- ==== Sys2Proof/Machine/Transmit.lean ====
section
/-! DEFINITION. The Link Controller's sending side and the Request Processor's responses: the reply cache, the response
queue, the held response and the transmitter's order of preference. -/

namespace Sys2Proof.Machine
namespace State

/-- A response enters the reply cache; a ninth removes the oldest (R134). No two share a SEQ: one that enters under a SEQ still
cached takes the place of the earlier one, at the tail. R134 takes it that this does not come about, though E can come round by
HALTED refusals while an earlier request waits; which of the two goes is the model's choice (log 41). -/
def cacheResponse (s : State) (r : Response) : State :=
  let c := s.link.cache.filter (fun x => decide (x.seq ≠ r.seq)) ++ [r]
  { s with link := { s.link with cache := if Config.cacheDepth < c.length then c.tail else c } }

/-- A response made at arrival, or a cached one resent: not queued when the queue is full (R136). -/
def queueAtArrival (s : State) (r : Response) : State :=
  if s.link.queue.length < Config.responseDepth then
    { s with link := { s.link with queue := s.link.queue ++ [r] } }
  else s

/-- An execution's response: it joins the queue, or the processor holds it (R135). -/
def queueOrHold (s : State) (r : Response) : State :=
  if s.link.queue.length < Config.responseDepth then
    { s with link := { s.link with queue := s.link.queue ++ [r] } }
  else { s with proc := { s.proc with held := some r } }

/-- A held response joins the queue when room opens (R135). -/
def releaseHeld (s : State) : State :=
  match s.proc.held with
  | none => s
  | some r =>
    if s.link.queue.length < Config.responseDepth then
      { s with link := { s.link with queue := s.link.queue ++ [r] }, proc := { s.proc with held := none } }
    else s

/-- A notice's frame begins: it is SENT, counted, and no longer due (R145). -/
def beginNotice (s : State) (n : Notice) : State :=
  let s1 := s.updateNotice n.number fun x =>
    { x with sent := true, sendCount := x.sendCount + 1, resendDue := false }
  { s1 with link := { s1.link with tx := some { frame := n.frame, notice := some n.number } } }

/-- A request stands to be taken at once: the processor is free and the intake queue is not empty (R135). Its command
comes next, so no notice begins ahead of its response (R136, R147, log 33). -/
def requestDue (s : State) : Bool :=
  s.proc.executing.isNone && s.proc.held.isNone && !s.link.intake.isEmpty

/-- The transmitter, if the line is free, begins the first frame of its order that waits (R136). -/
def transmit (s : State) : State :=
  match s.link.tx with
  | some _ => s
  | none =>
    match s.link.openResponse with
    | some r => { s with link := { s.link with tx := some { frame := r.frame, notice := none }, openResponse := none } }
    | none =>
      match s.link.linkError with
      | some e => { s with link := { s.link with tx := some { frame := e.frame, notice := none }, linkError := none } }
      | none =>
        match s.link.queue with
        | r :: rest =>
          { s with link := { s.link with tx := some { frame := r.frame, notice := none }, queue := rest } }.releaseHeld
        | [] =>
          if s.link.isOpen && !s.requestDue then
            match s.notices.ready with
            | some n => s.beginNotice n
            | none => s
          else s

/-- The response of a request executed at once: cached and queued or held (R134, R135). -/
def answer (s : State) (r : Request) (st : Status) (fields : List Byte) : State :=
  (s.cacheResponse (responseOf r.seq r.code st fields)).queueOrHold (responseOf r.seq r.code st fields)

/-- A request that held the processor ends: the processor is free, and the response is cached and queued or held unless
a LINK OPEN has condemned it (R131, R135). -/
def endExecution (s : State) (st : Status) (fields : List Byte) : State :=
  match s.proc.executing with
  | none => s
  | some x =>
    let s1 := { s with proc := { s.proc with executing := none } }
    if x.discard then s1
    else (s1.cacheResponse (responseOf x.seq x.code st fields)).queueOrHold (responseOf x.seq x.code st fields)

/-- The request holds the processor for this work (R135). -/
def beginExecution (s : State) (r : Request) (w : Work) : State :=
  { s with proc := { s.proc with executing := some { seq := r.seq, code := r.code, work := w, discard := false } } }

/-- What the request in execution is held for. -/
def work (s : State) : Option Work := s.proc.executing.map Execution.work

/-- The Request Processor, when free, takes the request at the head of the intake queue if its code passes `p`
(R135). -/
def takeRequest (s : State) (p : Byte → Bool) : Option (Request × State) :=
  if s.proc.executing.isSome || s.proc.held.isSome then none
  else match s.link.intake with
    | [] => none
    | r :: rest => if p r.code then some (r, { s with link := { s.link with intake := rest } }) else none

end State
end Sys2Proof.Machine
end

