-- ==== Sys2Proof/Machine/Scheduler.lean ====
section
/-! DEFINITION. The Array Scheduler's decisions and the claims on groups and banks. `schedule` makes, once, every decision
whose condition holds: closes, claims, opens, close-then-open, the next burst, and the lock wait timers. -/

namespace Sys2Proof.Machine

/-- The first access that passes a test gets a condition. -/
def markFirst (p : Access → Bool) (c : Condition) : List Access → List Access
  | [] => []
  | a :: t => if p a then { a with condition := c } :: t else a :: markFirst p c t

namespace State

/-- An OPEN bank goes to CLOSING (R11). -/
def closeBank (s : State) (b : Bank) : State :=
  match (s.bank b).state with
  | .opened r => s.setBank b { s.bank b with state := .closing r }
  | _ => s

/-- The closes of R11 that no client's access asks for. -/
def closeBanks (s : State) : State :=
  allBanks.foldl (fun s b => if s.mustClose b then s.closeBank b else s) s

/-- The repair claim, or the spare step's, is taken: the bank is REPAIRING and a repair's copy begins (R13, R117, R168). -/
def takeRepairClaim (s : State) (b : Bank) : State :=
  let s1 := s.setBank b { s.bank b with state := .repairing }
  match s1.maint.op with
  | .repair r => s1.setOp (.repair { r with phase := .copying })
  | _ => s1

/-- A group refresh begins: its four banks are REFRESHING (R12). -/
def beginRefresh (s : State) (g : Group) : State :=
  (banksOf g).foldl (fun s b => s.setBank b { s.bank b with state := .refreshing }) s

/-- The refresh claims that are ready are taken (R86, R88). -/
def takeRefreshClaims (s : State) : State :=
  allGroups.foldl (fun s g => if s.refreshReady g then s.beginRefresh g else s) s

/-- The waiting repair claim is taken if it is ready; where the bank's group is ready to refresh too, a free choice
says which of the two is first (R86, R117, log 12). -/
def takeRepairIfFirst (s : State) : State :=
  match s.claimBank with
  | none => s
  | some b =>
    if s.repairReady b then
      if s.refreshReady (groupOf b) then
        let s1 := { s with freeCtr := s.freeCtr + 1 }
        if Config.freeChoice s.freeCtr then s1.takeRepairClaim b else s1
      else s.takeRepairClaim b
    else s

/-- The claims on banks and groups. -/
def takeClaims (s : State) : State := s.takeRepairIfFirst.takeRefreshClaims

/-- The choice of R24 for one CLOSED bank: the first eligible access is GRANTED and the bank opens for it (R9). Only the
lock holder's accesses are eligible on a locked bank, so arrival order decides. -/
def grant (s : State) (b : Bank) : State :=
  match s.accesses.find? fun a => decide (a.bank = b) && s.eligibleToOpen a with
  | none => s
  | some a =>
    { s with accesses := markFirst (fun x => decide (x.bank = b) && s.eligibleToOpen x) .granted s.accesses }.setBank b
      { s.bank b with state := .opening { logical := a.row, physical := s.resolve b a.row } }

def grantAll (s : State) : State := allBanks.foldl grant s

/-- Close-then-open (R26). -/
def closeForMisses (s : State) : State :=
  allBanks.foldl (fun s b => if s.closesForMiss b then s.closeBank b else s) s

/-- The condition an access takes when its burst begins. -/
def flightCondition (a : Access) : Condition := .inFlight a.isGranted

/-- The next burst is chosen: class 1 before class 2, each in arrival order (R23, R25). -/
def startBurst (s : State) : State :=
  if s.burstInFlight then s
  else
    match s.accesses.find? fun a => s.burstCandidate a && s.ofLockHolder a with
    | some a =>
      { s with accesses := markFirst (fun a => s.burstCandidate a && s.ofLockHolder a) (flightCondition a) s.accesses }
    | none =>
      match s.accesses.find? s.burstCandidate with
      | some a => { s with accesses := markFirst s.burstCandidate (flightCondition a) s.accesses }
      | none => s

/-- One bank's lock wait timer starts, runs on, or stops (R33). -/
def lockTimerOf (s : State) (b : Bank) : Option Byte :=
  if (s.bank b).lockHolder.isSome && s.lockWaited b then
    match (s.bank b).lockTimer with
    | some v => some v
    | none => some s.settings.holdLimit
  else none

def lockTimers (s : State) : State :=
  allBanks.foldl (fun s b => s.setBank b { s.bank b with lockTimer := s.lockTimerOf b }) s

/-- Every decision of the scheduler and of the claims whose condition holds, once. A close-then-open comes before the
next burst (R27). -/
def schedule (s : State) : State :=
  s.closeBanks.takeClaims.grantAll.closeForMisses.startBurst.lockTimers

end State
end Sys2Proof.Machine
end

