-- ==== Sys2Proof/Machine/Media.lean ====
section
/-! DEFINITION. The Media Monitor: recording a report in the weak-row list, and its two alerts. -/

namespace Sys2Proof.Machine

/-- A word of a result whose read was not CLEAN (R30). -/
def WordResult.isCorrected (r : WordResult) : Bool := decide (r.outcome = some .corrected)
def WordResult.isUncorrectable (r : WordResult) : Bool := decide (r.outcome = some .uncorrectable)

/-- The first faulty address of a result: its lowest UNCORRECTABLE word (R28). -/
def firstFaulty (rs : List WordResult) : Option Nat := (rs.find? WordResult.isUncorrectable).map WordResult.address

/-- The first word of a WRITE's result that was not written (R29). -/
def firstUnwritten (rs : List WordResult) : Option Nat := (rs.find? fun r => !r.written).map WordResult.address

def correctedWords (rs : List WordResult) : Nat := (rs.filter WordResult.isCorrected).length
def uncorrectableWords (rs : List WordResult) : Nat := (rs.filter WordResult.isUncorrectable).length

/-- The result calls for a report (R30). -/
def reported (rs : List WordResult) : Bool := rs.any fun r => r.isCorrected || r.isUncorrectable

/-- The source of an access (R30, R99). -/
def Client.source : Client → Source
  | .port p _ => .port p
  | .link => .link
  | .maint _ => .scrub

/-- An entry is the one of this bank and row. -/
def WeakEntry.isOf (b : Bank) (row : Row) (e : WeakEntry) : Bool := decide (e.bank = b) && decide (e.row = row)

/-- The first entry that passes a test is taken out; the others close up in order. -/
def dropFirst {α : Type} (p : α → Bool) : List α → List α
  | [] => []
  | x :: t => if p x then t else x :: dropFirst p t

namespace State

/-- The row has a remap entry (R96). -/
def remapped (s : State) (b : Bank) (row : Row) : Bool := (s.remapOf b).any fun e => decide (e.row = row)

def setWeakList (s : State) (l : List WeakEntry) : State := { s with media := { s.media with list := l } }

/-- The entry of a listed row takes the event (R97). -/
def updateWeak (s : State) (b : Bank) (row : Row) (c u : Nat) : State :=
  s.setWeakList (s.media.list.map fun e =>
    if e.isOf b row then
      { e with correctedCount := min 255 (e.correctedCount + c),
               uncorrectable := e.uncorrectable || decide (1 ≤ u),
               remapped := s.remapped b row }
    else e)

/-- The entry a report on an unlisted row creates (R97). -/
def newWeak (s : State) (src : Source) (b : Bank) (row : Row) (c u : Nat) : WeakEntry :=
  { bank := b, row := row, correctedCount := c, uncorrectable := decide (1 ≤ u), remapped := s.remapped b row,
    firstSource := src }

/-- A report is recorded: in place, appended, appended after an eviction, or not at all (R97, R98). -/
def record (s : State) (src : Source) (b : Bank) (row : Row) (c u : Nat) : State :=
  if s.media.list.any (WeakEntry.isOf b row) then s.updateWeak b row c u
  else if s.media.list.length < Config.weakEntries then s.setWeakList (s.media.list ++ [s.newWeak src b row c u])
  else if s.media.list.any fun e => !e.uncorrectable then
    s.setWeakList (dropFirst (fun e => !e.uncorrectable) s.media.list ++ [s.newWeak src b row c u])
  else s

/-- A report cannot be recorded (R98). -/
def unrecorded (s : State) (b : Bank) (row : Row) : Bool :=
  !(s.media.list.any (WeakEntry.isOf b row)) && !decide (s.media.list.length < Config.weakEntries) &&
    s.media.list.all WeakEntry.uncorrectable

/-- The UNCORRECTABLE alert of a report whose first faulty address is `addr`: once per visit for the scrub (R100). -/
def alertUncorrectable (s : State) (src : Source) (b : Bank) (row : Row) (addr : Nat) : State :=
  if src = .scrub then
    if s.media.scrubMark = some (b, row) then s
    else ({ s with media := { s.media with scrubMark := some (b, row) } }).offerAlert (.uncorrectable src b row addr)
  else s.offerAlert (.uncorrectable src b row addr)

/-- The WEAK LIST FULL alert of a report that could not be recorded (R98). -/
def alertListFull (s : State) (b : Bank) (row : Row) : State :=
  if s.media.listFull then s
  else ({ s with media := { s.media with listFull := true } }).offerAlert (.weakListFull b row)

/-- The Media Monitor takes the report of an access (R95, R97 to R100). -/
def report (s : State) (a : Access) (rs : List WordResult) : State :=
  let lost := s.unrecorded a.bank a.row
  let s1 := s.record a.client.source a.bank a.row (correctedWords rs) (uncorrectableWords rs)
  let s2 := match firstFaulty rs with
    | some addr => s1.alertUncorrectable a.client.source a.bank a.row addr
    | none => s1
  if lost then s2.alertListFull a.bank a.row else s2

/-- The entry of a row, if there is one, leaves the list, and the list-full flag clears (R101, R102). -/
def removeWeak (s : State) (b : Bank) (row : Row) : State :=
  if s.media.list.any (WeakEntry.isOf b row) then
    { s with media := { s.media with list := dropFirst (WeakEntry.isOf b row) s.media.list, listFull := false } }
  else s

end State
end Sys2Proof.Machine
end

