-- ==== Sys2Proof/Machine/Scrub.lean ====
section
/-! DEFINITION. The patrol scrub: rows, bursts, rewrites and passes. -/

namespace Sys2Proof.Machine

/-- The bank and the logical row of a row position (R104). -/
def positionBank (p : Nat) : Bank := Fin.ofNat 16 p
def positionRow (p : Nat) : Row := Fin.ofNat 8192 (p / 16)

/-- The MAINT access for one burst of the row at a position (R105, R168). -/
def maintAccess (purpose : MaintPurpose) (position burst : Nat) (k : AccessKind) : Access :=
  { client := .maint purpose, bank := positionBank position, row := positionRow position, firstWord := burst * 8,
    wordCount := 8, kind := k, condition := .waiting }

/-- The rewrite a scrub read calls for: the corrected words alone (R106). -/
def rewriteKind (rs : List WordResult) : AccessKind :=
  .write (rs.map WordResult.data) (rs.map fun r => if r.isCorrected then 15 else 0)

namespace State

/-- The scrub begins the row at its position, and the Media Monitor is told (R100, R104). -/
def beginRow (s : State) : State :=
  let s1 := s.setScrub { s.maint.scrub with visit := .inRow, burst := 0, credit := false }
  { s1 with media := { s1.media with scrubMark := none } }

/-- The read of the scrub's next burst is posted (R105). -/
def postScrubRead (s : State) : State :=
  s.post (maintAccess .scrub s.maint.scrub.position s.maint.scrub.burst .read)

/-- A row owed is begun, and the next read of a row in hand is posted, when the scrub is allowed to advance and MAINT
has no access in the list (R18, R104, R108, R109). A row stopped by a SCRUB RATE of 0 waits for the first expiry of the restarted
timer (R108) even where a pause begins and ends before it: R109 resumes a paused row at once, the rules do not say which of the two
holds, and it is the model's choice (log 36). -/
def scrubAdvance (s : State) : State :=
  if s.scrubAllowed then
    let s1 := if s.maint.scrub.visit = .betweenRows ∧ s.maint.scrub.credit then s.beginRow else s
    if s1.maint.scrub.visit = .inRow ∧ !s1.maint.scrub.resumeAtExpiry ∧ !s1.maintPosted then s1.postScrubRead else s1
  else s

/-- The pass ends: its notice is offered with the new pass number (R107). -/
def endPass (s : State) : State :=
  let sc := s.maint.scrub
  (s.setScrub { sc with
      passNumber := sc.passNumber + 1, position := 0, burst := 0, visit := .atPassEnd, resumeAtExpiry := false,
      waitingPass := some { passNumber := sc.passNumber + 1, corrected := sc.corrected,
                            uncorrectable := sc.uncorrectable },
      corrected := 0, uncorrectable := 0 }).offer .scrub

/-- The burst in hand is done (R105). -/
def burstDone (s : State) : State :=
  let sc := s.maint.scrub
  if sc.burst + 1 < Config.rowBursts then s.setScrub { sc with burst := sc.burst + 1 }
  else if sc.position + 1 < Config.rowPositions then
    s.setScrub { sc with position := sc.position + 1, burst := 0, visit := .betweenRows, resumeAtExpiry := false }
  else s.endPass

/-- A scrub read's result (R105): it is counted, and either calls for a rewrite or ends the burst. -/
def scrubRead (s : State) (a : Access) (rs : List WordResult) : State :=
  let sc := s.maint.scrub
  let s1 := s.setScrub { sc with
    corrected := sc.corrected + correctedWords rs, uncorrectable := sc.uncorrectable + uncorrectableWords rs }
  if correctedWords rs = 0 then s1.burstDone.scrubAdvance
  else s1.post { a with kind := rewriteKind rs, condition := .waiting }

/-- The result of a SCRUB access (R105, R106), discarded after an engine reset (R110). -/
def scrubResult (s : State) (a : Access) (rs : List WordResult) : State :=
  if s.maint.scrub.discardResult then (s.setScrub { s.maint.scrub with discardResult := false }).scrubAdvance
  else match a.kind with
    | .read => s.scrubRead a rs
    | .write _ _ => s.burstDone.scrubAdvance

/-- The scrub timer starts again from the rate in force (R108). -/
def restartScrubTimer (s : State) : State :=
  s.setScrub { s.maint.scrub with
    timer := if s.settings.scrubRate = 0 then none else some s.settings.scrubRate, resumeAtExpiry := false }

/-- What an expiry of the scrub timer owes: the row is begun at once, or the row credit is set (R108, log 22). -/
def scrubExpiry (s : State) : State :=
  if s.scrubAllowed ∧ s.maint.scrub.visit = .betweenRows then s.beginRow
  else s.setScrub { s.maint.scrub with credit := true }

/-- A change of SCRUB RATE (R108). A row IN ROW that is paused (R109) while the rate goes to 0 and back resumes at the next
expiry, as after any rate of 0, and not at the pause's end: the rules leave it open, and it is the model's choice
(log 36). -/
def changeScrubRate (s : State) (v : Byte) : State :=
  let old := s.settings.scrubRate
  let s1 := { s with settings := { s.settings with scrubRate := v } }
  let sc := s.maint.scrub
  if v = 0 then
    s1.setScrub { sc with timer := none, credit := false,
                          resumeAtExpiry := sc.resumeAtExpiry || decide (sc.visit = .inRow) }
  else if old = 0 then s1.setScrub { sc with timer := some v }
  else s1

/-- The scrub at an engine reset (R110). -/
def resetScrub (s : State) : State :=
  let sc := s.maint.scrub
  s.setScrub { sc with
    position := 0, burst := 0, visit := if sc.waitingPass.isSome then .atPassEnd else .betweenRows,
    corrected := 0, uncorrectable := 0, credit := false, resumeAtExpiry := false, discardResult := s.maintPosted }

end State
end Sys2Proof.Machine
end

