-- ==== Sys2Proof/Machine/Engine.lean ====
section
/-! DEFINITION. The Port Engines: job start, units in each mode, staging, access results, stopping, draining, finish,
and `portSettle`, which does what stands to be done at a port. -/

namespace Sys2Proof.Machine

/-! ### Staging halves (R66, R67, R69, R70) -/

/-- The half FILLING for a burst takes a byte; none where no half is. -/
def fillHalf (burst : Nat) (b : Byte) : List Half → Option (List Half)
  | [] => none
  | .filling k start bytes :: t =>
    if k = burst then some (.filling k start (bytes ++ [b]) :: t)
    else (fillHalf burst b t).map (Half.filling k start bytes :: ·)
  | h :: t => (fillHalf burst b t).map (h :: ·)

/-- A byte at address `a` finds room: in the half FILLING for its burst, or in a FREE half (R67). -/
def placeByte (halves : List Half) (a : Nat) (b : Byte) : Option (List Half) :=
  match fillHalf (burstOfAddress a) b halves with
  | some hs => some hs
  | none => if halves.length < 2 then some (halves ++ [.filling (burstOfAddress a) a [b]]) else none

/-- The halves FILLING whose burst passes a test become AWAITING, each with its WRITE: the words are those of the burst
that hold bytes of the region from `a` up to `e` (R66), the masks enable the staged bytes alone (R67). -/
def postFilling (c : Client) (a e : Nat) (p : Nat → Bool) : List Half → List Half × List Access
  | [] => ([], [])
  | .filling k start bytes :: t =>
    let rest := postFilling c a e p t
    if p k then
      (.awaiting k :: rest.1, accessFor c (partLow a k) (partHigh e k) (writeKind start bytes k) :: rest.2)
    else (.filling k start bytes :: rest.1, rest.2)
  | h :: t =>
    let rest := postFilling c a e p t
    (h :: rest.1, rest.2)

/-- The byte of the region at an address, if a LOADED half holds it. -/
def loadedByte : List Half → Nat → Option Byte
  | [], _ => none
  | .loaded k start bytes :: t, a => if k = burstOfAddress a then byteAt start bytes a else loadedByte t a
  | _ :: t, a => loadedByte t a

def Half.isLoaded : Half → Bool
  | .loaded _ _ _ => true
  | _ => false

def Half.isFilling : Half → Bool
  | .filling _ _ _ => true
  | _ => false

def Half.isAwaiting (burst : Nat) : Half → Bool
  | .awaiting k => decide (k = burst)
  | _ => false

/-- A LOADED half whose part of the region up to `e` has been wholly given, the next byte being at `n` (R70). -/
def Half.isGiven (e n : Nat) : Half → Bool
  | .loaded k _ _ => decide (partHigh e k ≤ n)
  | _ => false

/-- The AWAITING half of a burst becomes LOADED. -/
def loadHalf (burst start : Nat) (bytes : List Byte) : List Half → List Half
  | [] => []
  | h :: t => if h.isAwaiting burst then .loaded burst start bytes :: t else h :: loadHalf burst start bytes t

/-! ### Jobs -/

/-- The first byte of a job's region. -/
def Job.regionStart (j : Job) : Nat := j.address.getD 0

/-- The first byte after a job's region. -/
def Job.regionEnd (j : Job) : Nat := j.address.getD 0 + j.length

/-- The mode's direction of XDIR; COUNT does not examine it (R64). -/
def Mode.directionOk (m : Mode) (xdir : Bool) : Bool :=
  match m with
  | .inn => xdir
  | .compare => xdir
  | .out => !xdir
  | .count => true

/-- The bytes of a unit when `remaining` bytes of the job's length remain (R65). -/
def unitBytes (w : Width) (remaining : Nat) : Nat :=
  match w with
  | .w8 => 1
  | .w16 => if 2 ≤ remaining then 2 else 1

/-- The unit's bytes on D, the one at the lower address first (R65). -/
def laneBytes (n : Nat) (d : BitVec 16) : List Byte :=
  if n = 2 then [d.extractLsb' 0 8, d.extractLsb' 8 8] else [d.extractLsb' 0 8]

/-- What the engine drives on D for these bytes (R62, R65). -/
def driveOf (w : Width) (bs : List Byte) : Drive :=
  match w with
  | .w8 => .low (bs.headD 0)
  | .w16 => .full (bs.getD 1 0 ++ bs.headD 0)

/-- The fault mark stops the job: the next byte `n` lies in the marked word, or nothing can be given because a two-byte
unit straddles into it and the free value says that this stops the job too (R71, log 15). -/
def markStops (mark : Option Nat) (n size : Nat) : Bool :=
  match mark with
  | none => false
  | some m =>
    (decide (m ≤ n) && decide (n < m + 4)) || (decide (size = 2) && decide (n + 1 = m) && Config.straddleStops)

/-- A unit holds a byte of the marked word (R71). -/
def unitMarked (mark : Option Nat) (n size : Nat) : Bool :=
  match mark with
  | none => false
  | some m => decide (n < m + 4) && decide (m < n + size)

/-- How many bytes agree before the first that differs (R72). -/
def equalPrefix : List Byte → List Byte → Nat
  | a :: s, b :: t => if a = b then equalPrefix s t + 1 else 0
  | _, _ => 0

namespace State

/-- The record of the engine's active job. -/
def activeJob (s : State) (p : Port) : Option Job :=
  match (s.engine p).activeJob with
  | none => none
  | some t => s.jobOf t

/-- The record of the job at the head of a port's queue. -/
def headJob (s : State) (p : Port) : Option Job :=
  match s.queueOf p with
  | [] => none
  | t :: _ => s.jobOf t

def setHalves (s : State) (p : Port) (hs : List Half) : State := s.setEngine p { s.engine p with halves := hs }

/-- Accesses join the list in order (log 14). -/
def postAll (s : State) (as : List Access) : State := { s with accesses := s.accesses ++ as }

/-- The READ for the part of the job's region in one burst (R69). -/
def readFor (j : Job) (burst : Nat) : Access :=
  accessFor (.port j.port j.tag) (partLow j.regionStart burst) (partHigh j.regionEnd burst) .read

/-- The next burst of the region not yet read goes into a FREE half (R69). -/
def prefetchOne (s : State) (p : Port) (j : Job) : State :=
  match (s.engine p).nextBurst with
  | none => s
  | some k =>
    if (s.engine p).halves.length < 2 ∧ 32 * k < j.regionEnd then
      (s.setEngine p { s.engine p with halves := (s.engine p).halves ++ [.awaiting k], nextBurst := some (k + 1) }).post
        (readFor j k)
    else s

/-- The READs an ACTIVE OUT or COMPARE job posts into its FREE halves (R69). -/
def prefetch (s : State) (p : Port) (j : Job) : State := (s.prefetchOne p j).prefetchOne p j

/-- A job becomes ACTIVE (R42, R69). -/
def startJob (s : State) (p : Port) (j : Job) : State :=
  let s1 := s.updateJob j.tag fun x => { x with state := .active, moved := 0 }
  let s2 := s1.setEngine p { s1.engine p with
    state := .running, activeJob := some j.tag, nextAddress := j.address, halves := [], faultMark := none,
    nextBurst := if j.mode = .out ∨ j.mode = .compare then j.address.map burstOfAddress else none }
  (s2.setOutp p { s2.outp p with sel := j.steer }).prefetch p j

/-- A job leaves for STOPPING with its outcome (R44, R46): its locks are released, the bytes it has staged are posted
or, for MEDIA, discarded, and data it has read is discarded (R75). -/
def stopJob (s : State) (p : Port) (j : Job) (o : JobOutcome) (fault : Option Nat) : State :=
  let s1 := (s.updateJob j.tag fun x => { x with state := .stopping, outcome := some o, faultAddress := fault }).releaseLocksOf
    j.tag
  let kept := (s1.engine p).halves.filter fun h => !h.isLoaded
  let r := postFilling (.port p j.tag) j.regionStart j.regionEnd (fun _ => decide (o ≠ .media)) kept
  (s1.setEngine p { s1.engine p with
    state := .stopping, halves := r.1.filter fun h => !h.isFilling }).postAll r.2

/-- A job goes to DRAINING with its outcome (R45, R74). -/
def drainJob (s : State) (p : Port) (j : Job) (o : JobOutcome) : State :=
  let s1 := s.updateJob j.tag fun x => { x with state := .draining, outcome := some o }
  let kept := (s1.engine p).halves.filter fun h => !h.isLoaded
  let r := postFilling (.port p j.tag) j.regionStart j.regionEnd (fun _ => true) kept
  (s1.setEngine p { s1.engine p with state := .draining, halves := r.1 }).postAll r.2

/-- XACK is asserted, and the unit's bytes are counted (R63, R43). -/
def acknowledge (s : State) (p : Port) (j : Job) (n : Nat) : State :=
  let s1 := s.setOutp p { s.outp p with xack := true }
  let s2 := s1.setEngine p { s1.engine p with nextAddress := (s1.engine p).nextAddress.map (· + n) }
  s2.updateJob j.tag fun x => { x with moved := j.moved + n }

/-- The end of the unit stream is judged at an acknowledgement of `n` bytes; none where the job stays ACTIVE (R74). -/
def judgeEnd (j : Job) (n : Nat) (xend : Bool) : Option JobOutcome :=
  if j.moved + n = j.length then some .done else if xend then some .short else none

/-- An acknowledged unit of an IN job goes into staging; a half whose last byte it brought is posted (R67). -/
def stageBytes (p : Port) (j : Job) : List Byte → Nat → List Half → List Access → Option (List Half × List Access)
  | [], _, hs, posted => some (hs, posted)
  | b :: t, a, hs, posted =>
    match placeByte hs a b with
    | none => none
    | some hs1 =>
      if a % 32 = 31 ∨ a + 1 = j.regionEnd then
        let r := postFilling (.port p j.tag) j.regionStart j.regionEnd (fun k => decide (k = burstOfAddress a)) hs1
        stageBytes p j t (a + 1) r.1 (posted ++ r.2)
      else stageBytes p j t (a + 1) hs1 posted

/-- A taken request in an IN job (R67); none where its XACK is withheld. -/
def unitIn (s : State) (p : Port) (j : Job) (req : UnitRequest) (n : Nat) : Option State :=
  let a := (s.engine p).nextAddress.getD 0
  match stageBytes p j (laneBytes n req.d) a (s.engine p).halves [] with
  | none => none
  | some (hs, posted) =>
    let s1 := ((s.acknowledge p j n).setHalves p hs).postAll posted
    match judgeEnd j n req.xend with
    | some o => some (s1.drainJob p j o)
    | none => some s1

/-- The bytes of an OUT or COMPARE unit, all of them LOADED and none in the marked word (R70, R71). -/
def unitLoaded (s : State) (p : Port) (n : Nat) : Option (List Byte) :=
  let e := s.engine p
  let a := e.nextAddress.getD 0
  if unitMarked e.faultMark a n then none
  else if n = 2 then
    match loadedByte e.halves a, loadedByte e.halves (a + 1) with
    | some x, some y => some [x, y]
    | _, _ => none
  else (loadedByte e.halves a).map fun x => [x]

/-- The fault mark stops the job, if the next byte or unit is at it (R71). -/
def checkMark (s : State) (p : Port) (j : Job) : State :=
  let e := s.engine p
  if markStops e.faultMark (e.nextAddress.getD 0) (unitBytes (s.portSettings p).width (j.length - j.moved)) then
    s.stopJob p j .media e.faultMark
  else s

/-- An OUT or COMPARE unit, acknowledged and equal: the end is judged, halves wholly given become FREE and are refilled
while the job is ACTIVE, and the fault mark is looked at last (R70 to R72, R74). Where the unit ends the job, or mismatches, and
empties a half, the end comes first and no READ refills it: R69 does not order the two, and it is the model's choice
(log 40). -/
def afterUnit (s : State) (p : Port) (j : Job) (n : Nat) (xend : Bool) : State :=
  match judgeEnd j n xend with
  | some o => s.drainJob p j o
  | none =>
    let e := s.engine p
    let s1 := s.setHalves p (e.halves.filter fun h => !h.isGiven j.regionEnd (e.nextAddress.getD 0))
    (s1.prefetch p j).checkMark p { j with moved := j.moved + n }

/-- A taken request in an OUT job (R70); none where its XACK is withheld. -/
def unitOut (s : State) (p : Port) (j : Job) (req : UnitRequest) (n : Nat) : Option State :=
  match s.unitLoaded p n with
  | none => none
  | some bs =>
    let s1 := s.acknowledge p j n
    let s2 := s1.setOutp p { s1.outp p with d := driveOf (s.portSettings p).width bs }
    some (s2.afterUnit p j n req.xend)

/-- A taken request in a COMPARE job (R72); none where its XACK is withheld. -/
def unitCompare (s : State) (p : Port) (j : Job) (req : UnitRequest) (n : Nat) : Option State :=
  match s.unitLoaded p n with
  | none => none
  | some bs =>
    let s1 := s.acknowledge p j n
    let same := equalPrefix (laneBytes n req.d) bs
    if same = n then some (s1.afterUnit p j n req.xend)
    else
      let s2 := s1.updateJob j.tag fun x => { x with moved := j.moved + same }
      some (s2.stopJob p j .mismatch (some (j.address.getD 0 + (j.moved + same))))

/-- A taken request in a COUNT job (R73). -/
def unitCount (s : State) (p : Port) (j : Job) (req : UnitRequest) (n : Nat) : Option State :=
  let s1 := s.acknowledge p j n
  match judgeEnd j n req.xend with
  | some o => some (s1.drainJob p j o)
  | none => some s1

/-- A RUNNING engine takes a present request (R63): the direction check first, then the job's mode; none where no request
is present or its XACK is withheld. -/
def takeUnit (s : State) (p : Port) : Option State :=
  match (s.pin p).xreq, s.activeJob p with
  | some req, some j =>
    if (s.outp p).xack then none
    else if !j.mode.directionOk req.xdir then some (s.stopJob p j .direction none)
    else
      let n := unitBytes (s.portSettings p).width (j.length - j.moved)
      match j.mode with
      | .inn => s.unitIn p j req n
      | .out => s.unitOut p j req n
      | .compare => s.unitCompare p j req n
      | .count => s.unitCount p j req n
  | _, _ => none

/-- PCLR is pulsed (R79). -/
def pulsePclr (s : State) (p : Port) : State :=
  s.setOutp p { s.outp p with pclrPulses := (s.outp p).pclrPulses + 1, pclrSel := (s.outp p).sel }

/-- A finished job is HELD, its engine with it and its locks released (R32, R49). -/
def holdJob (s : State) (p : Port) (j : Job) : State :=
  let s1 := (s.updateJob j.tag fun x => { x with state := .held }).releaseLocksOf j.tag
  s1.setEngine p { s1.engine p with state := .held, activeJob := some j.tag }

/-- The finish of a job (R49): HOLDN is sampled, and the JOB END notice offered; without HOLDN or without room the job
is HELD. -/
def finishJob (s : State) (p : Port) (j : Job) : State :=
  if (s.pin p).holdn then s.holdJob p j
  else if s.roomForOrdinary then s.offer (.job p)
  else (s.offer (.job p)).holdJob p j

/-- A job in DRAINING or STOPPING with nothing outstanding and nothing to post finishes, with PCLR before if it was
CANCELLED (R49, R75). -/
def finishIfDone (s : State) (p : Port) : Option State :=
  match s.activeJob p with
  | none => none
  | some j =>
    if s.outstanding p = 0 ∧ !(s.engine p).halves.any Half.isFilling then
      let s1 := if j.outcome = some .cancelled then s.pulsePclr p else s
      let s2 := s1.setEngine p { s1.engine p with faultMark := none, nextBurst := none }
      some (s2.finishJob p j)
    else none

/-- The head of the queue starts, or finishes where it was cancelled in the queue (R42, R53). -/
def startHead (s : State) (p : Port) : Option State :=
  match s.headJob p with
  | none => none
  | some j =>
    if j.state = .queued then
      match j.outcome with
      | none => some (s.startJob p j)
      | some _ => some (s.finishJob p j)
    else none

/-- An engine HELD for HOLDN offers its notice once HOLDN is deasserted (R50, R76). -/
def offerHeld (s : State) (p : Port) : Option State :=
  if (s.pin p).holdn || s.notices.waiting.any (fun x => decide (x = .job p)) then none
  else some (s.offer (.job p))

/-- One thing that stands to be done at a port; ports act in a READY part alone (R82). -/
def portStep (p : Port) (s : State) : Option State :=
  if s.part.state = .ready then
    match (s.engine p).state with
    | .idle => s.startHead p
    | .running => s.takeUnit p
    | .draining => s.finishIfDone p
    | .stopping => s.finishIfDone p
    | .held => s.offerHeld p
    | .control => none
    | .inert => none
  else none

/-- Everything that stands to be done at a port. A port's 8 jobs need at most 4 turns each. -/
def portSettle (s : State) (p : Port) : State := iterate (portStep p) 40 s

/-- Every port goes on, in the order of their numbers. R18 lets either of two accesses posted at one moment be first: where
several ports post in one step, P0 to P3 stand in this order in the list, which is the model's choice (log 14). So it is that
two engines HELD for HOLDN, which learn of its deassertion in one step, offer their notices in this order (R50, log 39). -/
def portsSettle (s : State) : State := allPorts.foldl portSettle s

/-- CORRECTED SEEN is set if the result holds a CORRECTED word (R48). -/
def markCorrected (s : State) (t : Tag) (rs : List WordResult) : State :=
  if rs.any WordResult.isCorrected then s.updateJob t fun x => { x with correctedSeen := true } else s

/-- The AWAITING half of a completed access becomes FREE. -/
def freeHalf (s : State) (p : Port) (burst : Nat) : State :=
  s.setHalves p (dropFirst (Half.isAwaiting burst) (s.engine p).halves)

/-- The fault mark after a result: the lower of the mark set and the result's first faulty address (R71). -/
def lowerMark (old new : Option Nat) : Option Nat :=
  match old, new with
  | none, m => m
  | some m, none => some m
  | some m, some n => some (min m n)

/-- A READ's result at its engine (R69, R71, R75). -/
def portRead (s : State) (p : Port) (j : Job) (a : Access) (rs : List WordResult) : State :=
  let s1 := s.markCorrected j.tag rs
  if j.state = .active then
    let e := s1.engine p
    let s2 := s1.setEngine p { e with
      halves := loadHalf a.burst (wordAddress a.bank a.row a.firstWord) (resultBytes rs) e.halves,
      faultMark := lowerMark e.faultMark (firstFaulty rs) }
    s2.checkMark p j
  else s1.freeHalf p a.burst

/-- A WRITE's result at its engine (R68). -/
def portWrite (s : State) (p : Port) (j : Job) (a : Access) (rs : List WordResult) : State :=
  let s1 := (s.markCorrected j.tag rs).freeHalf p a.burst
  match firstUnwritten rs with
  | none => s1
  | some w => if j.state = .active ∨ j.state = .draining then s1.stopJob p j .media (some w) else s1

/-- An engine's stopping in RESETTING ends: SEL 0, PCLR, INERT with XACK deasserted and D released (R62, R79, R82). -/
def stopPort (s : State) (p : Port) : State :=
  let s1 := s.restEngine p .inert
  (s1.setOutp p { s1.outp p with xack := false, d := .off, cout := false, cin := false }).pulsePclr p

/-- A port access's result (R68 to R75), discarded in RESETTING (R82). -/
def portResult (s : State) (p : Port) (t : Tag) (a : Access) (rs : List WordResult) : State :=
  if s.part.state = .resetting then
    let s1 := s.freeHalf p a.burst
    if s1.outstanding p = 0 then s1.stopPort p else s1
  else
    match s.jobOf t with
    | none => s.freeHalf p a.burst
    | some j =>
      match a.kind with
      | .read => (s.portRead p j a rs).portSettle p
      | .write _ _ => (s.portWrite p j a rs).portSettle p

/-- An engine enters INERT (R61, R62). -/
def inertEngine (s : State) (p : Port) : State :=
  let s1 := s.restEngine p .inert
  s1.setOutp p { s1.outp p with xack := false, d := .off, cout := false, cin := false }

/-- The engines of the enabled ports enter IDLE as the part becomes READY (R82). -/
def readyEngines (s : State) : State :=
  allPorts.foldl (fun s p => if (s.portSettings p).enable then s.restEngine p .idle else s) s

end State
end Sys2Proof.Machine
end

