-- ==== Sys2Proof/Machine/PartControl.lean ====
section
/-! DEFINITION. Part Control and the Maintenance Engine's larger operations: the start-up clear, sleep entry and its end,
wake, engine reset, the repair's install and report, and the fuse load. -/

namespace Sys2Proof.Machine
namespace State

/-! ### Start-up clear (R168) -/

/-- The CLEAR access of one burst of the logical step. -/
def clearAccess (position burst : Nat) : Access :=
  maintAccess .clear position burst (.write (List.replicate 8 0) (List.replicate 8 15))

/-- The logical step stands at a position and burst, whose access is posted. -/
def clearAt (s : State) (position burst : Nat) : State :=
  (s.setOp (.clear (.logical position burst))).post (clearAccess position burst)

/-- The end of the start-up clear: everything R168 lists happens together. -/
def endClear (s : State) : State :=
  let s1 := { s.setOp .none with part := { s.part with state := .ready } }
  (s1.readyEngines.offer .partControl).scrubAdvance

/-- A CLEAR access has completed. -/
def clearResult (s : State) : State :=
  match s.maint.op with
  | .clear (.logical position burst) =>
    if burst + 1 < Config.rowBursts then s.clearAt position (burst + 1)
    else if position + 1 < Config.rowPositions then s.clearAt (position + 1) 0
    else s.endClear
  | _ => s

/-- The spare step ends in a bank, and goes on to the next bank or to the logical step. -/
def endSpareStep (s : State) (b : Bank) : State :=
  let s1 := { s with mem := s.mem.zeroSpares b }
  let s2 := s1.setBank b { s1.bank b with state := .closed, hitRun := 0 }
  if h : b.val + 1 < 16 then s2.setOp (.clear (.spares ⟨b.val + 1, h⟩)) else s2.clearAt 0 0

/-! ### Sleep (R91, R169, R170) -/

/-- Sleep entry has reached its end: no access, every bank CLOSED, every debt 0. -/
def sleepReady (s : State) : Bool :=
  s.part.sleepEntry && s.accesses.isEmpty && allBanks.all (fun b => (s.bank b).state.isClosed) &&
    allGroups.all (fun g => decide ((s.group g).debt = 0))

/-- The end of sleep entry, if it is reached: self-refresh, and the SLEEP request is answered. -/
def endSleepEntry (s : State) : State :=
  if s.sleepReady then
    { s with
      refresh := { s.refresh with tick := none },
      part := { s.part with state := .sleeping, sleepEntry := false } }.endExecution .ok []
  else s

/-- A SLEEP is accepted (R170): every engine goes to INERT. -/
def beginSleep (s : State) : State :=
  allPorts.foldl inertEngine { s with part := { s.part with sleepEntry := true } }

/-! ### Wake (R91, R171) -/

/-- WAKING begins: the array leaves self-refresh and the tick timer starts. -/
def startWake (s : State) (target : WakeTarget) : State :=
  { s with
    part := { s.part with state := .waking, wakeTarget := some target },
    refresh := { s.refresh with tick := some s.effectiveRange } }

/-- The wake ends with target READY. -/
def endWake (s : State) : State :=
  let waited := s.part.wakeWaiting
  let s1 := { s with part := { s.part with state := .ready, wakeTarget := none, wakeWaiting := false } }
  let s2 := s1.readyEngines.scrubAdvance
  if waited then s2.endExecution .ok [] else s2

/-! ### Engine reset (R82, R110, R122, R151, R172, R173) -/

/-- An abandoned copy (R13, R122): the bank is CLOSED, and the spare keeps as many words as a free value says (log 16). -/
def abandonCopy (s : State) (r : RepairRecord) : State :=
  let n := Config.abandonedWords s.freeCtr % (Config.rowWords + 1)
  let m := (copyWords (rowCell r.bank r.row .native) (rowCell r.bank r.row (.spare r.target)) s.mem 0 n).1
  let s1 := { s with mem := m, freeCtr := s.freeCtr + 1 }
  (s1.setBank r.bank { s1.bank r.bank with state := .closed }).setOp .none

/-- The repair at an engine reset, by its phase (R122). -/
def resetRepair (s : State) : State :=
  match s.maint.op with
  | .repair r =>
    match r.phase with
    | .claiming => s.setOp .none
    | .copying => s.abandonCopy r
    | .programming => s
    | .reporting => s
  | _ => s

/-- One engine begins its stopping (R82): its staged bytes, fault mark and pending attention are discarded, and it stops
at once if nothing is outstanding. -/
def beginStop (s : State) (p : Port) : State :=
  let e := s.engine p
  let s1 := s.setEngine p { e with
    halves := e.halves.filter (fun h => !h.isLoaded && !h.isFilling), nextBurst := none, faultMark := none,
    attention := none }
  if s1.outstanding p = 0 then s1.stopPort p else s1

/-- Every engine has stopped. -/
def allStopped (s : State) : Bool := allPorts.all fun p => decide ((s.engine p).state = .inert)

/-- The completion of an engine reset, if every engine has stopped (R57, R151, R173). The notices that the removals let in, and
the OK, are made in one step, and the transmitter looks once after both: on a free line it begins the OK, as R136 prefers it. R151,
R173 and R136 do not order them; it is the model's choice (log 42). -/
def endReset (s : State) : State :=
  if s.part.state = .resetting ∧ s.allStopped then
    let s1 := { s with jobs := [], queues := Vector.replicate 4 [] }
    let s2 := s1.dropJobEnds.admitWaiting
    let s3 := { s2 with part := { s2.part with state := .ready } }
    s3.readyEngines.scrubAdvance.endExecution .ok []
  else s

/-- The entry into RESETTING (R172), and its completion where nothing is outstanding. -/
def enterReset (s : State) : State :=
  let s1 := { s with part := { s.part with state := .resetting, wakeTarget := none } }
  let s2 := s1.withdrawPorts.releaseAllLocks.resetRepair.resetScrub
  let s3 := { s2 with media := { s2.media with scrubMark := none } }
  (allPorts.foldl beginStop s3).endReset

/-! ### Repair (R116 to R121) -/

/-- The lowest FREE spare of a bank. -/
def freeSpare (s : State) (b : Bank) : Option Spare :=
  [0, 1, 2, 3, 4, 5, 6, 7].find? fun i => !s.spareInUse b i

/-- The lowest FREE fuse slot of a bank. -/
def freeSlot (s : State) (b : Bank) : Option Slot := [0, 1, 2, 3].find? fun i => decide (s.fuseOf b i = .free)

/-- The install (R119). -/
def install (s : State) (r : RepairRecord) : State :=
  let s1 := s.setRemap r.bank (s.remapOf r.bank ++ [{ row := r.row, spare := r.target, kind := .soft }])
  let s2 := s1.removeWeak r.bank r.row
  s2.setBank r.bank { s2.bank r.bank with state := .closed, hitRun := 0 }

/-- The repair reports its outcome, and the operation ends if the notice is admitted (R121). The scrub's access is posted
here, before `schedule` looks at a refresh claim that the bank's close has made ready, so it bars that claim: R12, R22 and
R86 let either be first, and it is the model's choice (log 34). -/
def reportRepair (s : State) (r : RepairRecord) (o : RepairOutcome) : State :=
  ((s.setOp (.repair { r with phase := .reporting, outcome := some o })).offer .repair).scrubAdvance

/-- Fuse programming begins (R120). -/
def beginProgramming (s : State) (r : RepairRecord) : State :=
  match s.freeSlot r.bank with
  | none => s.setOp (.repair { r with phase := .programming })
  | some i => (s.setFuse r.bank i .programming).setOp (.repair { r with phase := .programming, fuseSlot := some i })

/-- The copy has run: what it has written, and how many words it found UNCORRECTABLE (R118). -/
def finishCopy (s : State) (r : RepairRecord) : State × RepairRecord :=
  let c := copyWords (rowCell r.bank r.row .native) (rowCell r.bank r.row (.spare r.target)) s.mem 0 Config.rowWords
  ({ s with mem := c.1 }, { r with uncorrectable := c.2 })

/-- The end of a copy (R118 to R120). -/
def endCopy (s : State) (r : RepairRecord) : State :=
  let c := s.finishCopy r
  match r.kind with
  | .soft => (c.1.install c.2).reportRepair c.2 .ok
  | .hard => (c.1.install c.2).beginProgramming c.2

/-- The entry of a row becomes HARD. -/
def hardenEntry (s : State) (b : Bank) (row : Row) : State :=
  s.setRemap b ((s.remapOf b).map fun e => if e.row = row then { e with kind := .hard } else e)

/-- The verify result of fuse programming (R120). -/
def endProgramming (s : State) (r : RepairRecord) (i : Slot) (pass : Bool) : State :=
  if pass then
    ((s.setFuse r.bank i (.used r.row r.target)).hardenEntry r.bank r.row).reportRepair r .ok
  else (s.setFuse r.bank i .spoiled).reportRepair r .fuseFail

end State

/-! ### Fuse load (R113) -/

/-- A slot found PROGRAMMING is marked SPOILED. -/
def loadSlot : FuseSlot → FuseSlot
  | .programming => .spoiled
  | x => x

def loadSlots (v : Vector FuseSlot 4) : Vector FuseSlot 4 :=
  #v[loadSlot v[0], loadSlot v[1], loadSlot v[2], loadSlot v[3]]

/-- The HARD entries of a bank's USED slots. -/
def hardEntries (v : Vector FuseSlot 4) : List RemapEntry :=
  [v[0], v[1], v[2], v[3]].filterMap fun x =>
    match x with
    | .used row spare => some { row := row, spare := spare, kind := .hard }
    | _ => none

namespace State

/-- The fuse load over the whole part. -/
def loadFuses (s : State) : State :=
  allBanks.foldl
    (fun s b => { s with fuses := s.fuses.set b (loadSlots s.fuses[b]) }.setRemap b (hardEntries s.fuses[b])) s

/-- The range the first measurement sets (R92). -/
def firstRange (temp : Int) : TempRange := if Config.hotAbove < temp then .hot else .normal

/-- Every block at its reset value: what outlasts power-on is the array, the fuse store, the queue of commands, the levels
of the input pins and the model's counter (R5, R113, R167). -/
def resetBlocks (s : State) : State :=
  { State.reset with pending := s.pending, pins := s.pins, mem := s.mem, fuses := s.fuses, freeCtr := s.freeCtr }

end State
end Sys2Proof.Machine
end

