-- ==== Sys2Proof/Machine/LinkEvents.lean ====
section
/-! DEFINITION. What arrives on LRX and what ends on LTX: the receiver's events, sequence acceptance, LINK OPEN, NOTICE
ACK, frame errors, and the resend timers. -/

namespace Sys2Proof.Machine
namespace State

/-! ### Frame errors (R128, R129, R137) -/

/-- A frame error: logged, reported by a LINK ERROR, and HALT set where the setting asks for it. -/
def frameFailed (s : State) (r : ErrorRecord) : State :=
  let l := s.link
  let room := decide (l.log.length < Config.errorLogDepth)
  { s with link := { l with
      log := if room then l.log ++ [r] else l.log,
      overflow := l.overflow || !room,
      linkError := some r,
      halt := l.halt || s.settings.frameErrorHalt } }

/-! ### Requests at their arrival (R130 to R133) -/

/-- The response made at arrival, not cached. -/
def refuseAtArrival (s : State) (r : Request) (st : Status) : State :=
  s.queueAtArrival (responseOf r.seq r.code st [])

/-- LINK OPEN (R131). -/
def openLink (s : State) (seq : Byte) : State :=
  let s1 := { s with
    link := { s.link with
      intake := [], cache := [], queue := [], expected := seq + 1, isOpen := true,
      openResponse := some (responseOf seq codeLinkOpen .ok []) },
    proc := { executing := s.proc.executing.map (fun (x : Execution) => { x with discard := true }), held := none } }
  s1.openNotices

/-- A request whose SEQ is E (R132). -/
def newRequest (s : State) (r : Request) : State :=
  if s.link.halt && !haltExempt r.code then
    let resp := responseOf r.seq r.code .halted []
    let s1 := (s.cacheResponse resp).queueAtArrival resp
    { s1 with link := { s1.link with expected := s1.link.expected + 1 } }
  else if Config.intakeDepth ≤ s.link.intake.length then s.refuseAtArrival r .full
  else { s with link := { s.link with intake := s.link.intake ++ [r], expected := s.link.expected + 1 } }

/-- SEQ lies within E−8 to E−1 (R133). -/
def inWindow (s : State) (seq : Byte) : Bool := decide ((s.link.expected - seq - 1).toNat < 8)

/-- A request whose SEQ is not E (R133). -/
def otherRequest (s : State) (r : Request) : State :=
  if s.inWindow r.seq then
    match s.link.cache.find? fun x => decide (x.seq = r.seq) with
    | some resp => s.queueAtArrival resp
    | none => s
  else s.refuseAtArrival r .sequence

/-- A good REQUEST frame (R130). -/
def requestArrived (s : State) (r : Request) : State :=
  if r.code = codeLinkOpen then s.openLink r.seq
  else if !s.link.isOpen then s.refuseAtArrival r .closed
  else if r.seq = s.link.expected then s.newRequest r
  else s.otherRequest r

/-! ### NOTICE ACK (R149) -/

/-- What follows the removal of a notice: waiting producers are admitted, and the ports, the scrub and the scheduler
go on with what that allows; what the ports post stands before what MAINT posts (R18, log 14). -/
def afterRemoval (s : State) : State := s.admitWaiting.portsSettle.scrubAdvance.schedule

/-- A NOTICE ACK on an OPEN link. -/
def noticeAcked (s : State) (number : Byte) : State :=
  match s.ackNotice number with
  | none => s
  | some s1 => s1.afterRemoval

/-- A good frame is handed on by its KIND (R130); it revives a STALE link (R147), but for a NOTICE ACK on a CLOSED link,
which is disregarded (R149, log 28). -/
def handOn (s : State) (f : Frame) : State :=
  if f.kind = kindRequest then s.reviveStale.requestArrived { seq := f.seq, payload := f.payload }
  else if s.link.isOpen then s.reviveStale.noticeAcked f.seq
  else s

/-- The receiver takes one character, and what it ends is handed on (R127). Where a good frame both returns the notices of a STALE
link to UNSENT (R147) and has a response made at arrival or resent, the transmitter looks once after both, and on a free line
begins the response: the model's choice (log 42). -/
def receiveChar (s : State) (c : Byte) : State :=
  let r := s.link.rx.take c
  let s1 := { s with link := { s.link with rx := r.1 } }
  match r.2 with
  | none => s1
  | some (.good f) => (s1.handOn f).transmit
  | some (.error e) => (s1.frameFailed e).transmit

/-- Characters arrive one after another; while RESETN is asserted none is taken (R167). -/
def receive (s : State) (chars : List Byte) : State := if s.resetn then s else chars.foldl receiveChar s

end State

/-! ### Meanings -/

/-- REQUEST_ARRIVAL (R132): the characters that complete the frame are received. -/
def execRequestArrival (chars : List Byte) (s : State) : Host.Outcome State Fault Refusal := .next (s.receive chars)

/-- FRAME_ERROR (R128): the characters up to the one at which the frame fails are received. -/
def execFrameError (chars : List Byte) (s : State) : Host.Outcome State Fault Refusal := .next (s.receive chars)

/-- LINK_OPEN (R131): the characters that complete the frame are received. -/
def execLinkOpen (chars : List Byte) (s : State) : Host.Outcome State Fault Refusal := .next (s.receive chars)

/-- NOTICE_ACK (R149): the characters that complete the frame are received, with the sampled lines as they stand. -/
def execNoticeAck (chars : List Byte) (lines : PortLines) (s : State) : Host.Outcome State Fault Refusal :=
  .next ((s.sample lines).receive chars)

/-- CHARACTER_ARRIVAL (R127). -/
def execCharacterArrival (c : Byte) (s : State) : Host.Outcome State Fault Refusal := .next (s.receive [c])

/-- GAP_TIMER_EXPIRY (R127): IN FRAME, a frame error with cause GAP. -/
def execGapTimerExpiry (s : State) : Host.Outcome State Fault Refusal :=
  .next (
    if s.resetn then s
    else match s.link.rx with
      | .hunting => s
      | .inFrame bytes =>
        ({ s with link := { s.link with rx := .hunting } }.frameFailed (errorRecord .gap bytes)).transmit)

/-- The resend timer of a notice whose frame has ended starts, if it is still in the outbox and SENT and STALE is clear
(R145). -/
def State.startResendTimer (s : State) (number : Option Byte) : State :=
  match number with
  | none => s
  | some n =>
    if s.notices.stale then s
    else s.updateNotice n fun x => if x.sent then { x with timer := some s.settings.noticeTimeout } else x

/-- FRAME_TRANSMIT_END (R136): the line is free, and the next waiting frame begins. -/
def execFrameTransmitEnd (s : State) : Host.Outcome State Fault Refusal :=
  .next (
    if s.resetn then s
    else match s.link.tx with
      | none => s
      | some f =>
        (({ s with link := { s.link with tx := none } }.startResendTimer f.notice).transmit))

/-- A resend timer runs out (R146): the notice is due, or at its fourth transmission STALE is set. -/
def State.resendExpired (s : State) (n : Notice) : State :=
  let s1 := s.updateNotice n.number fun x => { x with timer := none }
  if Config.maxSends ≤ n.sendCount then s1.setStale
  else s1.updateNotice n.number fun x => { x with resendDue := true }

/-- NOTICE_RESEND_EXPIRY (R146). -/
def execNoticeResendExpiry (number : Byte) (s : State) : Host.Outcome State Fault Refusal :=
  .next (
    if s.resetn then s
    else match s.notices.outbox.find? fun n => decide (n.number = number) && n.sent && n.timer.isSome with
      | none => s
      | some n => (s.resendExpired n).transmit)

end Sys2Proof.Machine
end

