-- ==== Sys2Proof/Machine/Requests.lean ====
section
/-! DEFINITION. The Request Processor's requests, each taken from the head of the intake queue. -/

namespace Sys2Proof.Machine
namespace State

/-- The Request Processor, when free, takes the head of the intake queue if its code passes `p`, checks its length, and
executes it (R135); then the transmitter goes on (R136). -/
def runRequest (s : State) (p : Byte → Bool) (f : Request → State → State) : State :=
  if s.resetn then s
  else match s.takeRequest p with
    | none => s
    | some (r, s1) => (if lengthOk r then f r s1 else s1.answer r .length []).transmit

/-- A request executed in READY alone. -/
def whenReady (s : State) (r : Request) (k : State) : State :=
  match s.part.state.refusal with
  | some st => s.answer r st []
  | none => k

/-- A request executed in READY and SLEEPING. -/
def whenReadable (s : State) (r : Request) (k : State) : State :=
  match s.part.state.readRefusal with
  | some st => s.answer r st []
  | none => k

end State

def codeIs (c : Byte) (x : Byte) : Bool := decide (x = c)

/-- A code that is not assigned (R135, R139). -/
def codeUnknown (x : Byte) : Bool := !assignedCodes.any (· = x)

/-- UNKNOWN_REQUEST (R135). -/
def execUnknownRequest (s : State) : Host.Outcome State Fault Refusal :=
  .next (s.runRequest codeUnknown fun r s => s.answer r .unknown [])

/-! ### IDENTIFY, STATUS and the settings (R153 to R159) -/

namespace State

/-- The number of FREE fuse slots over the whole part (R113). -/
def freeFuseSlots (s : State) : Nat :=
  (allBanks.map fun b => (([0, 1, 2, 3] : List Slot).filter fun i => decide (s.fuseOf b i = .free)).length).sum

def identifyFields (s : State) : List Byte :=
  natBytes 2 0x4F52 ++ natBytes 2 0x0256 ++ [1, 16] ++ natBytes 2 8192 ++ [8, byteOf s.freeFuseSlots, s.baud.setWidth 8]

/-- A port's four bytes of STATUS. -/
def statusPort (s : State) (p : Port) : List Byte :=
  [byteOf (s.engine p).state.code, byteOf (s.unfinished p), (s.pin p).pstat.setWidth 8,
   flagByte (s.engine p).attention.isSome]

/-- The 40 bytes of STATUS (R140, R154). -/
def statusFields (s : State) : List Byte :=
  [byteOf s.part.state.code, flagByte s.link.isOpen, flagByte s.notices.stale, flagByte s.link.halt] ++
  allPorts.flatMap s.statusPort ++
  [byteOf s.jobs.length] ++
  allGroups.map (fun g => byteOf (s.group g).debt) ++
  allGroups.map (fun g => flagByte (s.group g).urgent) ++
  [byteOf s.range.code, byteOf s.effectiveRange.code,
   byteOf s.notices.outbox.length, flagByte s.notices.alertsLost,
   byteOf s.media.list.length, flagByte s.media.listFull] ++
  natBytes 4 s.maint.scrub.position ++
  [byteOf s.maint.op.code]

/-- PORTn ENABLE written (R59): to 0 the engine is INERT, to 1 in READY it is IDLE. -/
def setEnable (s : State) (p : Port) (v : Bool) : State :=
  let s1 := s.setPortSettings p { s.portSettings p with enable := v }
  if v then
    if s.part.state = .ready ∧ (s.engine p).state = .inert then s1.restEngine p .idle else s1
  else s1.inertEngine p

/-- A setting written, with what takes effect at once (R59, R93, R108, R159). -/
def applySetting (s : State) (x : Param) (v : Byte) : State :=
  match x with
  | .enable p => s.setEnable p (decide (v ≠ 0))
  | .width p => s.setPortSettings p { s.portSettings p with width := if v = 16 then .w16 else .w8 }
  | .attention p => s.setPortSettings p { s.portSettings p with attention := decide (v ≠ 0) }
  | .holdLimit => { s with settings := { s.settings with holdLimit := v } }
  | .refreshRange => { s with settings := { s.settings with refreshRange := if v = 0 then .auto else .hot } }
  | .scrubRate => s.changeScrubRate v
  | .noticeTimeout => { s with settings := { s.settings with noticeTimeout := v } }
  | .frameErrorHalt => { s with settings := { s.settings with frameErrorHalt := decide (v ≠ 0) } }
  | .wakeOnAttention => { s with settings := { s.settings with wakeOnAttention := decide (v ≠ 0) } }

/-- The condition for a setting's change (R156). -/
def mayChange (s : State) : Param → Bool
  | .enable p => decide (s.unfinished p = 0)
  | .width p => decide (s.unfinished p = 0)
  | .attention p => decide (s.unfinished p = 0)
  | _ => true

def doGetSetting (s : State) (r : Request) : State :=
  match Param.ofId (field r.payload 1 1) with
  | none => s.answer r .range []
  | some x => s.answer r .ok [byteOf (field r.payload 1 1), s.setting x]

/-- The three checks of SET SETTING in order (R158). -/
def doSetSetting (s : State) (r : Request) : State :=
  match Param.ofId (field r.payload 1 1) with
  | none => s.answer r .range []
  | some x =>
    if !x.valueOk (field r.payload 2 1) then s.answer r .range []
    else if !s.mayChange x then s.answer r .busy []
    else
      let s1 := s.applySetting x (byteOf (field r.payload 2 1))
      s1.answer r .ok [byteOf (field r.payload 1 1), s1.setting x]

end State

/-- IDENTIFY (R153). -/
def execIdentify (s : State) : Host.Outcome State Fault Refusal :=
  .next (s.runRequest (codeIs codeIdentify) fun r s => s.answer r .ok s.identifyFields)

/-- STATUS (R154): PSTAT is read as it stands now. -/
def execStatus (lines : PortLines) (s : State) : Host.Outcome State Fault Refusal :=
  .next ((s.sample lines).runRequest (codeIs codeStatus) fun r s => s.answer r .ok s.statusFields)

/-- GET_SETTING (R157). -/
def execGetSetting (s : State) : Host.Outcome State Fault Refusal :=
  .next (s.runRequest (codeIs codeGetSetting) fun r s => s.doGetSetting r)

/-- SET_SETTING (R158). -/
def execSetSetting (s : State) : Host.Outcome State Fault Refusal :=
  .next (s.runRequest (codeIs codeSetSetting) fun r s => s.doSetSetting r)

/-! ### Jobs (R40 to R57) -/

/-- What a SUBMIT names, when every field is in range (R40, check 2). -/
def submitJob (r : Request) : Option Job :=
  let pl := r.payload
  if h : field pl 3 1 < 4 then
    match Mode.ofCode (field pl 4 1) with
    | none => none
    | some m =>
      if field pl 13 1 ≤ 15 ∧ field pl 14 1 ≤ 1 ∧ 1 ≤ field pl 9 4 ∧ field pl 9 4 ≤ Config.maxJobLength ∧
          (m = .count ∨ field pl 5 4 + field pl 9 4 ≤ Config.arrayBytes) then
        some {
          tag := BitVec.ofNat 16 (field pl 1 2), port := ⟨field pl 3 1, h⟩, mode := m,
          address := if m = .count then none else some (field pl 5 4), length := field pl 9 4,
          steer := BitVec.ofNat 4 (field pl 13 1), hold := decide (field pl 14 1 = 1), state := .queued, moved := 0,
          outcome := none, faultAddress := none, holdBroken := false, correctedSeen := false, noticeNumber := none }
      else none
  else none

namespace State

/-- A job is accepted (R41): a slot, the tail of its port's queue, and the answer OK. -/
def acceptJob (s : State) (r : Request) (j : Job) : State :=
  ({ s with jobs := s.jobs ++ [j] }.setQueue j.port (s.queueOf j.port ++ [j.tag])).answer r .ok []

/-- SUBMIT's checks in order, and its acceptance (R40 to R42). -/
def doSubmit (s : State) (r : Request) : State :=
  s.whenReady r (
    match submitJob r with
    | none => s.answer r .range []
    | some j =>
      if !(s.portSettings j.port).enable then s.answer r .portOff []
      else if (s.jobOf j.tag).isSome then s.answer r .tagInUse []
      else if Config.portJobs ≤ s.unfinished j.port then s.answer r .full []
      else if Config.jobSlots ≤ s.jobs.length then s.answer r .noSlot []
      else ((s.acceptJob r j).portSettle j.port).schedule)

/-- CANCEL by the state of the job it names (R52 to R55, log 20). Where the job finishes at once, its JOB END notice and the
response are made in one step, and on a free line the response begins first, which is the model's choice (log 42). -/
def doCancel (s : State) (r : Request) : State :=
  s.whenReady r (
    match s.jobOf (BitVec.ofNat 16 (field r.payload 1 2)) with
    | none => s.answer r .noTag []
    | some j =>
      match j.state with
      | .queued =>
        (((s.updateJob j.tag fun x => { x with outcome := some .cancelled, moved := 0 }).answer r .ok
          [byteOf JobState.queued.code]).portSettle j.port).schedule
      | .active =>
        (((s.stopJob j.port j .cancelled none).answer r .ok [byteOf JobState.stopping.code]).portSettle j.port).schedule
      | st => s.answer r .tooLate [byteOf st.code])

/-- JOB QUERY (R56). -/
def doJobQuery (s : State) (r : Request) : State :=
  s.whenReady r (
    match s.jobOf (BitVec.ofNat 16 (field r.payload 1 2)) with
    | none => s.answer r .noTag []
    | some j => s.answer r .ok j.bytes)

end State

/-- SUBMIT (R40). -/
def execSubmit (lines : PortLines) (s : State) : Host.Outcome State Fault Refusal :=
  .next ((s.sample lines).runRequest (codeIs codeSubmit) fun r s => s.doSubmit r)

/-- CANCEL (R52). -/
def execCancel (lines : PortLines) (s : State) : Host.Outcome State Fault Refusal :=
  .next ((s.sample lines).runRequest (codeIs codeCancel) fun r s => s.doCancel r)

/-- JOB_QUERY (R56). -/
def execJobQuery (s : State) : Host.Outcome State Fault Refusal :=
  .next (s.runRequest (codeIs codeJobQuery) fun r s => s.doJobQuery r)

/-! ### HOST READ and HOST WRITE (R160, R161) -/

/-- Check 2 of both requests. -/
def hostRangeOk (r : Request) : Bool :=
  decide (1 ≤ field r.payload 5 2) && decide (field r.payload 5 2 ≤ Config.maxHostCount) &&
    decide (field r.payload 1 4 + field r.payload 5 2 ≤ Config.arrayBytes)

namespace State

/-- The LINK access for one burst of a HOST READ's region. -/
def hostReadAccess (a n burst : Nat) : Access := accessFor .link (partLow a burst) (partHigh (a + n) burst) .read

/-- The LINK access for one burst of a HOST WRITE's region. -/
def hostWriteAccess (a : Nat) (data : List Byte) (burst : Nat) : Access :=
  accessFor .link (partLow a burst) (partHigh (a + data.length) burst)
    (writeKind (partLow a burst) ((data.drop (partLow a burst - a)).take (partHigh (a + data.length) burst - partLow a burst))
      burst)

def doHostRead (s : State) (r : Request) : State :=
  s.whenReady r (
    if hostRangeOk r then
      let a := field r.payload 1 4
      let n := field r.payload 5 2
      ((s.beginExecution r (.hostRead a n (burstOfAddress a) [])).post (hostReadAccess a n (burstOfAddress a))).schedule
    else s.answer r .range [])

def doHostWrite (s : State) (r : Request) : State :=
  s.whenReady r (
    if hostRangeOk r then
      let a := field r.payload 1 4
      let data := r.payload.drop 7
      ((s.beginExecution r (.hostWrite a data (burstOfAddress a))).post (hostWriteAccess a data (burstOfAddress a))).schedule
    else s.answer r .range [])

end State

/-- HOST_READ (R160). -/
def execHostRead (s : State) : Host.Outcome State Fault Refusal :=
  .next (s.runRequest (codeIs codeHostRead) fun r s => s.doHostRead r)

/-- HOST_WRITE (R160). -/
def execHostWrite (s : State) : Host.Outcome State Fault Refusal :=
  .next (s.runRequest (codeIs codeHostWrite) fun r s => s.doHostWrite r)

/-! ### Control strobes (R80, R81) -/

/-- The port and the steer a strobe's request names, when in range. -/
def strobeTarget (r : Request) : Option (Port × BitVec 4) :=
  if h : field r.payload 1 1 < 4 then
    if field r.payload 2 1 ≤ 15 then some (⟨field r.payload 1 1, h⟩, BitVec.ofNat 4 (field r.payload 2 1)) else none
  else none

namespace State

/-- The checks of R80 in order; `k` is what a strobe that passes them does. -/
def strobeChecks (s : State) (r : Request) (k : Port → BitVec 4 → State) : State :=
  s.whenReady r (
    match strobeTarget r with
    | none => s.answer r .range []
    | some (p, steer) =>
      if !(s.portSettings p).enable then s.answer r .portOff []
      else if (s.engine p).state ≠ .idle then s.answer r .busy []
      else k p steer)

/-- A PORT OUT strobe begins (R80). -/
def beginPortOut (s : State) (r : Request) (p : Port) (steer : BitVec 4) : State :=
  let b := byteOf (field r.payload 3 1)
  let s1 := s.setEngine p { s.engine p with state := .control, control := some (.portOut steer b) }
  (s1.setOutp p { s1.outp p with
    sel := steer, cout := true, d := driveOf (s1.portSettings p).width [b] }).beginExecution r (.portOut p)

/-- A PORT IN strobe begins (R81): the strobe drives nothing on D. The bytes of an earlier OUT unit whose XACK is still
asserted stand on D until XACK falls, as R62 has it; R81 does not say so, and it is the model's choice (log 31). -/
def beginPortIn (s : State) (r : Request) (p : Port) (steer : BitVec 4) : State :=
  let s1 := s.setEngine p { s.engine p with state := .control, control := some (.portIn steer) }
  (s1.setOutp p { s1.outp p with sel := steer, cin := true }).beginExecution r (.portIn p)

end State

/-- PORT_OUT (R80). -/
def execPortOut (s : State) : Host.Outcome State Fault Refusal :=
  .next (s.runRequest (codeIs codePortOut) fun r s => s.strobeChecks r (s.beginPortOut r))

/-- PORT_IN (R81). -/
def execPortIn (s : State) : Host.Outcome State Fault Refusal :=
  .next (s.runRequest (codeIs codePortIn) fun r s => s.strobeChecks r (s.beginPortIn r))

/-! ### Weak rows, repair, logs (R102, R103, R115, R116, R123, R164, R165) -/

/-- The bank and row a request names, when in range. -/
def bankRow (r : Request) : Option (Bank × Row) :=
  if h : field r.payload 1 1 < 16 then
    if h' : field r.payload 2 2 < 8192 then some (⟨field r.payload 1 1, h⟩, ⟨field r.payload 2 2, h'⟩) else none
  else none

namespace State

/-- READ WEAK LIST (R103). -/
def doReadWeakList (s : State) (r : Request) : State :=
  s.whenReadable r (s.answer r .ok
    ([byteOf s.media.list.length, flagByte s.media.listFull] ++ s.media.list.flatMap WeakEntry.bytes))

/-- CLEAR WEAK ENTRY (R102). -/
def doClearWeakEntry (s : State) (r : Request) : State :=
  s.whenReady r (
    match bankRow r with
    | none => s.answer r .range []
    | some (b, row) =>
      if s.media.list.any (WeakEntry.isOf b row) then (s.removeWeak b row).answer r .ok []
      else s.answer r .notListed [])

/-- A repair is accepted (R116): its record is made and its claim waits. -/
def acceptRepair (s : State) (r : Request) (b : Bank) (row : Row) (k : RepairKind) (target : Spare) : State :=
  ((s.setOp (.repair {
      bank := b, row := row, kind := k, target := target, phase := .claiming, fuseSlot := none, uncorrectable := 0,
      outcome := none })).answer r .accepted []).schedule

/-- REPAIR ROW's checks in order, and its acceptance (R115, R116). -/
def doRepairRow (s : State) (r : Request) : State :=
  s.whenReady r (
    match bankRow r, RepairKind.ofCode (field r.payload 4 1) with
    | some (b, row), some k =>
      if s.remapped b row then s.answer r .already []
      else match s.freeSpare b with
        | none => s.answer r .noSpare []
        | some target =>
          if k = .hard ∧ (s.freeSlot b).isNone then s.answer r .noFuse []
          else if s.maint.op ≠ .none then s.answer r .busy []
          else s.acceptRepair r b row k target
    | _, _ => s.answer r .range [])

/-- A bank's entries in ascending order of spare (R123). -/
def remapBySpare (s : State) (b : Bank) : List RemapEntry :=
  ([0, 1, 2, 3, 4, 5, 6, 7] : List Spare).filterMap fun i => (s.remapOf b).find? fun e => decide (e.spare = i)

/-- The fields of READ REMAP (R123, R140). -/
def remapFields (s : State) (b : Bank) : List Byte :=
  [byteOf b.val, byteOf (s.remapOf b).length] ++ (s.remapBySpare b).flatMap RemapEntry.bytes ++
    ([0, 1, 2, 3, 4, 5, 6, 7] : List Spare).map (fun i => flagByte (s.spareInUse b i)) ++
    ([0, 1, 2, 3] : List Slot).flatMap (fun i => (s.fuseOf b i).bytes)

/-- READ REMAP (R123). -/
def doReadRemap (s : State) (r : Request) : State :=
  s.whenReadable r (
    if h : field r.payload 1 1 < 16 then s.answer r .ok (s.remapFields ⟨field r.payload 1 1, h⟩)
    else s.answer r .range [])

/-- The fields of READ ERROR LOG (R164). -/
def logFields (s : State) : List Byte :=
  [byteOf s.link.log.length, flagByte s.link.overflow] ++ s.link.log.flatMap ErrorRecord.bytes

/-- CLEAR ERROR (R165). -/
def doClearError (s : State) (r : Request) : State :=
  if field r.payload 1 1 ≤ 1 then
    let clr := decide (field r.payload 1 1 = 1)
    { s with
      link := { s.link with
        halt := false, log := if clr then [] else s.link.log, overflow := s.link.overflow && !clr },
      notices := { s.notices with alertsLost := false } }.answer r .ok []
  else s.answer r .range []

end State

/-- READ_WEAK_LIST (R103). -/
def execReadWeakList (s : State) : Host.Outcome State Fault Refusal :=
  .next (s.runRequest (codeIs codeReadWeakList) fun r s => s.doReadWeakList r)

/-- CLEAR_WEAK_ENTRY (R102). -/
def execClearWeakEntry (s : State) : Host.Outcome State Fault Refusal :=
  .next (s.runRequest (codeIs codeClearWeakEntry) fun r s => s.doClearWeakEntry r)

/-- REPAIR_ROW (R115). -/
def execRepairRow (s : State) : Host.Outcome State Fault Refusal :=
  .next (s.runRequest (codeIs codeRepairRow) fun r s => s.doRepairRow r)

/-- READ_REMAP (R123). -/
def execReadRemap (s : State) : Host.Outcome State Fault Refusal :=
  .next (s.runRequest (codeIs codeReadRemap) fun r s => s.doReadRemap r)

/-- READ_ERROR_LOG (R164). -/
def execReadErrorLog (s : State) : Host.Outcome State Fault Refusal :=
  .next (s.runRequest (codeIs codeReadErrorLog) fun r s => s.answer r .ok s.logFields)

/-- CLEAR_ERROR (R165). -/
def execClearError (s : State) : Host.Outcome State Fault Refusal :=
  .next (s.runRequest (codeIs codeClearError) fun r s => s.doClearError r)

/-! ### Part states (R169 to R173) -/

namespace State

/-- SLEEP's checks in order, and its acceptance (R169, R170). -/
def doSleep (s : State) (r : Request) : State :=
  s.whenReady r (
    if s.anyUnfinished then s.answer r .busy []
    else if s.maint.op ≠ .none then s.answer r .busy []
    else (s.beginExecution r .sleep).beginSleep.schedule.endSleepEntry)

/-- WAKE by part state (R171). -/
def doWake (s : State) (r : Request) : State :=
  match s.part.state with
  | .sleeping =>
    let s1 := (s.beginExecution r .wake).startWake .ready
    { s1 with part := { s1.part with wakeWaiting := true } }
  | .waking =>
    let s1 := s.beginExecution r .wake
    { s1 with part := { s1.part with wakeWaiting := true } }
  | .ready => s.answer r .ok []
  | .starting => s.answer r .starting []
  | .resetting => s.answer r .busy []

/-- ENGINE RESET by part state (R172). In RESETTING the processor is held, so none is taken there. -/
def doEngineReset (s : State) (r : Request) : State :=
  match s.part.state with
  | .starting => s.answer r .starting []
  | .ready => (s.beginExecution r .engineReset).enterReset.schedule
  | .sleeping => (s.beginExecution r .engineReset).startWake .resetting
  | .waking =>
    let s1 := s.beginExecution r .engineReset
    { s1 with part := { s1.part with wakeTarget := some .resetting } }
  | .resetting => s.beginExecution r .engineReset

end State

/-- ENGINE_RESET (R172). -/
def execEngineReset (s : State) : Host.Outcome State Fault Refusal :=
  .next (s.runRequest (codeIs codeEngineReset) fun r s => s.doEngineReset r)

/-- SLEEP (R169). -/
def execSleep (s : State) : Host.Outcome State Fault Refusal :=
  .next (s.runRequest (codeIs codeSleep) fun r s => s.doSleep r)

/-- WAKE (R171). -/
def execWake (s : State) : Host.Outcome State Fault Refusal :=
  .next (s.runRequest (codeIs codeWake) fun r s => s.doWake r)

end Sys2Proof.Machine
end

