-- ==== Sys2Proof/Machine/ArrayEvents.lean ====
section
/-! DEFINITION. What ends in the array and its timers: opens, closes, bursts, lock waits, ticks, group refreshes and
changes of temperature. -/

namespace Sys2Proof.Machine

/-- The burst's bank was opened for this access (R27). -/
def Access.openedForIt (a : Access) : Bool :=
  match a.condition with
  | .inFlight b => b
  | _ => false

namespace State

/-! ### A burst's completion (R7, R15, R16, R27 to R31) -/

/-- The access whose burst is in flight. -/
def flying (s : State) : Option Access := s.accesses.find? Access.isInFlight

/-- The first cell of the physical row an access's bank is open at (R4). -/
def openCell (s : State) (b : Bank) (row : Row) : Nat :=
  match (s.bank b).state with
  | .opened r => rowCell b r.logical r.physical
  | _ => rowCell b row .native

/-- The burst reads or writes its words (R7, R15, R16, R28, R29, R106). -/
def perform (s : State) (a : Access) : Memory × List WordResult :=
  match a.kind with
  | .read => (s.mem, readWords s.mem (s.openCell a.bank a.row) a.bank a.row a.firstWord a.wordCount)
  | .write data masks =>
    writeWords a.client.isScrub (s.openCell a.bank a.row) a.bank a.row data masks s.mem a.firstWord a.wordCount

/-- A miss to the bank of the burst waits, neither barred by a lock nor left out (R27). -/
def missWaits (s : State) (a : Access) : Bool :=
  s.accesses.any fun x => decide (x.bank = a.bank) && decide (x.row ≠ a.row) && x.isWaiting && s.lockAllows x &&
    !s.leftOut x

/-- The hit-run counter at the completion of a burst (R27). -/
def countHit (s : State) (a : Access) : State :=
  if !a.openedForIt ∧ s.missWaits a then
    s.setBank a.bank { s.bank a.bank with hitRun := min Config.hitRunLimit ((s.bank a.bank).hitRun + 1) }
  else s

/-- The bank of a completed port burst is locked to its job; a lock the job holds on another bank is released (R31). -/
def lockBank (s : State) (b : Bank) (t : Tag) : State :=
  if (s.bank b).lockHolder = some t then s
  else
    let s1 := s.releaseLocksOf t
    s1.setBank b { s1.bank b with lockHolder := some t, lockTimer := none }

/-- The bank's lock at the completion of a burst (R31): a port's job whose hold is in force locks it, and an URGENT group
breaks the lock at once. No completion places a lock in RESETTING (R172). A repair claim that waits on the bank does not
keep the lock away; the claim then runs the lock wait timer (R33), which is the model's choice (log 37). -/
def placeLock (s : State) (a : Access) : State :=
  match a.client.tag? with
  | none => s
  | some t =>
    match s.jobOf t with
    | none => s
    | some j =>
      if holdInForce j ∧ s.part.state ≠ .resetting then
        let s1 := s.lockBank a.bank t
        if s1.urgentBank a.bank then s1.breakLock a.bank else s1
      else s

/-! ### Results of LINK accesses (R161 to R163) -/

/-- The bytes of the region from `lo` up to `hi` that a READ of words from `start` on brought. -/
def regionBytes (start lo hi : Nat) (rs : List WordResult) : List Byte :=
  ((resultBytes rs).drop (lo - start)).take (hi - lo)

/-- A HOST READ's burst has completed (R162). -/
def hostReadDone (s : State) (addr n burst : Nat) (got : List Byte) (a : Access) (rs : List WordResult) : State :=
  match firstFaulty rs with
  | some w => s.endExecution .media (natBytes 4 w)
  | none =>
    let got1 := got ++ regionBytes (wordAddress a.bank a.row a.firstWord) (partLow addr burst) (partHigh (addr + n) burst) rs
    if 32 * (burst + 1) < addr + n then
      ({ s with proc := { s.proc with executing := s.proc.executing.map fun (x : Execution) =>
          { x with work := .hostRead addr n (burst + 1) got1 } } }).post (hostReadAccess addr n (burst + 1))
    else s.endExecution .ok got1

/-- A HOST WRITE's burst has completed (R163). -/
def hostWriteDone (s : State) (addr : Nat) (data : List Byte) (burst : Nat) (rs : List WordResult) : State :=
  match firstUnwritten rs with
  | some w => s.endExecution .media (natBytes 2 (w - addr) ++ natBytes 4 w)
  | none =>
    if 32 * (burst + 1) < addr + data.length then
      ({ s with proc := { s.proc with executing := s.proc.executing.map fun (x : Execution) =>
          { x with work := .hostWrite addr data (burst + 1) } } }).post (hostWriteAccess addr data (burst + 1))
    else s.endExecution .ok []

def linkResult (s : State) (a : Access) (rs : List WordResult) : State :=
  match s.work with
  | some (.hostRead addr n burst got) => s.hostReadDone addr n burst got a rs
  | some (.hostWrite addr data burst) => s.hostWriteDone addr data burst rs
  | _ => s

/-- The result returned to the access's client (R28, R29). -/
def clientResult (s : State) (a : Access) (rs : List WordResult) : State :=
  match a.client with
  | .port p t => s.portResult p t a rs
  | .link => s.linkResult a rs
  | .maint .clear => s.clearResult
  | .maint .scrub => s.scrubResult a rs

/-- The report and the client's handling (R30): for a scrub access the report is first (R105), otherwise their order is a
free choice (log 13). -/
def deliver (s : State) (a : Access) (rs : List WordResult) : State :=
  if reported rs then
    if a.client.isScrub then (s.report a rs).clientResult a rs
    else
      let s1 := { s with freeCtr := s.freeCtr + 1 }
      if Config.freeChoice s.freeCtr then (s1.report a rs).clientResult a rs
      else (s1.clientResult a rs).report a rs
  else s.clientResult a rs

/-- The completion of a burst: words, hit-run counter, the list, the lock, the result, and the next choices (R25). The
transmitter looks once, after the response and the alerts of the completion have both been made, and on a free line begins the
response, as R136 prefers it: R100 and R162 let either reach the host first, and it is the model's choice (log 42). -/
def burstDoneAt (s : State) (a : Access) : State :=
  let r := s.perform a
  let s1 := { s with mem := r.1 }.countHit a
  let s2 := { s1 with accesses := dropFirst Access.isInFlight s1.accesses }
  (((s2.placeLock a).deliver a r.2).endReset.schedule.endSleepEntry).transmit

/-! ### Ticks (R85, R88, R90) -/

/-- A group becomes URGENT: the locks on its banks are broken (R35, R88). -/
def becomeUrgent (s : State) (g : Group) : State :=
  (banksOf g).foldl breakLock (s.setGroup g { s.group g with debt := Config.urgentDebt, urgent := true })

/-- A tick at one group (R85). -/
def tickGroup (s : State) (g : Group) : State :=
  if (s.group g).debt + 1 < Config.urgentDebt then s.setGroup g { s.group g with debt := (s.group g).debt + 1 }
  else if (s.group g).debt < Config.urgentDebt then s.becomeUrgent g
  else s.offerAlert (.refreshOverrun g)

/-- A tick at every group, in the order of their numbers (log 29). -/
def tick (s : State) : State :=
  allGroups.foldl tickGroup { s with refresh := { s.refresh with tick := some s.effectiveRange } }

/-! ### Group refresh (R87) -/

/-- The group's banks are REFRESHING. -/
def refreshing (s : State) (g : Group) : Bool := (banksOf g).all fun b => (s.bank b).state.isRefreshing

/-- A group refresh completes. -/
def endRefresh (s : State) (g : Group) : State :=
  let s1 := (banksOf g).foldl (fun s b => s.setBank b { s.bank b with state := .closed }) s
  let x := s1.group g
  s1.setGroup g {
    debt := x.debt - 1, urgent := x.urgent && !decide (x.debt - 1 = Config.calmDebt),
    rotation := (x.rotation + 1) % Config.rotationPositions }

/-- The measured range at a new die temperature (R92). -/
def nextRange (r : TempRange) (temp : Int) : TempRange :=
  match r with
  | .normal => if Config.hotAbove < temp then .hot else .normal
  | .hot => if temp < Config.normalBelow then .normal else .hot

end State

/-! ### Meanings -/

/-- BANK_OPEN_COMPLETE (R9). -/
def execBankOpenComplete (b : Bank) (s : State) : Host.Outcome State Fault Refusal :=
  .next (
    match (s.bank b).state with
    | .opening r => (s.setBank b { s.bank b with state := .opened r }).schedule
    | _ => s)

/-- BANK_CLOSE_COMPLETE (R11): the claims are decided afresh. -/
def execBankCloseComplete (b : Bank) (s : State) : Host.Outcome State Fault Refusal :=
  .next (
    match (s.bank b).state with
    | .closing _ => (s.setBank b { s.bank b with state := .closed, hitRun := 0 }).schedule.endSleepEntry.transmit
    | _ => s)

/-- BURST_COMPLETE (R7): the bits that have decayed by now are wrong, then the burst ends. -/
def execBurstComplete (decay : List Decay) (lines : PortLines) (s : State) : Host.Outcome State Fault Refusal :=
  .next (
    let s0 := s.sample lines
    match s0.flying with
    | none => s0
    | some a => { s0 with mem := s0.mem.decay decay }.burstDoneAt a)

/-- LOCK_WAIT_EXPIRY (R34). -/
def execLockWaitExpiry (b : Bank) (s : State) : Host.Outcome State Fault Refusal :=
  .next (if (s.bank b).lockTimer.isSome then (s.breakLock b).schedule else s)

/-- REFRESH_TICK (R85). -/
def execRefreshTick (s : State) : Host.Outcome State Fault Refusal :=
  .next (
    match s.refresh.tick with
    | none => s
    | some _ => s.tick.schedule.transmit)

/-- GROUP_REFRESH_COMPLETE (R87). -/
def execGroupRefreshComplete (g : Group) (s : State) : Host.Outcome State Fault Refusal :=
  .next (if s.refreshing g then (s.endRefresh g).schedule.endSleepEntry.transmit else s)

/-- TEMPERATURE_CHANGE (R92): an alert at each change of the measured range. -/
def execTemperatureChange (temp : Int) (s : State) : Host.Outcome State Fault Refusal :=
  .next (
    let r := State.nextRange s.range temp
    if s.resetn || decide (r = s.range) then s
    else (({ s with range := r }.offerAlert (.temperature r)).transmit))

end Sys2Proof.Machine
end

