-- ==== Sys2Proof/Machine/PortEvents.lean ====
section
/-! DEFINITION. What comes from the devices at the stream ports: units, HOLDN, ATTN, and the end of a control strobe. -/

namespace Sys2Proof.Machine
namespace State

/-- A port goes on, and the scheduler and the transmitter with it. Where a strobe's end has made a response (R80) and the port
then makes a notice, the transmitter looks once after both, and on a free line begins the response: the model's choice
(log 42). -/
def portGoesOn (s : State) (p : Port) : State := (s.portSettle p).schedule.transmit

/-- A request for a unit is asserted on XREQ (R63). -/
def raiseRequest (s : State) (p : Port) (u : UnitRequest) : State := s.setPin p { s.pin p with xreq := some u }

/-- What a strobe of PORT OUT drives on D stands until its end, whatever becomes of an earlier XACK (R62, log 31). -/
def dAfterXack (s : State) (p : Port) : Drive :=
  match (s.engine p).control with
  | some (.portOut _ _) => (s.outp p).d
  | _ => .off

/-- The device removes XREQ: XACK falls, and D with it (R62, R63). A request taken but not yet acknowledged is forgotten
with it: R63 gives no such removal, and it is the model's choice (log 35). -/
def dropRequest (s : State) (p : Port) : State :=
  let s1 := s.setPin p { s.pin p with xreq := none }
  s1.setOutp p { s1.outp p with xack := false, d := s1.dAfterXack p }

/-- A rising edge of ATTN qualifies: ENABLE, ATTENTION and the part state (R77). -/
def attentionTaken (s : State) (p : Port) : Bool :=
  (s.portSettings p).enable && (s.portSettings p).attention &&
    (decide (s.part.state = .ready) || decide (s.part.state = .sleeping) || decide (s.part.state = .waking))

/-- A new attention event: PSTAT is captured and the notice offered; refused, it waits with the pending-attention flag
(R77, R78). In SLEEPING it may start the wake (R171). -/
def attentionEvent (s : State) (p : Port) : State :=
  let s1 := (s.setEngine p { s.engine p with
    attention := some { pstat := (s.pin p).pstat, merged := false } }).offer (.attention p)
  if s.part.state = .sleeping ∧ s.settings.wakeOnAttention then s1.startWake .ready else s1

/-- A qualifying edge: merged into a pending attention, or a new event (R78). -/
def attentionEdge (s : State) (p : Port) : State :=
  match (s.engine p).attention with
  | some x => s.setEngine p { s.engine p with attention := some { x with merged := true } }
  | none => s.attentionEvent p

/-- A strobe ends (R80, R81): COUT or CIN is deasserted, D released, SEL 0, the engine IDLE, and the request answered. -/
def endStrobe (s : State) (p : Port) (fields : List Byte) : State :=
  let s1 := s.restEngine p .idle
  (s1.setOutp p { s1.outp p with cout := false, cin := false }).endExecution .ok fields

/-- D is released at the end of a PORT OUT strobe (R80). -/
def releaseD (s : State) (p : Port) : State := s.setOutp p { s.outp p with d := .off }

end State

/-- UNIT_REQUEST (R63). -/
def execUnitRequest (p : Port) (xdir xend : Bool) (d : BitVec 16) (lines : PortLines) (s : State) :
    Host.Outcome State Fault Refusal :=
  .next (
    let s0 := s.sample lines
    if (s0.pin p).xreq.isSome then s0
    else
      let s1 := s0.raiseRequest p { xdir := xdir, xend := xend, d := d }
      if s.resetn then s1 else s1.portGoesOn p)

/-- XREQ_REMOVED (R63). -/
def execXreqRemoved (p : Port) (s : State) : Host.Outcome State Fault Refusal := .next (s.dropRequest p)

/-- HOLDN_DEASSERT (R76). -/
def execHoldnDeassert (p : Port) (lines : PortLines) (s : State) : Host.Outcome State Fault Refusal :=
  .next (
    let s0 := s.sample lines
    let s1 := s0.setPin p { s0.pin p with holdn := false }
    if s.resetn then s1 else s1.portGoesOn p)

/-- ATTN_EDGE (R77). -/
def execAttnEdge (p : Port) (lines : PortLines) (s : State) : Host.Outcome State Fault Refusal :=
  .next (
    let s0 := s.sample lines
    if s.resetn || !s0.attentionTaken p then s0 else (s0.attentionEdge p).transmit)

/-- STROBE_END (R80, R81): a PORT IN answers with D[7:0] as it stands now. -/
def execStrobeEnd (lines : PortLines) (s : State) : Host.Outcome State Fault Refusal :=
  .next (
    let s0 := s.sample lines
    match s0.work with
    | some (.portOut p) => ((s0.releaseD p).endStrobe p []).portGoesOn p
    | some (.portIn p) => (s0.endStrobe p [(s0.pin p).d.extractLsb' 0 8]).portGoesOn p
    | _ => s0)

end Sys2Proof.Machine
end

