-- ==== Sys2Proof/Machine/MaintEvents.lean ====
section
/-! DEFINITION. Power-on and RESETN, and what ends in the Maintenance Engine and in Part Control. -/

namespace Sys2Proof.Machine
namespace State

/-- Start-up begins (R83, R92, R113, R124, R167): the straps, the first measurement, the fuse load, and the first claim
of the start-up clear. -/
def powerUp (s : State) (baud : BitVec 3) (temp : Int) : State :=
  let range := firstRange temp
  { s.resetBlocks with baud := baud, range := range, refresh := Refresh.reset range }.loadFuses.schedule

/-- RESETN is asserted (R167, log 11): every operation has ended, nothing runs until its release. -/
def holdInReset (s : State) : State :=
  { s.resetBlocks with
    resetn := true, baud := s.baud, range := s.range, refresh := { Refresh.reset s.range with tick := none },
    maint := { op := .none, scrub := Scrub.reset } }

end State

/-- POWER_ON (R167). -/
def execPowerOn (baud : BitVec 3) (temp : Int) (s : State) : Host.Outcome State Fault Refusal :=
  .next (s.powerUp baud temp)

/-- RESETN_ASSERT (R167). -/
def execResetnAssert (s : State) : Host.Outcome State Fault Refusal := .next s.holdInReset

/-- SPARE_STEP_END (R168). -/
def execSpareStepEnd (s : State) : Host.Outcome State Fault Refusal :=
  .next (
    match s.maint.op with
    | .clear (.spares b) => if (s.bank b).state.isRepairing then (s.endSpareStep b).schedule else s
    | _ => s)

/-- SCRUB_TIMER_EXPIRY (R108). -/
def execScrubTimerExpiry (s : State) : Host.Outcome State Fault Refusal :=
  .next (
    match s.maint.scrub.timer with
    | none => s
    | some _ => s.restartScrubTimer.scrubExpiry.scrubAdvance.schedule)

/-- REPAIR_COPY_END (R119): the bits that have decayed by now are wrong, then the copy has run and ends. The access of a
scrub that a SOFT repair's end lets go on is posted before the group's refresh claim is looked at (R86, log 34). -/
def execRepairCopyEnd (decay : List Decay) (s : State) : Host.Outcome State Fault Refusal :=
  .next (
    match s.maint.op with
    | .repair r =>
      if r.phase = .copying then ({ s with mem := s.mem.decay decay }.endCopy r).schedule.transmit else s
    | _ => s)

/-- FUSE_VERIFY (R120). -/
def execFuseVerify (pass : Bool) (s : State) : Host.Outcome State Fault Refusal :=
  .next (
    match s.maint.op with
    | .repair r =>
      match r.phase, r.fuseSlot with
      | .programming, some i => (s.endProgramming r i pass).schedule.transmit
      | _, _ => s
    | _ => s)

/-- WAKE_COMPLETE (R171, R172). -/
def execWakeComplete (s : State) : Host.Outcome State Fault Refusal :=
  .next (
    match s.part.state, s.part.wakeTarget with
    | .waking, some .ready => s.endWake.schedule.transmit
    | .waking, some .resetting => s.enterReset.schedule.transmit
    | _, _ => s)

end Sys2Proof.Machine
end

