-- ==== Sys2Proof/Machine/Dispatch.lean ====
section
/-! DEFINITION. One arm for each command: the meaning it calls. -/

namespace Sys2Proof.Machine

def exec (i : Instr) (s : State) : Host.Outcome State Fault Refusal :=
  match i with
  | .powerOn baud temp => Sys2Proof.Machine.execPowerOn baud temp s
  | .resetnAssert => Sys2Proof.Machine.execResetnAssert s
  | .spareStepEnd => Sys2Proof.Machine.execSpareStepEnd s
  | .requestArrival chars => Sys2Proof.Machine.execRequestArrival chars s
  | .frameError chars => Sys2Proof.Machine.execFrameError chars s
  | .gapTimerExpiry => Sys2Proof.Machine.execGapTimerExpiry s
  | .linkOpen chars => Sys2Proof.Machine.execLinkOpen chars s
  | .noticeAck chars lines => Sys2Proof.Machine.execNoticeAck chars lines s
  | .unknownRequest => Sys2Proof.Machine.execUnknownRequest s
  | .identify => Sys2Proof.Machine.execIdentify s
  | .status lines => Sys2Proof.Machine.execStatus lines s
  | .getSetting => Sys2Proof.Machine.execGetSetting s
  | .setSetting => Sys2Proof.Machine.execSetSetting s
  | .submit lines => Sys2Proof.Machine.execSubmit lines s
  | .cancel lines => Sys2Proof.Machine.execCancel lines s
  | .jobQuery => Sys2Proof.Machine.execJobQuery s
  | .hostWrite => Sys2Proof.Machine.execHostWrite s
  | .hostRead => Sys2Proof.Machine.execHostRead s
  | .portOut => Sys2Proof.Machine.execPortOut s
  | .portIn => Sys2Proof.Machine.execPortIn s
  | .readWeakList => Sys2Proof.Machine.execReadWeakList s
  | .clearWeakEntry => Sys2Proof.Machine.execClearWeakEntry s
  | .repairRow => Sys2Proof.Machine.execRepairRow s
  | .readRemap => Sys2Proof.Machine.execReadRemap s
  | .readErrorLog => Sys2Proof.Machine.execReadErrorLog s
  | .clearError => Sys2Proof.Machine.execClearError s
  | .engineReset => Sys2Proof.Machine.execEngineReset s
  | .sleep => Sys2Proof.Machine.execSleep s
  | .wake => Sys2Proof.Machine.execWake s
  | .frameTransmitEnd => Sys2Proof.Machine.execFrameTransmitEnd s
  | .noticeResendExpiry number => Sys2Proof.Machine.execNoticeResendExpiry number s
  | .refreshTick => Sys2Proof.Machine.execRefreshTick s
  | .groupRefreshComplete g => Sys2Proof.Machine.execGroupRefreshComplete g s
  | .temperatureChange temp => Sys2Proof.Machine.execTemperatureChange temp s
  | .bankOpenComplete b => Sys2Proof.Machine.execBankOpenComplete b s
  | .bankCloseComplete b => Sys2Proof.Machine.execBankCloseComplete b s
  | .burstComplete decay lines => Sys2Proof.Machine.execBurstComplete decay lines s
  | .lockWaitExpiry b => Sys2Proof.Machine.execLockWaitExpiry b s
  | .unitRequest p xdir xend d lines => Sys2Proof.Machine.execUnitRequest p xdir xend d lines s
  | .xreqRemoved p => Sys2Proof.Machine.execXreqRemoved p s
  | .holdnDeassert p lines => Sys2Proof.Machine.execHoldnDeassert p lines s
  | .attnEdge p lines => Sys2Proof.Machine.execAttnEdge p lines s
  | .strobeEnd lines => Sys2Proof.Machine.execStrobeEnd lines s
  | .scrubTimerExpiry => Sys2Proof.Machine.execScrubTimerExpiry s
  | .repairCopyEnd decay => Sys2Proof.Machine.execRepairCopyEnd decay s
  | .fuseVerify pass => Sys2Proof.Machine.execFuseVerify pass s
  | .wakeComplete => Sys2Proof.Machine.execWakeComplete s
  | .characterArrival c => Sys2Proof.Machine.execCharacterArrival c s

end Sys2Proof.Machine
end

