-- ==== Sys2Proof/Safety.lean ====
section
/-! DEFINITION. What the statements speak in: the invariants of the part, and how a command takes, answers and leaves
things. -/

namespace Sys2Proof.Safety

open Sys2Proof.Machine

/-! ### Invariants -/

/-- NPEND is asserted exactly while the outbox holds a notice (R150). -/
def NpendFollowsOutbox (s : State) : Prop := s.notices.npend = !s.notices.outbox.isEmpty

/-- The array is in canonical form. -/
def ArrayCanonical (s : State) : Prop := s.mem.wf = true

/-- Debts stay within 0 to 8; an URGENT group owes more than 4, and a group that owes 8 is URGENT (R83, R85, R88). -/
def DebtsBounded (s : State) : Prop :=
  ∀ g : Group, (s.group g).debt ≤ 8 ∧ ((s.group g).urgent = true → 4 < (s.group g).debt) ∧
    ((s.group g).debt = 8 → (s.group g).urgent = true)

/-- At most one access is IN FLIGHT (R20). -/
def OneBurstInFlight (s : State) : Prop := (s.accesses.filter Access.isInFlight).length ≤ 1

/-- The link's queues keep their capacities, and no two cached responses share a SEQ (R129, R132, R134, R136). -/
def LinkBounded (s : State) : Prop :=
  (s.link.cache.map Response.seq).Nodup ∧
  s.link.intake.length ≤ 8 ∧ s.link.cache.length ≤ 8 ∧ s.link.queue.length ≤ 8 ∧ s.link.log.length ≤ 4

/-- At most 16 notices with distinct numbers, at most 12 of them ORDINARY and at most 4 SENT (R141). -/
def OutboxBounded (s : State) : Prop :=
  s.notices.outbox.length ≤ 16 ∧ s.ordinaryCount ≤ 12 ∧ (s.notices.outbox.filter Notice.sent).length ≤ 4 ∧
    (s.notices.outbox.map Notice.number).Nodup

/-- An unlocked bank's lock wait timer stays STOPPED (R33). -/
def UnlockedTimersStopped (s : State) : Prop :=
  ∀ b : Bank, (s.bank b).lockHolder = none → (s.bank b).lockTimer = none

/-- At most 32 jobs with distinct tags, and at most 8 unfinished jobs of a port (R38, R39). -/
def JobTableBounded (s : State) : Prop :=
  s.jobs.length ≤ 32 ∧ (s.jobs.map Job.tag).Nodup ∧ ∀ p : Port, (s.queueOf p).length ≤ 8

/-- SEL is 0 in IDLE and INERT, and XACK is asserted only while XREQ is (R62, R63). -/
def OutputsFollowEngines (s : State) : Prop :=
  ∀ p : Port, (((s.engine p).state = .idle ∨ (s.engine p).state = .inert) → (s.outp p).sel = 0) ∧
    ((s.outp p).xack = true → (s.pin p).xreq.isSome = true)

/-- At most 32 weak-row entries, no two of one row; a set list-full flag finds 32, all UNCORRECTABLE (R96, R98). -/
def WeakListBounded (s : State) : Prop :=
  s.media.list.length ≤ 32 ∧ (s.media.list.map fun e => (e.bank, e.row)).Nodup ∧
    (s.media.listFull = true → s.media.list.length = 32 ∧ ∀ e ∈ s.media.list, e.uncorrectable = true)

/-! ### RESETN -/

/-- RESETN is asserted, and nothing of the part is under way: every block at its reset value, every output at its power-on
value, no maintenance operation, the tick timer STOPPED (R167, log 11). The straps as last sampled, the measured range, the input
pins, the fuse store, the array and the model's queue and counter are as they may be. -/
def HeldInReset (s : State) : Prop :=
  s = { State.reset with
    pending := s.pending, resetn := true, baud := s.baud, range := s.range,
    refresh := { Refresh.reset s.range with tick := none }, maint := { op := .none, scrub := Scrub.reset },
    pins := s.pins, fuses := s.fuses, mem := s.mem, freeCtr := s.freeCtr }

/-! ### Requests -/

/-- The Request Processor is free and `r` stands at the head of the intake queue, `rest` behind it (R135). -/
def AtHead (s : State) (r : Request) (rest : List Request) : Prop :=
  s.resetn = false ∧ s.proc.executing = none ∧ s.proc.held = none ∧ s.link.intake = r :: rest

/-- A response has been made: it is in the reply cache, and in the response queue, on the line, or held (R134, R135). -/
def Made (t : State) (resp : Response) : Prop :=
  resp ∈ t.link.cache ∧
    (resp ∈ t.link.queue ∨ t.link.tx = some { frame := resp.frame, notice := none } ∨ t.proc.held = some resp)

/-- A response is in the reply cache, and in the response queue or held; the processor is free. -/
def Answered (t : State) (resp : Response) : Prop :=
  resp ∈ t.link.cache ∧ (resp ∈ t.link.queue ∨ t.proc.held = some resp) ∧ t.proc.executing = none

/-- What no request changes about the link. -/
def LinkKept (s t : State) : Prop :=
  t.link.isOpen = s.link.isOpen ∧ t.link.expected = s.link.expected ∧ t.link.rx = s.link.rx ∧
    t.link.log = s.link.log ∧ t.link.overflow = s.link.overflow ∧ t.link.halt = s.link.halt

/-- The command answers with `resp` and changes nothing else: the request has left the intake queue, and apart from
the link and the processor the state is `base`. -/
def AnswersOnly (c : Instr) (s base : State) (rest : List Request) (resp : Response) : Prop :=
  ∃ t, exec c s = .next t ∧ Made t resp ∧ t.link.intake = rest ∧ t.proc.executing = none ∧
    { t with link := base.link, proc := base.proc } = base ∧ LinkKept base t

/-- The command has taken the request, begun its work and answered nothing: the processor is held. -/
def Holds (t : State) (r : Request) (rest : List Request) (w : Work) : Prop :=
  t.proc.executing = some { seq := r.seq, code := r.code, work := w, discard := false } ∧ t.link.intake = rest

/-- The characters of a frame with any CHECK. -/
def charsWithCheck (f : Frame) (check : BitVec 16) : List Byte := startByte :: f.body ++ natBytes 2 check.toNat

/-- The part after a frame error (R128, R137). -/
def afterFrameError (s : State) (r : ErrorRecord) : State :=
  { s with link := { s.link with
    rx := .hunting, linkError := some r,
    log := if s.link.log.length < 4 then s.link.log ++ [r] else s.link.log,
    overflow := s.link.overflow || decide (4 ≤ s.link.log.length),
    halt := s.link.halt || s.settings.frameErrorHalt } }

/-- A response made at arrival, or a cached one resent: it joins the response queue if that has room (R136). -/
def withQueued (l : Link) (resp : Response) : Link :=
  if l.queue.length < 8 then { l with queue := l.queue ++ [resp] } else l

/-- The reply cache after one more response: no earlier one under its SEQ stays, and a ninth removes the oldest (R134). -/
def withCached (cache : List Response) (resp : Response) : List Response :=
  if (cache.filter fun x => decide (x.seq ≠ resp.seq)).length < 8 then
    (cache.filter fun x => decide (x.seq ≠ resp.seq)) ++ [resp]
  else ((cache.filter fun x => decide (x.seq ≠ resp.seq)) ++ [resp]).tail

/-- The frame of a request. -/
def requestFrame (r : Request) : Frame := { kind := 0x01, seq := r.seq, payload := r.payload }

/-- Only the link and the notices may differ. -/
def ElsewhereKept (s t : State) : Prop := { t with link := s.link, notices := s.notices } = s

/-- A notice returned to UNSENT (R147, R148). -/
def unsent (n : Notice) : Notice := { n with sent := false, sendCount := 0, resendDue := false, timer := none }

/-- The outbox as a good frame leaves it: revived if STALE was set (R147). -/
def revivedOutbox (s : State) : List Notice :=
  if s.notices.stale then s.notices.outbox.map unsent else s.notices.outbox

/-- The Notice Unit as a good frame leaves it: every notice UNSENT and STALE clear, if STALE was set (R147). -/
def revivedNotices (s : State) : NoticeUnit :=
  if s.notices.stale then
    { s.notices with outbox := s.notices.outbox.map unsent, npend := !s.notices.outbox.isEmpty, stale := false }
  else s.notices

/-- A notice just admitted (R143, R144). -/
def freshNotice (number : Byte) (body : NoticeBody) : Notice :=
  { number := number, body := body, sent := false, sendCount := 0, resendDue := false, timer := none }

/-- The Notice Unit with one more notice: it stands last, the next number follows its own, NPEND is asserted (R142, R150). -/
def admitted (u : NoticeUnit) (n : Notice) : NoticeUnit :=
  { u with outbox := u.outbox ++ [n], nextNumber := n.number + 1, npend := true }

/-- An engine that enters IDLE or INERT has no job, no strobe and nothing staged (R61). -/
def atRest (e : Engine) (st : EngineState) : Engine :=
  { e with
    state := st, activeJob := none, nextAddress := none, halves := [], nextBurst := none, faultMark := none, control := none }

/-- The banks that the job has locked are unlocked, their lock wait timers STOPPED; the other banks stand (R32). -/
def LocksReleased (s u : State) (t : Tag) : Prop :=
  ∀ b : Bank, u.bank b =
    if (s.bank b).lockHolder = some t then { s.bank b with lockHolder := none, lockTimer := none } else s.bank b

/-- What its producer does when a notice has been admitted under a number, and what else stands (R49, R78, R107, R121). -/
def Told (s u : State) (number : Byte) : Producer → Prop
  | .job p => ∃ (t : Tag) (rest : List Tag), s.queueOf p = t :: rest ∧ u.queueOf p = rest ∧
      u.jobs = s.jobs.map (fun j => if j.tag = t then { j with state := .reported, noticeNumber := some number } else j) ∧
      u.engine p = atRest (s.engine p) .idle ∧ u.outp p = { s.outp p with sel := 0 } ∧
      (∀ q : Port, q ≠ p → u.queueOf q = s.queueOf q ∧ u.engine q = s.engine q ∧ u.outp q = s.outp q) ∧
      LocksReleased s u t ∧
      { u with notices := s.notices, queues := s.queues, jobs := s.jobs, banks := s.banks, engines := s.engines,
               outs := s.outs } = s
  | .attention p => u.engine p = { s.engine p with attention := none } ∧ (∀ q : Port, q ≠ p → u.engine q = s.engine q) ∧
      { u with notices := s.notices, engines := s.engines } = s
  | .scrub => u.maint = { s.maint with scrub := { s.maint.scrub with visit := .betweenRows, waitingPass := none } } ∧
      { u with notices := s.notices, maint := s.maint } = s
  | .repair => u.maint = { s.maint with op := .none } ∧ { u with notices := s.notices, maint := s.maint } = s
  | .partControl => { u with notices := s.notices } = s

/-- The port's finished job is HELD, and the engine with it, its locks released; but for the Notice Unit nothing else changes
(R32, R49). -/
def IsHeld (s t : State) (p : Port) (j : Job) : Prop :=
  t.jobs = s.jobs.map (fun x => if x.tag = j.tag then { x with state := .held } else x) ∧
    t.engine p = { s.engine p with state := .held, activeJob := some j.tag } ∧
    (∀ q : Port, q ≠ p → t.engine q = s.engine q) ∧ LocksReleased s t j.tag ∧
    { t with jobs := s.jobs, engines := s.engines, banks := s.banks, notices := s.notices } = s

/-- The finish of a port's head job (R49): with HOLDN deasserted and room, REPORTED under the number its notice takes, the queue's
head gone and the engine IDLE with SEL 0; otherwise HELD, on the waiting-producer list where the offer was refused. -/
def Finishes (s t : State) (p : Port) (j : Job) (rest : List Tag) : Prop :=
  (∀ b : Bank, (t.bank b).lockHolder ≠ some j.tag) ∧ t.mem = s.mem ∧
    ((s.pin p).holdn = false → s.notices.outbox.length < 16 → s.ordinaryCount < 12 →
      t.jobOf j.tag = some { j with state := .reported, noticeNumber := some s.admissionNumber } ∧
      t.queueOf p = rest ∧ Told s t s.admissionNumber (.job p) ∧
      t.notices = admitted s.notices (freshNotice s.admissionNumber
        (.jobEnd j.tag j.port j.mode j.outcome j.moved j.faultAddress j.holdBroken j.correctedSeen))) ∧
    ((s.pin p).holdn = true → t.jobOf j.tag = some { j with state := .held } ∧ IsHeld s t p j ∧ t.notices = s.notices) ∧
    ((s.pin p).holdn = false → (16 ≤ s.notices.outbox.length ∨ 12 ≤ s.ordinaryCount) →
      t.jobOf j.tag = some { j with state := .held } ∧ IsHeld s t p j ∧
      t.notices = { s.notices with waiting := s.notices.waiting ++ [.job p] })

/-- Only the link may differ, and the notices as a good frame leaves them. -/
def Revived (s t : State) : Prop := ElsewhereKept s t ∧ t.notices = revivedNotices s

/-- A UNIT_REQUEST comes to `u` by the unit it asks for, and the port then goes on from `u`. -/
def UnitRuns (s : State) (p : Port) (xdir xend : Bool) (d : BitVec 16) (lines : PortLines) (u : State) : Prop :=
  exec (.unitRequest p xdir xend d lines) s = .next ((iterate (State.portStep p) 39 u).schedule.transmit)

/-- `resp` answers a request executed at once: it is the newest in the reply cache, in the response queue or held, and of the
link and the processor nothing else differs from `s` but the request taken (R134, R135). -/
def AnsweredFrom (s u : State) (rest : List Request) (resp : Response) : Prop :=
  Answered u resp ∧ LinkKept s u ∧ u.link.intake = rest ∧ u.link.cache = withCached s.link.cache resp ∧
    { u.link with intake := s.link.intake, cache := s.link.cache, queue := s.link.queue } = s.link

/-- A notice is an ALERT (R141). -/
def isAlert : NoticeBody → Bool
  | .uncorrectable _ _ _ _ => true
  | .refreshOverrun _ => true
  | .temperature _ => true
  | .weakListFull _ _ => true
  | _ => false

/-- A notice is a JOB END. -/
def isJobEnd : NoticeBody → Bool
  | .jobEnd _ _ _ _ _ _ _ _ => true
  | _ => false

/-- An access but for its condition, which the scheduler alone changes (R19, R20). -/
def posted (a : Access) : Access := { a with condition := .waiting }

/-- The access of a client for the words that hold the bytes from `lo` up to, not including, `hi`, of one burst (R2, R19). -/
def wordsAccess (c : Client) (lo hi : Nat) (k : AccessKind) : Access :=
  { client := c, bank := Fin.ofNat 16 (lo / 2048), row := Fin.ofNat 8192 (lo / 32768), firstWord := lo / 4 % 512,
    wordCount := (hi - 1) / 4 - lo / 4 + 1, kind := k, condition := .waiting }

/-- The WRITEs of what a job has staged: for each half FILLING the words of its burst that hold bytes of the region, with
masks for the staged bytes alone (R66, R67). -/
def stagedWrites (j : Job) (p : Port) (halves : List Half) : List Access :=
  halves.filterMap fun h =>
    match h with
    | .filling k start bytes =>
      some (wordsAccess (.port p j.tag) (max (j.address.getD 0) (32 * k)) (min (j.address.getD 0 + j.length) (32 * k + 32))
        (writeKind start bytes k))
    | _ => none

/-- The halves once those FILLING are posted and those LOADED discarded. -/
def awaitingHalves (halves : List Half) : List Half :=
  halves.filterMap fun h =>
    match h with
    | .filling k _ _ => some (.awaiting k)
    | .awaiting k => some (.awaiting k)
    | .loaded _ _ _ => none

/-- The halves once those FILLING and those LOADED are discarded. -/
def onlyAwaiting (halves : List Half) : List Half := halves.filter fun h => !h.isFilling && !h.isLoaded

/-- The halves but those LOADED whose part of the region has been wholly given, the next byte being at `n` (R70). -/
def notGiven (j : Job) (n : Nat) (halves : List Half) : List Half :=
  halves.filter fun h =>
    match h with
    | .loaded k _ _ => decide (n < min (j.address.getD 0 + j.length) (32 * k + 32))
    | _ => true

/-- The byte at address `a` of the array is `b` in the halves: the first half LOADED with its burst holds it there (R69, R70). -/
def LoadedAt (halves : List Half) (a : Nat) (b : Byte) : Prop :=
  ∃ (before after : List Half) (start : Nat) (bytes : List Byte),
    halves = before ++ .loaded (a / 32) start bytes :: after ∧
    (∀ h ∈ before, ∀ (x : Nat) (bs : List Byte), h ≠ .loaded (a / 32) x bs) ∧ start ≤ a ∧ bytes[a - start]? = some b

/-- No half is FILLING for the burst. -/
def NoneFilling (halves : List Half) (burst : Nat) : Prop :=
  ∀ h ∈ halves, ∀ (start : Nat) (bytes : List Byte), h ≠ .filling burst start bytes

/-- One turn at a port for a job, whose record is `after` then: beside it the turn changes the port's engine and outputs, the
locks the job held, and the list of accesses alone. -/
def TurnOf (s u : State) (p : Port) (j after : Job) : Prop :=
  u.jobOf j.tag = some after ∧ (∀ t : Tag, t ≠ j.tag → u.jobOf t = s.jobOf t) ∧
    (∀ q : Port, q ≠ p → u.engine q = s.engine q ∧ u.outp q = s.outp q) ∧
    (∀ b : Bank, (s.bank b).lockHolder ≠ some j.tag → u.bank b = s.bank b) ∧
    { u with jobs := s.jobs, engines := s.engines, outs := s.outs, banks := s.banks, accesses := s.accesses } = s

/-- A unit of an OUT or COMPARE job can be acknowledged, its direction right and, in COMPARE, its bytes equal; D then (R62, R65,
R70, R72). -/
def UnitGiven (s : State) (p : Port) (j : Job) (req : UnitRequest) (n : Nat) (d : Drive) : Prop :=
  ∃ bytes : List Byte, s.unitLoaded p n = some bytes ∧
    ((j.mode = .out ∧ req.xdir = false ∧
        d = if (s.portSettings p).width = .w8 then .low (bytes.getD 0 0)
          else .full (bytes.getD 1 0 ++ bytes.getD 0 0)) ∨
      (j.mode = .compare ∧ req.xdir = true ∧ laneBytes n req.d = bytes ∧ d = (s.outp p).d))

/-- The READ of the part of a job's region in one burst (R69). -/
def partRead (p : Port) (j : Job) (k : Nat) : Access :=
  wordsAccess (.port p j.tag) (max (j.address.getD 0) (32 * k)) (min (j.address.getD 0 + j.length) (32 * k + 32)) .read

/-- The FREE halves beside `kept` are refilled with the next bursts of the region not yet read, if any remain (R69): the halves,
the next burst, and the READs posted. -/
def Refilled (p : Port) (j : Job) (kept : List Half) (next : Option Nat) (halves : List Half) (next' : Option Nat)
    (reads : List Access) : Prop :=
  ((2 ≤ kept.length ∨ ∀ k : Nat, next = some k → j.address.getD 0 + j.length ≤ 32 * k) →
    halves = kept ∧ next' = next ∧ reads = []) ∧
  ∀ k : Nat, next = some k → 32 * k < j.address.getD 0 + j.length →
    ((kept.length = 1 ∨ (kept = [] ∧ j.address.getD 0 + j.length ≤ 32 * (k + 1))) →
      halves = kept ++ [.awaiting k] ∧ next' = some (k + 1) ∧ reads = [partRead p j k]) ∧
    (kept = [] → 32 * (k + 1) < j.address.getD 0 + j.length →
      halves = [.awaiting k, .awaiting (k + 1)] ∧ next' = some (k + 2) ∧
      reads = [partRead p j k, partRead p j (k + 1)])

/-! ### What the scheduler asks (R21 to R27) -/

/-- A claim of the Maintenance Engine waits on the bank (R22, R168). -/
def Claims (s : State) (b : Bank) : Prop :=
  (s.maint.op = .clear (.spares b) ∧ (s.bank b).state ≠ .repairing) ∨
    ∃ r : RepairRecord, s.maint.op = .repair r ∧ r.phase = .claiming ∧ r.bank = b

/-- The access is of the job that holds its bank's lock. -/
def OfLockHolder (s : State) (a : Access) : Prop :=
  ∃ (p : Port) (t : Tag), a.client = .port p t ∧ (s.bank a.bank).lockHolder = some t

/-- Condition 2 of R21. -/
def LockAllows (s : State) (a : Access) : Prop := (s.bank a.bank).lockHolder = none ∨ OfLockHolder s a

/-- A scrub access stands aside for another client's access to its bank (R23). -/
def StandsAside (s : State) (a : Access) : Prop :=
  a.client = .maint .scrub ∧ ∃ x ∈ s.accesses, x.bank = a.bank ∧ ∀ purpose : MaintPurpose, x.client ≠ .maint purpose

/-- A WAITING access to which conditions 2 to 4 of R21 do not object, and which stands aside for none. -/
def Servable (s : State) (a : Access) : Prop :=
  a.condition = .waiting ∧ LockAllows s a ∧ (s.group (groupOf a.bank)).urgent = false ∧
    (s.bank a.bank).state ≠ .refreshing ∧ (s.bank a.bank).state ≠ .repairing ∧
    (Claims s a.bank → (s.bank a.bank).lockHolder ≠ none) ∧ ¬StandsAside s a

/-- An access for which a CLOSED bank may be opened (R24). -/
def MayOpen (s : State) (b : Bank) (a : Access) : Prop := a.bank = b ∧ (s.bank b).state = .closed ∧ Servable s a

/-- A candidate for the data path (R25): GRANTED on an OPEN bank, or a row hit on a bank with no GRANTED access. -/
def Candidate (s : State) (a : Access) : Prop :=
  ∃ w : OpenRow, (s.bank a.bank).state = .opened w ∧
    (a.condition = .granted ∨
      (Servable s a ∧ w.logical = a.row ∧ ∀ x ∈ s.accesses, x.bank = a.bank → x.condition ≠ .granted))

/-- The OPEN bank is to be closed for a waiting miss (R26). -/
def ClosesForMiss (s : State) (b : Bank) (w : OpenRow) : Prop :=
  (s.bank b).state = .opened w ∧ (∀ x ∈ s.accesses, x.bank = b → x.condition = .waiting) ∧
    (∃ a ∈ s.accesses, a.bank = b ∧ a.row ≠ w.logical ∧ Servable s a) ∧
    ((∀ a ∈ s.accesses, a.bank = b → a.row = w.logical → ¬Servable s a) ∨ (s.bank b).hitRun = 16)

/-- The OPEN bank is to be closed by one of R11's other events; that sleep entry waits for an empty list is log 21, that a
claim finds the lock of the same moment log 37. -/
def ClosesOtherwise (s : State) (b : Bank) (w : OpenRow) : Prop :=
  (s.bank b).state = .opened w ∧ (∀ x ∈ s.accesses, x.bank = b → x.condition = .waiting) ∧
    ((s.group (groupOf b)).urgent = true ∨ (Claims s b ∧ (s.bank b).lockHolder = none) ∨
      (s.part.sleepEntry = true ∧ s.accesses = []))

/-- The Refresh Unit's claim on the group can be taken (R86, R88). -/
def RefreshDue (s : State) (g : Group) : Prop :=
  1 ≤ (s.group g).debt ∧ (∀ b : Bank, groupOf b = g → (s.bank b).state = .closed) ∧
    ((s.group g).urgent = true ∨ ∀ a ∈ s.accesses, groupOf a.bank ≠ g)

/-- The Maintenance Engine's claim on the bank can be taken (R13, R117, R168). -/
def RepairDue (s : State) (b : Bank) : Prop :=
  Claims s b ∧ (s.bank b).state = .closed ∧ (s.bank b).lockHolder = none ∧ (s.group (groupOf b)).urgent = false ∧
    ∀ a ∈ s.accesses, a.bank = b → a.isInFlight = false

/-- The claim on the bank is taken: it is REPAIRING, and a repair's copy begins; nothing else changes (R13, R117, R168). -/
def claimTaken (s : State) (b : Bank) : State :=
  { s.setBank b { s.bank b with state := .repairing } with
    maint := { s.maint with op :=
      match s.maint.op with
      | .repair r => .repair { r with phase := .copying }
      | op => op } }

/-- A party waits for the locked bank (R33). -/
def LockWaited (s : State) (b : Bank) : Prop :=
  (∃ a ∈ s.accesses, a.bank = b ∧ a.condition = .waiting ∧ ¬LockAllows s a ∧ a.client ≠ .maint .scrub) ∨ Claims s b

/-- A miss to the bank of a burst waits, neither barred by a lock nor standing aside (R27). -/
def MissWaits (s : State) (a : Access) : Prop :=
  ∃ x ∈ s.accesses, x.bank = a.bank ∧ x.row ≠ a.row ∧ x.condition = .waiting ∧ LockAllows s x ∧ ¬StandsAside s x

/-! ### Results (R28 to R30) -/

/-- A result calls for a report (R30). -/
def CallsForReport (rs : List WordResult) : Prop :=
  ∃ x ∈ rs, x.outcome = some .corrected ∨ x.outcome = some .uncorrectable

/-- The state in which the result of a burst is returned: its words read or written, the hit-run counter counted, the access
out of the list, the lock placed (R25, R31). -/
def atResult (s : State) (decay : List Decay) (lines : PortLines) (a : Access) : State :=
  State.placeLock { s.countHit a with
    mem := (State.perform { s with mem := s.mem.decay decay } a).1, pins := (s.sample lines).pins,
    accesses := dropFirst Access.isInFlight s.accesses } a

/-- What follows a burst's result in the same step. -/
def afterResult (s : State) : State := s.endReset.schedule.endSleepEntry.transmit

/-- The fault mark after a result: the lower of the mark set and the first faulty address (R71). -/
def markAfter (old new : Option Nat) : Option Nat :=
  match old, new with
  | none, x => x
  | some m, none => some m
  | some m, some x => some (min m x)

/-- The bytes of a unit of a job as it stands (R65). -/
def unitSize (s : State) (p : Port) (j : Job) : Nat :=
  if (s.portSettings p).width = .w16 ∧ j.moved + 2 ≤ j.length then 2 else 1

/-- The MAINT access of purpose SCRUB for one burst of the row at a position (R104, R105). -/
def scrubAccess (position burst : Nat) (k : AccessKind) : Access :=
  { client := .maint .scrub, bank := Fin.ofNat 16 position, row := Fin.ofNat 8192 (position / 16), firstWord := burst * 8,
    wordCount := 8, kind := k, condition := .waiting }

/-- Each group that owes 8 at a tick offers its REFRESH OVERRUN, in the order of the groups' numbers (R85; the order: log 29). -/
def overrunsOffered (s : State) : State :=
  ([0, 1, 2, 3] : List Group).foldl
    (fun v g => if 8 ≤ (s.group g).debt then v.offerAlert (.refreshOverrun g) else v) s

/-- A producer of a port: of its JOB END, or of its attention. -/
def ofPort : Producer → Bool
  | .job _ => true
  | .attention _ => true
  | _ => false

/-- The outputs of a port whose engine has stopped in RESETTING: SEL 0, XACK, COUT and CIN deasserted, D released, and PCLR pulsed
(R62, R79, R82). -/
def stoppedOuts (o : Outs) : Outs :=
  { o with
    sel := 0, xack := false, d := .off, cout := false, cin := false, pclrPulses := o.pclrPulses + 1, pclrSel := 0 }

/-- The scrub at the entry into RESETTING (R110): back at position 0, its counts and credit gone, a result still to come to be
discarded; the pass number, the timer and a SCRUB PASS that waits for room are kept. -/
def scrubRestarted (s : State) : Scrub :=
  { s.maint.scrub with
    position := 0, burst := 0, visit := if s.maint.scrub.waitingPass.isSome then .atPassEnd else .betweenRows,
    corrected := 0, uncorrectable := 0, credit := false, resumeAtExpiry := false, discardResult := s.maintPosted }

/-- The first `n` words of a row have been copied into a spare of its bank, and nothing else of the array is changed (R118). -/
def CopiedInto (m m' : Memory) (b : Bank) (row : Row) (i : Spare) (n : Nat) : Prop :=
  (m.wf = true → ∀ k : Nat, k < n →
    m'.word (rowCell b row (.spare i) + 4 * k) =
      (if (m.read (rowCell b row .native + 4 * k)).1 = .uncorrectable then 0
        else (m.read (rowCell b row .native + 4 * k)).2) ∧
    m'.wrong (rowCell b row (.spare i) / 4 + k) = 0) ∧
  (∀ x : Nat, (x < rowCell b row (.spare i) ∨ rowCell b row (.spare i) + 4 * n ≤ x) → m'.byte x = m.byte x) ∧
  ∀ w : Nat, (w < rowCell b row (.spare i) / 4 ∨ rowCell b row (.spare i) / 4 + n ≤ w) → m'.wrong w = m.wrong w

/-- Every block lets the part go to sleep: no access, every bank CLOSED, every debt 0, a sleep entry in progress (R91, R170). -/
def MaySleep (s : State) : Prop :=
  s.part.sleepEntry = true ∧ s.accesses = [] ∧ (∀ b : Bank, (s.bank b).state = .closed) ∧ ∀ g : Group, (s.group g).debt = 0

/-- The part has gone to sleep and answered the SLEEP that it was executing (R91, R170). -/
def FellAsleep (s t : State) (x : Execution) : Prop :=
  t.part = { s.part with state := .sleeping, sleepEntry := false } ∧ t.refresh.tick = none ∧ t.proc.executing = none ∧
    t.mem = s.mem ∧ Made t { seq := x.seq, payload := [x.code, 0x00] }

/-- A report cannot be recorded (R98). -/
def CannotRecord (s : State) (b : Bank) (row : Row) : Prop :=
  (∀ e ∈ s.media.list, ¬(e.bank = b ∧ e.row = row)) ∧ 32 ≤ s.media.list.length ∧
    ∀ e ∈ s.media.list, e.uncorrectable = true

/-- The 20 rows of the Request Processor that have a code of their own, with their code. -/
def requestRows (lines : PortLines) : List (Byte × Instr) :=
  [(0x02, .identify), (0x03, .status lines), (0x04, .getSetting), (0x05, .setSetting), (0x10, .submit lines),
   (0x11, .cancel lines), (0x12, .jobQuery), (0x20, .hostWrite), (0x21, .hostRead), (0x22, .portOut), (0x23, .portIn),
   (0x30, .readWeakList), (0x31, .clearWeakEntry), (0x32, .repairRow), (0x33, .readRemap), (0x40, .readErrorLog),
   (0x41, .clearError), (0x50, .engineReset), (0x51, .sleep), (0x52, .wake)]

/-- The commands that read the sampled lines read them before anything else. -/
def lookedAt (lines : PortLines) (s : State) : Instr → State
  | .status _ => s.sample lines
  | .submit _ => s.sample lines
  | .cancel _ => s.sample lines
  | _ => s

end Sys2Proof.Safety
end

