-- ==== Sys2Proof/Certificates/Slice0/Obligations.lean ====
section
/-! DEFINITION. The statements about the part. -/

open Sys2Proof Sys2Proof.Machine Sys2Proof.Safety

/-! ### Steps -/

/-- A step runs the command at the front of the queue on the queue's rest; on an empty queue the part idles, which is the
model's choice (log 10). -/
def Obligations.StepRunsFrontCommand : Prop :=
  (∀ (c : Instr) (rest : List Instr) (s : State),
    s.pending = c :: rest → step s = exec c { s with pending := rest }) ∧
  ∀ s : State, s.pending = [] → step s = .next s

/-- No command stops the part, and none touches the queue of commands. -/
def Obligations.EveryCommandRunsToAnEnd : Prop :=
  ∀ (c : Instr) (s : State), ∃ t : State, exec c s = .next t ∧ t.pending = s.pending

/-! ### Power-on and RESETN (R167) -/

/-- POWER_ON (R113, R167): every block at its reset value, the straps and the first measurement taken, the first claim of the
start-up clear taken; USED slots yield the HARD entries and nothing else does, and slots found PROGRAMMING are SPOILED. The
array stays as it stood (log 8), the input pins keep their levels and every rotation begins at 0 (log 9), and the
temperature comes in whole thousandths of a degree (log 5): these are the model's choices. -/
def Obligations.PowerOnBeginsStartUp : Prop :=
  (∀ (s : State) (baud : BitVec 3) (temp : Int), ∃ t : State, exec (.powerOn baud temp) s = .next t ∧
     t.resetn = false ∧ t.baud = baud ∧
     t.part = { state := .starting, sleepEntry := false, wakeTarget := none, wakeWaiting := false } ∧
     t.range = (if 85000 < temp then .hot else .normal) ∧ t.refresh.tick = some t.range ∧
     (∀ g : Group, t.group g = { debt := 0, urgent := false, rotation := 0 }) ∧
     t.link = Link.reset ∧ t.proc = { executing := none, held := none } ∧ t.settings = Settings.reset ∧
     t.jobs = [] ∧ (∀ p : Port, t.queueOf p = [] ∧ t.engine p = Engine.reset ∧ t.outp p = Outs.reset) ∧
     t.accesses = [] ∧ t.media = { list := [], listFull := false, scrubMark := none } ∧
     t.notices = NoticeUnit.reset ∧ t.maint = { op := .clear (.spares 0), scrub := Scrub.reset } ∧
     (t.bank 0).state = .repairing ∧ (∀ b : Bank, b ≠ 0 → t.bank b = BankRecord.reset) ∧
     t.mem = s.mem ∧ t.pins = s.pins) ∧
  (∀ (s : State) (baud : BitVec 3) (temp : Int) (b : Bank), ∃ t : State, exec (.powerOn baud temp) s = .next t ∧
     (∀ e : RemapEntry, e ∈ t.remapOf b ↔ e.kind = .hard ∧ ∃ i : Slot, s.fuseOf b i = .used e.row e.spare) ∧
     ∀ i : Slot, t.fuseOf b i = (if s.fuseOf b i = .programming then .spoiled else s.fuseOf b i))

/-- RESETN_ASSERT ends every operation at once, a sleep entry and a wake among them, and leaves the part held in reset (R167).
While RESETN is asserted the part takes no frame and sends none, executes no request, resends no notice, and marks no attention
or change of temperature; and held in reset, no command but POWER_ON moves anything but the levels of the input pins. That the
array stands is the model's choice (log 8), and so is the STOPPED tick timer, with every other item R167 does not give while
RESETN is held (log 11); that the fuse store stands is log 9's. -/
def Obligations.ResetnEndsEverything : Prop :=
  (∀ s : State, ∃ t : State, exec .resetnAssert s = .next t ∧
     t.resetn = true ∧ t.notices.npend = false ∧ (∀ p : Port, t.outp p = Outs.reset) ∧ t.link.tx = none ∧
     t.accesses = [] ∧ t.jobs = [] ∧ t.maint.op = .none ∧ t.proc.executing = none ∧ t.refresh.tick = none ∧
     t.part = { state := .starting, sleepEntry := false, wakeTarget := none, wakeWaiting := false } ∧
     (∀ b : Bank, t.bank b = BankRecord.reset) ∧ t.mem = s.mem ∧ t.fuses = s.fuses ∧ HeldInReset t) ∧
  (∀ s : State, HeldInReset s → ∀ c : Instr, (∀ (baud : BitVec 3) (temp : Int), c ≠ .powerOn baud temp) →
     ∃ pins : Vector Pins 4, exec c s = .next { s with pins := pins }) ∧
  (∀ s : State, s.resetn = true →
     (∀ chars : List Byte, exec (.requestArrival chars) s = .next s ∧ exec (.frameError chars) s = .next s ∧
       exec (.linkOpen chars) s = .next s) ∧
     (∀ c : Byte, exec (.characterArrival c) s = .next s) ∧
     (∀ (chars : List Byte) (lines : PortLines), exec (.noticeAck chars lines) s = .next (s.sample lines)) ∧
     exec .gapTimerExpiry s = .next s ∧ exec .frameTransmitEnd s = .next s ∧ exec .unknownRequest s = .next s ∧
     (∀ number : Byte, exec (.noticeResendExpiry number) s = .next s) ∧
     (∀ temp : Int, exec (.temperatureChange temp) s = .next s) ∧
     (∀ (p : Port) (lines : PortLines), exec (.attnEdge p lines) s = .next (s.sample lines) ∧
       ∃ pins : Vector Pins 4, exec (.holdnDeassert p lines) s = .next { s with pins := pins }) ∧
     (∀ (p : Port) (xdir xend : Bool) (d : BitVec 16) (lines : PortLines),
       ∃ pins : Vector Pins 4, exec (.unitRequest p xdir xend d lines) s = .next { s with pins := pins }) ∧
     ∀ (lines : PortLines) (code : Byte) (c : Instr), (code, c) ∈ requestRows lines →
       exec c s = .next (lookedAt lines s c))

/-- SPARE_STEP_END (R168): the bank's 8 spares hold zero with valid codes, nothing else of the array changes, and the step
goes on to the next bank or to the first CLEAR access. BURST_COMPLETE of a CLEAR access (R168): the walk goes on burst by burst
and row by row; after the last, the operation is NONE, the part READY, the engines of the enabled ports IDLE, and STARTED is
admitted, or Part Control waits. -/
def Obligations.SpareStepWritesZero : Prop :=
  (∀ (s : State) (b : Bank), s.maint.op = .clear (.spares b) → (s.bank b).state = .repairing →
    ∃ t : State, exec .spareStepEnd s = .next t ∧
      (∀ a : Nat, t.mem.byte a =
        if 268435456 + b.val * 16384 ≤ a ∧ a < 268435456 + b.val * 16384 + 16384 then 0 else s.mem.byte a) ∧
      (∀ w : Nat, t.mem.wrong w =
        if 67108864 + b.val * 4096 ≤ w ∧ w < 67108864 + b.val * 4096 + 4096 then 0 else s.mem.wrong w) ∧
      (t.bank b).state ≠ .repairing ∧
      (∀ h : b.val + 1 < 16, t.maint.op = .clear (.spares ⟨b.val + 1, h⟩) ∧
        t.accesses.map posted = s.accesses.map posted) ∧
      (b.val = 15 → t.maint.op = .clear (.logical 0 0) ∧
        t.accesses.map posted = s.accesses.map posted ++
          [{ client := .maint .clear, bank := 0, row := 0, firstWord := 0, wordCount := 8,
             kind := .write (List.replicate 8 0) (List.replicate 8 15), condition := .waiting }])) ∧
  ∀ (s : State) (decay : List Decay) (lines : PortLines) (a : Access) (position burst : Nat),
    s.part.state = .starting → s.part.sleepEntry = false → s.maint.op = .clear (.logical position burst) →
    s.flying = some a → a.client = .maint .clear → a.kind = .write (List.replicate 8 0) (List.replicate 8 15) →
    ∃ t : State, exec (.burstComplete decay lines) s = .next t ∧
      (∀ position' burst' : Nat,
        ((burst + 1 < 64 ∧ position' = position ∧ burst' = burst + 1) ∨
          (64 ≤ burst + 1 ∧ position + 1 < 131072 ∧ position' = position + 1 ∧ burst' = 0)) →
        t.maint.op = .clear (.logical position' burst') ∧ t.part = s.part ∧
        t.accesses.map posted = (dropFirst Access.isInFlight s.accesses).map posted ++
          [{ client := .maint .clear, bank := Fin.ofNat 16 position', row := Fin.ofNat 8192 (position' / 16),
             firstWord := burst' * 8, wordCount := 8, kind := .write (List.replicate 8 0) (List.replicate 8 15),
             condition := .waiting }]) ∧
      (64 ≤ burst + 1 → 131072 ≤ position + 1 →
        t.maint.op = .none ∧ t.part = { s.part with state := .ready } ∧
        (∀ p : Port, (s.portSettings p).enable = true → (t.engine p).state = .idle ∧ (t.outp p).sel = 0) ∧
        (∀ p : Port, (s.portSettings p).enable = false → t.engine p = s.engine p ∧ t.outp p = s.outp p) ∧
        (s.settings.scrubRate = 0 → t.accesses.map posted = (dropFirst Access.isInFlight s.accesses).map posted) ∧
        (s.notices.outbox.length < 16 → s.ordinaryCount < 12 →
          ∃ n ∈ t.notices.outbox, n.number = s.admissionNumber ∧ n.body = .started) ∧
        ((16 ≤ s.notices.outbox.length ∨ 12 ≤ s.ordinaryCount) →
          t.notices.waiting = s.notices.waiting ++ [.partControl]))

/-! ### Frames (R125 to R128) -/

/-- The characters of a good frame, sent as R125 lays them out, are received as that frame, with every value of KIND, SEQ and
PAYLOAD, and handed on; then the transmitter goes on. That it looks once, after all that handing on does, is the model's choice
where a STALE link is revived and a response made at arrival (log 42). -/
def Obligations.FrameCharactersAreHandedOn : Prop :=
  ∀ (s : State) (f : Frame), s.resetn = false → s.link.rx = .hunting → f.payload.length ≤ 1040 →
    (f.kind = 0x01 ∨ f.kind = 0x04) →
    exec (.requestArrival f.chars) s = .next (s.handOn f).transmit ∧
    exec (.linkOpen f.chars) s = .next (s.handOn f).transmit ∧
    ∀ lines : PortLines, exec (.noticeAck f.chars lines) s = .next ((s.sample lines).handOn f).transmit

/-- CHARACTER_ARRIVAL, HUNTING (R127): 0xC3 is START, any other byte is discarded without record. IN FRAME, a byte that completes
neither LEN nor the frame is kept; one that completes LEN is kept where LEN is in range, and otherwise the frame is discarded with
cause LENGTH (R128); one that completes the frame ends it: a wrong CHECK, then an unknown KIND, is a frame error, and a good frame
is handed on. A row that brings several characters takes them one after another; one that brings the sampled lines samples first,
which is the model's choice (log 3). The transmitter looks once, after all that handing a frame on does, which is the model's choice
where a STALE link is revived and a response made at arrival (log 42). -/
def Obligations.ReceiverTakesCharacters : Prop :=
  (∀ (s : State) (c : Byte), s.resetn = false →
    (s.link.rx = .hunting → c ≠ 0xC3 → exec (.characterArrival c) s = .next s) ∧
    (s.link.rx = .hunting → c = 0xC3 →
      exec (.characterArrival c) s = .next { s with link := { s.link with rx := .inFrame [] } }) ∧
    ∀ bytes : List Byte, s.link.rx = .inFrame bytes →
      ((bytes.length = 0 ∨
          (2 ≤ bytes.length ∧ bytes.length + 1 ≠ (bytes.getD 0 0).toNat * 256 + (bytes.getD 1 0).toNat + 4)) →
        exec (.characterArrival c) s = .next { s with link := { s.link with rx := .inFrame (bytes ++ [c]) } }) ∧
      (∀ len : Nat, bytes.length = 1 → len = (bytes.getD 0 0).toNat * 256 + c.toNat →
        (2 ≤ len → len ≤ 1042 →
          exec (.characterArrival c) s = .next { s with link := { s.link with rx := .inFrame (bytes ++ [c]) } }) ∧
        ((len < 2 ∨ 1042 < len) →
          exec (.characterArrival c) s =
            .next (afterFrameError s { cause := .length, kind := 0, seq := 0, len := len }).transmit)) ∧
      ∀ (all body : List Byte) (len : Nat), 2 ≤ bytes.length → all = bytes ++ [c] →
        len = (bytes.getD 0 0).toNat * 256 + (bytes.getD 1 0).toNat → all.length = len + 4 → body = all.take (len + 2) →
        (all.drop (len + 2) ≠ natBytes 2 (crc16 body).toNat →
          exec (.characterArrival c) s =
            .next (afterFrameError s { cause := .check, kind := all.getD 2 0, seq := all.getD 3 0, len := len }).transmit) ∧
        (all.drop (len + 2) = natBytes 2 (crc16 body).toNat →
          (all.getD 2 0 ≠ 0x01 → all.getD 2 0 ≠ 0x04 →
            exec (.characterArrival c) s =
              .next (afterFrameError s { cause := .kind, kind := all.getD 2 0, seq := all.getD 3 0, len := len }).transmit) ∧
          ((all.getD 2 0 = 0x01 ∨ all.getD 2 0 = 0x04) →
            exec (.characterArrival c) s =
              .next (State.transmit (State.handOn { s with link := { s.link with rx := .hunting } }
                { kind := all.getD 2 0, seq := all.getD 3 0, payload := body.drop 4 }))))) ∧
  ∀ (s : State) (chars : List Byte),
    exec (.requestArrival []) s = .next s ∧
    (∀ (c : Byte) (t : State), exec (.characterArrival c) s = .next t →
      exec (.requestArrival (c :: chars)) s = exec (.requestArrival chars) t) ∧
    exec (.frameError chars) s = exec (.requestArrival chars) s ∧
    exec (.linkOpen chars) s = exec (.requestArrival chars) s ∧
    ∀ lines : PortLines, exec (.noticeAck chars lines) s = exec (.requestArrival chars) (s.sample lines)

/-- FRAME_ERROR and GAP_TIMER_EXPIRY (R127, R128): a wrong CHECK, an unknown KIND, a LEN out of range and a gap each discard
the frame, log it, make a LINK ERROR wait and set HALT where the setting asks for it; what was not received is recorded as 0.
HUNTING, the gap timer does nothing, which is deduced (log 1). -/
def Obligations.FrameErrorsAreLogged : Prop :=
  (∀ s : State, s.resetn = false → s.link.rx = .hunting →
     (∀ (f : Frame) (check : BitVec 16), f.payload.length ≤ 1040 → check ≠ crc16 f.body →
       exec (.frameError (charsWithCheck f check)) s =
         .next (afterFrameError s
           { cause := .check, kind := f.kind, seq := f.seq, len := f.payload.length + 2 }).transmit) ∧
     (∀ f : Frame, f.payload.length ≤ 1040 → f.kind ≠ 0x01 → f.kind ≠ 0x04 →
       exec (.frameError f.chars) s =
         .next (afterFrameError s
           { cause := .kind, kind := f.kind, seq := f.seq, len := f.payload.length + 2 }).transmit) ∧
     (∀ n : Nat, n < 65536 → (n < 2 ∨ 1042 < n) →
       exec (.frameError (0xC3 :: natBytes 2 n)) s =
         .next (afterFrameError s
           { cause := .length, kind := 0, seq := 0, len := n }).transmit)) ∧
  (∀ s : State, s.resetn = false →
     (s.link.rx = .hunting → exec .gapTimerExpiry s = .next s) ∧
     ∀ bytes : List Byte, s.link.rx = .inFrame bytes →
       exec .gapTimerExpiry s =
         .next (afterFrameError s
           { cause := .gap, kind := bytes.getD 2 0, seq := bytes.getD 3 0,
             len := if 2 ≤ bytes.length then (bytes.getD 0 0).toNat * 256 + (bytes.getD 1 0).toNat else 0 }).transmit)

/-- The CRC of R126 over the nine bytes of "123456789". -/
def Obligations.CrcCheckValue : Prop :=
  crc16 [0x31, 0x32, 0x33, 0x34, 0x35, 0x36, 0x37, 0x38, 0x39] = 0x29B1#16 ∧
  ∀ f : Frame, f.chars = 0xC3 :: (natBytes 2 (f.payload.length + 2) ++ [f.kind, f.seq] ++ f.payload) ++
    natBytes 2 (crc16 (natBytes 2 (f.payload.length + 2) ++ [f.kind, f.seq] ++ f.payload)).toNat

/-! ### Requests at arrival (R130 to R133) -/

/-- REQUEST_ARRIVAL (R132, step 3): a new request joins the intake queue and E advances by 1; it clears STALE and returns every
notice to UNSENT if STALE was set (R147); nothing else but the sending side is touched. Where the processor is free, so that the
request is executed at once, and no response waits, nothing begins on the line before it (log 33). -/
def Obligations.NewRequestJoinsIntake : Prop :=
  ∀ (s : State) (r : Request), s.resetn = false → s.link.rx = .hunting → r.payload.length ≤ 1040 →
    s.link.isOpen = true → r.code ≠ 0x01 → r.seq = s.link.expected →
    (s.link.halt = false ∨ haltExempt r.code = true) → s.link.intake.length < 8 →
    ∃ u t : State, exec (.requestArrival (requestFrame r).chars) s = .next t ∧ t = u.transmit ∧ Revived s u ∧
      u.link = { s.link with intake := s.link.intake ++ [r], expected := s.link.expected + 1 } ∧
      t.link.intake = s.link.intake ++ [r] ∧ t.link.expected = s.link.expected + 1 ∧
      t.link.cache = s.link.cache ∧ t.link.isOpen = true ∧ t.link.rx = .hunting ∧ t.link.halt = s.link.halt ∧
      t.link.log = s.link.log ∧ t.link.overflow = s.link.overflow ∧ t.proc.executing = s.proc.executing ∧
      t.notices.stale = false ∧ { t with link := s.link, proc := s.proc, notices := s.notices } = s ∧
      (s.proc.executing = none → s.proc.held = none → s.link.openResponse = none → s.link.linkError = none →
        s.link.queue = [] → t = u)

/-- REQUEST_ARRIVAL: what is answered at arrival, and how (R130, R132, R133, R136): CLOSED, HALTED, FULL, a cached copy,
silence for a duplicate without one, and SEQUENCE. Each clears STALE (R147). No two responses of the cache share a SEQ (R134): that
one which enters takes the place of an earlier one of its SEQ, which goes, is the model's choice (log 41). That the transmitter
looks once, after the revival of a STALE link and the response made at arrival both, so that on a free line the response begins
before a notice returned to UNSENT, is the model's choice (log 42). -/
def Obligations.RequestsAnsweredAtArrival : Prop :=
  ∀ (s : State) (r : Request), s.resetn = false → s.link.rx = .hunting → r.payload.length ≤ 1040 → r.code ≠ 0x01 →
    (s.link.isOpen = false → ∃ u : State, exec (.requestArrival (requestFrame r).chars) s = .next u.transmit ∧
      Revived s u ∧ u.link = withQueued s.link { seq := r.seq, payload := [r.code, 0x14] }) ∧
    (s.link.isOpen = true → r.seq = s.link.expected → s.link.halt = true → haltExempt r.code = false →
      ∃ u : State, exec (.requestArrival (requestFrame r).chars) s = .next u.transmit ∧ Revived s u ∧
        u.link = { withQueued s.link { seq := r.seq, payload := [r.code, 0x0E] } with
          cache := withCached s.link.cache { seq := r.seq, payload := [r.code, 0x0E] },
          expected := s.link.expected + 1 }) ∧
    (s.link.isOpen = true → r.seq = s.link.expected → (s.link.halt = false ∨ haltExempt r.code = true) →
      8 ≤ s.link.intake.length →
      ∃ u : State, exec (.requestArrival (requestFrame r).chars) s = .next u.transmit ∧ Revived s u ∧
        u.link = withQueued s.link { seq := r.seq, payload := [r.code, 0x04] }) ∧
    (s.link.isOpen = true → r.seq ≠ s.link.expected → (s.link.expected - 1 - r.seq).toNat < 8 →
      (∀ resp : Response, (s.link.cache.find? fun x => decide (x.seq = r.seq)) = some resp →
        ∃ u : State, exec (.requestArrival (requestFrame r).chars) s = .next u.transmit ∧ Revived s u ∧
          u.link = withQueued s.link resp) ∧
      ((∀ x ∈ s.link.cache, x.seq ≠ r.seq) →
        ∃ u : State, exec (.requestArrival (requestFrame r).chars) s = .next u.transmit ∧ Revived s u ∧
          u.link = s.link)) ∧
    (s.link.isOpen = true → r.seq ≠ s.link.expected → 8 ≤ (s.link.expected - 1 - r.seq).toNat →
      ∃ u : State, exec (.requestArrival (requestFrame r).chars) s = .next u.transmit ∧ Revived s u ∧
        u.link = withQueued s.link { seq := r.seq, payload := [r.code, 0x05] })

/-- LINK_OPEN (R131, R148), in either link state and every part state. -/
def Obligations.LinkOpenStartsAfresh : Prop :=
  ∀ (s : State) (seq : Byte) (more : List Byte), s.resetn = false → s.link.rx = .hunting → more.length ≤ 1039 →
    exec (.linkOpen (Frame.chars { kind := 0x01, seq := seq, payload := 0x01 :: more })) s =
      .next (State.transmit { s with
        link := { s.link with
          isOpen := true, expected := seq + 1, intake := [], cache := [], queue := [],
          openResponse := some { seq := seq, payload := [0x01, 0x00] } },
        proc := { executing := s.proc.executing.map fun (x : Execution) => { x with discard := true }, held := none },
        notices := { s.notices with
          outbox := s.notices.outbox.map unsent, npend := !s.notices.outbox.isEmpty, stale := false } })

/-! ### Notices (R141 to R149) -/

/-- NOTICE_ACK (R130, R147, R149): on an OPEN link the notice that holds the number leaves the outbox, with the slot of the job it
reports; what its removal lets happen follows: waiting producers are admitted, then the ports go on, the scrub, and the scheduler.
A number held by none removes nothing; either way STALE clears. Nothing else of the Notice Unit changes, and the sampled lines are
as the row brings them. On a CLOSED link nothing is removed and STALE stands (R149, log 28). The order of the ports P0 to P3 and
of the scrub after them is the model's choice, for what they post (log 14) and for two engines HELD for HOLDN that offer their
notices at once (log 39). -/
def Obligations.NoticeAckRemovesTheNotice : Prop :=
  (∀ (s : State) (lines : PortLines) (f : Frame), s.resetn = false → s.link.rx = .hunting → s.link.isOpen = true →
     f.kind = 0x04 → f.payload.length ≤ 1040 →
     (∀ n : Notice, (s.notices.outbox.find? fun x => decide (x.number = f.seq)) = some n →
       ∃ u : State, exec (.noticeAck f.chars lines) s = .next u.afterRemoval.transmit ∧
         u.notices = { revivedNotices s with
           outbox := (revivedOutbox s).filter (fun x => decide (x.number ≠ f.seq)),
           npend := !((revivedOutbox s).filter fun x => decide (x.number ≠ f.seq)).isEmpty } ∧
         u.notices.stale = false ∧ u.pins = (s.sample lines).pins ∧
         u.jobs = (if isJobEnd n.body then s.jobs.filter (fun j => !(decide (j.state = .reported) &&
           decide (j.noticeNumber = some f.seq))) else s.jobs) ∧
         { u with notices := s.notices, jobs := s.jobs, pins := s.pins } = s) ∧
     ((∀ x ∈ s.notices.outbox, x.number ≠ f.seq) →
       ∃ u : State, exec (.noticeAck f.chars lines) s = .next u.transmit ∧ u.notices = revivedNotices s ∧
         u.notices.stale = false ∧ u.pins = (s.sample lines).pins ∧
         { u with notices := s.notices, pins := s.pins } = s)) ∧
  (∀ s : State, s.afterRemoval = s.admitWaiting.portsSettle.scrubAdvance.schedule ∧
     s.admitWaiting = iterate State.admitWaitingOne 11 s ∧
     s.portsSettle = (((s.portSettle 0).portSettle 1).portSettle 2).portSettle 3) ∧
  (∀ (s : State) (lines : PortLines) (f : Frame), s.resetn = false → s.link.rx = .hunting → s.link.isOpen = false →
     f.kind = 0x04 → f.payload.length ≤ 1040 → exec (.noticeAck f.chars lines) s = .next (s.sample lines).transmit)

/-- Admission (R142 to R144): an ORDINARY notice is appended when there is room, its producer being told, and its producer waits
when there is none; an ALERT is appended to any free entry and is otherwise dropped with alerts-lost set. Beside the notice, the
next number and NPEND, and what the producer does when told (Safety.Told), an admission changes nothing. Every notice but the
ALERTs counts as ORDINARY (R141). The number taken is the first from the next notice number on that no notice holds. The waiting
producers are admitted from the head of their list, one after another while there is room, and each is told; one with nothing to
report leaves the list. What a producer reports: the port's head job as its record stands (R49), the captured PSTAT with the
MERGED flag (R78), the values of the pass as it ended (R107), the repair record (R121), and STARTED. -/
def Obligations.NoticesAreAdmittedOrWait : Prop :=
  (∀ s : State,
    s.ordinaryCount = (s.notices.outbox.filter fun n => !isAlert n.body).length ∧
    (∃ k : Nat, k ≤ 16 ∧ s.admissionNumber = s.notices.nextNumber + BitVec.ofNat 8 k ∧
      ∀ i : Nat, i < k → ∃ n ∈ s.notices.outbox, n.number = s.notices.nextNumber + BitVec.ofNat 8 i) ∧
    (∀ p : Port,
      (s.queueOf p = [] → s.bodyOf (.job p) = none) ∧
      (∀ (t : Tag) (rest : List Tag), s.queueOf p = t :: rest →
        (s.jobOf t = none → s.bodyOf (.job p) = none) ∧
        ∀ j : Job, s.jobOf t = some j → s.bodyOf (.job p) =
          some (.jobEnd j.tag j.port j.mode j.outcome j.moved j.faultAddress j.holdBroken j.correctedSeen)) ∧
      s.bodyOf (.attention p) = (s.engine p).attention.map fun x => .attention p x.pstat x.merged) ∧
    s.bodyOf .scrub = s.maint.scrub.waitingPass.map (fun x => .scrubPass x) ∧
    (∀ r : RepairRecord, s.maint.op = .repair r →
      s.bodyOf .repair = some (.repairEnd r.bank r.row r.kind r.outcome r.uncorrectable)) ∧
    ((∀ r : RepairRecord, s.maint.op ≠ .repair r) → s.bodyOf .repair = none) ∧
    s.bodyOf .partControl = some .started) ∧
  ((∀ (s : State) (x : Producer),
     (s.notices.outbox.length < 16 → s.ordinaryCount < 12 →
       (s.bodyOf x = none → s.offer x = s) ∧
       ∀ body : NoticeBody, s.bodyOf x = some body → Told s (s.offer x) s.admissionNumber x ∧
         (s.offer x).notices = admitted s.notices (freshNotice s.admissionNumber body)) ∧
     ((16 ≤ s.notices.outbox.length ∨ 12 ≤ s.ordinaryCount) →
       s.offer x = { s with notices := { s.notices with waiting := s.notices.waiting ++ [x] } })) ∧
   ∀ (s : State) (body : NoticeBody),
     (s.notices.outbox.length < 16 →
       s.offerAlert body = { s with notices := admitted s.notices (freshNotice s.admissionNumber body) }) ∧
     (16 ≤ s.notices.outbox.length →
       s.offerAlert body = { s with notices := { s.notices with alertsLost := true } })) ∧
  (∀ s : State, s.notices.outbox.length ≤ 16 → ∀ n ∈ s.notices.outbox, n.number ≠ s.admissionNumber) ∧
  ∀ (n : Nat) (s : State),
    ((s.notices.waiting = [] ∨ 16 ≤ s.notices.outbox.length ∨ 12 ≤ s.ordinaryCount) →
      iterate State.admitWaitingOne n s = s) ∧
    ∀ (x : Producer) (rest : List Producer), s.notices.waiting = x :: rest → s.notices.outbox.length < 16 →
      s.ordinaryCount < 12 →
      ∃ u : State, iterate State.admitWaitingOne (n + 1) s = iterate State.admitWaitingOne n u ∧
        (s.bodyOf x = none → u = { s with notices := { s.notices with waiting := rest } }) ∧
        ∀ body : NoticeBody, s.bodyOf x = some body → Told s u s.admissionNumber x ∧
          u.notices = { admitted s.notices (freshNotice s.admissionNumber body) with waiting := rest }

/-- FRAME_TRANSMIT_END (R136, R145): the line is free, the resend timer of a notice still SENT starts while STALE is clear,
and the transmitter takes the next frame. -/
def Obligations.FrameEndFreesTheLine : Prop :=
  ∀ (s : State) (f : TxFrame), s.resetn = false → s.link.tx = some f →
    ∃ u : State, exec .frameTransmitEnd s = .next u.transmit ∧ u.link = { s.link with tx := none } ∧
      ElsewhereKept s u ∧ u.notices.stale = s.notices.stale ∧ u.notices.waiting = s.notices.waiting ∧
      u.notices.nextNumber = s.notices.nextNumber ∧
      u.notices.outbox =
        if s.notices.stale then s.notices.outbox
        else s.notices.outbox.map fun n =>
          if f.notice = some n.number ∧ n.sent = true then { n with timer := some s.settings.noticeTimeout } else n

/-- The transmitter's order of preference on a free line (R136), and the notice it takes (R145): on an OPEN link with STALE clear
the oldest with resend due, otherwise the oldest UNSENT while fewer than 4 are SENT. A response that begins leaves the queue, and
a held one takes the room (R135). A notice does not begin while the processor is free and a request stands at the head of its
queue, to be executed at once: that is the model's reading (log 33). The payload of each kind of notice, and the codes in it (R139,
R140). -/
def Obligations.TransmitterOrder : Prop :=
  ((∀ n : Nat, natBytes 2 n = [BitVec.ofNat 8 (n / 256), BitVec.ofNat 8 n] ∧
      natBytes 4 n = [BitVec.ofNat 8 (n / 16777216), BitVec.ofNat 8 (n / 65536), BitVec.ofNat 8 (n / 256),
        BitVec.ofNat 8 n]) ∧
    flagByte true = 1 ∧ flagByte false = 0 ∧
    [Mode.inn, .out, .count, .compare].map Mode.code = [0, 1, 2, 3] ∧
    [JobOutcome.done, .short, .cancelled, .media, .direction, .mismatch].map JobOutcome.code = [0, 1, 2, 3, 4, 5] ∧
    [RepairKind.soft, .hard].map RepairKind.code = [0, 1] ∧
    [RepairOutcome.ok, .fuseFail].map RepairOutcome.code = [0, 1] ∧
    [TempRange.normal, .hot].map TempRange.code = [0, 1] ∧
    [Source.port 0, .port 1, .port 2, .port 3, .link, .scrub].map Source.code = [0, 1, 2, 3, 4, 5] ∧
    [FrameErrorCause.check, .length, .kind, .gap].map FrameErrorCause.code = [1, 2, 3, 4]) ∧
  (∀ (tag : Tag) (p : Port) (m : Mode) (o : JobOutcome) (moved : Nat) (fault : Option Nat) (broken seen : Bool),
    (NoticeBody.jobEnd tag p m (some o) moved fault broken seen).bytes =
      [0x01] ++ natBytes 2 tag.toNat ++ [BitVec.ofNat 8 p.val, BitVec.ofNat 8 m.code, BitVec.ofNat 8 o.code] ++
        natBytes 4 moved ++ [flagByte fault.isSome] ++ natBytes 4 (fault.getD 0) ++ [flagByte broken, flagByte seen]) ∧
  (∀ (p : Port) (pstat : BitVec 4) (merged : Bool),
    (NoticeBody.attention p pstat merged).bytes =
      [0x02, BitVec.ofNat 8 p.val, BitVec.ofNat 8 pstat.toNat, flagByte merged]) ∧
  (∀ x : PassReport, (NoticeBody.scrubPass x).bytes =
    [0x03] ++ natBytes 2 x.passNumber.toNat ++ natBytes 4 x.corrected ++ natBytes 4 x.uncorrectable) ∧
  (∀ (b : Bank) (row : Row) (k : RepairKind) (o : RepairOutcome) (bad : Nat),
    (NoticeBody.repairEnd b row k (some o) bad).bytes =
      [0x04, BitVec.ofNat 8 b.val] ++ natBytes 2 row.val ++ [BitVec.ofNat 8 k.code, BitVec.ofNat 8 o.code] ++
        natBytes 2 bad) ∧
  NoticeBody.started.bytes = [0x05] ∧
  (∀ (src : Source) (b : Bank) (row : Row) (a : Nat), (NoticeBody.uncorrectable src b row a).bytes =
    [0x81, BitVec.ofNat 8 src.code, BitVec.ofNat 8 b.val] ++ natBytes 2 row.val ++ natBytes 4 a) ∧
  (∀ g : Group, (NoticeBody.refreshOverrun g).bytes = [0x82, BitVec.ofNat 8 g.val]) ∧
  (∀ x : TempRange, (NoticeBody.temperature x).bytes = [0x83, BitVec.ofNat 8 x.code]) ∧
  (∀ (b : Bank) (row : Row), (NoticeBody.weakListFull b row).bytes =
    [0x84, BitVec.ofNat 8 b.val] ++ natBytes 2 row.val) ∧
  ∀ s : State,
    (∀ f : TxFrame, s.link.tx = some f → s.transmit = s) ∧
    (∀ r : Response, s.link.tx = none → s.link.openResponse = some r →
      s.transmit.link = { s.link with tx := some { frame := r.frame, notice := none }, openResponse := none }) ∧
    (∀ e : ErrorRecord, s.link.tx = none → s.link.openResponse = none → s.link.linkError = some e →
      s.transmit.link = { s.link with
        tx := some { frame := { kind := 0x05, seq := 0, payload := [byteOf e.cause.code, e.kind, e.seq] }, notice := none },
        linkError := none }) ∧
    (∀ (r : Response) (rest : List Response), s.link.tx = none → s.link.openResponse = none →
      s.link.linkError = none → s.link.queue = r :: rest →
      ∃ queue : List Response, { s.transmit with link := s.link, proc := s.proc } = s ∧
        s.transmit.link = { s.link with tx := some { frame := r.frame, notice := none }, queue := queue } ∧
        ((s.proc.held = none ∨ 8 ≤ rest.length) → queue = rest ∧ s.transmit.proc = s.proc) ∧
        ∀ h : Response, s.proc.held = some h → rest.length < 8 →
          queue = rest ++ [h] ∧ s.transmit.proc = { s.proc with held := none }) ∧
    (s.link.tx = none → s.link.openResponse = none → s.link.linkError = none → s.link.queue = [] →
      (s.link.isOpen = false → s.transmit = s) ∧
      (s.proc.executing = none → s.proc.held = none → s.link.intake ≠ [] → s.transmit = s) ∧
      (s.notices.stale = true → s.transmit = s) ∧
      ((∀ x ∈ s.notices.outbox, ¬(x.sent = true ∧ x.resendDue = true)) →
        (4 ≤ (s.notices.outbox.filter Notice.sent).length ∨ ∀ x ∈ s.notices.outbox, x.sent = true) → s.transmit = s) ∧
      ∀ (n : Notice) (before after : List Notice), s.link.isOpen = true →
        (s.proc.executing ≠ none ∨ s.proc.held ≠ none ∨ s.link.intake = []) → s.notices.stale = false →
        s.notices.outbox = before ++ n :: after →
        ((n.sent = true ∧ n.resendDue = true ∧ (∀ x ∈ before, ¬(x.sent = true ∧ x.resendDue = true))) ∨
          ((∀ x ∈ s.notices.outbox, ¬(x.sent = true ∧ x.resendDue = true)) ∧
            (s.notices.outbox.filter Notice.sent).length < 4 ∧ n.sent = false ∧ ∀ x ∈ before, x.sent = true)) →
        s.transmit.link.tx = some { frame := { kind := 0x03, seq := n.number, payload := n.body.bytes },
                                    notice := some n.number } ∧
        s.transmit.notices.outbox = s.notices.outbox.map fun x =>
          if x.number = n.number then { x with sent := true, sendCount := x.sendCount + 1, resendDue := false } else x)

/-- NOTICE_RESEND_EXPIRY (R146, R147): below a send count of 4 the notice is due for resend; at 4 STALE is set, every resend
timer STOPPED and every resend due cleared. Nothing else of the Notice Unit changes; NPEND is asserted, for the outbox holds a
notice (R150). The transmitter then goes on. -/
def Obligations.ResendExpiryMakesDueOrStale : Prop :=
  ∀ (s : State) (n : Notice), s.resetn = false → s.notices.outbox.Nodup → n ∈ s.notices.outbox →
    (∀ x ∈ s.notices.outbox, x.number = n.number → x = n) → n.sent = true → n.timer.isSome = true →
    (n.sendCount < 4 → ∃ u : State, exec (.noticeResendExpiry n.number) s = .next u.transmit ∧ ElsewhereKept s u ∧
      u.link = s.link ∧ u.notices = { s.notices with
        outbox := s.notices.outbox.map fun x =>
          if x.number = n.number then { x with timer := none, resendDue := true } else x,
        npend := true }) ∧
    (4 ≤ n.sendCount → ∃ u : State, exec (.noticeResendExpiry n.number) s = .next u.transmit ∧ ElsewhereKept s u ∧
      u.link = s.link ∧ u.notices = { s.notices with
        outbox := s.notices.outbox.map fun x => { x with timer := none, resendDue := false },
        npend := true, stale := true })

/-! ### Requests in execution: refusals common to many (R135) -/

/-- A code that is not assigned is answered UNKNOWN and a payload of the wrong length LENGTH (R135). Requests executed in READY
alone are answered STARTING, ASLEEP or BUSY in the other part states (R40, R52, R56, R80, R81, R102, R115, R160, R169).
Nothing else changes. -/
def Obligations.CommonRefusals : Prop :=
  ((∀ (s : State) (r : Request) (rest : List Request), AtHead s r rest → (∀ c ∈ assignedCodes, r.code ≠ c) →
     AnswersOnly .unknownRequest s s rest { seq := r.seq, payload := [r.code, 0x06] }) ∧
   ∀ (lines : PortLines) (code : Byte) (c : Instr) (s : State) (r : Request) (rest : List Request),
     (code, c) ∈ requestRows lines → AtHead s r rest → r.code = code → lengthOk r = false →
     AnswersOnly c s (lookedAt lines s c) rest { seq := r.seq, payload := [code, 0x07] }) ∧
  (∀ (lines : PortLines) (code : Byte) (c : Instr) (s : State) (r : Request) (rest : List Request) (status : Byte),
     (code, c) ∈ requestRows lines →
     code ∈ ([0x10, 0x11, 0x12, 0x20, 0x21, 0x22, 0x23, 0x31, 0x32, 0x51] : List Byte) →
     AtHead s r rest → r.code = code → lengthOk r = true →
     ((s.part.state = .starting ∧ status = 0x0C) ∨ (s.part.state = .sleeping ∧ status = 0x0D) ∨
       ((s.part.state = .waking ∨ s.part.state = .resetting) ∧ status = 0x02)) →
     AnswersOnly c s (lookedAt lines s c) rest { seq := r.seq, payload := [code, status] })

/-! ### IDENTIFY, STATUS and the settings (R153 to R158) -/

/-- IDENTIFY's thirteen payload bytes. -/
def Obligations.IdentifyAnswers : Prop :=
  ∀ (s : State) (r : Request) (rest : List Request), AtHead s r rest → r.payload = [0x02] →
    AnswersOnly .identify s s rest
      { seq := r.seq, payload := [0x02, 0x00, 0x4F, 0x52, 0x02, 0x56, 0x01, 16, 0x20, 0x00, 8,
          byteOf (((List.range 64).filter fun k =>
            decide (s.fuseOf (Fin.ofNat 16 (k / 4)) (Fin.ofNat 4 k) = .free)).length), s.baud.setWidth 8] }

/-- STATUS: the 40 bytes of R140's table, with PSTAT as it stands now, in every part state. -/
def Obligations.StatusAnswers : Prop :=
  ∀ (s : State) (lines : PortLines) (r : Request) (rest : List Request), AtHead s r rest → r.payload = [0x03] →
    AnswersOnly (.status lines) s (s.sample lines) rest
      { seq := r.seq, payload := [0x03, 0x00, byteOf s.part.state.code, flagByte s.link.isOpen, flagByte s.notices.stale,
          flagByte s.link.halt] ++
        (([0, 1, 2, 3] : List Port).flatMap fun p => [byteOf (s.engine p).state.code, byteOf (s.queueOf p).length,
          lines[p].pstat.setWidth 8, flagByte (s.engine p).attention.isSome]) ++
        [byteOf s.jobs.length, byteOf (s.group 0).debt, byteOf (s.group 1).debt, byteOf (s.group 2).debt,
         byteOf (s.group 3).debt, flagByte (s.group 0).urgent, flagByte (s.group 1).urgent, flagByte (s.group 2).urgent,
         flagByte (s.group 3).urgent, byteOf s.range.code, byteOf s.effectiveRange.code,
         byteOf s.notices.outbox.length, flagByte s.notices.alertsLost, byteOf s.media.list.length,
         flagByte s.media.listFull] ++
        natBytes 4 s.maint.scrub.position ++ [byteOf s.maint.op.code] }

/-- GET_SETTING: the value in force, or RANGE for an id that names no setting. -/
def Obligations.GetSettingAnswers : Prop :=
  ∀ (s : State) (r : Request) (rest : List Request) (id : Byte), AtHead s r rest → r.payload = [0x04, id] →
    (∀ x : Param, Param.ofId id.toNat = some x →
      AnswersOnly .getSetting s s rest { seq := r.seq, payload := [0x04, 0x00, id, s.setting x] }) ∧
    (Param.ofId id.toNat = none → AnswersOnly .getSetting s s rest { seq := r.seq, payload := [0x04, 0x03] })

/-- SET_SETTING (R156 to R158): accepted, the setting has the value, every other setting keeps its own, and only what a
setting moves is touched: ENABLE its own port's engine and outputs, SCRUB RATE the scrub (R108), the others none of them. That a
row IN ROW stopped by a rate of 0 waits for the next expiry also where it was paused is the model's choice (log 36). Refused with
RANGE for an unknown id or value, then BUSY while the port has an unfinished job: nothing is written. -/
def Obligations.SetSettingWritesOrRefuses : Prop :=
  (∀ (s : State) (r : Request) (rest : List Request) (id v : Byte) (x : Param), AtHead s r rest →
     r.payload = [0x05, id, v] → Param.ofId id.toNat = some x → x.valueOk v.toNat = true → s.mayChange x = true →
     ∃ t : State, exec .setSetting s = .next t ∧ Made t { seq := r.seq, payload := [0x05, 0x00, id, v] } ∧
       t.link.intake = rest ∧ LinkKept s t ∧ t.setting x = v ∧ (∀ y : Param, y ≠ x → t.setting y = s.setting y) ∧
       t.maint.op = s.maint.op ∧
       { t with link := s.link, proc := s.proc, settings := s.settings, engines := s.engines, outs := s.outs,
                maint := s.maint } = s ∧
       (∀ p : Port, x = .enable p → v = 0 → (t.engine p).state = .inert ∧ (t.outp p).xack = false) ∧
       (∀ p : Port, x = .enable p → v = 1 → s.part.state = .ready → (s.engine p).state = .inert →
         (t.engine p).state = .idle) ∧
       ((∀ p : Port, x ≠ .enable p) → t.engines = s.engines ∧ t.outs = s.outs) ∧
       (∀ p q : Port, x = .enable p → q ≠ p → t.engine q = s.engine q ∧ t.outp q = s.outp q) ∧
       (∀ p : Port, x = .enable p → v = 1 → (s.part.state ≠ .ready ∨ (s.engine p).state ≠ .inert) →
         t.engine p = s.engine p ∧ t.outp p = s.outp p) ∧
       (x ≠ .scrubRate → t.maint = s.maint) ∧
       (x = .scrubRate → s.settings.scrubRate = 0 → v ≠ 0 → t.maint.scrub = { s.maint.scrub with timer := some v }) ∧
       (x = .scrubRate → s.settings.scrubRate ≠ 0 → v ≠ 0 → t.maint.scrub = s.maint.scrub) ∧
       (x = .scrubRate → v = 0 → t.maint.scrub = { s.maint.scrub with
         timer := none, credit := false,
         resumeAtExpiry := s.maint.scrub.resumeAtExpiry || decide (s.maint.scrub.visit = .inRow) })) ∧
  (∀ (s : State) (r : Request) (rest : List Request) (id v : Byte), AtHead s r rest → r.payload = [0x05, id, v] →
     ((Param.ofId id.toNat = none ∨ ∃ x : Param, Param.ofId id.toNat = some x ∧ x.valueOk v.toNat = false) →
       AnswersOnly .setSetting s s rest { seq := r.seq, payload := [0x05, 0x03] }) ∧
     (∀ (x : Param) (p : Port), Param.ofId id.toNat = some x → x.valueOk v.toNat = true →
       (x = .enable p ∨ x = .width p ∨ x = .attention p) → s.queueOf p ≠ [] →
       AnswersOnly .setSetting s s rest { seq := r.seq, payload := [0x05, 0x02] }))

/-! ### Jobs (R37 to R57) -/

/-- SUBMIT's payload: every field at every value in range is read into the job's record as R41 has it, and a field out of
range is found. -/
def Obligations.SubmitFieldsAreRead : Prop :=
  ∀ (seq : Byte) (tag : Tag) (port mode address length steer hold : Nat), port < 256 → mode < 256 → steer < 256 →
    hold < 256 → address < 4294967296 → length < 4294967296 →
    submitJob { seq := seq, payload := 0x10 :: (natBytes 2 tag.toNat ++ natBytes 1 port ++ natBytes 1 mode ++
        natBytes 4 address ++ natBytes 4 length ++ natBytes 1 steer ++ natBytes 1 hold) } =
      if h : port < 4 then
        match Mode.ofCode mode with
        | none => none
        | some m =>
          if steer ≤ 15 ∧ hold ≤ 1 ∧ 1 ≤ length ∧ length ≤ 4194304 ∧ (m = .count ∨ address + length ≤ 268435456) then
            some {
              tag := tag, port := ⟨port, h⟩, mode := m, address := if m = .count then none else some address,
              length := length, steer := BitVec.ofNat 4 steer, hold := decide (hold = 1), state := .queued, moved := 0,
              outcome := none, faultAddress := none, holdBroken := false, correctedSeen := false, noticeNumber := none }
          else none
      else none

/-- SUBMIT refused: the status of the first check of R40 that fails, and nothing changed. -/
def Obligations.SubmitRefused : Prop :=
  ∀ (s : State) (lines : PortLines) (r : Request) (rest : List Request), AtHead s r rest → r.code = 0x10 →
    lengthOk r = true → s.part.state = .ready →
    (submitJob r = none →
      AnswersOnly (.submit lines) s (s.sample lines) rest { seq := r.seq, payload := [0x10, 0x03] }) ∧
    ∀ j : Job, submitJob r = some j →
      ((s.portSettings j.port).enable = false →
        AnswersOnly (.submit lines) s (s.sample lines) rest { seq := r.seq, payload := [0x10, 0x13] }) ∧
      ((s.portSettings j.port).enable = true → (s.jobOf j.tag).isSome = true →
        AnswersOnly (.submit lines) s (s.sample lines) rest { seq := r.seq, payload := [0x10, 0x09] }) ∧
      ((s.portSettings j.port).enable = true → s.jobOf j.tag = none → 8 ≤ (s.queueOf j.port).length →
        AnswersOnly (.submit lines) s (s.sample lines) rest { seq := r.seq, payload := [0x10, 0x04] }) ∧
      ((s.portSettings j.port).enable = true → s.jobOf j.tag = none → (s.queueOf j.port).length < 8 →
        32 ≤ s.jobs.length →
        AnswersOnly (.submit lines) s (s.sample lines) rest { seq := r.seq, payload := [0x10, 0x08] })

/-- SUBMIT accepted (R41): the record takes a slot, the tag joins the tail of its port's queue, OK is made, and nothing else
moves; then the port goes on. -/
def Obligations.SubmitAccepted : Prop :=
  ∀ (s : State) (lines : PortLines) (r : Request) (rest : List Request) (j : Job), AtHead s r rest → r.code = 0x10 →
    lengthOk r = true → s.part.state = .ready → submitJob r = some j → (s.portSettings j.port).enable = true →
    s.jobOf j.tag = none → (s.queueOf j.port).length < 8 → s.jobs.length < 32 →
    ∃ u : State, exec (.submit lines) s = .next ((u.portSettle j.port).schedule.transmit) ∧
      u.jobs = s.jobs ++ [j] ∧ u.queueOf j.port = s.queueOf j.port ++ [j.tag] ∧
      (∀ p : Port, p ≠ j.port → u.queueOf p = s.queueOf p) ∧
      AnsweredFrom s u rest { seq := r.seq, payload := [0x10, 0x00] } ∧ u.pins = (s.sample lines).pins ∧
      { u with link := s.link, proc := s.proc, jobs := s.jobs, queues := s.queues, pins := s.pins } = s

/-- SUBMIT to an IDLE engine with an empty queue and no request on XREQ starts the job at once (R42): ACTIVE with moved 0,
the engine RUNNING, SEL at the steer. An OUT or COMPARE job posts the READs of the first burst of its region and, if the region
reaches it, of the second, the lower first (R69, R66; their order in the list is the model's choice, log 14). So starts the head
of any port's queue when its engine is IDLE, a request standing on XREQ or not: the turn after that takes the request, one that an
earlier job has left standing among them, which is deduced from R63 (log 19). -/
def Obligations.SubmitStartsTheJob : Prop :=
  (∀ (s : State) (p : Port) (j : Job) (rest : List Tag), s.part.state = .ready → (s.engine p).state = .idle →
    s.queueOf p = j.tag :: rest → s.jobOf j.tag = some j → j.state = .queued → j.outcome = none → j.port = p →
    ∃ (u : State) (halves : List Half) (next : Option Nat) (reads : List Access), State.portStep p s = some u ∧
      TurnOf s u p j { j with state := .active, moved := 0 } ∧ u.banks = s.banks ∧
      u.outp p = { s.outp p with sel := j.steer } ∧
      u.engine p = { s.engine p with
        state := .running, activeJob := some j.tag, nextAddress := j.address, halves := halves, nextBurst := next,
        faultMark := none } ∧
      u.accesses = s.accesses ++ reads ∧
      ((j.mode = .inn ∨ j.mode = .count) → halves = [] ∧ next = none ∧ reads = []) ∧
      ((j.mode = .out ∨ j.mode = .compare) → Refilled p j [] (j.address.map (· / 32)) halves next reads)) ∧
  ∀ (s : State) (lines : PortLines) (r : Request) (rest : List Request) (j : Job), AtHead s r rest → r.code = 0x10 →
    lengthOk r = true → s.part.state = .ready → submitJob r = some j → (s.portSettings j.port).enable = true →
    s.jobOf j.tag = none → s.queueOf j.port = [] → s.jobs.length < 32 → (s.engine j.port).state = .idle →
    (s.pin j.port).xreq = none →
    ∃ t : State, exec (.submit lines) s = .next t ∧ Made t { seq := r.seq, payload := [0x10, 0x00] } ∧
      t.jobOf j.tag = some { j with state := .active } ∧ t.queueOf j.port = [j.tag] ∧
      (t.engine j.port).state = .running ∧ (t.engine j.port).activeJob = some j.tag ∧
      (t.engine j.port).nextAddress = j.address ∧ (t.engine j.port).faultMark = none ∧
      (t.outp j.port).sel = j.steer ∧ (t.outp j.port).xack = (s.outp j.port).xack ∧ t.mem = s.mem ∧
      ((j.mode = .inn ∨ j.mode = .count) → t.accesses.map posted = s.accesses.map posted ∧
        (t.engine j.port).halves = []) ∧
      ((j.mode = .out ∨ j.mode = .compare) → ∀ a k : Nat, j.address = some a → k = a / 32 →
        (32 * k + 32 < a + j.length →
          (t.engine j.port).halves = [.awaiting k, .awaiting (k + 1)] ∧
          t.accesses.map posted = s.accesses.map posted ++
            [wordsAccess (.port j.port j.tag) a (32 * k + 32) .read,
             wordsAccess (.port j.port j.tag) (32 * k + 32) (min (a + j.length) (32 * k + 64)) .read]) ∧
        (a + j.length ≤ 32 * k + 32 →
          (t.engine j.port).halves = [.awaiting k] ∧
          t.accesses.map posted = s.accesses.map posted ++
            [wordsAccess (.port j.port j.tag) a (a + j.length) .read]))

/-- CANCEL (R52 to R55): an ACTIVE job goes to STOPPING with CANCELLED, its count as it stands and its locks released, the bytes
it has staged are posted and what it has read ahead is discarded (R46, R75); a
QUEUED job keeps its place with CANCELLED and moved 0; OK is made with the state; then the port goes on. In DRAINING,
STOPPING, HELD and REPORTED the answer is TOO LATE, for an unknown tag NO TAG, and nothing changes. Nothing else of the part
moves before the port goes on. The response's STOPPING is the model's reading of R52 (log 20); that the response begins before the
JOB END of a job that finishes at once is its choice (log 42). -/
def Obligations.CancelByJobState : Prop :=
  (∀ (s : State) (lines : PortLines) (r : Request) (rest : List Request) (j : Job), AtHead s r rest →
     r.payload = 0x11 :: natBytes 2 j.tag.toNat → s.part.state = .ready → s.jobOf j.tag = some j →
     (j.state = .active → ∃ u : State, exec (.cancel lines) s = .next ((u.portSettle j.port).schedule.transmit) ∧
       AnsweredFrom s u rest { seq := r.seq, payload := [0x11, 0x00, 0x03] } ∧
       u.jobs = s.jobs.map (fun x => if x.tag = j.tag then
         { x with state := .stopping, outcome := some .cancelled, faultAddress := none } else x) ∧
       u.engine j.port = { s.engine j.port with
         state := .stopping, halves := awaitingHalves (s.engine j.port).halves } ∧
       u.accesses = s.accesses ++ stagedWrites j j.port (s.engine j.port).halves ∧
       (∀ p : Port, p ≠ j.port → u.engine p = s.engine p) ∧ LocksReleased s u j.tag ∧
       u.pins = (s.sample lines).pins ∧
       { u with link := s.link, proc := s.proc, jobs := s.jobs, engines := s.engines, banks := s.banks,
                accesses := s.accesses, pins := s.pins } = s) ∧
     (j.state = .queued → ∃ u : State, exec (.cancel lines) s = .next ((u.portSettle j.port).schedule.transmit) ∧
       AnsweredFrom s u rest { seq := r.seq, payload := [0x11, 0x00, 0x00] } ∧ u.pins = (s.sample lines).pins ∧
       u.jobs = s.jobs.map (fun x => if x.tag = j.tag then { x with outcome := some .cancelled, moved := 0 } else x) ∧
       { u with link := s.link, proc := s.proc, jobs := s.jobs, pins := s.pins } = s)) ∧
  (∀ (s : State) (lines : PortLines) (r : Request) (rest : List Request) (tag : Tag), AtHead s r rest →
     r.payload = 0x11 :: natBytes 2 tag.toNat → s.part.state = .ready →
     (∀ j : Job, s.jobOf tag = some j → j.state ≠ .queued → j.state ≠ .active →
       AnswersOnly (.cancel lines) s (s.sample lines) rest
         { seq := r.seq, payload := [0x11, 0x0B, byteOf j.state.code] }) ∧
     (s.jobOf tag = none →
       AnswersOnly (.cancel lines) s (s.sample lines) rest { seq := r.seq, payload := [0x11, 0x0A] }))

/-- JOB_QUERY: the 28 bytes of the record, or NO TAG; nothing changes. -/
def Obligations.JobQueryAnswers : Prop :=
  ∀ (s : State) (r : Request) (rest : List Request) (tag : Tag), AtHead s r rest →
    r.payload = 0x12 :: natBytes 2 tag.toNat → s.part.state = .ready →
    (∀ j : Job, s.jobOf tag = some j → AnswersOnly .jobQuery s s rest
      { seq := r.seq, payload := [0x12, 0x00] ++ natBytes 2 j.tag.toNat ++ [byteOf j.port.val, byteOf j.mode.code] ++
        natBytes 4 (j.address.getD 0) ++ natBytes 4 j.length ++ [byteOf j.steer.toNat, flagByte j.hold,
        byteOf j.state.code] ++ natBytes 4 j.moved ++
        [byteOf ((if j.address.isSome then 1 else 0) + (if j.outcome.isSome then 2 else 0) +
          (if j.faultAddress.isSome then 4 else 0) + (if j.noticeNumber.isSome then 8 else 0)),
         byteOf ((j.outcome.map JobOutcome.code).getD 0)] ++ natBytes 4 (j.faultAddress.getD 0) ++
        [flagByte j.holdBroken, flagByte j.correctedSeen, j.noticeNumber.getD 0] }) ∧
    (s.jobOf tag = none → AnswersOnly .jobQuery s s rest { seq := r.seq, payload := [0x12, 0x0A] })

/-- The finish of a job in STOPPING or DRAINING with nothing outstanding (R49, R75): PCLR, at the steer SEL carries, if it was
CANCELLED, and the engine's fault mark and next burst gone; then, with HOLDN deasserted and room, REPORTED under the number its
notice took, the queue's head gone and the engine IDLE with SEL 0; otherwise HELD, on the waiting-producer list where the offer was
refused. Its locks are released, and nothing else changes. A job CANCELLED while QUEUED finishes so at its turn, with no PCLR, no
steer and no access (R53); that SEL then stays as it is, 0, while such a job is HELD, where R62 has HELD carry the active job's
steer, is deduced, the model's reading of R53 and R55 (log 18). A pulse on PCLR is held as a count, the model's choice (log 24). -/
def Obligations.JobFinishes : Prop :=
  (∀ (s : State) (p : Port) (j : Job) (rest : List Tag), s.part.state = .ready →
    ((s.engine p).state = .stopping ∨ (s.engine p).state = .draining) → (s.engine p).activeJob = some j.tag →
    s.jobOf j.tag = some j → s.queueOf p = j.tag :: rest → s.outstanding p = 0 →
    (∀ h ∈ (s.engine p).halves, h.isFilling = false) →
    ∃ v t : State, State.portStep p s = some t ∧ Finishes v t p j rest ∧
      v.engine p = { s.engine p with faultMark := none, nextBurst := none } ∧
      v.outp p = (if j.outcome = some .cancelled then
        { s.outp p with pclrPulses := (s.outp p).pclrPulses + 1, pclrSel := (s.outp p).sel } else s.outp p) ∧
      (∀ q : Port, q ≠ p → v.engine q = s.engine q ∧ v.outp q = s.outp q) ∧
      { v with engines := s.engines, outs := s.outs } = s ∧
      (t.outp p).pclrPulses = (s.outp p).pclrPulses + (if j.outcome = some .cancelled then 1 else 0)) ∧
  ∀ (s : State) (p : Port) (j : Job) (rest : List Tag) (o : JobOutcome), s.part.state = .ready →
    (s.engine p).state = .idle → s.queueOf p = j.tag :: rest → s.jobOf j.tag = some j → j.state = .queued →
    j.outcome = some o →
    ∃ t : State, State.portStep p s = some t ∧ Finishes s t p j rest ∧ t.accesses = s.accesses ∧
      (t.outp p).pclrPulses = (s.outp p).pclrPulses ∧ (∀ q : Port, q ≠ p → t.engine q = s.engine q ∧ t.outp q = s.outp q)

/-! ### HOST READ, HOST WRITE (R160 to R163) -/

/-- HOST_READ and HOST_WRITE accepted (R160, R161): the access of the region's first burst is posted, the processor held; nothing
of the array changes yet. A count of 0 or above 1024 and a region that leaves the address space are answered RANGE, with nothing
changed. -/
def Obligations.HostAccessesPosted : Prop :=
  (∀ (s : State) (r : Request) (rest : List Request) (a n : Nat), AtHead s r rest → s.part.state = .ready →
    1 ≤ n → n ≤ 1024 → a + n ≤ 268435456 →
    (r.payload = 0x21 :: (natBytes 4 a ++ natBytes 2 n) → ∃ t : State, exec .hostRead s = .next t ∧
      Holds t r rest (.hostRead a n (a / 32) []) ∧ t.mem = s.mem ∧ t.jobs = s.jobs ∧
      t.accesses.map posted = s.accesses.map posted ++
        [{ client := .link, bank := Fin.ofNat 16 (a / 2048), row := Fin.ofNat 8192 (a / 32768), firstWord := a / 4 % 512,
           wordCount := (min (a + n) (a / 32 * 32 + 32) - 1) / 4 - a / 4 + 1, kind := .read, condition := .waiting }]) ∧
    (∀ data : List Byte, data.length = n → r.payload = 0x20 :: (natBytes 4 a ++ natBytes 2 n ++ data) →
      ∃ t : State, exec .hostWrite s = .next t ∧ Holds t r rest (.hostWrite a data (a / 32)) ∧ t.mem = s.mem ∧
        t.jobs = s.jobs ∧
        t.accesses.map posted = s.accesses.map posted ++
          [{ client := .link, bank := Fin.ofNat 16 (a / 2048), row := Fin.ofNat 8192 (a / 32768),
             firstWord := a / 4 % 512,
             wordCount := (min (a + n) (a / 32 * 32 + 32) - 1) / 4 - a / 4 + 1,
             kind := writeKind a (data.take (min (a + n) (a / 32 * 32 + 32) - a)) (a / 32), condition := .waiting }])) ∧
  ∀ (s : State) (r : Request) (rest : List Request) (a n : Nat), AtHead s r rest → s.part.state = .ready →
    a < 4294967296 → n < 65536 → (n = 0 ∨ 1024 < n ∨ 268435456 < a + n) →
    (r.payload = 0x21 :: (natBytes 4 a ++ natBytes 2 n) →
      AnswersOnly .hostRead s s rest { seq := r.seq, payload := [0x21, 0x03] }) ∧
    (∀ data : List Byte, data.length = n → r.payload = 0x20 :: (natBytes 4 a ++ natBytes 2 n ++ data) →
      AnswersOnly .hostWrite s s rest { seq := r.seq, payload := [0x20, 0x03] })

/-- A HOST READ's burst completes (R162): MEDIA at the first UNCORRECTABLE word; after the last burst OK with the region's
bytes; otherwise the next burst is posted, and the processor stays held with that burst and the bytes read so far. The response
of a request that LINK OPEN has condemned is neither cached nor sent (R131). -/
def Obligations.HostReadBurstCompletes : Prop :=
  ∀ (s : State) (decay : List Decay) (lines : PortLines) (x : Execution) (a : Access) (addr n burst : Nat)
      (got : List Byte), s.part.state = .ready → s.flying = some a → a.client = .link →
    s.proc.executing = some x → x.work = .hostRead addr n burst got → s.proc.held = none →
    ∃ t : State, exec (.burstComplete decay lines) s = .next t ∧
      (∀ w : Nat, x.discard = false → firstFaulty (State.perform { s with mem := s.mem.decay decay } a).2 = some w →
        t.proc.executing = none ∧ Made t { seq := x.seq, payload := [x.code, 0x0F] ++ natBytes 4 w }) ∧
      (x.discard = false → firstFaulty (State.perform { s with mem := s.mem.decay decay } a).2 = none →
        addr + n ≤ 32 * (burst + 1) →
        t.proc.executing = none ∧
        Made t (Response.mk x.seq ([x.code, 0x00] ++ got ++
          ((resultBytes (State.perform { s with mem := s.mem.decay decay } a).2).drop
            (max addr (32 * burst) - wordAddress a.bank a.row a.firstWord)).take
            (min (addr + n) (32 * burst + 32) - max addr (32 * burst))))) ∧
      (x.discard = true → (firstFaulty (State.perform { s with mem := s.mem.decay decay } a).2 ≠ none ∨
          addr + n ≤ 32 * (burst + 1)) →
        ∃ u : State, t = u.transmit ∧ u.link = s.link ∧ u.proc = { executing := none, held := none }) ∧
      (firstFaulty (State.perform { s with mem := s.mem.decay decay } a).2 = none → 32 * (burst + 1) < addr + n →
        t.proc = {
          executing := some { x with
            work := .hostRead addr n (burst + 1) (got ++
              ((resultBytes (State.perform { s with mem := s.mem.decay decay } a).2).drop
                (max addr (32 * burst) - wordAddress a.bank a.row a.firstWord)).take
                (min (addr + n) (32 * burst + 32) - max addr (32 * burst))) },
          held := none } ∧
        t.link.cache = s.link.cache ∧
        t.accesses.map posted = (dropFirst Access.isInFlight s.accesses).map posted ++
          [wordsAccess .link (max addr (32 * (burst + 1))) (min (addr + n) (32 * (burst + 1) + 32)) .read])

/-- A HOST WRITE's burst completes (R163): MEDIA with the bytes written and the first word not written; after the last burst
OK; otherwise the next burst is posted, with its bytes of the data, and the processor stays held with it. The response of a
request that LINK OPEN has condemned is neither cached nor sent (R131). -/
def Obligations.HostWriteBurstCompletes : Prop :=
  ∀ (s : State) (decay : List Decay) (lines : PortLines) (x : Execution) (a : Access) (addr burst : Nat)
      (data : List Byte), s.part.state = .ready → s.flying = some a → a.client = .link →
    s.proc.executing = some x → x.work = .hostWrite addr data burst → s.proc.held = none →
    ∃ t : State, exec (.burstComplete decay lines) s = .next t ∧
      (∀ w : Nat, x.discard = false → firstUnwritten (State.perform { s with mem := s.mem.decay decay } a).2 = some w →
        t.proc.executing = none ∧
        Made t { seq := x.seq, payload := [x.code, 0x0F] ++ natBytes 2 (w - addr) ++ natBytes 4 w }) ∧
      (x.discard = false → firstUnwritten (State.perform { s with mem := s.mem.decay decay } a).2 = none →
        addr + data.length ≤ 32 * (burst + 1) →
        t.proc.executing = none ∧ Made t { seq := x.seq, payload := [x.code, 0x00] }) ∧
      (x.discard = true → (firstUnwritten (State.perform { s with mem := s.mem.decay decay } a).2 ≠ none ∨
          addr + data.length ≤ 32 * (burst + 1)) →
        ∃ u : State, t = u.transmit ∧ u.link = s.link ∧ u.proc = { executing := none, held := none }) ∧
      ∀ low high : Nat, low = max addr (32 * (burst + 1)) → high = min (addr + data.length) (32 * (burst + 1) + 32) →
        firstUnwritten (State.perform { s with mem := s.mem.decay decay } a).2 = none →
        32 * (burst + 1) < addr + data.length →
        t.proc = { executing := some { x with work := .hostWrite addr data (burst + 1) }, held := none } ∧
        t.link.cache = s.link.cache ∧
        t.accesses.map posted = (dropFirst Access.isInFlight s.accesses).map posted ++
          [wordsAccess .link low high (writeKind low ((data.drop (low - addr)).take (high - low)) (burst + 1))]

/-! ### Control strobes (R80, R81) -/

/-- PORT_OUT and PORT_IN: taken, the engine is in CONTROL with SEL at the steer, COUT or CIN asserted, and D driven with the
byte (in 16-bit width with 0 above it) for PORT OUT alone; the processor is held. That PORT OUT's byte takes the place of an
earlier unit's on D, and that PORT IN leaves such a unit's bytes there, is the model's choice (log 31). Refused with RANGE, PORT
OFF or BUSY, nothing changes. -/
def Obligations.StrobesBeginOrAreRefused : Prop :=
  (∀ (s : State) (r : Request) (rest : List Request) (p : Port) (steer : BitVec 4) (b : Byte), AtHead s r rest →
    s.part.state = .ready → (s.portSettings p).enable = true → (s.engine p).state = .idle →
    (r.payload = [0x22, byteOf p.val, steer.setWidth 8, b] →
      ∃ u : State, exec .portOut s = .next u.transmit ∧ Holds u r rest (.portOut p) ∧
        u.engine p = { s.engine p with state := .control, control := some (.portOut steer b) } ∧
        u.outp p = { s.outp p with
          sel := steer, cout := true,
          d := if (s.portSettings p).width = .w8 then .low b else .full (b.setWidth 16) } ∧
        (∀ q : Port, q ≠ p → u.engine q = s.engine q ∧ u.outp q = s.outp q) ∧
        { u with link := s.link, proc := s.proc, engines := s.engines, outs := s.outs } = s) ∧
    (r.payload = [0x23, byteOf p.val, steer.setWidth 8] →
      ∃ u : State, exec .portIn s = .next u.transmit ∧ Holds u r rest (.portIn p) ∧
        u.engine p = { s.engine p with state := .control, control := some (.portIn steer) } ∧
        u.outp p = { s.outp p with sel := steer, cin := true } ∧
        (∀ q : Port, q ≠ p → u.engine q = s.engine q ∧ u.outp q = s.outp q) ∧
        { u with link := s.link, proc := s.proc, engines := s.engines, outs := s.outs } = s)) ∧
  ∀ (s : State) (r : Request) (rest : List Request) (code port steer : Byte) (c : Instr) (more : List Byte),
    AtHead s r rest → s.part.state = .ready → r.payload = [code, port, steer] ++ more →
    ((code = 0x22 ∧ c = .portOut ∧ more.length = 1) ∨ (code = 0x23 ∧ c = .portIn ∧ more.length = 0)) →
    ((4 ≤ port.toNat ∨ 16 ≤ steer.toNat) → AnswersOnly c s s rest { seq := r.seq, payload := [code, 0x03] }) ∧
    ∀ p : Port, port.toNat = p.val → steer.toNat < 16 →
      ((s.portSettings p).enable = false → AnswersOnly c s s rest { seq := r.seq, payload := [code, 0x13] }) ∧
      ((s.portSettings p).enable = true → (s.engine p).state ≠ .idle →
        AnswersOnly c s s rest { seq := r.seq, payload := [code, 0x02] })

/-- STROBE_END: COUT or CIN is deasserted, SEL is 0, the engine IDLE, and the request answered; PORT OUT releases D, PORT IN
answers with D[7:0] as it stands now; the other ports stand. The response of a request that LINK OPEN has condemned is neither
cached nor sent (R131). Without a strobe in execution nothing happens but the sampling, which is deduced (log 1): of every port
HOLDN, PSTAT and D are then as the row brings them, and nothing else moves. That the response begins before the JOB END of a job
that then finishes at once is the model's choice (log 42). -/
def Obligations.StrobeEnds : Prop :=
  (∀ (s : State) (lines : PortLines),
    (∀ q : Port, (s.sample lines).pin q = { s.pin q with
      holdn := lines[q].holdn, pstat := lines[q].pstat, d := lines[q].d }) ∧
    { s.sample lines with pins := s.pins } = s) ∧
  (∀ (s : State) (lines : PortLines), (∀ q : Port, s.work ≠ some (.portOut q) ∧ s.work ≠ some (.portIn q)) →
    exec (.strobeEnd lines) s = .next (s.sample lines)) ∧
  ∀ (s : State) (lines : PortLines) (p : Port) (x : Execution), s.proc.executing = some x →
    (x.work = .portOut p → ∃ u : State, exec (.strobeEnd lines) s = .next (u.portGoesOn p) ∧
      u.engine p = atRest (s.engine p) .idle ∧
      u.outp p = { s.outp p with sel := 0, cout := false, cin := false, d := .off } ∧
      (∀ q : Port, q ≠ p → u.engine q = s.engine q ∧ u.outp q = s.outp q) ∧ u.pins = (s.sample lines).pins ∧
      (x.discard = false → s.proc.held = none → Answered u { seq := x.seq, payload := [x.code, 0x00] }) ∧
      (x.discard = true → u.link = s.link ∧ u.proc = { s.proc with executing := none }) ∧
      { u with link := s.link, proc := s.proc, engines := s.engines, outs := s.outs, pins := s.pins } = s) ∧
    (x.work = .portIn p → ∃ u : State, exec (.strobeEnd lines) s = .next (u.portGoesOn p) ∧
      u.engine p = atRest (s.engine p) .idle ∧
      u.outp p = { s.outp p with sel := 0, cout := false, cin := false } ∧
      (∀ q : Port, q ≠ p → u.engine q = s.engine q ∧ u.outp q = s.outp q) ∧ u.pins = (s.sample lines).pins ∧
      (x.discard = false → s.proc.held = none →
        Answered u { seq := x.seq, payload := [x.code, 0x00, lines[p].d.extractLsb' 0 8] }) ∧
      (x.discard = true → u.link = s.link ∧ u.proc = { s.proc with executing := none }) ∧
      { u with link := s.link, proc := s.proc, engines := s.engines, outs := s.outs, pins := s.pins } = s)

/-! ### Weak rows, repair and the logs (R102, R103, R115, R116, R123, R164, R165) -/

/-- READ_WEAK_LIST (R103, R140): the list-full flag and the entries in list order, in READY and in SLEEPING; nothing changes.
CLEAR_WEAK_ENTRY (R102): the entry of the row leaves the list, the others close up in order, and the list-full flag clears; a
row out of range is RANGE and an unlisted one NOT LISTED, with nothing changed. A report (R97, R98): the entry of a listed row is
updated in its place; an unlisted row is appended, in a full list for the oldest entry without UNCORRECTABLE, and not at all
where every entry has it. Its alerts (R98, R100): UNCORRECTABLE for each report with such a word, from the scrub once a visit;
then WEAK LIST FULL, once, where the report could not be recorded. -/
def Obligations.WeakListIsReadAndCleared : Prop :=
  ((∀ (s : State) (r : Request) (rest : List Request), AtHead s r rest → r.payload = [0x30] →
     ((s.part.state = .ready ∨ s.part.state = .sleeping) →
       AnswersOnly .readWeakList s s rest
         { seq := r.seq, payload := [0x30, 0x00, byteOf s.media.list.length, flagByte s.media.listFull] ++
           s.media.list.flatMap fun e => [byteOf e.bank.val] ++ natBytes 2 e.row.val ++
             [byteOf e.correctedCount, flagByte e.uncorrectable, flagByte e.remapped, byteOf e.firstSource.code] }) ∧
     (s.part.state = .starting → AnswersOnly .readWeakList s s rest { seq := r.seq, payload := [0x30, 0x0C] }) ∧
     ((s.part.state = .waking ∨ s.part.state = .resetting) →
       AnswersOnly .readWeakList s s rest { seq := r.seq, payload := [0x30, 0x02] })) ∧
  (∀ (s : State) (r : Request) (rest : List Request) (bank row : Nat), AtHead s r rest → bank < 256 → row < 65536 →
     r.payload = 0x31 :: (natBytes 1 bank ++ natBytes 2 row) → s.part.state = .ready →
     ((16 ≤ bank ∨ 8192 ≤ row) → AnswersOnly .clearWeakEntry s s rest { seq := r.seq, payload := [0x31, 0x03] }) ∧
     (bank < 16 → row < 8192 → (∀ e ∈ s.media.list, ¬(e.bank.val = bank ∧ e.row.val = row)) →
       AnswersOnly .clearWeakEntry s s rest { seq := r.seq, payload := [0x31, 0x15] }) ∧
     ∀ (before after : List WeakEntry) (e : WeakEntry), s.media.list = before ++ e :: after → e.bank.val = bank →
       e.row.val = row → (∀ x ∈ before, ¬(x.bank = e.bank ∧ x.row = e.row)) →
       ∃ t : State, exec .clearWeakEntry s = .next t ∧ Made t { seq := r.seq, payload := [0x31, 0x00] } ∧
         t.link.intake = rest ∧ LinkKept s t ∧
         t.media = { list := before ++ after, listFull := false, scrubMark := s.media.scrubMark } ∧
         { t with link := s.link, proc := s.proc, media := s.media } = s)) ∧
  (∀ (s : State) (src : Source) (b : Bank) (row : Row) (c u : Nat),
    (∀ (before after : List WeakEntry) (e : WeakEntry), s.media.list = before ++ e :: after → e.bank = b → e.row = row →
      (∀ x ∈ before ++ after, ¬(x.bank = b ∧ x.row = row)) →
      s.record src b row c u = { s with media := { s.media with
        list := before ++ { e with
          correctedCount := min 255 (e.correctedCount + c), uncorrectable := e.uncorrectable || decide (1 ≤ u),
          remapped := (s.remapOf b).any fun x => decide (x.row = row) } :: after } }) ∧
    ∀ new : WeakEntry, new = {
        bank := b, row := row, correctedCount := c, uncorrectable := decide (1 ≤ u),
        remapped := (s.remapOf b).any fun x => decide (x.row = row), firstSource := src } →
      (∀ x ∈ s.media.list, ¬(x.bank = b ∧ x.row = row)) →
      (s.media.list.length < 32 →
        s.record src b row c u = { s with media := { s.media with list := s.media.list ++ [new] } }) ∧
      (∀ (before after : List WeakEntry) (e : WeakEntry), 32 ≤ s.media.list.length → s.media.list = before ++ e :: after →
        e.uncorrectable = false → (∀ x ∈ before, x.uncorrectable = true) →
        s.record src b row c u = { s with media := { s.media with list := before ++ after ++ [new] } }) ∧
      (32 ≤ s.media.list.length → (∀ x ∈ s.media.list, x.uncorrectable = true) → s.record src b row c u = s)) ∧
  ∀ (s : State) (a : Access) (rs : List WordResult),
    ∃ v w : State,
      v = s.record a.client.source a.bank a.row (rs.filter fun x => decide (x.outcome = some .corrected)).length
        (rs.filter fun x => decide (x.outcome = some .uncorrectable)).length ∧
      ((∀ x ∈ rs, x.outcome ≠ some .uncorrectable) → w = v) ∧
      (∀ (before after : List WordResult) (x : WordResult), rs = before ++ x :: after → x.outcome = some .uncorrectable →
        (∀ y ∈ before, y.outcome ≠ some .uncorrectable) →
        (a.client.source ≠ .scrub → w = v.offerAlert (.uncorrectable a.client.source a.bank a.row x.address)) ∧
        (a.client.source = .scrub → v.media.scrubMark = some (a.bank, a.row) → w = v) ∧
        (a.client.source = .scrub → v.media.scrubMark ≠ some (a.bank, a.row) →
          w = ({ v with media := { v.media with scrubMark := some (a.bank, a.row) } }).offerAlert
            (.uncorrectable .scrub a.bank a.row x.address))) ∧
      (¬CannotRecord s a.bank a.row → s.report a rs = w) ∧
      (CannotRecord s a.bank a.row → w.media.listFull = true → s.report a rs = w) ∧
      (CannotRecord s a.bank a.row → w.media.listFull = false →
        s.report a rs = ({ w with media := { w.media with listFull := true } }).offerAlert (.weakListFull a.bank a.row))

/-- REPAIR_ROW: RANGE, ALREADY, NO SPARE, NO FUSE and BUSY in this order with nothing changed; accepted, the lowest FREE
spare is the target, the claim waits or is taken at once, and ACCEPTED is made. -/
def Obligations.RepairRowIsJudged : Prop :=
  ∀ (s : State) (r : Request) (rest : List Request) (bank row kind : Nat), AtHead s r rest → bank < 256 → row < 65536 →
    kind < 256 → r.payload = 0x32 :: (natBytes 1 bank ++ natBytes 2 row ++ natBytes 1 kind) → s.part.state = .ready →
    ((16 ≤ bank ∨ 8192 ≤ row ∨ 2 ≤ kind) → AnswersOnly .repairRow s s rest { seq := r.seq, payload := [0x32, 0x03] }) ∧
    ∀ (b : Bank) (w : Row) (k : RepairKind), b.val = bank → w.val = row → k.code = kind →
      ((∃ e ∈ s.remapOf b, e.row = w) → AnswersOnly .repairRow s s rest { seq := r.seq, payload := [0x32, 0x10] }) ∧
      ((∀ e ∈ s.remapOf b, e.row ≠ w) →
        ((∀ i : Spare, ∃ e ∈ s.remapOf b, e.spare = i) →
          AnswersOnly .repairRow s s rest { seq := r.seq, payload := [0x32, 0x11] }) ∧
        ∀ i : Spare, (∀ e ∈ s.remapOf b, e.spare ≠ i) → (∀ i' : Spare, i' < i → ∃ e ∈ s.remapOf b, e.spare = i') →
          (k = .hard → (∀ m : Slot, s.fuseOf b m ≠ .free) →
            AnswersOnly .repairRow s s rest { seq := r.seq, payload := [0x32, 0x12] }) ∧
          ((k = .soft ∨ ∃ m : Slot, s.fuseOf b m = .free) → s.maint.op ≠ .none →
            AnswersOnly .repairRow s s rest { seq := r.seq, payload := [0x32, 0x02] }) ∧
          ((k = .soft ∨ ∃ m : Slot, s.fuseOf b m = .free) → s.maint.op = .none →
            ∃ t : State, exec .repairRow s = .next t ∧ Made t { seq := r.seq, payload := [0x32, 0x01] } ∧
              t.link.intake = rest ∧ t.mem = s.mem ∧ t.remap = s.remap ∧ t.fuses = s.fuses ∧ t.jobs = s.jobs ∧
              t.accesses.map posted = s.accesses.map posted ∧
              ∃ phase : RepairPhase, t.maint.op = .repair
                  { bank := b, row := w, kind := k, target := i, phase := phase, fuseSlot := none, uncorrectable := 0,
                    outcome := none } ∧
                (phase = .claiming ∨ (phase = .copying ∧ (t.bank b).state = .repairing))))

/-- READ_REMAP: the bank, its entries in ascending order of spare, the eight spares' flags and the four fuse slots, in READY
and in SLEEPING; nothing changes. -/
def Obligations.RemapIsRead : Prop :=
  ∀ (s : State) (r : Request) (rest : List Request) (bank : Byte), AtHead s r rest → r.payload = [0x33, bank] →
    ((s.part.state = .ready ∨ s.part.state = .sleeping) →
      (16 ≤ bank.toNat → AnswersOnly .readRemap s s rest { seq := r.seq, payload := [0x33, 0x03] }) ∧
      ∀ (b : Bank) (entries : List RemapEntry), b.val = bank.toNat → entries.Perm (s.remapOf b) →
        entries.Pairwise (fun x y => x.spare < y.spare) →
        AnswersOnly .readRemap s s rest
          { seq := r.seq, payload := [0x33, 0x00, bank, byteOf entries.length] ++
            (entries.flatMap fun e => natBytes 2 e.row.val ++ [byteOf e.spare.val, flagByte (decide (e.kind = .hard))]) ++
            (([0, 1, 2, 3, 4, 5, 6, 7] : List Spare).map fun i =>
              flagByte (entries.any fun e => decide (e.spare = i))) ++
            (([0, 1, 2, 3] : List Slot).flatMap fun m =>
              match s.fuseOf b m with
              | .free => [0, 0, 0, 0]
              | .programming => [1, 0, 0, 0]
              | .used w i => [2] ++ natBytes 2 w.val ++ [byteOf i.val]
              | .spoiled => [3, 0, 0, 0]) }) ∧
    (s.part.state = .starting → AnswersOnly .readRemap s s rest { seq := r.seq, payload := [0x33, 0x0C] }) ∧
    ((s.part.state = .waking ∨ s.part.state = .resetting) →
      AnswersOnly .readRemap s s rest { seq := r.seq, payload := [0x33, 0x02] })

/-- READ_ERROR_LOG and CLEAR_ERROR, in every part state (R164, R165). -/
def Obligations.ErrorLogIsReadAndCleared : Prop :=
  ∀ (s : State) (r : Request) (rest : List Request), AtHead s r rest →
    (r.payload = [0x40] → AnswersOnly .readErrorLog s s rest
      { seq := r.seq, payload := [0x40, 0x00, byteOf s.link.log.length, flagByte s.link.overflow] ++
        s.link.log.flatMap fun e => [byteOf e.cause.code, e.kind, e.seq] ++ natBytes 2 e.len }) ∧
    ∀ v : Byte, r.payload = [0x41, v] →
      (1 < v.toNat → AnswersOnly .clearError s s rest { seq := r.seq, payload := [0x41, 0x03] }) ∧
      (v.toNat ≤ 1 → ∃ t : State, exec .clearError s = .next t ∧ Made t { seq := r.seq, payload := [0x41, 0x00] } ∧
        t.link.intake = rest ∧ t.link.halt = false ∧ t.notices = { s.notices with alertsLost := false } ∧
        t.link.log = (if v = 1 then [] else s.link.log) ∧
        t.link.overflow = (if v = 1 then false else s.link.overflow) ∧
        t.link.isOpen = s.link.isOpen ∧ t.link.expected = s.link.expected ∧ t.link.rx = s.link.rx ∧
        { t with link := s.link, proc := s.proc, notices := s.notices } = s)

/-! ### Part states (R169 to R173) -/

/-- ENGINE_RESET by part state (R172): STARTING answers STARTING; SLEEPING begins the wake with target RESETTING; WAKING turns
to that target; READY ends every job without a report, and with nothing outstanding the part is READY again at once with
OK made, while an engine with accesses outstanding keeps it RESETTING; that such an engine keeps its state meanwhile is
deduced (log 23). In RESETTING the end of the last burst outstanding ends the reset (R173): every job is gone without a report,
the part is READY, the engine's port is pulsed with PCLR, and the request is answered, or its response discarded (R131); while
another burst is outstanding the reset goes on.
What each block does at the entry, here and at the end of a wake (R172): the ports' producers are withdrawn (R151), every lock is
released without HOLD BROKEN (R36), a repair CLAIMING or COPYING is gone, one in another phase goes on (R122), the scrub is back at
position 0 with its pass number, rate and timer kept (R110), and each engine begins stopping (R82); nothing else changes. An
abandoned copy has written the first words of its spare, how many being a free value (log 16). What the end does (R57, R151, R173):
the jobs and the JOB END notices are gone, waiting producers are admitted, the part is READY, the enabled engines are IDLE, the
scrub begins anew, the request is answered; that its OK begins on the line before a notice so let in is the model's choice
(log 42). A pulse on PCLR is held as a count, its choice too (log 24). -/
def Obligations.EngineResetByPartState : Prop :=
  ((∀ s : State, ∃ v : State,
      s.enterReset = ((((v.beginStop 0).beginStop 1).beginStop 2).beginStop 3).endReset ∧
      v.part = { s.part with state := .resetting, wakeTarget := none } ∧
      v.notices = { s.notices with waiting := s.notices.waiting.filter fun x => !ofPort x } ∧
      v.media = { s.media with scrubMark := none } ∧ v.maint.scrub = scrubRestarted s ∧
      (∀ r : RepairRecord, s.maint.op = .repair r → (r.phase = .claiming ∨ r.phase = .copying) → v.maint.op = .none) ∧
      ((∀ r : RepairRecord, s.maint.op = .repair r → r.phase ≠ .claiming ∧ r.phase ≠ .copying) →
        v.maint.op = s.maint.op) ∧
      (∀ r : RepairRecord, s.maint.op = .repair r → r.phase = .copying →
        (∃ n : Nat, n ≤ 512 ∧ CopiedInto s.mem v.mem r.bank r.row r.target n) ∧
        v.bank r.bank = { s.bank r.bank with state := .closed, lockHolder := none, lockTimer := none } ∧
        ∀ b : Bank, b ≠ r.bank → v.bank b = { s.bank b with lockHolder := none, lockTimer := none }) ∧
      ((∀ r : RepairRecord, s.maint.op = .repair r → r.phase ≠ .copying) →
        v.mem = s.mem ∧ v.freeCtr = s.freeCtr ∧
        ∀ b : Bank, v.bank b = { s.bank b with lockHolder := none, lockTimer := none }) ∧
      { v with part := s.part, notices := s.notices, media := s.media, banks := s.banks, maint := s.maint, mem := s.mem,
               freeCtr := s.freeCtr } = s) ∧
   (∀ (s : State) (p : Port),
     (s.outstanding p ≠ 0 → s.beginStop p = s.setEngine p { s.engine p with
       halves := onlyAwaiting (s.engine p).halves, nextBurst := none, faultMark := none, attention := none }) ∧
     (s.outstanding p = 0 →
       (s.beginStop p).engine p = { atRest (s.engine p) .inert with attention := none } ∧
       (s.beginStop p).outp p = stoppedOuts (s.outp p) ∧
       (∀ q : Port, q ≠ p → (s.beginStop p).engine q = s.engine q ∧ (s.beginStop p).outp q = s.outp q) ∧
       { s.beginStop p with engines := s.engines, outs := s.outs } = s)) ∧
   (∀ s : State,
     ((s.part.state ≠ .resetting ∨ ∃ p : Port, (s.engine p).state ≠ .inert) → s.endReset = s) ∧
     (s.part.state = .resetting → (∀ p : Port, (s.engine p).state = .inert) →
       ∃ v w : State,
         v = State.admitWaiting { s with
           jobs := [], queues := Vector.replicate 4 [],
           notices := { s.notices with
             outbox := s.notices.outbox.filter fun n => !isJobEnd n.body,
             npend := !(s.notices.outbox.filter fun n => !isJobEnd n.body).isEmpty } } ∧
         w.part = { v.part with state := .ready } ∧
         (∀ p : Port, (s.portSettings p).enable = true →
           w.engine p = atRest (v.engine p) .idle ∧ w.outp p = { v.outp p with sel := 0 }) ∧
         (∀ p : Port, (s.portSettings p).enable = false → w.engine p = v.engine p ∧ w.outp p = v.outp p) ∧
         { w with part := v.part, engines := v.engines, outs := v.outs } = v ∧
         s.endReset = w.scrubAdvance.endExecution .ok [])) ∧
   (∀ s : State,
     (s.proc.executing = none → s.endExecution .ok [] = s) ∧
     ∀ (x : Execution) (resp : Response), s.proc.executing = some x → resp = { seq := x.seq, payload := [x.code, 0x00] } →
       (x.discard = true → s.endExecution .ok [] = { s with proc := { s.proc with executing := none } }) ∧
       (x.discard = false →
         (s.link.queue.length < 8 → s.endExecution .ok [] = { s with
           proc := { s.proc with executing := none },
           link := { s.link with cache := withCached s.link.cache resp, queue := s.link.queue ++ [resp] } }) ∧
         (8 ≤ s.link.queue.length → s.endExecution .ok [] = { s with
           proc := { executing := none, held := some resp },
           link := { s.link with cache := withCached s.link.cache resp } }))) ∧
   (∀ s : State, s.part.state = .waking → s.part.wakeTarget = some .resetting →
     exec .wakeComplete s = .next s.enterReset.schedule.transmit) ∧
   ∀ (s v : State) (r : Request) (rest : List Request), AtHead s r rest → r.payload = [0x50] → s.part.state = .ready →
     v = { s with
       link := { s.link with intake := rest },
       proc := { s.proc with
         executing := some { seq := r.seq, code := r.code, work := .engineReset, discard := false } } } →
     exec .engineReset s = .next v.enterReset.schedule.transmit) ∧
  (∀ (s : State) (r : Request) (rest : List Request), AtHead s r rest → r.payload = [0x50] →
    (s.part.state = .starting → AnswersOnly .engineReset s s rest { seq := r.seq, payload := [0x50, 0x0C] }) ∧
    (s.part.state = .sleeping → ∃ u : State, exec .engineReset s = .next u.transmit ∧ Holds u r rest .engineReset ∧
      u.part = { s.part with state := .waking, wakeTarget := some .resetting } ∧
      u.refresh = { s.refresh with tick := some s.effectiveRange } ∧
      { u with link := s.link, proc := s.proc, part := s.part, refresh := s.refresh } = s) ∧
    (s.part.state = .waking → ∃ u : State, exec .engineReset s = .next u.transmit ∧ Holds u r rest .engineReset ∧
      u.part = { s.part with wakeTarget := some .resetting } ∧
      { u with link := s.link, proc := s.proc, part := s.part } = s) ∧
    (s.part.state = .ready → (∀ p : Port, s.outstanding p = 0) →
      ∃ t : State, exec .engineReset s = .next t ∧ t.part.state = .ready ∧ t.jobs = [] ∧
        (∀ p : Port, t.queueOf p = [] ∧ (t.engine p).halves = [] ∧ (t.engine p).activeJob = none ∧
          (t.engine p).attention = none ∧ (t.engine p).faultMark = none ∧
          (t.engine p).state = (if (s.portSettings p).enable then .idle else .inert) ∧
          (t.outp p).xack = false ∧ (t.outp p).sel = 0 ∧ (t.outp p).d = .off ∧
          (t.outp p).pclrPulses = (s.outp p).pclrPulses + 1 ∧ (t.outp p).pclrSel = 0) ∧
        (∀ b : Bank, (t.bank b).lockHolder = none) ∧ (∀ n ∈ t.notices.outbox, isJobEnd n.body = false) ∧
        Made t { seq := r.seq, payload := [0x50, 0x00] } ∧ t.settings = s.settings ∧ t.remap = s.remap ∧
        t.fuses = s.fuses ∧ t.media.list = s.media.list ∧
        ((∀ x : RepairRecord, s.maint.op = .repair x → x.phase ≠ .copying) → t.mem = s.mem)) ∧
    (s.part.state = .ready → ∀ p : Port, 0 < s.outstanding p → (s.engine p).state ≠ .inert →
      ∃ t : State, exec .engineReset s = .next t ∧ t.part.state = .resetting ∧ Holds t r rest .engineReset ∧
        (t.engine p).state = (s.engine p).state ∧ (∀ h ∈ (t.engine p).halves, ∃ k, h = .awaiting k) ∧
        (t.engine p).attention = none ∧ t.accesses.map posted = s.accesses.map posted ∧
        (∀ b : Bank, (t.bank b).lockHolder = none) ∧ t.jobs = s.jobs)) ∧
  ∀ (s : State) (decay : List Decay) (lines : PortLines) (a : Access) (p : Port) (tag : Tag), s.part.state = .resetting →
    s.part.sleepEntry = false → s.flying = some a → a.client = .port p tag →
    ∃ t : State, exec (.burstComplete decay lines) s = .next t ∧
      (((2 ≤ s.outstanding p ∧ (s.engine p).state ≠ .inert) ∨ ∃ q : Port, q ≠ p ∧ (s.engine q).state ≠ .inert) →
        t.part = s.part ∧ t.jobs = s.jobs ∧ t.queues = s.queues ∧ t.proc.executing = s.proc.executing ∧
        t.link.cache = s.link.cache) ∧
      ∀ x : Execution, s.outstanding p = 1 → (∀ q : Port, q ≠ p → (s.engine q).state = .inert) →
        s.proc.executing = some x → s.proc.held = none →
        t.part = { s.part with state := .ready } ∧ t.jobs = [] ∧
        (∀ q : Port, t.queueOf q = [] ∧ (t.outp q).sel = (if q = p ∨ (s.portSettings q).enable then 0 else (s.outp q).sel) ∧
          (t.engine q).state = (if (s.portSettings q).enable then .idle else .inert)) ∧
        (t.outp p).pclrPulses = (s.outp p).pclrPulses + 1 ∧ (t.outp p).xack = false ∧
        (∀ n ∈ t.notices.outbox, isJobEnd n.body = false) ∧ t.proc.executing = none ∧
        (x.discard = false → Made t { seq := x.seq, payload := [x.code, 0x00] }) ∧
        (x.discard = true → t.link.cache = s.link.cache) ∧
        t.settings = s.settings ∧ t.remap = s.remap ∧ t.fuses = s.fuses

/-- SLEEP (R169, R170): BUSY while a port has an unfinished job or a maintenance operation runs; accepted, every engine is
INERT, and the part is SLEEPING with OK made once no access is in the list, every bank is CLOSED and every debt is 0. That end
(R91) comes in the SLEEP's own step or later, at the close of the last bank or the end of the last group refresh; a burst's end
leaves the entry going on, for its bank is still to close, and a group that still owes refreshes again. The response of a SLEEP
that LINK OPEN has condemned is neither cached nor sent (R131). -/
def Obligations.SleepIsEnteredWhenQuiet : Prop :=
  (∀ (s : State) (r : Request) (rest : List Request), AtHead s r rest → r.payload = [0x51] → s.part.state = .ready →
    (((∃ p : Port, s.queueOf p ≠ []) ∨ s.maint.op ≠ .none) →
      AnswersOnly .sleep s s rest { seq := r.seq, payload := [0x51, 0x02] }) ∧
    ((∀ p : Port, s.queueOf p = []) → s.maint.op = .none →
      ∃ t : State, exec .sleep s = .next t ∧
        (∀ p : Port, (t.engine p).state = .inert ∧ (t.outp p).xack = false ∧ (t.outp p).sel = 0 ∧ (t.outp p).d = .off ∧
          (t.engine p).attention = (s.engine p).attention) ∧
        t.mem = s.mem ∧ t.settings = s.settings ∧ t.jobs = s.jobs ∧ t.accesses.map posted = s.accesses.map posted ∧
        ((s.accesses = [] ∧ (∀ b : Bank, (s.bank b).state = .closed) ∧ ∀ g : Group, (s.group g).debt = 0) →
          t.part.state = .sleeping ∧ t.part.sleepEntry = false ∧ t.refresh.tick = none ∧ t.proc.executing = none ∧
          Made t { seq := r.seq, payload := [0x51, 0x00] }) ∧
        ((s.accesses ≠ [] ∨ (∃ b : Bank, (s.bank b).state ≠ .closed) ∨ ∃ g : Group, (s.group g).debt ≠ 0) →
          t.part.state = .ready ∧ t.part.sleepEntry = true ∧ t.refresh.tick = s.refresh.tick ∧ Holds t r rest .sleep))) ∧
  (∀ s : State, (¬MaySleep s → s.endSleepEntry = s) ∧
    ∀ x : Execution, MaySleep s → s.proc.executing = some x →
      s.endSleepEntry.part = { s.part with state := .sleeping, sleepEntry := false } ∧
      s.endSleepEntry.refresh = { s.refresh with tick := none } ∧
      { s.endSleepEntry with part := s.part, refresh := s.refresh, link := s.link, proc := s.proc } = s ∧
      (x.discard = false → s.proc.held = none → Answered s.endSleepEntry { seq := x.seq, payload := [x.code, 0x00] }) ∧
      (x.discard = true → s.endSleepEntry.link = s.link ∧ s.endSleepEntry.proc = { s.proc with executing := none })) ∧
  (∀ (s : State) (x : Execution), s.part.sleepEntry = true → s.maint.op = .none → s.accesses = [] →
    s.proc.executing = some x → x.discard = false → s.proc.held = none →
    (∀ (b : Bank) (w : OpenRow), (s.bank b).state = .closing w → (∀ b' : Bank, b' ≠ b → (s.bank b').state = .closed) →
      (∀ g : Group, (s.group g).debt = 0) →
      ∃ t : State, exec (.bankCloseComplete b) s = .next t ∧ FellAsleep s t x) ∧
    ∀ g : Group, (∀ b : Bank, groupOf b = g → (s.bank b).state = .refreshing) →
      ∃ t : State, exec (.groupRefreshComplete g) s = .next t ∧
        ((s.group g).debt ≤ 1 → (∀ b : Bank, groupOf b ≠ g → (s.bank b).state = .closed) →
          (∀ g' : Group, g' ≠ g → (s.group g').debt = 0) → FellAsleep s t x) ∧
        (2 ≤ (s.group g).debt → t.part = s.part ∧ t.proc.executing = some x ∧
          ∀ b : Bank, groupOf b = g → (t.bank b).state = .refreshing)) ∧
  ∀ (s : State) (decay : List Decay) (lines : PortLines) (a : Access) (w : OpenRow), s.part.state = .ready →
    s.part.sleepEntry = true → s.flying = some a → (s.bank a.bank).state = .opened w →
    ∃ t : State, exec (.burstComplete decay lines) s = .next t ∧ t.part = s.part ∧ t.refresh.tick = s.refresh.tick

/-- WAKE by part state, and WAKE_COMPLETE (R91, R171): the tick timer starts with the wake; at its end with target READY the
enabled engines are IDLE and the waiting request is answered OK. -/
def Obligations.WakeByPartState : Prop :=
  (∀ (s : State) (r : Request) (rest : List Request), AtHead s r rest → r.payload = [0x52] →
    (s.part.state = .sleeping → ∃ u : State, exec .wake s = .next u.transmit ∧ Holds u r rest .wake ∧
      u.part = { s.part with state := .waking, wakeTarget := some .ready, wakeWaiting := true } ∧
      u.refresh = { s.refresh with tick := some s.effectiveRange } ∧
      { u with link := s.link, proc := s.proc, part := s.part, refresh := s.refresh } = s) ∧
    (s.part.state = .waking → ∃ u : State, exec .wake s = .next u.transmit ∧ Holds u r rest .wake ∧
      u.part = { s.part with wakeWaiting := true } ∧ { u with link := s.link, proc := s.proc, part := s.part } = s) ∧
    (s.part.state = .ready → AnswersOnly .wake s s rest { seq := r.seq, payload := [0x52, 0x00] }) ∧
    (s.part.state = .starting → AnswersOnly .wake s s rest { seq := r.seq, payload := [0x52, 0x0C] }) ∧
    (s.part.state = .resetting → AnswersOnly .wake s s rest { seq := r.seq, payload := [0x52, 0x02] })) ∧
  ∀ s : State, s.part.state = .waking →
    (s.part.wakeTarget = some .ready → ∃ t : State, exec .wakeComplete s = .next t ∧
      t.part = { s.part with state := .ready, wakeTarget := none, wakeWaiting := false } ∧
      (∀ p : Port, (s.portSettings p).enable = true → (t.engine p).state = .idle ∧ (t.outp p).sel = 0) ∧
      (∀ p : Port, (s.portSettings p).enable = false → t.engine p = s.engine p ∧ t.outp p = s.outp p) ∧
      t.mem = s.mem ∧ t.jobs = s.jobs ∧ t.settings = s.settings ∧
      ∀ x : Execution, s.part.wakeWaiting = true → s.proc.executing = some x → x.discard = false → s.proc.held = none →
        t.proc.executing = none ∧ Made t { seq := x.seq, payload := [x.code, 0x00] }) ∧
    (s.part.wakeTarget = some .resetting → (∀ p : Port, s.outstanding p = 0) →
      ∃ t : State, exec .wakeComplete s = .next t ∧ t.part.state = .ready ∧ t.part.wakeTarget = none ∧ t.jobs = [] ∧
        (∀ n ∈ t.notices.outbox, isJobEnd n.body = false) ∧
        ∀ x : Execution, s.proc.executing = some x → x.discard = false → s.proc.held = none →
          t.proc.executing = none ∧ Made t { seq := x.seq, payload := [x.code, 0x00] })

/-! ### Refresh and temperature (R85 to R93) -/

/-- REFRESH_TICK (R85, R88, R35): each group's debt rises by 1; at 8 the group becomes URGENT and the locks on its banks are
broken, HOLD BROKEN set on their jobs and on no other; a group that owes 8 offers a REFRESH OVERRUN instead, several of them in the
order of their numbers, which is the model's choice (log 29). The timer runs on with the effective range's period.
GROUP_REFRESH_COMPLETE (R87): the debt falls by 1, URGENT clears at 4, the rotation moves on, the banks are CLOSED. The claim of
a group (R86, R88): taken when it owes, its banks are CLOSED, and it is URGENT or no access to it is in the list; then its four
banks are REFRESHING together (R12). The claim of a repair, or of the spare step, on a bank (R13, R117, R168): taken when the
bank is CLOSED and unlocked, no burst is in flight there and its group is not URGENT; then the bank is REPAIRING, and a repair is
copying. Which of a refresh claim and a repair claim is first is a free choice (log 12), made before the other refresh claims. -/
def Obligations.RefreshKeepsItsDebts : Prop :=
  (∀ s : State, s.takeClaims = s.takeRepairIfFirst.takeRefreshClaims ∧
    { s.takeRefreshClaims with banks := s.banks } = s ∧
    ∀ (g : Group) (b : Bank), groupOf b = g →
      (RefreshDue s g → s.takeRefreshClaims.bank b = { s.bank b with state := .refreshing }) ∧
      (¬RefreshDue s g → s.takeRefreshClaims.bank b = s.bank b)) ∧
  (∀ s : State, ((∀ b : Bank, ¬RepairDue s b) → s.takeRepairIfFirst = s) ∧
    ∀ b : Bank, RepairDue s b →
      (¬RefreshDue s (groupOf b) → s.takeRepairIfFirst = claimTaken s b) ∧
      (RefreshDue s (groupOf b) → ∀ s1 : State, s1 = { s with freeCtr := s.freeCtr + 1 } →
        s.takeRepairIfFirst = claimTaken s1 b ∨ s.takeRepairIfFirst = s1)) ∧
  (∀ s : State, s.refresh.tick.isSome = true →
    ∃ u : State, exec .refreshTick s = .next u.schedule.transmit ∧
      { u with refresh := s.refresh, banks := s.banks, jobs := s.jobs, notices := s.notices } = s ∧
      u.refresh.tick = some s.effectiveRange ∧
      (∀ g : Group,
        ((s.group g).debt < 7 → u.group g = { s.group g with debt := (s.group g).debt + 1 }) ∧
        ((s.group g).debt = 7 → u.group g = { s.group g with debt := 8, urgent := true }) ∧
        (8 ≤ (s.group g).debt → u.group g = s.group g)) ∧
      (∀ b : Bank, ((s.group (groupOf b)).debt = 7 →
          u.bank b = { s.bank b with
            lockHolder := none,
            lockTimer := if (s.bank b).lockHolder.isSome then none else (s.bank b).lockTimer }) ∧
        ((s.group (groupOf b)).debt ≠ 7 → u.bank b = s.bank b)) ∧
      u.jobs = s.jobs.map (fun j =>
        if ∃ b : Bank, (s.group (groupOf b)).debt = 7 ∧ (s.bank b).lockHolder = some j.tag then { j with holdBroken := true }
        else j) ∧
      u.notices = (overrunsOffered s).notices ∧
      ((∀ g : Group, (s.group g).debt < 8) → u.notices = s.notices) ∧
      ∀ g : Group, 8 ≤ (s.group g).debt → (∀ g' : Group, g' ≠ g → (s.group g').debt < 8) →
        (s.notices.outbox.length < 16 →
          u.notices = admitted s.notices (freshNotice s.admissionNumber (.refreshOverrun g))) ∧
        (16 ≤ s.notices.outbox.length → u.notices = { s.notices with alertsLost := true })) ∧
  ∀ (s : State) (g : Group), (∀ b : Bank, groupOf b = g → (s.bank b).state = .refreshing) →
    ∃ u : State, exec (.groupRefreshComplete g) s = .next u.schedule.endSleepEntry.transmit ∧
      { u with refresh := s.refresh, banks := s.banks } = s ∧ u.refresh.tick = s.refresh.tick ∧
      (u.group g).debt = (s.group g).debt - 1 ∧
      (u.group g).urgent = ((s.group g).urgent && !decide ((s.group g).debt - 1 = 4)) ∧
      (u.group g).rotation = ((s.group g).rotation + 1) % 8200 ∧
      (∀ g' : Group, g' ≠ g → u.group g' = s.group g') ∧
      ∀ b : Bank, (groupOf b = g → u.bank b = { s.bank b with state := .closed }) ∧ (groupOf b ≠ g → u.bank b = s.bank b)

/-- TEMPERATURE_CHANGE (R92): above 85 degrees NORMAL becomes HOT, below 80 degrees HOT becomes NORMAL, each with a
TEMPERATURE alert; between them the range stands. The command brings whole thousandths of a degree, the model's choice (log 5). -/
def Obligations.TemperatureMovesTheRange : Prop :=
  ∀ (s : State) (temp : Int), s.resetn = false →
    (((s.range = .normal ∧ temp ≤ 85000) ∨ (s.range = .hot ∧ 80000 ≤ temp)) →
      exec (.temperatureChange temp) s = .next s) ∧
    ∀ new : TempRange, ((s.range = .normal ∧ 85000 < temp ∧ new = .hot) ∨ (s.range = .hot ∧ temp < 80000 ∧ new = .normal)) →
      ∃ u : State, exec (.temperatureChange temp) s = .next u.transmit ∧ u.range = new ∧
        { u with range := s.range, notices := s.notices } = s ∧
        (s.notices.outbox.length < 16 →
          u.notices = admitted s.notices (freshNotice s.admissionNumber (.temperature new))) ∧
        (16 ≤ s.notices.outbox.length → u.notices = { s.notices with alertsLost := true })

/-! ### Banks, bursts and locks (R6 to R36) -/

/-- BANK_OPEN_COMPLETE and BANK_CLOSE_COMPLETE (R9, R11): the bank is OPEN at its recorded row, or CLOSED with its hit-run counter
at 0; its lock stands. In another bank state nothing happens, which is deduced (log 1). What the scheduler then decides: closes
that no access asks for (R11), the grant of a CLOSED bank to the earliest access that may open it, at the spare of its row if it
has one (R4, R24), close-then-open (R26), the next burst, a lock holder's first (R23, R25); and the hit-run counter at a burst's
completion (R27). That sleep entry closes once no access is in the list is deduced (log 21), and that a claim finds the lock of
the same moment is the model's choice (log 37). -/
def Obligations.BanksOpenAndClose : Prop :=
  (∀ s : State, s.schedule = s.closeBanks.takeClaims.grantAll.closeForMisses.startBurst.lockTimers ∧
    s.grantAll = allBanks.foldl State.grant s) ∧
  (∀ (s : State) (b : Bank),
    (∀ w : OpenRow, ClosesOtherwise s b w → s.closeBanks.bank b = { s.bank b with state := .closing w }) ∧
    ((∀ w : OpenRow, ¬ClosesOtherwise s b w) → s.closeBanks.bank b = s.bank b) ∧ { s.closeBanks with banks := s.banks } = s ∧
    (∀ w : OpenRow, ClosesForMiss s b w → s.closeForMisses.bank b = { s.bank b with state := .closing w }) ∧
    ((∀ w : OpenRow, ¬ClosesForMiss s b w) → s.closeForMisses.bank b = s.bank b) ∧
    { s.closeForMisses with banks := s.banks } = s) ∧
  (∀ (s : State) (b : Bank),
    ((∀ a ∈ s.accesses, ¬MayOpen s b a) → s.grant b = s) ∧
    ∀ (before after : List Access) (a : Access), s.accesses = before ++ a :: after → MayOpen s b a →
      (∀ x ∈ before, ¬MayOpen s b x) →
      (s.grant b).accesses = before ++ { a with condition := .granted } :: after ∧
      (∀ e ∈ s.remapOf b, e.row = a.row → (∀ e' ∈ s.remapOf b, e'.row = a.row → e' = e) →
        (s.grant b).bank b = { s.bank b with state := .opening { logical := a.row, physical := .spare e.spare } }) ∧
      ((∀ e ∈ s.remapOf b, e.row ≠ a.row) →
        (s.grant b).bank b = { s.bank b with state := .opening { logical := a.row, physical := .native } }) ∧
      (∀ b' : Bank, b' ≠ b → (s.grant b).bank b' = s.bank b') ∧
      { s.grant b with accesses := s.accesses, banks := s.banks } = s) ∧
  (∀ s : State,
    ((∃ a ∈ s.accesses, a.isInFlight = true) → s.startBurst = s) ∧
    ((∀ a ∈ s.accesses, ¬Candidate s a) → s.startBurst = s) ∧
    ∀ (before after : List Access) (a : Access), (∀ x ∈ s.accesses, x.isInFlight = false) →
      s.accesses = before ++ a :: after → Candidate s a →
      ((OfLockHolder s a ∧ ∀ x ∈ before, ¬(Candidate s x ∧ OfLockHolder s x)) ∨
        ((∀ x ∈ s.accesses, ¬(Candidate s x ∧ OfLockHolder s x)) ∧ ∀ x ∈ before, ¬Candidate s x)) →
      s.startBurst = { s with
        accesses := before ++ { a with condition := .inFlight (decide (a.condition = .granted)) } :: after }) ∧
  (∀ (s : State) (a : Access),
    ((a.condition = .inFlight true ∨ ¬MissWaits s a) → s.countHit a = s) ∧
    (a.condition ≠ .inFlight true → MissWaits s a →
      s.countHit a = s.setBank a.bank { s.bank a.bank with hitRun := min 16 ((s.bank a.bank).hitRun + 1) })) ∧
  ∀ (s : State) (b : Bank),
    (∀ w : OpenRow, (s.bank b).state = .opening w →
      exec (.bankOpenComplete b) s = .next (s.setBank b { s.bank b with state := .opened w }).schedule ∧
      (s.grantedOn b = true → ∃ t : State, exec (.bankOpenComplete b) s = .next t ∧ (t.bank b).state = .opened w ∧
        (t.bank b).lockHolder = (s.bank b).lockHolder ∧ t.mem = s.mem)) ∧
    (∀ w : OpenRow, (s.bank b).state = .closing w →
      exec (.bankCloseComplete b) s =
        .next (s.setBank b { s.bank b with state := .closed, hitRun := 0 }).schedule.endSleepEntry.transmit) ∧
    ((∀ w : OpenRow, (s.bank b).state ≠ .opening w) → exec (.bankOpenComplete b) s = .next s) ∧
    ((∀ w : OpenRow, (s.bank b).state ≠ .closing w) → exec (.bankCloseComplete b) s = .next s)

/-- BURST_COMPLETE (R7, R28): what the burst does to the array. A READ changes nothing but what had decayed; a WRITE touches
the words of its access alone, at the row the bank is open at, each by its mask, a SCRUB rewrite guarded (R15, R16, R106). Without
a burst in flight nothing happens but the sampling, which is deduced (log 1); that bits decay as the command brings them is the
model's choice (log 6). The result goes to the client and, where a word was not CLEAN, to the Media
Monitor, first for a scrub access (R105), otherwise in a free order (R30, log 13); the transmitter looks once after both, which is
the model's choice (log 42). The result holds one entry for each word of the access in address order, a READ's what was read
(R28), a WRITE's what its write found (R15, R29, R106); the first faulty address and the first word not written are the lowest such
ones (R28, R29). What a port does with a READ (R69, R71, R75) and
with a WRITE (R68): the half is LOADED or FREE, CORRECTED SEEN and the fault mark follow the result, and a fault stops the job with
MEDIA, its locks released; no other job, engine or bank is touched; then the port goes on. In RESETTING the result is discarded
(R82). -/
def Obligations.BurstTouchesItsWordsAlone : Prop :=
  (∀ (s : State) (decay : List Decay) (lines : PortLines),
    (s.flying = none → exec (.burstComplete decay lines) s = .next (s.sample lines)) ∧
    ∀ a : Access, s.flying = some a →
      ∃ t : State, exec (.burstComplete decay lines) s = .next t ∧
        t.mem = (State.perform { s with mem := s.mem.decay decay } a).1 ∧
        (a.kind = .read → t.mem = s.mem.decay decay) ∧
        (∀ x : Nat, (x < s.openCell a.bank a.row + 4 * a.firstWord ∨
            s.openCell a.bank a.row + 4 * (a.firstWord + a.wordCount) ≤ x) → t.mem.byte x = s.mem.byte x) ∧
        (∀ w : Nat, (w < s.openCell a.bank a.row / 4 + a.firstWord ∨
            s.openCell a.bank a.row / 4 + a.firstWord + a.wordCount ≤ w) →
          t.mem.wrong w = (s.mem.decay decay).wrong w) ∧
        ∀ (data : List Word) (masks : List (BitVec 4)) (k cell : Nat) (one : Memory), ArrayCanonical s →
          a.kind = .write data masks → k < a.wordCount → cell = s.openCell a.bank a.row + 4 * (a.firstWord + k) →
          one = (if a.client = .maint .scrub then
              (rewriteOne (s.mem.decay decay) cell 0 (data.getD ((a.firstWord + k) % 8) 0)
                (masks.getD ((a.firstWord + k) % 8) 0)).1
            else (writeOne (s.mem.decay decay) cell 0 (data.getD ((a.firstWord + k) % 8) 0)
                (masks.getD ((a.firstWord + k) % 8) 0)).1) →
          t.mem.word cell = one.word cell ∧ t.mem.wrong (cell / 4) = one.wrong (cell / 4)) ∧
  (∀ (s : State) (decay : List Decay) (lines : PortLines) (a : Access) (rs : List WordResult) (w : State),
    s.flying = some a → rs = (State.perform { s with mem := s.mem.decay decay } a).2 → w = atResult s decay lines a →
    (¬CallsForReport rs → exec (.burstComplete decay lines) s = .next (afterResult (w.clientResult a rs))) ∧
    (CallsForReport rs → a.client = .maint .scrub →
      exec (.burstComplete decay lines) s = .next (afterResult ((w.report a rs).clientResult a rs))) ∧
    (CallsForReport rs → a.client ≠ .maint .scrub → ∀ v : State, v = { w with freeCtr := w.freeCtr + 1 } →
      exec (.burstComplete decay lines) s = .next (afterResult ((v.report a rs).clientResult a rs)) ∨
      exec (.burstComplete decay lines) s = .next (afterResult ((v.clientResult a rs).report a rs))) ∧
    (a.kind = .read → rs = (List.range a.wordCount).map fun k =>
      { address := a.row.val * 32768 + a.bank.val * 2048 + (a.firstWord + k) * 4,
        data := ((s.mem.decay decay).read (s.openCell a.bank a.row + 4 * (a.firstWord + k))).2,
        outcome := some ((s.mem.decay decay).read (s.openCell a.bank a.row + 4 * (a.firstWord + k))).1,
        written := false }) ∧
    (∀ (data : List Word) (masks : List (BitVec 4)), a.kind = .write data masks →
      rs = (List.range a.wordCount).map fun k =>
        if a.client = .maint .scrub then
          (rewriteOne (s.mem.decay decay) (s.openCell a.bank a.row + 4 * (a.firstWord + k))
            (a.row.val * 32768 + a.bank.val * 2048 + (a.firstWord + k) * 4) (data.getD ((a.firstWord + k) % 8) 0)
            (masks.getD ((a.firstWord + k) % 8) 0)).2
        else
          (writeOne (s.mem.decay decay) (s.openCell a.bank a.row + 4 * (a.firstWord + k))
            (a.row.val * 32768 + a.bank.val * 2048 + (a.firstWord + k) * 4) (data.getD ((a.firstWord + k) % 8) 0)
            (masks.getD ((a.firstWord + k) % 8) 0)).2) ∧
    rs.Pairwise fun x y => x.address < y.address) ∧
  (∀ rs : List WordResult, rs.Pairwise (fun x y => x.address < y.address) →
    (∀ w : Nat, firstFaulty rs = some w ↔ (∃ x ∈ rs, x.outcome = some .uncorrectable ∧ x.address = w) ∧
      ∀ x ∈ rs, x.outcome = some .uncorrectable → w ≤ x.address) ∧
    (firstFaulty rs = none ↔ ∀ x ∈ rs, x.outcome ≠ some .uncorrectable) ∧
    (∀ w : Nat, firstUnwritten rs = some w ↔ (∃ x ∈ rs, x.written = false ∧ x.address = w) ∧
      ∀ x ∈ rs, x.written = false → w ≤ x.address) ∧
    (firstUnwritten rs = none ↔ ∀ x ∈ rs, x.written = true)) ∧
  (∀ (s : State) (a : Access) (rs : List WordResult),
    (a.client = .link → s.clientResult a rs = s.linkResult a rs) ∧
    (a.client = .maint .clear → s.clientResult a rs = s.clearResult) ∧
    (a.client = .maint .scrub → s.clientResult a rs = s.scrubResult a rs) ∧
    ∀ (p : Port) (tag : Tag), a.client = .port p tag → s.clientResult a rs = s.portResult p tag a rs) ∧
  ∀ (s : State) (p : Port) (tag : Tag) (a : Access) (rs : List WordResult) (before after : List Half) (k : Nat),
    k = (a.row.val * 32768 + a.bank.val * 2048 + a.firstWord * 4) / 32 →
    (s.engine p).halves = before ++ .awaiting k :: after → .awaiting k ∉ before →
    (s.part.state = .resetting →
      (s.outstanding p ≠ 0 → s.portResult p tag a rs = s.setEngine p { s.engine p with halves := before ++ after }) ∧
      (s.outstanding p = 0 → ((s.portResult p tag a rs).engine p).state = .inert ∧
        ((s.portResult p tag a rs).outp p).pclrPulses = (s.outp p).pclrPulses + 1 ∧
        ((s.portResult p tag a rs).outp p).sel = 0 ∧ ((s.portResult p tag a rs).outp p).xack = false ∧
        { s.portResult p tag a rs with engines := s.engines, outs := s.outs } = s)) ∧
    ∀ j seen : Job, s.part.state ≠ .resetting → s.jobOf tag = some j →
      seen = { j with correctedSeen := j.correctedSeen || rs.any fun x => decide (x.outcome = some .corrected) } →
      ∃ u : State, s.portResult p tag a rs = u.portSettle p ∧
        { u with jobs := s.jobs, engines := s.engines, banks := s.banks } = s ∧
        (∀ q : Port, q ≠ p → u.engine q = s.engine q) ∧ (∀ t : Tag, t ≠ tag → u.jobOf t = s.jobOf t) ∧
        ((a.kind = .read ∧ j.state ≠ .active) →
          u.jobOf tag = some seen ∧ u.engine p = { s.engine p with halves := before ++ after } ∧ u.banks = s.banks) ∧
        (∀ mark : Option Nat, a.kind = .read → j.state = .active →
          mark = markAfter (s.engine p).faultMark (firstFaulty rs) →
          ((∀ m : Nat, mark = some m → (s.engine p).nextAddress.getD 0 + unitSize s p j ≤ m) →
            u.jobOf tag = some seen ∧ u.banks = s.banks ∧
            u.engine p = { s.engine p with
              halves := before ++ .loaded k (a.row.val * 32768 + a.bank.val * 2048 + a.firstWord * 4)
                (rs.flatMap fun x => wordBytes x.data) :: after,
              faultMark := mark }) ∧
          (∀ m : Nat, mark = some m → m ≤ (s.engine p).nextAddress.getD 0 → (s.engine p).nextAddress.getD 0 < m + 4 →
            u.jobOf tag = some { seen with state := .stopping, outcome := some .media, faultAddress := some m } ∧
            u.engine p = { s.engine p with
              state := .stopping, halves := onlyAwaiting (before ++ after), faultMark := mark } ∧
            LocksReleased s u tag)) ∧
        (∀ (data : List Word) (masks : List (BitVec 4)), a.kind = .write data masks →
          ((firstUnwritten rs = none ∨ (j.state ≠ .active ∧ j.state ≠ .draining)) →
            u.jobOf tag = some seen ∧ u.engine p = { s.engine p with halves := before ++ after } ∧ u.banks = s.banks) ∧
          (∀ w : Nat, firstUnwritten rs = some w → (j.state = .active ∨ j.state = .draining) →
            u.jobOf tag = some { seen with state := .stopping, outcome := some .media, faultAddress := some w } ∧
            u.engine p = { s.engine p with state := .stopping, halves := onlyAwaiting (before ++ after) } ∧
            LocksReleased s u tag))

/-- The check outcome of a word with no, one and two wrong bits (R6), and the write of one word (R15, R16): with all four
mask bits written without reading, with none untouched, otherwise merged with what was read, unless that is UNCORRECTABLE:
then it is not written. Each write's result: the word's address, the outcome and the data of the read it needed, if any, and
whether it was written, as a word with no mask bits is said to be (R15, R29). A word of a SCRUB rewrite (R106) is written where its
guard read is CORRECTED with the same data, and otherwise left; that one with no mask bits is reported as left is the model's
choice (log 38). The mask of a WRITE enables exactly the bytes it carries, and they stand at their addresses (R67, R161).
That a stored word is held as its data and the set of its wrong bits is the model's choice (log 6). -/
def Obligations.WordsAreCheckedAndMerged : Prop :=
  ((∀ (d : Word) (e : Bits39), (wrongCount e = 0 → checkWord d e = (.clean, d)) ∧
     (wrongCount e = 1 → checkWord d e = (.corrected, d)) ∧ (wrongCount e = 2 → (checkWord d e).1 = .uncorrectable)) ∧
   ∀ (m : Memory) (a addr : Nat) (d : Word) (mask : BitVec 4), m.wf = true → a % 4 = 0 →
     (∀ x : Nat, (x < a ∨ a + 4 ≤ x) → (writeOne m a addr d mask).1.byte x = m.byte x) ∧
     (mask = 0 → writeOne m a addr d mask = (m, { address := addr, data := 0, outcome := none, written := true })) ∧
     (mask = 15 → (writeOne m a addr d mask).1.word a = d ∧ (writeOne m a addr d mask).1.wrong (a / 4) = 0 ∧
       (writeOne m a addr d mask).2 = { address := addr, data := 0, outcome := none, written := true }) ∧
     (mask ≠ 0 → mask ≠ 15 →
       ((m.read a).1 = .uncorrectable → writeOne m a addr d mask =
         (m, { address := addr, data := (m.read a).2, outcome := some .uncorrectable, written := false })) ∧
       ((m.read a).1 ≠ .uncorrectable →
         (∀ k : Nat, k < 4 → ((writeOne m a addr d mask).1.word a).extractLsb' (8 * k) 8 =
           if mask.getLsbD k then d.extractLsb' (8 * k) 8 else (m.read a).2.extractLsb' (8 * k) 8) ∧
         (writeOne m a addr d mask).1.wrong (a / 4) = 0 ∧ (writeOne m a addr d mask).2 =
           { address := addr, data := (m.read a).2, outcome := some (m.read a).1, written := true })) ∧
     (mask ≠ 0 → m.read a = (.corrected, d) →
       (rewriteOne m a addr d mask).1.word a = d ∧ (rewriteOne m a addr d mask).1.wrong (a / 4) = 0 ∧
       (∀ x : Nat, (x < a ∨ a + 4 ≤ x) → (rewriteOne m a addr d mask).1.byte x = m.byte x) ∧
       (rewriteOne m a addr d mask).2 = { address := addr, data := 0, outcome := none, written := true }) ∧
     ((mask = 0 ∨ m.read a ≠ (.corrected, d)) →
       (rewriteOne m a addr d mask).1 = m ∧
       (rewriteOne m a addr d mask).2 = { address := addr, data := 0, outcome := none, written := false })) ∧
  (∀ (start burst j k : Nat) (bytes : List Byte), j < 8 → k < 4 →
     ((writeWord start bytes burst j).2.getLsbD k = true ↔
       start ≤ 32 * burst + 4 * j + k ∧ 32 * burst + 4 * j + k < start + bytes.length) ∧
     ∀ i : Nat, i < bytes.length → start + i = 32 * burst + 4 * j + k →
       (writeWord start bytes burst j).1.extractLsb' (8 * k) 8 = bytes.getD i 0)

/-- Locks: the completion of a burst of a job whose hold is in force, which is a hold not broken of a job ACTIVE or DRAINING,
locks the bank to it and releases another bank it held (R31, R37), or, in an URGENT group, breaks the lock at once (R35). Nothing
else is locked: no bank by a job without such a hold, by LINK or by MAINT, and none in RESETTING (R31, R172).
LOCK_WAIT_EXPIRY breaks the lock (R34). That a repair claim
waiting on the bank does not keep the lock away is the model's choice (log 37). A locked bank's lock wait timer runs while a
party waits for the bank, from the HOLD LIMIT of its start, and is STOPPED otherwise (R33). -/
def Obligations.LocksArePlacedAndBroken : Prop :=
  (∀ (s : State) (a : Access) (p : Port) (j : Job), a.client = .port p j.tag → s.jobOf j.tag = some j →
    State.holdInForce j = true → s.part.state ≠ .resetting →
    (s.urgentBank a.bank = false → ((s.placeLock a).bank a.bank).lockHolder = some j.tag ∧
      ((s.bank a.bank).lockHolder ≠ some j.tag →
        ∀ b : Bank, b ≠ a.bank → ((s.placeLock a).bank b).lockHolder ≠ some j.tag)) ∧
    (s.urgentBank a.bank = true → ((s.placeLock a).bank a.bank).lockHolder = none ∧
      (s.placeLock a).jobOf j.tag = some { j with holdBroken := true }) ∧
    (s.urgentBank a.bank = false → (s.bank a.bank).lockHolder = some j.tag → s.placeLock a = s) ∧
    (s.urgentBank a.bank = false → (s.placeLock a).jobs = s.jobs ∧ ((s.bank a.bank).lockHolder ≠ some j.tag →
      (s.placeLock a).bank a.bank = { s.bank a.bank with lockHolder := some j.tag, lockTimer := none })) ∧
    (s.urgentBank a.bank = true →
      (s.placeLock a).bank a.bank = { s.bank a.bank with lockHolder := none, lockTimer := none } ∧
      (s.placeLock a).jobs = s.jobs.map fun x => if x.tag = j.tag then { x with holdBroken := true } else x) ∧
    (∀ b : Bank, b ≠ a.bank →
      ((s.bank b).lockHolder = some j.tag → (s.bank a.bank).lockHolder ≠ some j.tag →
        (s.placeLock a).bank b = { s.bank b with lockHolder := none, lockTimer := none }) ∧
      ((s.bank b).lockHolder ≠ some j.tag → (s.placeLock a).bank b = s.bank b)) ∧
    { s.placeLock a with banks := s.banks, jobs := s.jobs } = s) ∧
  (∀ j : Job, State.holdInForce j = true ↔
    j.hold = true ∧ j.holdBroken = false ∧ (j.state = .active ∨ j.state = .draining)) ∧
  (∀ (s : State) (a : Access),
    (s.part.state = .resetting ∨ (∀ (p : Port) (t : Tag), a.client ≠ .port p t) ∨
      ∃ (p : Port) (t : Tag), a.client = .port p t ∧
        ∀ j : Job, s.jobOf t = some j → State.holdInForce j = false) → s.placeLock a = s) ∧
  (∀ (s : State) (b : Bank),
    ((s.bank b).lockHolder ≠ none → LockWaited s b →
      s.lockTimers.bank b = { s.bank b with lockTimer := some ((s.bank b).lockTimer.getD s.settings.holdLimit) }) ∧
    (((s.bank b).lockHolder = none ∨ ¬LockWaited s b) → s.lockTimers.bank b = { s.bank b with lockTimer := none }) ∧
    { s.lockTimers with banks := s.banks } = s) ∧
  (∀ (s : State) (b : Bank), (s.bank b).lockTimer = none → exec (.lockWaitExpiry b) s = .next s) ∧
  ∀ (s : State) (b : Bank) (tag : Tag), (s.bank b).lockTimer.isSome = true → (s.bank b).lockHolder = some tag →
    ∃ u : State, exec (.lockWaitExpiry b) s = .next u.schedule ∧
      u.bank b = { s.bank b with lockHolder := none, lockTimer := none } ∧
      (∀ b' : Bank, b' ≠ b → u.bank b' = s.bank b') ∧
      u.jobs = s.jobs.map (fun x => if x.tag = tag then { x with holdBroken := true } else x) ∧
      { u with banks := s.banks, jobs := s.jobs } = s

/-! ### Units and the other pins of a port (R63 to R78) -/

/-- UNIT_REQUEST at a RUNNING engine (R63 to R74): the direction check first; then COUNT, IN, OUT and COMPARE by their rules,
with the unit's bytes counted, the next address moved past them and XACK asserted, or XACK withheld. In OUT and COMPARE a half
whose part of the region has been given is FREE, and while the job is ACTIVE the READs of the next bursts fill the FREE halves
(R69, R70). The end is judged at the acknowledgement, in every mode: DONE at the length, otherwise SHORT with XEND (R74), what IN
has staged being posted (R67); and at the fault mark, when the next byte lies in the marked word, MEDIA (R71). Two choices of the
model show here: the order of WRITEs, or of READs, posted at one moment (R18, log 14); and that a unit which ends the job or
mismatches ends it before a half it empties is refilled (log 40). A unit's bytes lie on D with the lower address in D[7:0] (R65); an
OUT unit carries, and a COMPARE unit is compared with, the region's bytes from the next address on, once each stands in a half
LOADED with its burst and none lies in the marked word (R70 to R72). A request that stands on XREQ when the port has its turn, its
XACK withheld before or the job just started, is taken by the same rules (R63; one that an earlier job has left: log 19). -/
def Obligations.UnitsAreTaken : Prop :=
  (∀ (s : State) (p : Port),
    s.portSettle p = iterate (State.portStep p) 40 s ∧
    (∀ d : BitVec 16, laneBytes 1 d = [d.extractLsb' 0 8] ∧ laneBytes 2 d = [d.extractLsb' 0 8, d.extractLsb' 8 8]) ∧
    ∀ (n a : Nat) (bytes : List Byte), (n = 1 ∨ n = 2) → a = (s.engine p).nextAddress.getD 0 →
      (s.unitLoaded p n = some bytes ↔
        bytes.length = n ∧
        (∀ m : Nat, (s.engine p).faultMark = some m → ∀ k : Nat, k < n → a + k < m ∨ m + 4 ≤ a + k) ∧
        ∀ k : Nat, k < n → LoadedAt (s.engine p).halves (a + k) (bytes.getD k 0))) ∧
  (∀ (s : State) (p : Port) (j : Job) (req : UnitRequest) (a n : Nat) (ending : Option JobOutcome),
    s.part.state = .ready → (s.pin p).xreq = some req → (s.outp p).xack = false → (s.engine p).state = .running →
    (s.engine p).activeJob = some j.tag → s.jobOf j.tag = some j → j.port = p → j.moved < j.length →
    a = (s.engine p).nextAddress.getD 0 → n = unitSize s p j →
    ending = (if j.moved + n = j.length then some .done else if req.xend = true then some .short else none) →
    (j.mode ≠ .count → req.xdir = decide (j.mode = .out) →
      ∃ u : State, State.portStep p s = some u ∧
        TurnOf s u p j { j with state := .stopping, outcome := some .direction, faultAddress := none } ∧
        u.outs = s.outs ∧ LocksReleased s u j.tag ∧
        u.engine p = { s.engine p with state := .stopping, halves := awaitingHalves (s.engine p).halves } ∧
        u.accesses = s.accesses ++ stagedWrites j p (s.engine p).halves) ∧
    (((j.mode = .inn ∧ req.xdir = true ∧ State.stageBytes p j (laneBytes n req.d) a (s.engine p).halves [] = none) ∨
        (((j.mode = .out ∧ req.xdir = false) ∨ (j.mode = .compare ∧ req.xdir = true)) ∧ s.unitLoaded p n = none)) →
      State.portStep p s = none) ∧
    (∀ (d : Drive) (halves : List Half) (writes : List Access),
      ((j.mode = .count ∧ d = (s.outp p).d ∧ halves = (s.engine p).halves ∧ writes = []) ∨
        (j.mode = .inn ∧ req.xdir = true ∧ d = (s.outp p).d ∧
          State.stageBytes p j (laneBytes n req.d) a (s.engine p).halves [] = some (halves, writes)) ∨
        (ending ≠ none ∧ UnitGiven s p j req n d ∧ halves = (s.engine p).halves ∧ writes = [])) →
      ∃ u : State, State.portStep p s = some u ∧ u.outp p = { s.outp p with xack := true, d := d } ∧
        u.banks = s.banks ∧
        (ending = none →
          TurnOf s u p j { j with moved := j.moved + n } ∧
          u.engine p = { s.engine p with
            halves := halves, nextAddress := (s.engine p).nextAddress.map (· + n) } ∧
          u.accesses = s.accesses ++ writes) ∧
        ∀ o : JobOutcome, ending = some o →
          TurnOf s u p j { j with state := .draining, moved := j.moved + n, outcome := some o } ∧
          u.engine p = { s.engine p with
            state := .draining, halves := awaitingHalves halves,
            nextAddress := (s.engine p).nextAddress.map (· + n) } ∧
          u.accesses = s.accesses ++ writes ++ stagedWrites j p halves) ∧
    (∀ d : Drive, UnitGiven s p j req n d → ending = none → (s.engine p).nextAddress = some a →
      ∃ (halves : List Half) (next : Option Nat) (reads : List Access),
        Refilled p j (notGiven j (a + n) (s.engine p).halves) (s.engine p).nextBurst halves next reads ∧
        ((∀ m : Nat, (s.engine p).faultMark = some m →
            m + 4 ≤ a + n ∨ a + n + unitSize s p { j with moved := j.moved + n } ≤ m) →
          ∃ u : State, State.portStep p s = some u ∧ TurnOf s u p j { j with moved := j.moved + n } ∧
            u.banks = s.banks ∧ u.outp p = { s.outp p with xack := true, d := d } ∧
            u.engine p = { s.engine p with nextAddress := some (a + n), halves := halves, nextBurst := next } ∧
            u.accesses = s.accesses ++ reads) ∧
        ∀ m : Nat, (s.engine p).faultMark = some m → m ≤ a + n → a + n < m + 4 →
          ∃ u : State, State.portStep p s = some u ∧
            TurnOf s u p j { j with
              state := .stopping, moved := j.moved + n, outcome := some .media, faultAddress := some m } ∧
            LocksReleased s u j.tag ∧ u.outp p = { s.outp p with xack := true, d := d } ∧
            u.engine p = { s.engine p with
              state := .stopping, nextAddress := some (a + n), halves := onlyAwaiting halves, nextBurst := next } ∧
            u.accesses = s.accesses ++ reads) ∧
    ∀ (bytes : List Byte) (k : Nat), j.mode = .compare → req.xdir = true → s.unitLoaded p n = some bytes → k < n →
      (laneBytes n req.d).take k = bytes.take k → (laneBytes n req.d).getD k 0 ≠ bytes.getD k 0 →
      ∃ u : State, State.portStep p s = some u ∧
        TurnOf s u p j { j with
          state := .stopping, moved := j.moved + k, outcome := some .mismatch,
          faultAddress := some (j.address.getD 0 + (j.moved + k)) } ∧
        LocksReleased s u j.tag ∧ u.outp p = { s.outp p with xack := true } ∧
        u.engine p = { s.engine p with
          state := .stopping, nextAddress := (s.engine p).nextAddress.map (· + n),
          halves := awaitingHalves (s.engine p).halves } ∧
        u.accesses = s.accesses ++ stagedWrites j p (s.engine p).halves) ∧
  ∀ (s : State) (p : Port) (xdir xend : Bool) (d : BitVec 16) (lines : PortLines) (j : Job) (a n : Nat),
    s.resetn = false → s.part.state = .ready → (s.pin p).xreq = none → (s.outp p).xack = false →
    (s.engine p).state = .running → (s.engine p).activeJob = some j.tag → s.jobOf j.tag = some j → j.port = p →
    j.moved < j.length → (s.engine p).nextAddress.getD 0 = a →
    n = (if (s.portSettings p).width = .w16 ∧ j.moved + 2 ≤ j.length then 2 else 1) →
    (j.mode ≠ .count → xdir = decide (j.mode = .out) →
      ∃ u : State, UnitRuns s p xdir xend d lines u ∧
        u.jobOf j.tag = some { j with state := .stopping, outcome := some .direction, faultAddress := none } ∧
        (u.outp p).xack = false ∧ u.mem = s.mem) ∧
    (j.mode = .count → j.moved + n < j.length → xend = false →
      ∃ t : State, exec (.unitRequest p xdir xend d lines) s = .next t ∧
        t.jobOf j.tag = some { j with moved := j.moved + n } ∧ t.outp p = { s.outp p with xack := true } ∧
        t.engine p = { s.engine p with nextAddress := (s.engine p).nextAddress.map (· + n) } ∧ t.mem = s.mem ∧
        t.accesses.map posted = s.accesses.map posted) ∧
    (j.mode = .count → (j.moved + n = j.length ∨ xend = true) →
      ∃ u : State, UnitRuns s p xdir xend d lines u ∧
        u.jobOf j.tag = some { j with
          state := .draining, moved := j.moved + n,
          outcome := some (if j.moved + n = j.length then .done else .short) } ∧
        (u.outp p).xack = true ∧ (u.engine p).state = .draining ∧
        ((s.engine p).halves = [] → u.accesses = s.accesses)) ∧
    (j.mode = .inn → xdir = true → State.stageBytes p j (laneBytes n d) a (s.engine p).halves [] = none →
      ∃ t : State, exec (.unitRequest p xdir xend d lines) s = .next t ∧ t.jobOf j.tag = some j ∧
        t.outp p = s.outp p ∧ t.engine p = s.engine p) ∧
    (∀ (halves : List Half) (writes : List Access), j.mode = .inn → xdir = true → j.moved + n < j.length → xend = false →
      State.stageBytes p j (laneBytes n d) a (s.engine p).halves [] = some (halves, writes) →
      ∃ t : State, exec (.unitRequest p xdir xend d lines) s = .next t ∧
        t.jobOf j.tag = some { j with moved := j.moved + n } ∧ t.outp p = { s.outp p with xack := true } ∧
        t.engine p = { s.engine p with halves := halves, nextAddress := (s.engine p).nextAddress.map (· + n) } ∧
        t.mem = s.mem ∧ t.accesses.map posted = s.accesses.map posted ++ writes.map posted) ∧
    (∀ (halves : List Half) (writes : List Access), j.mode = .inn → xdir = true → (j.moved + n = j.length ∨ xend = true) →
      State.stageBytes p j (laneBytes n d) a (s.engine p).halves [] = some (halves, writes) →
      ∃ u : State, UnitRuns s p xdir xend d lines u ∧
        u.jobOf j.tag = some { j with
          state := .draining, moved := j.moved + n,
          outcome := some (if j.moved + n = j.length then .done else .short) } ∧
        u.outp p = { s.outp p with xack := true } ∧ (u.engine p).state = .draining ∧
        (u.engine p).halves = awaitingHalves halves ∧ u.mem = s.mem ∧
        u.accesses = s.accesses ++ writes ++ stagedWrites j p halves) ∧
    ((j.mode = .out ∨ j.mode = .compare) → xdir = decide (j.mode = .compare) → s.unitLoaded p n = none →
      ∃ t : State, exec (.unitRequest p xdir xend d lines) s = .next t ∧ t.jobOf j.tag = some j ∧
        t.outp p = s.outp p ∧ t.engine p = s.engine p) ∧
    (∀ bytes : List Byte, j.mode = .out → xdir = false → s.unitLoaded p n = some bytes →
      (∀ m : Nat, (s.engine p).faultMark = some m → a + n + unitSize s p { j with moved := j.moved + n } ≤ m) →
      j.moved + n < j.length → xend = false →
      ∃ t : State, exec (.unitRequest p xdir xend d lines) s = .next t ∧
        t.jobOf j.tag = some { j with moved := j.moved + n } ∧ t.mem = s.mem ∧
        t.outp p = { s.outp p with
          xack := true,
          d := if (s.portSettings p).width = .w8 then .low (bytes.getD 0 0)
            else .full (bytes.getD 1 0 ++ bytes.getD 0 0) } ∧
        ((s.engine p).nextAddress = some a → ∃ (halves : List Half) (next : Option Nat) (reads : List Access),
          Refilled p j (notGiven j (a + n) (s.engine p).halves) (s.engine p).nextBurst halves next reads ∧
          t.engine p = { s.engine p with nextAddress := some (a + n), halves := halves, nextBurst := next } ∧
          t.accesses.map posted = s.accesses.map posted ++ reads)) ∧
    (∀ bytes : List Byte, s.unitLoaded p n = some bytes →
      ((j.mode = .out ∧ xdir = false) ∨ (j.mode = .compare ∧ xdir = true ∧ laneBytes n d = bytes)) →
      ((j.moved + n = j.length ∨ xend = true) →
        ∃ u : State, UnitRuns s p xdir xend d lines u ∧
          u.jobOf j.tag = some { j with
            state := .draining, moved := j.moved + n,
            outcome := some (if j.moved + n = j.length then .done else .short) } ∧
          (u.outp p).xack = true ∧ (u.engine p).state = .draining ∧ u.mem = s.mem ∧
          (u.engine p).halves = awaitingHalves (s.engine p).halves ∧
          ((∀ h ∈ (s.engine p).halves, h.isFilling = false) → u.accesses = s.accesses)) ∧
      (∀ m : Nat, j.moved + n < j.length → xend = false → (s.engine p).nextAddress = some a →
        (s.engine p).faultMark = some m → m ≤ a + n → a + n < m + 4 →
        ∃ u : State, UnitRuns s p xdir xend d lines u ∧
          u.jobOf j.tag = some { j with
            state := .stopping, moved := j.moved + n, outcome := some .media, faultAddress := some m } ∧
          (u.outp p).xack = true ∧ u.mem = s.mem ∧ ∃ (halves : List Half) (next : Option Nat) (reads : List Access),
            Refilled p j (notGiven j (a + n) (s.engine p).halves) (s.engine p).nextBurst halves next reads ∧
            u.engine p = { s.engine p with
              state := .stopping, nextAddress := some (a + n), halves := onlyAwaiting halves, nextBurst := next } ∧
            u.accesses = s.accesses ++ reads)) ∧
    (∀ bytes : List Byte, j.mode = .compare → xdir = true → s.unitLoaded p n = some bytes →
      (laneBytes n d = bytes →
        (∀ m : Nat, (s.engine p).faultMark = some m → a + n + unitSize s p { j with moved := j.moved + n } ≤ m) →
        j.moved + n < j.length → xend = false →
        ∃ t : State, exec (.unitRequest p xdir xend d lines) s = .next t ∧
          t.jobOf j.tag = some { j with moved := j.moved + n } ∧ t.mem = s.mem ∧
          t.outp p = { s.outp p with xack := true } ∧
          ((s.engine p).nextAddress = some a → ∃ (halves : List Half) (next : Option Nat) (reads : List Access),
            Refilled p j (notGiven j (a + n) (s.engine p).halves) (s.engine p).nextBurst halves next reads ∧
            t.engine p = { s.engine p with nextAddress := some (a + n), halves := halves, nextBurst := next } ∧
            t.accesses.map posted = s.accesses.map posted ++ reads)) ∧
      ∀ k : Nat, k < n → (laneBytes n d).take k = bytes.take k → (laneBytes n d).getD k 0 ≠ bytes.getD k 0 →
        ∃ u : State, UnitRuns s p xdir xend d lines u ∧ (u.outp p).xack = true ∧
          u.jobOf j.tag = some { j with
            state := .stopping, outcome := some .mismatch, moved := j.moved + k,
            faultAddress := some (j.address.getD 0 + (j.moved + k)) } ∧
          (u.engine p).halves = awaitingHalves (s.engine p).halves ∧ u.mem = s.mem ∧
          ((∀ h ∈ (s.engine p).halves, h.isFilling = false) → u.accesses = s.accesses))

/-- Where the bytes of an IN unit go (R66, R67): a byte into the half FILLING for its burst, or into a FREE half; one that ends
its burst or the region posts the WRITE of the words that hold bytes of the half's part, with masks for the bytes in that half.
With neither half to take it, it is withheld. A unit of two bytes (R65): the first goes by this rule, the second by this rule after
it, to the next address, be it of the next burst; where either finds no room the unit is withheld whole. -/
def Obligations.StagedBytesGoToTheirBurst : Prop :=
  (∀ (p : Port) (j : Job) (b : Byte) (a : Nat) (halves : List Half),
    (∀ (start : Nat) (bytes : List Byte) (before after : List Half),
      halves = before ++ .filling (a / 32) start bytes :: after → NoneFilling (before ++ after) (a / 32) →
      State.stageBytes p j [b] a halves [] =
        if a % 32 = 31 ∨ a + 1 = j.address.getD 0 + j.length then
          some (before ++ .awaiting (a / 32) :: after,
            [wordsAccess (.port p j.tag) (max (j.address.getD 0) (32 * (a / 32)))
              (min (j.address.getD 0 + j.length) (32 * (a / 32) + 32)) (writeKind start (bytes ++ [b]) (a / 32))])
        else some (before ++ .filling (a / 32) start (bytes ++ [b]) :: after, [])) ∧
    (NoneFilling halves (a / 32) → halves.length < 2 →
      State.stageBytes p j [b] a halves [] =
        if a % 32 = 31 ∨ a + 1 = j.address.getD 0 + j.length then
          some (halves ++ [.awaiting (a / 32)],
            [wordsAccess (.port p j.tag) (max (j.address.getD 0) (32 * (a / 32)))
              (min (j.address.getD 0 + j.length) (32 * (a / 32) + 32)) (writeKind a [b] (a / 32))])
        else some (halves ++ [.filling (a / 32) a [b]], [])) ∧
    (NoneFilling halves (a / 32) → 2 ≤ halves.length → State.stageBytes p j [b] a halves [] = none)) ∧
  ∀ (p : Port) (j : Job) (b c : Byte) (a : Nat) (halves : List Half),
    (State.stageBytes p j [b] a halves [] = none → State.stageBytes p j [b, c] a halves [] = none) ∧
    ∀ (first : List Half) (writes : List Access), State.stageBytes p j [b] a halves [] = some (first, writes) →
      (State.stageBytes p j [c] (a + 1) first [] = none → State.stageBytes p j [b, c] a halves [] = none) ∧
      ∀ (second : List Half) (more : List Access), State.stageBytes p j [c] (a + 1) first [] = some (second, more) →
        State.stageBytes p j [b, c] a halves [] = some (second, writes ++ more)

/-- A unit requested of an engine that runs no job stays a request on the pins (R63); XREQ_REMOVED takes it off and
deasserts XACK, with D released but for a PORT OUT strobe in progress, which is the model's choice (log 31), as it is that a
request taken and not yet acknowledged is forgotten with it (log 35). -/
def Obligations.RequestsStandOnThePins : Prop :=
  (∀ (s : State) (p : Port) (xdir xend : Bool) (d : BitVec 16) (lines : PortLines), s.resetn = false →
    (s.pin p).xreq = none →
    ((s.engine p).state = .inert ∨ (s.engine p).state = .control ∨ ((s.engine p).state = .idle ∧ s.queueOf p = [])) →
    exec (.unitRequest p xdir xend d lines) s =
      .next (((s.sample lines).raiseRequest p { xdir := xdir, xend := xend, d := d }).schedule.transmit)) ∧
  ∀ (s : State) (p : Port), ∃ t : State, exec (.xreqRemoved p) s = .next t ∧ t.pin p = { s.pin p with xreq := none } ∧
    (t.outp p).xack = false ∧
    ((∀ (steer : BitVec 4) (b : Byte), (s.engine p).control ≠ some (.portOut steer b)) → (t.outp p).d = .off) ∧
    (t.outp p).sel = (s.outp p).sel ∧ (∀ q : Port, q ≠ p → t.pin q = s.pin q ∧ t.outp q = s.outp q) ∧
    { t with pins := s.pins, outs := s.outs } = s

/-- HOLDN_DEASSERT (R76, R50): HOLDN of the port is deasserted, the other sampled lines are as the row brings them, and an engine
HELD for HOLDN offers its JOB END: admitted, the job is REPORTED and the port free; refused for room, it waits on the producers'
list. ATTN_EDGE (R77, R78): a qualifying edge is a new attention or merges into the pending one, and in SLEEPING may start the wake
(R171); any other edge does nothing. Nothing else moves before the port, or the transmitter, goes on. -/
def Obligations.HoldAndAttentionPins : Prop :=
  (∀ (s : State) (p : Port) (lines : PortLines) (j : Job) (rest : List Tag), s.resetn = false → s.part.state = .ready →
    (s.engine p).state = .held → s.queueOf p = j.tag :: rest → s.jobOf j.tag = some j → .job p ∉ s.notices.waiting →
    ∃ v u : State, v.pin p = { (s.sample lines).pin p with holdn := false } ∧
      (∀ q : Port, q ≠ p → v.pin q = (s.sample lines).pin q) ∧ { v with pins := s.pins } = s ∧
      (s.notices.outbox.length < 16 → s.ordinaryCount < 12 →
        exec (.holdnDeassert p lines) s = .next ((iterate (State.portStep p) 39 u).schedule.transmit) ∧
        u.jobOf j.tag = some { j with state := .reported, noticeNumber := some s.admissionNumber } ∧
        u.queueOf p = rest ∧ Told v u s.admissionNumber (.job p) ∧
        u.notices = admitted s.notices (freshNotice s.admissionNumber
          (.jobEnd j.tag j.port j.mode j.outcome j.moved j.faultAddress j.holdBroken j.correctedSeen))) ∧
      ((16 ≤ s.notices.outbox.length ∨ 12 ≤ s.ordinaryCount) →
        exec (.holdnDeassert p lines) s = .next u.schedule.transmit ∧
        u = { v with notices := { s.notices with waiting := s.notices.waiting ++ [.job p] } })) ∧
  ∀ (s : State) (p : Port) (lines : PortLines), s.resetn = false →
    (((s.portSettings p).enable = false ∨ (s.portSettings p).attention = false ∨ s.part.state = .starting ∨
      s.part.state = .resetting) → exec (.attnEdge p lines) s = .next (s.sample lines)) ∧
    ((s.portSettings p).enable = true → (s.portSettings p).attention = true →
      (s.part.state = .ready ∨ s.part.state = .sleeping ∨ s.part.state = .waking) →
      ∃ u : State, exec (.attnEdge p lines) s = .next u.transmit ∧ u.pins = (s.sample lines).pins ∧
        (∀ q : Port, q ≠ p → u.engine q = s.engine q) ∧
        { u with engines := s.engines, pins := s.pins, notices := s.notices, part := s.part,
                 refresh := s.refresh } = s ∧
        (∀ x : Attention, (s.engine p).attention = some x →
          u.engine p = { s.engine p with attention := some { x with merged := true } } ∧
          u.notices = s.notices ∧ u.part = s.part ∧ u.refresh = s.refresh) ∧
        ((s.engine p).attention = none →
          (s.notices.outbox.length < 16 → s.ordinaryCount < 12 → u.engine p = s.engine p ∧
            u.notices = admitted s.notices (freshNotice s.admissionNumber (.attention p lines[p].pstat false))) ∧
          ((16 ≤ s.notices.outbox.length ∨ 12 ≤ s.ordinaryCount) →
            u.engine p = { s.engine p with attention := some { pstat := lines[p].pstat, merged := false } } ∧
            u.notices = { s.notices with waiting := s.notices.waiting ++ [.attention p] }) ∧
          ((s.part.state = .sleeping ∧ s.settings.wakeOnAttention = true) →
            u.part = { s.part with state := .waking, wakeTarget := some .ready } ∧
            u.refresh = { s.refresh with tick := some s.effectiveRange }) ∧
          (¬(s.part.state = .sleeping ∧ s.settings.wakeOnAttention = true) →
            u.part = s.part ∧ u.refresh = s.refresh)))

/-! ### Patrol scrub and repair (R104 to R120) -/

/-- SCRUB_TIMER_EXPIRY (R108): the timer starts again from the rate in force; between rows, and allowed to advance, the scrub
begins the row at its position and posts the read of its first burst when MAINT has no access in the list; otherwise the row
credit is set, and a row IN ROW goes on at its burst, one that a SCRUB RATE of 0 had stopped among them (that this expiry sets the
credit as well is deduced, log 22; that such a row waits for it over a pause is the model's choice, log 36). A STOPPED timer does
nothing, which is deduced (log 1). When the scrub may go on (R104, R108, R109): a row owed is begun, the next read of a row in
hand posted. The result of its read (R105): counted, then either a rewrite of the CORRECTED words (R106) or the burst is done; of
its rewrite: the burst is done. After the last burst the next row's turn, after the last row the pass ends (R107). A result after
an engine reset is discarded (R110). -/
def Obligations.ScrubTimerBeginsARow : Prop :=
  (∀ s : State,
    (s.scrubAllowed = true ↔ 1 ≤ s.settings.scrubRate.toNat ∧ s.part.state = .ready ∧ s.part.sleepEntry = false ∧
      s.maint.op = .none) ∧
    (s.scrubAllowed = false → s.scrubAdvance = s) ∧
    (s.scrubAllowed = true →
      (s.maint.scrub.visit = .atPassEnd → s.scrubAdvance = s) ∧
      (s.maint.scrub.visit = .betweenRows → s.maint.scrub.credit = false → s.scrubAdvance = s) ∧
      (s.maint.scrub.visit = .betweenRows → s.maint.scrub.credit = true → s.maint.scrub.resumeAtExpiry = false →
        ∃ u : State, u = { s with
            maint := { s.maint with scrub := { s.maint.scrub with visit := .inRow, burst := 0, credit := false } },
            media := { s.media with scrubMark := none } } ∧
          (s.maintPosted = true → s.scrubAdvance = u) ∧
          (s.maintPosted = false → s.scrubAdvance = u.post (scrubAccess s.maint.scrub.position 0 .read))) ∧
      (s.maint.scrub.visit = .inRow →
        ((s.maint.scrub.resumeAtExpiry = true ∨ s.maintPosted = true) → s.scrubAdvance = s) ∧
        (s.maint.scrub.resumeAtExpiry = false → s.maintPosted = false →
          s.scrubAdvance = s.post (scrubAccess s.maint.scrub.position s.maint.scrub.burst .read))))) ∧
  (∀ (s : State) (a : Access) (rs : List WordResult),
    (s.maint.scrub.discardResult = true → s.scrubResult a rs =
      ({ s with maint := { s.maint with scrub := { s.maint.scrub with discardResult := false } } } : State).scrubAdvance) ∧
    (s.maint.scrub.discardResult = false → ∀ u : State,
      u = { s with maint := { s.maint with scrub := { s.maint.scrub with
        corrected := s.maint.scrub.corrected + (rs.filter fun x => decide (x.outcome = some .corrected)).length,
        uncorrectable := s.maint.scrub.uncorrectable +
          (rs.filter fun x => decide (x.outcome = some .uncorrectable)).length } } } →
      (a.kind = .read → (∃ x ∈ rs, x.outcome = some .corrected) →
        s.scrubResult a rs = u.post { a with
          kind := .write (rs.map WordResult.data) (rs.map fun x => if x.outcome = some .corrected then 15 else 0),
          condition := .waiting }) ∧
      (a.kind = .read → (∀ x ∈ rs, x.outcome ≠ some .corrected) → s.scrubResult a rs = u.burstDone.scrubAdvance) ∧
      ∀ (data : List Word) (masks : List (BitVec 4)), a.kind = .write data masks →
        s.scrubResult a rs = s.burstDone.scrubAdvance)) ∧
  (∀ s : State,
    (s.maint.scrub.burst + 1 < 64 → s.burstDone = { s with
      maint := { s.maint with scrub := { s.maint.scrub with burst := s.maint.scrub.burst + 1 } } }) ∧
    (64 ≤ s.maint.scrub.burst + 1 → s.maint.scrub.position + 1 < 131072 → s.burstDone = { s with
      maint := { s.maint with scrub := { s.maint.scrub with
        position := s.maint.scrub.position + 1, burst := 0, visit := .betweenRows, resumeAtExpiry := false } } }) ∧
    (64 ≤ s.maint.scrub.burst + 1 → 131072 ≤ s.maint.scrub.position + 1 → ∀ (pass : PassReport) (ended : Scrub),
      pass = { passNumber := s.maint.scrub.passNumber + 1, corrected := s.maint.scrub.corrected,
               uncorrectable := s.maint.scrub.uncorrectable } →
      ended = { s.maint.scrub with
        passNumber := s.maint.scrub.passNumber + 1, position := 0, burst := 0, corrected := 0, uncorrectable := 0,
        resumeAtExpiry := false } →
      (s.notices.outbox.length < 16 → s.ordinaryCount < 12 →
        s.burstDone.maint = { s.maint with scrub := { ended with visit := .betweenRows, waitingPass := none } } ∧
        s.burstDone.notices = admitted s.notices (freshNotice s.admissionNumber (.scrubPass pass)) ∧
        { s.burstDone with maint := s.maint, notices := s.notices } = s) ∧
      ((16 ≤ s.notices.outbox.length ∨ 12 ≤ s.ordinaryCount) →
        s.burstDone = { s with
          maint := { s.maint with scrub := { ended with visit := .atPassEnd, waitingPass := some pass } },
          notices := { s.notices with waiting := s.notices.waiting ++ [.scrub] } }))) ∧
  ∀ s : State,
    (s.maint.scrub.timer = none → exec .scrubTimerExpiry s = .next s) ∧
    (s.maint.scrub.timer.isSome = true → ∃ t : State, exec .scrubTimerExpiry s = .next t ∧
      t.maint.scrub.timer = (if s.settings.scrubRate = 0 then none else some s.settings.scrubRate) ∧
      t.maint.scrub.position = s.maint.scrub.position ∧ t.maint.scrub.passNumber = s.maint.scrub.passNumber ∧
      t.mem = s.mem ∧ t.jobs = s.jobs ∧ t.link = s.link ∧ t.notices = s.notices ∧
      (s.scrubAllowed = true → s.maint.scrub.visit = .betweenRows →
        t.maint.scrub.visit = .inRow ∧ t.maint.scrub.burst = 0 ∧ t.maint.scrub.credit = false ∧
        t.media = { s.media with scrubMark := none } ∧
        (s.maintPosted = false → t.accesses.map posted = s.accesses.map posted ++
          [{ client := .maint .scrub, bank := Fin.ofNat 16 s.maint.scrub.position,
             row := Fin.ofNat 8192 (s.maint.scrub.position / 16), firstWord := 0, wordCount := 8, kind := .read,
             condition := .waiting }]) ∧
        (s.maintPosted = true → t.accesses.map posted = s.accesses.map posted)) ∧
      (s.scrubAllowed = true → s.maint.scrub.visit = .inRow →
        t.maint.scrub.burst = s.maint.scrub.burst ∧ t.maint.scrub.resumeAtExpiry = false ∧
        (s.maintPosted = false → t.accesses.map posted = s.accesses.map posted ++
          [scrubAccess s.maint.scrub.position s.maint.scrub.burst .read]) ∧
        (s.maintPosted = true → t.accesses.map posted = s.accesses.map posted)) ∧
      ((s.scrubAllowed = false ∨ s.maint.scrub.visit ≠ .betweenRows) →
        t.maint.scrub.visit = s.maint.scrub.visit ∧ t.maint.scrub.credit = true ∧ t.media = s.media) ∧
      ((s.scrubAllowed = false ∨ s.maint.scrub.visit = .atPassEnd) →
        t.accesses.map posted = s.accesses.map posted))

/-- REPAIR_COPY_END (R118 to R120): the spare holds the row's words as they read, zero for an UNCORRECTABLE one, all with valid
codes, and nothing else of the array changes, neither bytes nor, beyond what had decayed, wrong bits (bits decay as the
command brings them: the model's choice, log 6); the row gets a SOFT
entry and leaves the weak-row list, and the list-full flag clears if it was listed (R101). A SOFT repair ends with
its REPAIR END notice, or waits with it; a HARD one begins to program the lowest FREE slot. -/
def Obligations.RepairCopyInstallsTheSpare : Prop :=
  ∀ (s : State) (decay : List Decay) (r : RepairRecord), s.maint.op = .repair r → r.phase = .copying →
    ∃ t : State, exec (.repairCopyEnd decay) s = .next t ∧
      (ArrayCanonical s → ∀ k : Nat, k < 512 →
        t.mem.word (rowCell r.bank r.row (.spare r.target) + 4 * k) =
          (if ((s.mem.decay decay).read (rowCell r.bank r.row .native + 4 * k)).1 = .uncorrectable then 0
            else ((s.mem.decay decay).read (rowCell r.bank r.row .native + 4 * k)).2) ∧
        t.mem.wrong (rowCell r.bank r.row (.spare r.target) / 4 + k) = 0) ∧
      (∀ x : Nat, (x < rowCell r.bank r.row (.spare r.target) ∨ rowCell r.bank r.row (.spare r.target) + 2048 ≤ x) →
        t.mem.byte x = s.mem.byte x) ∧
      (∀ w : Nat, (w < rowCell r.bank r.row (.spare r.target) / 4 ∨
          rowCell r.bank r.row (.spare r.target) / 4 + 512 ≤ w) → t.mem.wrong w = (s.mem.decay decay).wrong w) ∧
      t.media.listFull = (s.media.listFull &&
        !s.media.list.any fun e => decide (e.bank = r.bank) && decide (e.row = r.row)) ∧
      t.remapOf r.bank = s.remapOf r.bank ++ [{ row := r.row, spare := r.target, kind := .soft }] ∧
      (∀ b : Bank, b ≠ r.bank → t.remapOf b = s.remapOf b) ∧ (t.bank r.bank).state ≠ .repairing ∧
      (WeakListBounded s → ∀ e ∈ t.media.list, ¬(e.bank = r.bank ∧ e.row = r.row)) ∧ t.jobs = s.jobs ∧
      ∀ bad : Nat, bad = ((List.range 512).filter fun k => decide
          (((s.mem.decay decay).read (rowCell r.bank r.row .native + 4 * k)).1 = .uncorrectable)).length →
        (r.kind = .soft → t.fuses = s.fuses ∧
          (s.notices.outbox.length < 16 → s.ordinaryCount < 12 → t.maint.op = .none ∧
            ∃ n ∈ t.notices.outbox, n.number = s.admissionNumber ∧
              n.body = .repairEnd r.bank r.row .soft (some .ok) bad) ∧
          ((16 ≤ s.notices.outbox.length ∨ 12 ≤ s.ordinaryCount) →
            t.maint.op = .repair { r with phase := .reporting, uncorrectable := bad, outcome := some .ok } ∧
            t.notices.waiting = s.notices.waiting ++ [.repair])) ∧
        (r.kind = .hard → ∀ m : Slot, s.fuseOf r.bank m = .free → (∀ m' : Slot, m' < m → s.fuseOf r.bank m' ≠ .free) →
          t.fuseOf r.bank m = .programming ∧
          t.maint.op = .repair { r with phase := .programming, fuseSlot := some m, uncorrectable := bad })

/-- FUSE_VERIFY (R120): a pass makes the slot USED and the entry HARD with outcome OK; a failure spoils the slot, the entry
stays, and the outcome is FUSE FAIL. The notice is admitted, or waits. -/
def Obligations.FuseVerifyEndsProgramming : Prop :=
  ∀ (s : State) (pass : Bool) (r : RepairRecord) (m : Slot), s.maint.op = .repair r → r.phase = .programming →
    r.fuseSlot = some m →
    ∃ t : State, exec (.fuseVerify pass) s = .next t ∧ t.mem = s.mem ∧ t.jobs = s.jobs ∧
      t.fuseOf r.bank m = (if pass then .used r.row r.target else .spoiled) ∧
      (∀ (b : Bank) (m' : Slot), (b ≠ r.bank ∨ m' ≠ m) → t.fuseOf b m' = s.fuseOf b m') ∧
      t.remapOf r.bank = (if pass then (s.remapOf r.bank).map fun e => if e.row = r.row then { e with kind := .hard } else e
        else s.remapOf r.bank) ∧
      (∀ b : Bank, b ≠ r.bank → t.remapOf b = s.remapOf b) ∧
      ∀ o : RepairOutcome, o = (if pass then .ok else .fuseFail) →
        (s.notices.outbox.length < 16 → s.ordinaryCount < 12 → t.maint.op = .none ∧
          ∃ n ∈ t.notices.outbox, n.number = s.admissionNumber ∧
            n.body = .repairEnd r.bank r.row r.kind (some o) r.uncorrectable) ∧
        ((16 ≤ s.notices.outbox.length ∨ 12 ≤ s.ordinaryCount) →
          t.maint.op = .repair { r with phase := .reporting, outcome := some o } ∧
          t.notices.waiting = s.notices.waiting ++ [.repair])

/-! ### Invariants that every step keeps -/

/-- The array keeps its canonical form. -/
def Obligations.ArrayStaysCanonical : Prop :=
  ∀ s t : State, ArrayCanonical s → step s = .next t → ArrayCanonical t

/-- Debts stay within 0 to 8, and URGENT follows them. -/
def Obligations.DebtsStayBounded : Prop :=
  ∀ s t : State, DebtsBounded s → step s = .next t → DebtsBounded t

/-- NPEND is asserted exactly while the outbox holds a notice; the outbox keeps its limits and its numbers stay distinct. -/
def Obligations.OutboxStaysBounded : Prop :=
  (∀ s t : State, NpendFollowsOutbox s → step s = .next t → NpendFollowsOutbox t) ∧
  ∀ s t : State, OutboxBounded s → step s = .next t → OutboxBounded t

/-- One burst at a time; an unlocked bank's lock wait timer stays STOPPED. -/
def Obligations.SchedulerStaysInOrder : Prop :=
  (∀ s t : State, OneBurstInFlight s → step s = .next t → OneBurstInFlight t) ∧
  ∀ s t : State, UnlockedTimersStopped s → step s = .next t → UnlockedTimersStopped t

/-- The job table, the per-port queues, the weak-row list and the link's queues keep their limits, no two responses of the reply
cache share a SEQ (R134); SEL and XACK follow the engines and the pins. -/
def Obligations.TablesStayBounded : Prop :=
  ((∀ s t : State, JobTableBounded s → step s = .next t → JobTableBounded t) ∧
   (∀ s t : State, OutputsFollowEngines s → step s = .next t → OutputsFollowEngines t) ∧
   ∀ s t : State, WeakListBounded s → step s = .next t → WeakListBounded t) ∧
  (∀ s t : State, LinkBounded s → step s = .next t → LinkBounded t)

/-- The invariants hold right after reset. -/
def Obligations.InvariantsHoldAtReset : Prop :=
  ArrayCanonical State.reset ∧ DebtsBounded State.reset ∧ NpendFollowsOutbox State.reset ∧ OutboxBounded State.reset ∧
    LinkBounded State.reset ∧ OneBurstInFlight State.reset ∧ UnlockedTimersStopped State.reset ∧
    JobTableBounded State.reset ∧ OutputsFollowEngines State.reset ∧ WeakListBounded State.reset
end

