-- ==== Sys2Proof/Laws/State.lean ====
section
/-! SUPPORT. What each named update of the state leaves as it was, field by field, and what it writes. -/

namespace Sys2Proof.Machine.State

variable (s : State)

/-! ### setBank -/

@[simp] theorem setBank_pending (b : Bank) (x : BankRecord) : (s.setBank b x).pending = s.pending := rfl
@[simp] theorem setBank_resetn (b : Bank) (x : BankRecord) : (s.setBank b x).resetn = s.resetn := rfl
@[simp] theorem setBank_baud (b : Bank) (x : BankRecord) : (s.setBank b x).baud = s.baud := rfl
@[simp] theorem setBank_link (b : Bank) (x : BankRecord) : (s.setBank b x).link = s.link := rfl
@[simp] theorem setBank_proc (b : Bank) (x : BankRecord) : (s.setBank b x).proc = s.proc := rfl
@[simp] theorem setBank_settings (b : Bank) (x : BankRecord) : (s.setBank b x).settings = s.settings := rfl
@[simp] theorem setBank_part (b : Bank) (x : BankRecord) : (s.setBank b x).part = s.part := rfl
@[simp] theorem setBank_jobs (b : Bank) (x : BankRecord) : (s.setBank b x).jobs = s.jobs := rfl
@[simp] theorem setBank_queues (b : Bank) (x : BankRecord) : (s.setBank b x).queues = s.queues := rfl
@[simp] theorem setBank_engines (b : Bank) (x : BankRecord) : (s.setBank b x).engines = s.engines := rfl
@[simp] theorem setBank_pins (b : Bank) (x : BankRecord) : (s.setBank b x).pins = s.pins := rfl
@[simp] theorem setBank_outs (b : Bank) (x : BankRecord) : (s.setBank b x).outs = s.outs := rfl
@[simp] theorem setBank_accesses (b : Bank) (x : BankRecord) : (s.setBank b x).accesses = s.accesses := rfl
@[simp] theorem setBank_refresh (b : Bank) (x : BankRecord) : (s.setBank b x).refresh = s.refresh := rfl
@[simp] theorem setBank_range (b : Bank) (x : BankRecord) : (s.setBank b x).range = s.range := rfl
@[simp] theorem setBank_media (b : Bank) (x : BankRecord) : (s.setBank b x).media = s.media := rfl
@[simp] theorem setBank_maint (b : Bank) (x : BankRecord) : (s.setBank b x).maint = s.maint := rfl
@[simp] theorem setBank_remap (b : Bank) (x : BankRecord) : (s.setBank b x).remap = s.remap := rfl
@[simp] theorem setBank_fuses (b : Bank) (x : BankRecord) : (s.setBank b x).fuses = s.fuses := rfl
@[simp] theorem setBank_notices (b : Bank) (x : BankRecord) : (s.setBank b x).notices = s.notices := rfl
@[simp] theorem setBank_mem (b : Bank) (x : BankRecord) : (s.setBank b x).mem = s.mem := rfl
@[simp] theorem setBank_freeCtr (b : Bank) (x : BankRecord) : (s.setBank b x).freeCtr = s.freeCtr := rfl

/-! ### setEngine -/

@[simp] theorem setEngine_pending (p : Port) (x : Engine) : (s.setEngine p x).pending = s.pending := rfl
@[simp] theorem setEngine_resetn (p : Port) (x : Engine) : (s.setEngine p x).resetn = s.resetn := rfl
@[simp] theorem setEngine_baud (p : Port) (x : Engine) : (s.setEngine p x).baud = s.baud := rfl
@[simp] theorem setEngine_link (p : Port) (x : Engine) : (s.setEngine p x).link = s.link := rfl
@[simp] theorem setEngine_proc (p : Port) (x : Engine) : (s.setEngine p x).proc = s.proc := rfl
@[simp] theorem setEngine_settings (p : Port) (x : Engine) : (s.setEngine p x).settings = s.settings := rfl
@[simp] theorem setEngine_part (p : Port) (x : Engine) : (s.setEngine p x).part = s.part := rfl
@[simp] theorem setEngine_jobs (p : Port) (x : Engine) : (s.setEngine p x).jobs = s.jobs := rfl
@[simp] theorem setEngine_queues (p : Port) (x : Engine) : (s.setEngine p x).queues = s.queues := rfl
@[simp] theorem setEngine_pins (p : Port) (x : Engine) : (s.setEngine p x).pins = s.pins := rfl
@[simp] theorem setEngine_outs (p : Port) (x : Engine) : (s.setEngine p x).outs = s.outs := rfl
@[simp] theorem setEngine_banks (p : Port) (x : Engine) : (s.setEngine p x).banks = s.banks := rfl
@[simp] theorem setEngine_accesses (p : Port) (x : Engine) : (s.setEngine p x).accesses = s.accesses := rfl
@[simp] theorem setEngine_refresh (p : Port) (x : Engine) : (s.setEngine p x).refresh = s.refresh := rfl
@[simp] theorem setEngine_range (p : Port) (x : Engine) : (s.setEngine p x).range = s.range := rfl
@[simp] theorem setEngine_media (p : Port) (x : Engine) : (s.setEngine p x).media = s.media := rfl
@[simp] theorem setEngine_maint (p : Port) (x : Engine) : (s.setEngine p x).maint = s.maint := rfl
@[simp] theorem setEngine_remap (p : Port) (x : Engine) : (s.setEngine p x).remap = s.remap := rfl
@[simp] theorem setEngine_fuses (p : Port) (x : Engine) : (s.setEngine p x).fuses = s.fuses := rfl
@[simp] theorem setEngine_notices (p : Port) (x : Engine) : (s.setEngine p x).notices = s.notices := rfl
@[simp] theorem setEngine_mem (p : Port) (x : Engine) : (s.setEngine p x).mem = s.mem := rfl
@[simp] theorem setEngine_freeCtr (p : Port) (x : Engine) : (s.setEngine p x).freeCtr = s.freeCtr := rfl

/-! ### setPin -/

@[simp] theorem setPin_pending (p : Port) (x : Pins) : (s.setPin p x).pending = s.pending := rfl
@[simp] theorem setPin_resetn (p : Port) (x : Pins) : (s.setPin p x).resetn = s.resetn := rfl
@[simp] theorem setPin_baud (p : Port) (x : Pins) : (s.setPin p x).baud = s.baud := rfl
@[simp] theorem setPin_link (p : Port) (x : Pins) : (s.setPin p x).link = s.link := rfl
@[simp] theorem setPin_proc (p : Port) (x : Pins) : (s.setPin p x).proc = s.proc := rfl
@[simp] theorem setPin_settings (p : Port) (x : Pins) : (s.setPin p x).settings = s.settings := rfl
@[simp] theorem setPin_part (p : Port) (x : Pins) : (s.setPin p x).part = s.part := rfl
@[simp] theorem setPin_jobs (p : Port) (x : Pins) : (s.setPin p x).jobs = s.jobs := rfl
@[simp] theorem setPin_queues (p : Port) (x : Pins) : (s.setPin p x).queues = s.queues := rfl
@[simp] theorem setPin_engines (p : Port) (x : Pins) : (s.setPin p x).engines = s.engines := rfl
@[simp] theorem setPin_outs (p : Port) (x : Pins) : (s.setPin p x).outs = s.outs := rfl
@[simp] theorem setPin_banks (p : Port) (x : Pins) : (s.setPin p x).banks = s.banks := rfl
@[simp] theorem setPin_accesses (p : Port) (x : Pins) : (s.setPin p x).accesses = s.accesses := rfl
@[simp] theorem setPin_refresh (p : Port) (x : Pins) : (s.setPin p x).refresh = s.refresh := rfl
@[simp] theorem setPin_range (p : Port) (x : Pins) : (s.setPin p x).range = s.range := rfl
@[simp] theorem setPin_media (p : Port) (x : Pins) : (s.setPin p x).media = s.media := rfl
@[simp] theorem setPin_maint (p : Port) (x : Pins) : (s.setPin p x).maint = s.maint := rfl
@[simp] theorem setPin_remap (p : Port) (x : Pins) : (s.setPin p x).remap = s.remap := rfl
@[simp] theorem setPin_fuses (p : Port) (x : Pins) : (s.setPin p x).fuses = s.fuses := rfl
@[simp] theorem setPin_notices (p : Port) (x : Pins) : (s.setPin p x).notices = s.notices := rfl
@[simp] theorem setPin_mem (p : Port) (x : Pins) : (s.setPin p x).mem = s.mem := rfl
@[simp] theorem setPin_freeCtr (p : Port) (x : Pins) : (s.setPin p x).freeCtr = s.freeCtr := rfl

/-! ### setOutp -/

@[simp] theorem setOutp_pending (p : Port) (x : Outs) : (s.setOutp p x).pending = s.pending := rfl
@[simp] theorem setOutp_resetn (p : Port) (x : Outs) : (s.setOutp p x).resetn = s.resetn := rfl
@[simp] theorem setOutp_baud (p : Port) (x : Outs) : (s.setOutp p x).baud = s.baud := rfl
@[simp] theorem setOutp_link (p : Port) (x : Outs) : (s.setOutp p x).link = s.link := rfl
@[simp] theorem setOutp_proc (p : Port) (x : Outs) : (s.setOutp p x).proc = s.proc := rfl
@[simp] theorem setOutp_settings (p : Port) (x : Outs) : (s.setOutp p x).settings = s.settings := rfl
@[simp] theorem setOutp_part (p : Port) (x : Outs) : (s.setOutp p x).part = s.part := rfl
@[simp] theorem setOutp_jobs (p : Port) (x : Outs) : (s.setOutp p x).jobs = s.jobs := rfl
@[simp] theorem setOutp_queues (p : Port) (x : Outs) : (s.setOutp p x).queues = s.queues := rfl
@[simp] theorem setOutp_engines (p : Port) (x : Outs) : (s.setOutp p x).engines = s.engines := rfl
@[simp] theorem setOutp_pins (p : Port) (x : Outs) : (s.setOutp p x).pins = s.pins := rfl
@[simp] theorem setOutp_banks (p : Port) (x : Outs) : (s.setOutp p x).banks = s.banks := rfl
@[simp] theorem setOutp_accesses (p : Port) (x : Outs) : (s.setOutp p x).accesses = s.accesses := rfl
@[simp] theorem setOutp_refresh (p : Port) (x : Outs) : (s.setOutp p x).refresh = s.refresh := rfl
@[simp] theorem setOutp_range (p : Port) (x : Outs) : (s.setOutp p x).range = s.range := rfl
@[simp] theorem setOutp_media (p : Port) (x : Outs) : (s.setOutp p x).media = s.media := rfl
@[simp] theorem setOutp_maint (p : Port) (x : Outs) : (s.setOutp p x).maint = s.maint := rfl
@[simp] theorem setOutp_remap (p : Port) (x : Outs) : (s.setOutp p x).remap = s.remap := rfl
@[simp] theorem setOutp_fuses (p : Port) (x : Outs) : (s.setOutp p x).fuses = s.fuses := rfl
@[simp] theorem setOutp_notices (p : Port) (x : Outs) : (s.setOutp p x).notices = s.notices := rfl
@[simp] theorem setOutp_mem (p : Port) (x : Outs) : (s.setOutp p x).mem = s.mem := rfl
@[simp] theorem setOutp_freeCtr (p : Port) (x : Outs) : (s.setOutp p x).freeCtr = s.freeCtr := rfl

/-! ### setQueue -/

@[simp] theorem setQueue_pending (p : Port) (x : List Tag) : (s.setQueue p x).pending = s.pending := rfl
@[simp] theorem setQueue_resetn (p : Port) (x : List Tag) : (s.setQueue p x).resetn = s.resetn := rfl
@[simp] theorem setQueue_baud (p : Port) (x : List Tag) : (s.setQueue p x).baud = s.baud := rfl
@[simp] theorem setQueue_link (p : Port) (x : List Tag) : (s.setQueue p x).link = s.link := rfl
@[simp] theorem setQueue_proc (p : Port) (x : List Tag) : (s.setQueue p x).proc = s.proc := rfl
@[simp] theorem setQueue_settings (p : Port) (x : List Tag) : (s.setQueue p x).settings = s.settings := rfl
@[simp] theorem setQueue_part (p : Port) (x : List Tag) : (s.setQueue p x).part = s.part := rfl
@[simp] theorem setQueue_jobs (p : Port) (x : List Tag) : (s.setQueue p x).jobs = s.jobs := rfl
@[simp] theorem setQueue_engines (p : Port) (x : List Tag) : (s.setQueue p x).engines = s.engines := rfl
@[simp] theorem setQueue_pins (p : Port) (x : List Tag) : (s.setQueue p x).pins = s.pins := rfl
@[simp] theorem setQueue_outs (p : Port) (x : List Tag) : (s.setQueue p x).outs = s.outs := rfl
@[simp] theorem setQueue_banks (p : Port) (x : List Tag) : (s.setQueue p x).banks = s.banks := rfl
@[simp] theorem setQueue_accesses (p : Port) (x : List Tag) : (s.setQueue p x).accesses = s.accesses := rfl
@[simp] theorem setQueue_refresh (p : Port) (x : List Tag) : (s.setQueue p x).refresh = s.refresh := rfl
@[simp] theorem setQueue_range (p : Port) (x : List Tag) : (s.setQueue p x).range = s.range := rfl
@[simp] theorem setQueue_media (p : Port) (x : List Tag) : (s.setQueue p x).media = s.media := rfl
@[simp] theorem setQueue_maint (p : Port) (x : List Tag) : (s.setQueue p x).maint = s.maint := rfl
@[simp] theorem setQueue_remap (p : Port) (x : List Tag) : (s.setQueue p x).remap = s.remap := rfl
@[simp] theorem setQueue_fuses (p : Port) (x : List Tag) : (s.setQueue p x).fuses = s.fuses := rfl
@[simp] theorem setQueue_notices (p : Port) (x : List Tag) : (s.setQueue p x).notices = s.notices := rfl
@[simp] theorem setQueue_mem (p : Port) (x : List Tag) : (s.setQueue p x).mem = s.mem := rfl
@[simp] theorem setQueue_freeCtr (p : Port) (x : List Tag) : (s.setQueue p x).freeCtr = s.freeCtr := rfl

/-! ### setGroup -/

@[simp] theorem setGroup_pending (g : Group) (x : GroupRefresh) : (s.setGroup g x).pending = s.pending := rfl
@[simp] theorem setGroup_resetn (g : Group) (x : GroupRefresh) : (s.setGroup g x).resetn = s.resetn := rfl
@[simp] theorem setGroup_baud (g : Group) (x : GroupRefresh) : (s.setGroup g x).baud = s.baud := rfl
@[simp] theorem setGroup_link (g : Group) (x : GroupRefresh) : (s.setGroup g x).link = s.link := rfl
@[simp] theorem setGroup_proc (g : Group) (x : GroupRefresh) : (s.setGroup g x).proc = s.proc := rfl
@[simp] theorem setGroup_settings (g : Group) (x : GroupRefresh) : (s.setGroup g x).settings = s.settings := rfl
@[simp] theorem setGroup_part (g : Group) (x : GroupRefresh) : (s.setGroup g x).part = s.part := rfl
@[simp] theorem setGroup_jobs (g : Group) (x : GroupRefresh) : (s.setGroup g x).jobs = s.jobs := rfl
@[simp] theorem setGroup_queues (g : Group) (x : GroupRefresh) : (s.setGroup g x).queues = s.queues := rfl
@[simp] theorem setGroup_engines (g : Group) (x : GroupRefresh) : (s.setGroup g x).engines = s.engines := rfl
@[simp] theorem setGroup_pins (g : Group) (x : GroupRefresh) : (s.setGroup g x).pins = s.pins := rfl
@[simp] theorem setGroup_outs (g : Group) (x : GroupRefresh) : (s.setGroup g x).outs = s.outs := rfl
@[simp] theorem setGroup_banks (g : Group) (x : GroupRefresh) : (s.setGroup g x).banks = s.banks := rfl
@[simp] theorem setGroup_accesses (g : Group) (x : GroupRefresh) : (s.setGroup g x).accesses = s.accesses := rfl
@[simp] theorem setGroup_range (g : Group) (x : GroupRefresh) : (s.setGroup g x).range = s.range := rfl
@[simp] theorem setGroup_media (g : Group) (x : GroupRefresh) : (s.setGroup g x).media = s.media := rfl
@[simp] theorem setGroup_maint (g : Group) (x : GroupRefresh) : (s.setGroup g x).maint = s.maint := rfl
@[simp] theorem setGroup_remap (g : Group) (x : GroupRefresh) : (s.setGroup g x).remap = s.remap := rfl
@[simp] theorem setGroup_fuses (g : Group) (x : GroupRefresh) : (s.setGroup g x).fuses = s.fuses := rfl
@[simp] theorem setGroup_notices (g : Group) (x : GroupRefresh) : (s.setGroup g x).notices = s.notices := rfl
@[simp] theorem setGroup_mem (g : Group) (x : GroupRefresh) : (s.setGroup g x).mem = s.mem := rfl
@[simp] theorem setGroup_freeCtr (g : Group) (x : GroupRefresh) : (s.setGroup g x).freeCtr = s.freeCtr := rfl

/-! ### setRemap -/

@[simp] theorem setRemap_pending (b : Bank) (x : List RemapEntry) : (s.setRemap b x).pending = s.pending := rfl
@[simp] theorem setRemap_resetn (b : Bank) (x : List RemapEntry) : (s.setRemap b x).resetn = s.resetn := rfl
@[simp] theorem setRemap_baud (b : Bank) (x : List RemapEntry) : (s.setRemap b x).baud = s.baud := rfl
@[simp] theorem setRemap_link (b : Bank) (x : List RemapEntry) : (s.setRemap b x).link = s.link := rfl
@[simp] theorem setRemap_proc (b : Bank) (x : List RemapEntry) : (s.setRemap b x).proc = s.proc := rfl
@[simp] theorem setRemap_settings (b : Bank) (x : List RemapEntry) : (s.setRemap b x).settings = s.settings := rfl
@[simp] theorem setRemap_part (b : Bank) (x : List RemapEntry) : (s.setRemap b x).part = s.part := rfl
@[simp] theorem setRemap_jobs (b : Bank) (x : List RemapEntry) : (s.setRemap b x).jobs = s.jobs := rfl
@[simp] theorem setRemap_queues (b : Bank) (x : List RemapEntry) : (s.setRemap b x).queues = s.queues := rfl
@[simp] theorem setRemap_engines (b : Bank) (x : List RemapEntry) : (s.setRemap b x).engines = s.engines := rfl
@[simp] theorem setRemap_pins (b : Bank) (x : List RemapEntry) : (s.setRemap b x).pins = s.pins := rfl
@[simp] theorem setRemap_outs (b : Bank) (x : List RemapEntry) : (s.setRemap b x).outs = s.outs := rfl
@[simp] theorem setRemap_banks (b : Bank) (x : List RemapEntry) : (s.setRemap b x).banks = s.banks := rfl
@[simp] theorem setRemap_accesses (b : Bank) (x : List RemapEntry) : (s.setRemap b x).accesses = s.accesses := rfl
@[simp] theorem setRemap_refresh (b : Bank) (x : List RemapEntry) : (s.setRemap b x).refresh = s.refresh := rfl
@[simp] theorem setRemap_range (b : Bank) (x : List RemapEntry) : (s.setRemap b x).range = s.range := rfl
@[simp] theorem setRemap_media (b : Bank) (x : List RemapEntry) : (s.setRemap b x).media = s.media := rfl
@[simp] theorem setRemap_maint (b : Bank) (x : List RemapEntry) : (s.setRemap b x).maint = s.maint := rfl
@[simp] theorem setRemap_fuses (b : Bank) (x : List RemapEntry) : (s.setRemap b x).fuses = s.fuses := rfl
@[simp] theorem setRemap_notices (b : Bank) (x : List RemapEntry) : (s.setRemap b x).notices = s.notices := rfl
@[simp] theorem setRemap_mem (b : Bank) (x : List RemapEntry) : (s.setRemap b x).mem = s.mem := rfl
@[simp] theorem setRemap_freeCtr (b : Bank) (x : List RemapEntry) : (s.setRemap b x).freeCtr = s.freeCtr := rfl

/-! ### setFuse -/

@[simp] theorem setFuse_pending (b : Bank) (i : Slot) (x : FuseSlot) : (s.setFuse b i x).pending = s.pending := rfl
@[simp] theorem setFuse_resetn (b : Bank) (i : Slot) (x : FuseSlot) : (s.setFuse b i x).resetn = s.resetn := rfl
@[simp] theorem setFuse_baud (b : Bank) (i : Slot) (x : FuseSlot) : (s.setFuse b i x).baud = s.baud := rfl
@[simp] theorem setFuse_link (b : Bank) (i : Slot) (x : FuseSlot) : (s.setFuse b i x).link = s.link := rfl
@[simp] theorem setFuse_proc (b : Bank) (i : Slot) (x : FuseSlot) : (s.setFuse b i x).proc = s.proc := rfl
@[simp] theorem setFuse_settings (b : Bank) (i : Slot) (x : FuseSlot) : (s.setFuse b i x).settings = s.settings := rfl
@[simp] theorem setFuse_part (b : Bank) (i : Slot) (x : FuseSlot) : (s.setFuse b i x).part = s.part := rfl
@[simp] theorem setFuse_jobs (b : Bank) (i : Slot) (x : FuseSlot) : (s.setFuse b i x).jobs = s.jobs := rfl
@[simp] theorem setFuse_queues (b : Bank) (i : Slot) (x : FuseSlot) : (s.setFuse b i x).queues = s.queues := rfl
@[simp] theorem setFuse_engines (b : Bank) (i : Slot) (x : FuseSlot) : (s.setFuse b i x).engines = s.engines := rfl
@[simp] theorem setFuse_pins (b : Bank) (i : Slot) (x : FuseSlot) : (s.setFuse b i x).pins = s.pins := rfl
@[simp] theorem setFuse_outs (b : Bank) (i : Slot) (x : FuseSlot) : (s.setFuse b i x).outs = s.outs := rfl
@[simp] theorem setFuse_banks (b : Bank) (i : Slot) (x : FuseSlot) : (s.setFuse b i x).banks = s.banks := rfl
@[simp] theorem setFuse_accesses (b : Bank) (i : Slot) (x : FuseSlot) : (s.setFuse b i x).accesses = s.accesses := rfl
@[simp] theorem setFuse_refresh (b : Bank) (i : Slot) (x : FuseSlot) : (s.setFuse b i x).refresh = s.refresh := rfl
@[simp] theorem setFuse_range (b : Bank) (i : Slot) (x : FuseSlot) : (s.setFuse b i x).range = s.range := rfl
@[simp] theorem setFuse_media (b : Bank) (i : Slot) (x : FuseSlot) : (s.setFuse b i x).media = s.media := rfl
@[simp] theorem setFuse_maint (b : Bank) (i : Slot) (x : FuseSlot) : (s.setFuse b i x).maint = s.maint := rfl
@[simp] theorem setFuse_remap (b : Bank) (i : Slot) (x : FuseSlot) : (s.setFuse b i x).remap = s.remap := rfl
@[simp] theorem setFuse_notices (b : Bank) (i : Slot) (x : FuseSlot) : (s.setFuse b i x).notices = s.notices := rfl
@[simp] theorem setFuse_mem (b : Bank) (i : Slot) (x : FuseSlot) : (s.setFuse b i x).mem = s.mem := rfl
@[simp] theorem setFuse_freeCtr (b : Bank) (i : Slot) (x : FuseSlot) : (s.setFuse b i x).freeCtr = s.freeCtr := rfl

/-! ### setPortSettings -/

@[simp] theorem setPortSettings_pending (p : Port) (x : PortSettings) : (s.setPortSettings p x).pending = s.pending := rfl
@[simp] theorem setPortSettings_resetn (p : Port) (x : PortSettings) : (s.setPortSettings p x).resetn = s.resetn := rfl
@[simp] theorem setPortSettings_baud (p : Port) (x : PortSettings) : (s.setPortSettings p x).baud = s.baud := rfl
@[simp] theorem setPortSettings_link (p : Port) (x : PortSettings) : (s.setPortSettings p x).link = s.link := rfl
@[simp] theorem setPortSettings_proc (p : Port) (x : PortSettings) : (s.setPortSettings p x).proc = s.proc := rfl
@[simp] theorem setPortSettings_part (p : Port) (x : PortSettings) : (s.setPortSettings p x).part = s.part := rfl
@[simp] theorem setPortSettings_jobs (p : Port) (x : PortSettings) : (s.setPortSettings p x).jobs = s.jobs := rfl
@[simp] theorem setPortSettings_queues (p : Port) (x : PortSettings) : (s.setPortSettings p x).queues = s.queues := rfl
@[simp] theorem setPortSettings_engines (p : Port) (x : PortSettings) : (s.setPortSettings p x).engines = s.engines := rfl
@[simp] theorem setPortSettings_pins (p : Port) (x : PortSettings) : (s.setPortSettings p x).pins = s.pins := rfl
@[simp] theorem setPortSettings_outs (p : Port) (x : PortSettings) : (s.setPortSettings p x).outs = s.outs := rfl
@[simp] theorem setPortSettings_banks (p : Port) (x : PortSettings) : (s.setPortSettings p x).banks = s.banks := rfl
@[simp] theorem setPortSettings_accesses (p : Port) (x : PortSettings) : (s.setPortSettings p x).accesses = s.accesses := rfl
@[simp] theorem setPortSettings_refresh (p : Port) (x : PortSettings) : (s.setPortSettings p x).refresh = s.refresh := rfl
@[simp] theorem setPortSettings_range (p : Port) (x : PortSettings) : (s.setPortSettings p x).range = s.range := rfl
@[simp] theorem setPortSettings_media (p : Port) (x : PortSettings) : (s.setPortSettings p x).media = s.media := rfl
@[simp] theorem setPortSettings_maint (p : Port) (x : PortSettings) : (s.setPortSettings p x).maint = s.maint := rfl
@[simp] theorem setPortSettings_remap (p : Port) (x : PortSettings) : (s.setPortSettings p x).remap = s.remap := rfl
@[simp] theorem setPortSettings_fuses (p : Port) (x : PortSettings) : (s.setPortSettings p x).fuses = s.fuses := rfl
@[simp] theorem setPortSettings_notices (p : Port) (x : PortSettings) : (s.setPortSettings p x).notices = s.notices := rfl
@[simp] theorem setPortSettings_mem (p : Port) (x : PortSettings) : (s.setPortSettings p x).mem = s.mem := rfl
@[simp] theorem setPortSettings_freeCtr (p : Port) (x : PortSettings) : (s.setPortSettings p x).freeCtr = s.freeCtr := rfl

/-! ### setScrub -/

@[simp] theorem setScrub_pending (x : Scrub) : (s.setScrub x).pending = s.pending := rfl
@[simp] theorem setScrub_resetn (x : Scrub) : (s.setScrub x).resetn = s.resetn := rfl
@[simp] theorem setScrub_baud (x : Scrub) : (s.setScrub x).baud = s.baud := rfl
@[simp] theorem setScrub_link (x : Scrub) : (s.setScrub x).link = s.link := rfl
@[simp] theorem setScrub_proc (x : Scrub) : (s.setScrub x).proc = s.proc := rfl
@[simp] theorem setScrub_settings (x : Scrub) : (s.setScrub x).settings = s.settings := rfl
@[simp] theorem setScrub_part (x : Scrub) : (s.setScrub x).part = s.part := rfl
@[simp] theorem setScrub_jobs (x : Scrub) : (s.setScrub x).jobs = s.jobs := rfl
@[simp] theorem setScrub_queues (x : Scrub) : (s.setScrub x).queues = s.queues := rfl
@[simp] theorem setScrub_engines (x : Scrub) : (s.setScrub x).engines = s.engines := rfl
@[simp] theorem setScrub_pins (x : Scrub) : (s.setScrub x).pins = s.pins := rfl
@[simp] theorem setScrub_outs (x : Scrub) : (s.setScrub x).outs = s.outs := rfl
@[simp] theorem setScrub_banks (x : Scrub) : (s.setScrub x).banks = s.banks := rfl
@[simp] theorem setScrub_accesses (x : Scrub) : (s.setScrub x).accesses = s.accesses := rfl
@[simp] theorem setScrub_refresh (x : Scrub) : (s.setScrub x).refresh = s.refresh := rfl
@[simp] theorem setScrub_range (x : Scrub) : (s.setScrub x).range = s.range := rfl
@[simp] theorem setScrub_media (x : Scrub) : (s.setScrub x).media = s.media := rfl
@[simp] theorem setScrub_remap (x : Scrub) : (s.setScrub x).remap = s.remap := rfl
@[simp] theorem setScrub_fuses (x : Scrub) : (s.setScrub x).fuses = s.fuses := rfl
@[simp] theorem setScrub_notices (x : Scrub) : (s.setScrub x).notices = s.notices := rfl
@[simp] theorem setScrub_mem (x : Scrub) : (s.setScrub x).mem = s.mem := rfl
@[simp] theorem setScrub_freeCtr (x : Scrub) : (s.setScrub x).freeCtr = s.freeCtr := rfl

/-! ### setOp -/

@[simp] theorem setOp_pending (x : MaintOp) : (s.setOp x).pending = s.pending := rfl
@[simp] theorem setOp_resetn (x : MaintOp) : (s.setOp x).resetn = s.resetn := rfl
@[simp] theorem setOp_baud (x : MaintOp) : (s.setOp x).baud = s.baud := rfl
@[simp] theorem setOp_link (x : MaintOp) : (s.setOp x).link = s.link := rfl
@[simp] theorem setOp_proc (x : MaintOp) : (s.setOp x).proc = s.proc := rfl
@[simp] theorem setOp_settings (x : MaintOp) : (s.setOp x).settings = s.settings := rfl
@[simp] theorem setOp_part (x : MaintOp) : (s.setOp x).part = s.part := rfl
@[simp] theorem setOp_jobs (x : MaintOp) : (s.setOp x).jobs = s.jobs := rfl
@[simp] theorem setOp_queues (x : MaintOp) : (s.setOp x).queues = s.queues := rfl
@[simp] theorem setOp_engines (x : MaintOp) : (s.setOp x).engines = s.engines := rfl
@[simp] theorem setOp_pins (x : MaintOp) : (s.setOp x).pins = s.pins := rfl
@[simp] theorem setOp_outs (x : MaintOp) : (s.setOp x).outs = s.outs := rfl
@[simp] theorem setOp_banks (x : MaintOp) : (s.setOp x).banks = s.banks := rfl
@[simp] theorem setOp_accesses (x : MaintOp) : (s.setOp x).accesses = s.accesses := rfl
@[simp] theorem setOp_refresh (x : MaintOp) : (s.setOp x).refresh = s.refresh := rfl
@[simp] theorem setOp_range (x : MaintOp) : (s.setOp x).range = s.range := rfl
@[simp] theorem setOp_media (x : MaintOp) : (s.setOp x).media = s.media := rfl
@[simp] theorem setOp_remap (x : MaintOp) : (s.setOp x).remap = s.remap := rfl
@[simp] theorem setOp_fuses (x : MaintOp) : (s.setOp x).fuses = s.fuses := rfl
@[simp] theorem setOp_notices (x : MaintOp) : (s.setOp x).notices = s.notices := rfl
@[simp] theorem setOp_mem (x : MaintOp) : (s.setOp x).mem = s.mem := rfl
@[simp] theorem setOp_freeCtr (x : MaintOp) : (s.setOp x).freeCtr = s.freeCtr := rfl

/-! ### setOutbox -/

@[simp] theorem setOutbox_pending (x : List Notice) : (s.setOutbox x).pending = s.pending := rfl
@[simp] theorem setOutbox_resetn (x : List Notice) : (s.setOutbox x).resetn = s.resetn := rfl
@[simp] theorem setOutbox_baud (x : List Notice) : (s.setOutbox x).baud = s.baud := rfl
@[simp] theorem setOutbox_link (x : List Notice) : (s.setOutbox x).link = s.link := rfl
@[simp] theorem setOutbox_proc (x : List Notice) : (s.setOutbox x).proc = s.proc := rfl
@[simp] theorem setOutbox_settings (x : List Notice) : (s.setOutbox x).settings = s.settings := rfl
@[simp] theorem setOutbox_part (x : List Notice) : (s.setOutbox x).part = s.part := rfl
@[simp] theorem setOutbox_jobs (x : List Notice) : (s.setOutbox x).jobs = s.jobs := rfl
@[simp] theorem setOutbox_queues (x : List Notice) : (s.setOutbox x).queues = s.queues := rfl
@[simp] theorem setOutbox_engines (x : List Notice) : (s.setOutbox x).engines = s.engines := rfl
@[simp] theorem setOutbox_pins (x : List Notice) : (s.setOutbox x).pins = s.pins := rfl
@[simp] theorem setOutbox_outs (x : List Notice) : (s.setOutbox x).outs = s.outs := rfl
@[simp] theorem setOutbox_banks (x : List Notice) : (s.setOutbox x).banks = s.banks := rfl
@[simp] theorem setOutbox_accesses (x : List Notice) : (s.setOutbox x).accesses = s.accesses := rfl
@[simp] theorem setOutbox_refresh (x : List Notice) : (s.setOutbox x).refresh = s.refresh := rfl
@[simp] theorem setOutbox_range (x : List Notice) : (s.setOutbox x).range = s.range := rfl
@[simp] theorem setOutbox_media (x : List Notice) : (s.setOutbox x).media = s.media := rfl
@[simp] theorem setOutbox_maint (x : List Notice) : (s.setOutbox x).maint = s.maint := rfl
@[simp] theorem setOutbox_remap (x : List Notice) : (s.setOutbox x).remap = s.remap := rfl
@[simp] theorem setOutbox_fuses (x : List Notice) : (s.setOutbox x).fuses = s.fuses := rfl
@[simp] theorem setOutbox_mem (x : List Notice) : (s.setOutbox x).mem = s.mem := rfl
@[simp] theorem setOutbox_freeCtr (x : List Notice) : (s.setOutbox x).freeCtr = s.freeCtr := rfl

/-! ### updateJob -/

@[simp] theorem updateJob_pending (t : Tag) (f : Job → Job) : (s.updateJob t f).pending = s.pending := rfl
@[simp] theorem updateJob_resetn (t : Tag) (f : Job → Job) : (s.updateJob t f).resetn = s.resetn := rfl
@[simp] theorem updateJob_baud (t : Tag) (f : Job → Job) : (s.updateJob t f).baud = s.baud := rfl
@[simp] theorem updateJob_link (t : Tag) (f : Job → Job) : (s.updateJob t f).link = s.link := rfl
@[simp] theorem updateJob_proc (t : Tag) (f : Job → Job) : (s.updateJob t f).proc = s.proc := rfl
@[simp] theorem updateJob_settings (t : Tag) (f : Job → Job) : (s.updateJob t f).settings = s.settings := rfl
@[simp] theorem updateJob_part (t : Tag) (f : Job → Job) : (s.updateJob t f).part = s.part := rfl
@[simp] theorem updateJob_queues (t : Tag) (f : Job → Job) : (s.updateJob t f).queues = s.queues := rfl
@[simp] theorem updateJob_engines (t : Tag) (f : Job → Job) : (s.updateJob t f).engines = s.engines := rfl
@[simp] theorem updateJob_pins (t : Tag) (f : Job → Job) : (s.updateJob t f).pins = s.pins := rfl
@[simp] theorem updateJob_outs (t : Tag) (f : Job → Job) : (s.updateJob t f).outs = s.outs := rfl
@[simp] theorem updateJob_banks (t : Tag) (f : Job → Job) : (s.updateJob t f).banks = s.banks := rfl
@[simp] theorem updateJob_accesses (t : Tag) (f : Job → Job) : (s.updateJob t f).accesses = s.accesses := rfl
@[simp] theorem updateJob_refresh (t : Tag) (f : Job → Job) : (s.updateJob t f).refresh = s.refresh := rfl
@[simp] theorem updateJob_range (t : Tag) (f : Job → Job) : (s.updateJob t f).range = s.range := rfl
@[simp] theorem updateJob_media (t : Tag) (f : Job → Job) : (s.updateJob t f).media = s.media := rfl
@[simp] theorem updateJob_maint (t : Tag) (f : Job → Job) : (s.updateJob t f).maint = s.maint := rfl
@[simp] theorem updateJob_remap (t : Tag) (f : Job → Job) : (s.updateJob t f).remap = s.remap := rfl
@[simp] theorem updateJob_fuses (t : Tag) (f : Job → Job) : (s.updateJob t f).fuses = s.fuses := rfl
@[simp] theorem updateJob_notices (t : Tag) (f : Job → Job) : (s.updateJob t f).notices = s.notices := rfl
@[simp] theorem updateJob_mem (t : Tag) (f : Job → Job) : (s.updateJob t f).mem = s.mem := rfl
@[simp] theorem updateJob_freeCtr (t : Tag) (f : Job → Job) : (s.updateJob t f).freeCtr = s.freeCtr := rfl

/-! ### post -/

@[simp] theorem post_pending (x : Access) : (s.post x).pending = s.pending := rfl
@[simp] theorem post_resetn (x : Access) : (s.post x).resetn = s.resetn := rfl
@[simp] theorem post_baud (x : Access) : (s.post x).baud = s.baud := rfl
@[simp] theorem post_link (x : Access) : (s.post x).link = s.link := rfl
@[simp] theorem post_proc (x : Access) : (s.post x).proc = s.proc := rfl
@[simp] theorem post_settings (x : Access) : (s.post x).settings = s.settings := rfl
@[simp] theorem post_part (x : Access) : (s.post x).part = s.part := rfl
@[simp] theorem post_jobs (x : Access) : (s.post x).jobs = s.jobs := rfl
@[simp] theorem post_queues (x : Access) : (s.post x).queues = s.queues := rfl
@[simp] theorem post_engines (x : Access) : (s.post x).engines = s.engines := rfl
@[simp] theorem post_pins (x : Access) : (s.post x).pins = s.pins := rfl
@[simp] theorem post_outs (x : Access) : (s.post x).outs = s.outs := rfl
@[simp] theorem post_banks (x : Access) : (s.post x).banks = s.banks := rfl
@[simp] theorem post_refresh (x : Access) : (s.post x).refresh = s.refresh := rfl
@[simp] theorem post_range (x : Access) : (s.post x).range = s.range := rfl
@[simp] theorem post_media (x : Access) : (s.post x).media = s.media := rfl
@[simp] theorem post_maint (x : Access) : (s.post x).maint = s.maint := rfl
@[simp] theorem post_remap (x : Access) : (s.post x).remap = s.remap := rfl
@[simp] theorem post_fuses (x : Access) : (s.post x).fuses = s.fuses := rfl
@[simp] theorem post_notices (x : Access) : (s.post x).notices = s.notices := rfl
@[simp] theorem post_mem (x : Access) : (s.post x).mem = s.mem := rfl
@[simp] theorem post_freeCtr (x : Access) : (s.post x).freeCtr = s.freeCtr := rfl

/-! ### postAll -/

@[simp] theorem postAll_pending (x : List Access) : (s.postAll x).pending = s.pending := rfl
@[simp] theorem postAll_resetn (x : List Access) : (s.postAll x).resetn = s.resetn := rfl
@[simp] theorem postAll_baud (x : List Access) : (s.postAll x).baud = s.baud := rfl
@[simp] theorem postAll_link (x : List Access) : (s.postAll x).link = s.link := rfl
@[simp] theorem postAll_proc (x : List Access) : (s.postAll x).proc = s.proc := rfl
@[simp] theorem postAll_settings (x : List Access) : (s.postAll x).settings = s.settings := rfl
@[simp] theorem postAll_part (x : List Access) : (s.postAll x).part = s.part := rfl
@[simp] theorem postAll_jobs (x : List Access) : (s.postAll x).jobs = s.jobs := rfl
@[simp] theorem postAll_queues (x : List Access) : (s.postAll x).queues = s.queues := rfl
@[simp] theorem postAll_engines (x : List Access) : (s.postAll x).engines = s.engines := rfl
@[simp] theorem postAll_pins (x : List Access) : (s.postAll x).pins = s.pins := rfl
@[simp] theorem postAll_outs (x : List Access) : (s.postAll x).outs = s.outs := rfl
@[simp] theorem postAll_banks (x : List Access) : (s.postAll x).banks = s.banks := rfl
@[simp] theorem postAll_refresh (x : List Access) : (s.postAll x).refresh = s.refresh := rfl
@[simp] theorem postAll_range (x : List Access) : (s.postAll x).range = s.range := rfl
@[simp] theorem postAll_media (x : List Access) : (s.postAll x).media = s.media := rfl
@[simp] theorem postAll_maint (x : List Access) : (s.postAll x).maint = s.maint := rfl
@[simp] theorem postAll_remap (x : List Access) : (s.postAll x).remap = s.remap := rfl
@[simp] theorem postAll_fuses (x : List Access) : (s.postAll x).fuses = s.fuses := rfl
@[simp] theorem postAll_notices (x : List Access) : (s.postAll x).notices = s.notices := rfl
@[simp] theorem postAll_mem (x : List Access) : (s.postAll x).mem = s.mem := rfl
@[simp] theorem postAll_freeCtr (x : List Access) : (s.postAll x).freeCtr = s.freeCtr := rfl

/-! ### unlock -/

@[simp] theorem unlock_pending (b : Bank) : (s.unlock b).pending = s.pending := rfl
@[simp] theorem unlock_resetn (b : Bank) : (s.unlock b).resetn = s.resetn := rfl
@[simp] theorem unlock_baud (b : Bank) : (s.unlock b).baud = s.baud := rfl
@[simp] theorem unlock_link (b : Bank) : (s.unlock b).link = s.link := rfl
@[simp] theorem unlock_proc (b : Bank) : (s.unlock b).proc = s.proc := rfl
@[simp] theorem unlock_settings (b : Bank) : (s.unlock b).settings = s.settings := rfl
@[simp] theorem unlock_part (b : Bank) : (s.unlock b).part = s.part := rfl
@[simp] theorem unlock_jobs (b : Bank) : (s.unlock b).jobs = s.jobs := rfl
@[simp] theorem unlock_queues (b : Bank) : (s.unlock b).queues = s.queues := rfl
@[simp] theorem unlock_engines (b : Bank) : (s.unlock b).engines = s.engines := rfl
@[simp] theorem unlock_pins (b : Bank) : (s.unlock b).pins = s.pins := rfl
@[simp] theorem unlock_outs (b : Bank) : (s.unlock b).outs = s.outs := rfl
@[simp] theorem unlock_accesses (b : Bank) : (s.unlock b).accesses = s.accesses := rfl
@[simp] theorem unlock_refresh (b : Bank) : (s.unlock b).refresh = s.refresh := rfl
@[simp] theorem unlock_range (b : Bank) : (s.unlock b).range = s.range := rfl
@[simp] theorem unlock_media (b : Bank) : (s.unlock b).media = s.media := rfl
@[simp] theorem unlock_maint (b : Bank) : (s.unlock b).maint = s.maint := rfl
@[simp] theorem unlock_remap (b : Bank) : (s.unlock b).remap = s.remap := rfl
@[simp] theorem unlock_fuses (b : Bank) : (s.unlock b).fuses = s.fuses := rfl
@[simp] theorem unlock_notices (b : Bank) : (s.unlock b).notices = s.notices := rfl
@[simp] theorem unlock_mem (b : Bank) : (s.unlock b).mem = s.mem := rfl
@[simp] theorem unlock_freeCtr (b : Bank) : (s.unlock b).freeCtr = s.freeCtr := rfl

/-! ### What they write -/

@[simp] theorem bank_self (b : Bank) (x : BankRecord) : (s.setBank b x).bank b = x := by
  simp [setBank, bank]
theorem bank_other (b : Bank) (x : BankRecord) (c : Bank) (h : c ≠ b) : (s.setBank b x).bank c = s.bank c := by
  have h' : ¬ (b.val = c.val) := fun e => h (Fin.ext e.symm)
  simp [setBank, bank, h']
@[simp] theorem engine_self (p : Port) (x : Engine) : (s.setEngine p x).engine p = x := by
  simp [setEngine, engine]
theorem engine_other (p : Port) (x : Engine) (c : Port) (h : c ≠ p) : (s.setEngine p x).engine c = s.engine c := by
  have h' : ¬ (p.val = c.val) := fun e => h (Fin.ext e.symm)
  simp [setEngine, engine, h']
@[simp] theorem pin_self (p : Port) (x : Pins) : (s.setPin p x).pin p = x := by
  simp [setPin, pin]
theorem pin_other (p : Port) (x : Pins) (c : Port) (h : c ≠ p) : (s.setPin p x).pin c = s.pin c := by
  have h' : ¬ (p.val = c.val) := fun e => h (Fin.ext e.symm)
  simp [setPin, pin, h']
@[simp] theorem outp_self (p : Port) (x : Outs) : (s.setOutp p x).outp p = x := by
  simp [setOutp, outp]
theorem outp_other (p : Port) (x : Outs) (c : Port) (h : c ≠ p) : (s.setOutp p x).outp c = s.outp c := by
  have h' : ¬ (p.val = c.val) := fun e => h (Fin.ext e.symm)
  simp [setOutp, outp, h']
@[simp] theorem queueOf_self (p : Port) (x : List Tag) : (s.setQueue p x).queueOf p = x := by
  simp [setQueue, queueOf]
theorem queueOf_other (p : Port) (x : List Tag) (c : Port) (h : c ≠ p) : (s.setQueue p x).queueOf c = s.queueOf c := by
  have h' : ¬ (p.val = c.val) := fun e => h (Fin.ext e.symm)
  simp [setQueue, queueOf, h']
@[simp] theorem group_self (g : Group) (x : GroupRefresh) : (s.setGroup g x).group g = x := by
  simp [setGroup, group]
theorem group_other (g : Group) (x : GroupRefresh) (c : Group) (h : c ≠ g) : (s.setGroup g x).group c = s.group c := by
  have h' : ¬ (g.val = c.val) := fun e => h (Fin.ext e.symm)
  simp [setGroup, group, h']
@[simp] theorem remapOf_self (b : Bank) (x : List RemapEntry) : (s.setRemap b x).remapOf b = x := by
  simp [setRemap, remapOf]
theorem remapOf_other (b : Bank) (x : List RemapEntry) (c : Bank) (h : c ≠ b) : (s.setRemap b x).remapOf c = s.remapOf c := by
  have h' : ¬ (b.val = c.val) := fun e => h (Fin.ext e.symm)
  simp [setRemap, remapOf, h']
@[simp] theorem portSettings_self (p : Port) (x : PortSettings) : (s.setPortSettings p x).portSettings p = x := by
  simp [setPortSettings, portSettings]
theorem portSettings_other (p : Port) (x : PortSettings) (c : Port) (h : c ≠ p) : (s.setPortSettings p x).portSettings c = s.portSettings c := by
  have h' : ¬ (p.val = c.val) := fun e => h (Fin.ext e.symm)
  simp [setPortSettings, portSettings, h']

@[simp] theorem setScrub_scrub (x : Scrub) : (s.setScrub x).maint.scrub = x := rfl
@[simp] theorem setScrub_op (x : Scrub) : (s.setScrub x).maint.op = s.maint.op := rfl
@[simp] theorem setOp_op (x : MaintOp) : (s.setOp x).maint.op = x := rfl
@[simp] theorem setOp_scrub (x : MaintOp) : (s.setOp x).maint.scrub = s.maint.scrub := rfl
@[simp] theorem setOutbox_outbox (o : List Notice) : (s.setOutbox o).notices.outbox = o := rfl
@[simp] theorem setOutbox_npend (o : List Notice) : (s.setOutbox o).notices.npend = !o.isEmpty := rfl
@[simp] theorem setOutbox_nextNumber (o : List Notice) : (s.setOutbox o).notices.nextNumber = s.notices.nextNumber := rfl
@[simp] theorem setOutbox_stale (o : List Notice) : (s.setOutbox o).notices.stale = s.notices.stale := rfl
@[simp] theorem setOutbox_alertsLost (o : List Notice) : (s.setOutbox o).notices.alertsLost = s.notices.alertsLost := rfl
@[simp] theorem setOutbox_waiting (o : List Notice) : (s.setOutbox o).notices.waiting = s.notices.waiting := rfl
@[simp] theorem setGroup_tick (g : Group) (x : GroupRefresh) : (s.setGroup g x).refresh.tick = s.refresh.tick := rfl
@[simp] theorem post_accesses (x : Access) : (s.post x).accesses = s.accesses ++ [x] := rfl
@[simp] theorem postAll_accesses (x : List Access) : (s.postAll x).accesses = s.accesses ++ x := rfl
@[simp] theorem updateJob_jobs (t : Tag) (f : Job → Job) :
    (s.updateJob t f).jobs = s.jobs.map fun j => if j.tag = t then f j else j := rfl

end Sys2Proof.Machine.State
end

