-- ==== Sys2Proof/Laws/Frames.lean ====
section
/-! SUPPORT. What the shared operations can change: `Internal` for what happens inside the part, `Outward` for the
sending side. Each says once all an operation may touch, so that no proof needs to unfold it for a field it leaves. -/

namespace Sys2Proof.Machine

/-- `t` is `s` but for accesses, banks, jobs, queues, engines, port outputs, notices, the Maintenance Engine, the Media
Monitor and the free counter. -/
def Internal (s t : State) : Prop :=
  ∃ ac bk jb qs en ou nt mt md fc, t = { s with
    accesses := ac, banks := bk, jobs := jb, queues := qs, engines := en, outs := ou, notices := nt, maint := mt,
    media := md, freeCtr := fc }

/-- `t` is `s` but for the link, the processor and the notices. -/
def Outward (s t : State) : Prop := ∃ lk pr nt, t = { s with link := lk, proc := pr, notices := nt }

namespace Internal
variable {s t u : State}

theorem refl (s : State) : Internal s s := ⟨_, _, _, _, _, _, _, _, _, _, rfl⟩

theorem trans (h : Internal s t) (k : Internal t u) : Internal s u := by
  obtain ⟨a, b, c, d, e, f, g, i, j, l, rfl⟩ := h
  obtain ⟨a', b', c', d', e', f', g', i', j', l', rfl⟩ := k
  exact ⟨a', b', c', d', e', f', g', i', j', l', rfl⟩

theorem mem (h : Internal s t) : t.mem = s.mem := by obtain ⟨_, _, _, _, _, _, _, _, _, _, rfl⟩ := h; rfl
theorem link (h : Internal s t) : t.link = s.link := by obtain ⟨_, _, _, _, _, _, _, _, _, _, rfl⟩ := h; rfl
theorem proc (h : Internal s t) : t.proc = s.proc := by obtain ⟨_, _, _, _, _, _, _, _, _, _, rfl⟩ := h; rfl
theorem settings (h : Internal s t) : t.settings = s.settings := by
  obtain ⟨_, _, _, _, _, _, _, _, _, _, rfl⟩ := h; rfl
theorem part (h : Internal s t) : t.part = s.part := by obtain ⟨_, _, _, _, _, _, _, _, _, _, rfl⟩ := h; rfl
theorem pins (h : Internal s t) : t.pins = s.pins := by obtain ⟨_, _, _, _, _, _, _, _, _, _, rfl⟩ := h; rfl
theorem refresh (h : Internal s t) : t.refresh = s.refresh := by
  obtain ⟨_, _, _, _, _, _, _, _, _, _, rfl⟩ := h; rfl
theorem range (h : Internal s t) : t.range = s.range := by obtain ⟨_, _, _, _, _, _, _, _, _, _, rfl⟩ := h; rfl
theorem remap (h : Internal s t) : t.remap = s.remap := by obtain ⟨_, _, _, _, _, _, _, _, _, _, rfl⟩ := h; rfl
theorem fuses (h : Internal s t) : t.fuses = s.fuses := by obtain ⟨_, _, _, _, _, _, _, _, _, _, rfl⟩ := h; rfl
theorem pending (h : Internal s t) : t.pending = s.pending := by
  obtain ⟨_, _, _, _, _, _, _, _, _, _, rfl⟩ := h; rfl
theorem resetn (h : Internal s t) : t.resetn = s.resetn := by
  obtain ⟨_, _, _, _, _, _, _, _, _, _, rfl⟩ := h; rfl
theorem baud (h : Internal s t) : t.baud = s.baud := by obtain ⟨_, _, _, _, _, _, _, _, _, _, rfl⟩ := h; rfl

theorem foldl {α : Type} {f : State → α → State} (h : ∀ s a, Internal s (f s a)) (l : List α) (s : State) :
    Internal s (l.foldl f s) := by
  induction l generalizing s with
  | nil => exact refl s
  | cons a l ih => exact (h s a).trans (ih (f s a))

theorem iterate {f : State → Option State} (h : ∀ s t, f s = some t → Internal s t) (n : Nat) (s : State) :
    Internal s (iterate f n s) := by
  induction n generalizing s with
  | zero => exact refl s
  | succ n ih =>
    simp only [Machine.iterate]
    split
    · rename_i t ht
      exact (h s t ht).trans (ih t)
    · exact refl s

/-! ### The named updates -/

theorem setBank (s : State) (b : Bank) (x : BankRecord) : Internal s (s.setBank b x) := ⟨_, _, _, _, _, _, _, _, _, _, rfl⟩
theorem setEngine (s : State) (p : Port) (x : Engine) : Internal s (s.setEngine p x) := ⟨_, _, _, _, _, _, _, _, _, _, rfl⟩
theorem setOutp (s : State) (p : Port) (x : Outs) : Internal s (s.setOutp p x) := ⟨_, _, _, _, _, _, _, _, _, _, rfl⟩
theorem setQueue (s : State) (p : Port) (x : List Tag) : Internal s (s.setQueue p x) := ⟨_, _, _, _, _, _, _, _, _, _, rfl⟩
theorem setScrub (s : State) (x : Scrub) : Internal s (s.setScrub x) := ⟨_, _, _, _, _, _, _, _, _, _, rfl⟩
theorem setOp (s : State) (x : MaintOp) : Internal s (s.setOp x) := ⟨_, _, _, _, _, _, _, _, _, _, rfl⟩
theorem setOutbox (s : State) (x : List Notice) : Internal s (s.setOutbox x) := ⟨_, _, _, _, _, _, _, _, _, _, rfl⟩
theorem updateJob (s : State) (t : Tag) (f : Job → Job) : Internal s (s.updateJob t f) := ⟨_, _, _, _, _, _, _, _, _, _, rfl⟩
theorem post (s : State) (x : Access) : Internal s (s.post x) := ⟨_, _, _, _, _, _, _, _, _, _, rfl⟩
theorem postAll (s : State) (x : List Access) : Internal s (s.postAll x) := ⟨_, _, _, _, _, _, _, _, _, _, rfl⟩
theorem accesses (s : State) (x : List Access) : Internal s { s with accesses := x } := ⟨_, _, _, _, _, _, _, _, _, _, rfl⟩
theorem notices (s : State) (x : NoticeUnit) : Internal s { s with notices := x } := ⟨_, _, _, _, _, _, _, _, _, _, rfl⟩
theorem media (s : State) (x : Media) : Internal s { s with media := x } := ⟨_, _, _, _, _, _, _, _, _, _, rfl⟩
theorem freeCtr (s : State) (x : Nat) : Internal s { s with freeCtr := x } := ⟨_, _, _, _, _, _, _, _, _, _, rfl⟩
theorem unlock (s : State) (b : Bank) : Internal s (s.unlock b) := setBank _ _ _

theorem releaseLocksOf (s : State) (t : Tag) : Internal s (s.releaseLocksOf t) :=
  foldl (fun s b => by split; exacts [unlock s b, refl s]) _ s

theorem releaseAllLocks (s : State) : Internal s s.releaseAllLocks := foldl unlock _ s

theorem breakLock (s : State) (b : Bank) : Internal s (s.breakLock b) := by
  unfold State.breakLock
  split
  · exact refl s
  · exact (updateJob _ _ _).trans (unlock _ _)

/-! ### Notices -/

theorem admitNotice (s : State) (x : NoticeBody) : Internal s (s.admitNotice x) := by
  unfold State.admitNotice
  exact (setOutbox s _).trans (notices _ _)

theorem offerAlert (s : State) (x : NoticeBody) : Internal s (s.offerAlert x) := by
  unfold State.offerAlert
  split
  exacts [admitNotice s x, notices s _]

theorem restEngine (s : State) (p : Port) (st : EngineState) : Internal s (s.restEngine p st) :=
  (setEngine s p _).trans (setOutp _ p _)

theorem reportJob (s : State) (p : Port) (n : Byte) : Internal s (s.reportJob p n) := by
  unfold State.reportJob
  split
  · exact refl s
  · exact (((updateJob _ _ _).trans (setQueue _ _ _)).trans (releaseLocksOf _ _)).trans (restEngine _ _ _)

theorem onAdmitted (s : State) (x : Producer) (n : Byte) : Internal s (s.onAdmitted x n) := by
  cases x
  exacts [reportJob s _ n, setEngine s _ _, setScrub s _, setOp s _, refl s]

theorem admitFrom (s : State) (x : Producer) : Internal s (s.admitFrom x) := by
  unfold State.admitFrom
  split
  exacts [refl s, (admitNotice s _).trans (onAdmitted _ _ _)]

theorem offer (s : State) (x : Producer) : Internal s (s.offer x) := by
  unfold State.offer
  split
  exacts [admitFrom s x, notices s _]

theorem admitWaiting (s : State) : Internal s s.admitWaiting := by
  refine iterate (fun s t h => ?_) _ s
  unfold State.admitWaitingOne at h
  split at h
  · simp at h
  · split at h
    · simp only [Option.some.injEq] at h
      subst h
      exact (notices s _).trans (admitFrom _ _)
    · simp at h

/-! ### The scheduler -/

theorem closeBank (s : State) (b : Bank) : Internal s (s.closeBank b) := by
  unfold State.closeBank
  split
  exacts [setBank _ _ _, refl s]

theorem takeRepairClaim (s : State) (b : Bank) : Internal s (s.takeRepairClaim b) := by
  unfold State.takeRepairClaim
  dsimp only
  split
  exacts [(setBank _ _ _).trans (setOp _ _), setBank _ _ _]

theorem takeClaims (s : State) : Internal s s.takeClaims := by
  unfold State.takeClaims State.takeRefreshClaims
  refine trans ?_ (foldl (fun s g => ?_) _ _)
  · unfold State.takeRepairIfFirst
    split
    · exact refl s
    · split
      · split
        · dsimp only
          split
          exacts [(freeCtr s _).trans (takeRepairClaim _ _), freeCtr s _]
        · exact takeRepairClaim _ _
      · exact refl s
  · split
    · exact foldl (fun s b => setBank s b _) _ _
    · exact refl s

theorem grant (s : State) (b : Bank) : Internal s (s.grant b) := by
  unfold State.grant
  split
  exacts [refl s, (accesses s _).trans (setBank _ _ _)]

theorem startBurst (s : State) : Internal s s.startBurst := by
  unfold State.startBurst
  split
  · exact refl s
  · split
    · exact accesses s _
    · split
      exacts [accesses s _, refl s]

/-- The scheduler's decisions touch nothing outside the part. -/
theorem schedule (s : State) : Internal s s.schedule := by
  unfold State.schedule State.closeBanks State.grantAll State.closeForMisses State.lockTimers
  refine trans ?_ (foldl (fun s b => setBank s b _) _ _)
  refine trans ?_ (startBurst _)
  refine trans ?_ (foldl (fun s b => by split; exacts [closeBank s b, refl s]) _ _)
  refine trans ?_ (foldl grant _ _)
  refine trans ?_ (takeClaims _)
  exact foldl (fun s b => by split; exacts [closeBank s b, refl s]) _ _

/-! ### The ports -/

theorem prefetchOne (s : State) (p : Port) (j : Job) : Internal s (s.prefetchOne p j) := by
  unfold State.prefetchOne
  split
  · exact refl s
  · split
    exacts [(setEngine _ _ _).trans (post _ _), refl s]

theorem prefetch (s : State) (p : Port) (j : Job) : Internal s (s.prefetch p j) :=
  (prefetchOne s p j).trans (prefetchOne _ p j)

theorem startJob (s : State) (p : Port) (j : Job) : Internal s (s.startJob p j) := by
  unfold State.startJob
  exact (((updateJob _ _ _).trans (setEngine _ _ _)).trans (setOutp _ _ _)).trans (prefetch _ _ _)

theorem stopJob (s : State) (p : Port) (j : Job) (o : JobOutcome) (f : Option Nat) : Internal s (s.stopJob p j o f) := by
  unfold State.stopJob
  exact (((updateJob _ _ _).trans (releaseLocksOf _ _)).trans (setEngine _ _ _)).trans (postAll _ _)

theorem drainJob (s : State) (p : Port) (j : Job) (o : JobOutcome) : Internal s (s.drainJob p j o) := by
  unfold State.drainJob
  exact ((updateJob _ _ _).trans (setEngine _ _ _)).trans (postAll _ _)

theorem acknowledge (s : State) (p : Port) (j : Job) (n : Nat) : Internal s (s.acknowledge p j n) := by
  unfold State.acknowledge
  exact ((setOutp _ _ _).trans (setEngine _ _ _)).trans (updateJob _ _ _)

theorem checkMark (s : State) (p : Port) (j : Job) : Internal s (s.checkMark p j) := by
  unfold State.checkMark
  dsimp only
  split
  exacts [stopJob _ _ _ _ _, refl s]

theorem afterUnit (s : State) (p : Port) (j : Job) (n : Nat) (x : Bool) : Internal s (s.afterUnit p j n x) := by
  unfold State.afterUnit
  split
  · exact drainJob _ _ _ _
  · exact ((setEngine _ _ _).trans (prefetch _ _ _)).trans (checkMark _ _ _)

theorem unitIn {s t : State} {p : Port} {j : Job} {r : UnitRequest} {n : Nat} (h : s.unitIn p j r n = some t) :
    Internal s t := by
  unfold State.unitIn at h
  dsimp only at h
  split at h
  · simp at h
  · rename_i hs posted _
    have key : Internal s (((s.acknowledge p j n).setHalves p hs).postAll posted) :=
      ((acknowledge _ _ _ _).trans (setEngine _ _ _)).trans (postAll _ _)
    split at h <;> simp only [Option.some.injEq] at h <;> subst h
    exacts [key.trans (drainJob _ _ _ _), key]

theorem unitOut {s t : State} {p : Port} {j : Job} {r : UnitRequest} {n : Nat} (h : s.unitOut p j r n = some t) :
    Internal s t := by
  unfold State.unitOut at h
  split at h
  · simp at h
  · simp only [Option.some.injEq] at h
    subst h
    exact ((acknowledge _ _ _ _).trans (setOutp _ _ _)).trans (afterUnit _ _ _ _ _)

theorem unitCompare {s t : State} {p : Port} {j : Job} {r : UnitRequest} {n : Nat}
    (h : s.unitCompare p j r n = some t) : Internal s t := by
  unfold State.unitCompare at h
  split at h
  · simp at h
  · dsimp only at h
    split at h <;> simp only [Option.some.injEq] at h <;> subst h
    exacts [(acknowledge _ _ _ _).trans (afterUnit _ _ _ _ _),
      ((acknowledge _ _ _ _).trans (updateJob _ _ _)).trans (stopJob _ _ _ _ _)]

theorem unitCount {s t : State} {p : Port} {j : Job} {r : UnitRequest} {n : Nat} (h : s.unitCount p j r n = some t) :
    Internal s t := by
  unfold State.unitCount at h
  dsimp only at h
  split at h <;> simp only [Option.some.injEq] at h <;> subst h
  exacts [(acknowledge _ _ _ _).trans (drainJob _ _ _ _), acknowledge _ _ _ _]

theorem takeUnit {s t : State} {p : Port} (h : s.takeUnit p = some t) : Internal s t := by
  unfold State.takeUnit at h
  split at h
  · split at h
    · simp at h
    · split at h
      · simp only [Option.some.injEq] at h
        subst h
        exact stopJob _ _ _ _ _
      · dsimp only at h
        split at h
        exacts [unitIn h, unitOut h, unitCompare h, unitCount h]
  · simp at h

theorem holdJob (s : State) (p : Port) (j : Job) : Internal s (s.holdJob p j) := by
  unfold State.holdJob
  exact ((updateJob _ _ _).trans (releaseLocksOf _ _)).trans (setEngine _ _ _)

theorem finishJob (s : State) (p : Port) (j : Job) : Internal s (s.finishJob p j) := by
  unfold State.finishJob
  split
  · exact holdJob _ _ _
  · split
    exacts [offer _ _, (offer _ _).trans (holdJob _ _ _)]

theorem finishIfDone {s t : State} {p : Port} (h : s.finishIfDone p = some t) : Internal s t := by
  unfold State.finishIfDone at h
  split at h
  · simp at h
  · split at h
    · simp only [Option.some.injEq] at h
      subst h
      refine trans ?_ (finishJob _ _ _)
      refine trans ?_ (setEngine _ _ _)
      split
      exacts [setOutp _ _ _, refl s]
    · simp at h

theorem portStep {s t : State} {p : Port} (h : State.portStep p s = some t) : Internal s t := by
  unfold State.portStep at h
  split at h
  · split at h
    · unfold State.startHead at h
      split at h
      · simp at h
      · split at h
        · split at h <;> simp only [Option.some.injEq] at h <;> subst h
          exacts [startJob _ _ _, finishJob _ _ _]
        · simp at h
    · exact takeUnit h
    · exact finishIfDone h
    · exact finishIfDone h
    · unfold State.offerHeld at h
      split at h
      · simp at h
      · simp only [Option.some.injEq] at h
        subst h
        exact offer _ _
    · simp at h
    · simp at h
  · simp at h

/-- What a port does touches nothing outside the part. -/
theorem portSettle (s : State) (p : Port) : Internal s (s.portSettle p) := iterate (fun _ _ => portStep) _ s

theorem portsSettle (s : State) : Internal s s.portsSettle := foldl portSettle _ s

/-! ### The scrub -/

theorem beginRow (s : State) : Internal s s.beginRow := (setScrub s _).trans (media _ _)

theorem scrubAdvance (s : State) : Internal s s.scrubAdvance := by
  unfold State.scrubAdvance
  split
  · dsimp only
    have key : Internal s (if s.maint.scrub.visit = .betweenRows ∧ s.maint.scrub.credit = true then s.beginRow else s) := by
      split
      exacts [beginRow s, refl s]
    refine key.trans ?_
    generalize (if s.maint.scrub.visit = .betweenRows ∧ s.maint.scrub.credit = true then s.beginRow else s) = x
    split
    exacts [post x _, refl x]
  · exact refl s

/-- What follows the removal of a notice touches nothing outside the part. -/
theorem afterRemoval (s : State) : Internal s s.afterRemoval :=
  (((admitWaiting s).trans (portsSettle _)).trans (scrubAdvance _)).trans (schedule _)

end Internal

namespace Outward
variable {s t u : State}

theorem refl (s : State) : Outward s s := ⟨_, _, _, rfl⟩

theorem trans (h : Outward s t) (k : Outward t u) : Outward s u := by
  obtain ⟨a, b, c, rfl⟩ := h
  obtain ⟨a', b', c', rfl⟩ := k
  exact ⟨a', b', c', rfl⟩

/-- Everything but the link, the processor and the notices is as it was. -/
theorem rest (h : Outward s t) : { t with link := s.link, proc := s.proc, notices := s.notices } = s := by
  obtain ⟨a, b, c, rfl⟩ := h
  rfl

theorem link (s : State) (x : Link) : Outward s { s with link := x } := ⟨_, _, _, rfl⟩
theorem proc (s : State) (x : Processor) : Outward s { s with proc := x } := ⟨_, _, _, rfl⟩
theorem notices (s : State) (x : NoticeUnit) : Outward s { s with notices := x } := ⟨_, _, _, rfl⟩

theorem cacheResponse (s : State) (r : Response) : Outward s (s.cacheResponse r) := link s _

theorem queueOrHold (s : State) (r : Response) : Outward s (s.queueOrHold r) := by
  unfold State.queueOrHold
  split
  exacts [link s _, proc s _]

theorem queueAtArrival (s : State) (r : Response) : Outward s (s.queueAtArrival r) := by
  unfold State.queueAtArrival
  split
  exacts [link s _, refl s]

theorem releaseHeld (s : State) : Outward s s.releaseHeld := by
  unfold State.releaseHeld
  split
  · exact refl s
  · split
    exacts [⟨_, _, _, rfl⟩, refl s]

theorem answer (s : State) (r : Request) (st : Status) (fs : List Byte) : Outward s (s.answer r st fs) :=
  (cacheResponse _ _).trans (queueOrHold _ _)

theorem endExecution (s : State) (st : Status) (fs : List Byte) : Outward s (s.endExecution st fs) := by
  unfold State.endExecution
  split
  · exact refl s
  · dsimp only
    split
    exacts [proc s _, ((proc s _).trans (cacheResponse _ _)).trans (queueOrHold _ _)]

theorem beginExecution (s : State) (r : Request) (w : Work) : Outward s (s.beginExecution r w) := proc s _

/-- The transmitter touches the link, the processor's held response and the outbox alone. -/
theorem transmit (s : State) : Outward s s.transmit := by
  unfold State.transmit
  split
  · exact refl s
  · split
    · exact link s _
    · split
      · exact link s _
      · split
        · exact (link s _).trans (releaseHeld _)
        · split
          · split
            · exact ⟨_, _, _, rfl⟩
            · exact refl s
          · exact refl s

end Outward
end Sys2Proof.Machine
end

