-- ==== Sys2Proof/Laws/Schedule.lean ====
section
/-! SUPPORT. What `schedule` can change: the conditions of accesses, the states and timers of banks, the phase of a repair
and the free counter; no access comes or goes, and no lock moves. -/

namespace Sys2Proof.Machine

open Sys2Proof.Safety

/-- Everything the scheduler's decisions can do. -/
structure Scheduled (s t : State) : Prop where
  frame : ∃ ac bk op fc, t = { s with accesses := ac, banks := bk, maint := { s.maint with op := op }, freeCtr := fc }
  accesses : t.accesses.map posted = s.accesses.map posted
  lockHolder : ∀ b : Bank, (t.bank b).lockHolder = (s.bank b).lockHolder

namespace Scheduled
variable {s t u : State}

theorem refl (s : State) : Scheduled s s := ⟨⟨_, _, _, _, rfl⟩, rfl, fun _ => rfl⟩

theorem trans (h : Scheduled s t) (k : Scheduled t u) : Scheduled s u := by
  obtain ⟨⟨a, b, c, d, h1⟩, h2, h3⟩ := h
  obtain ⟨⟨a', b', c', d', k1⟩, k2, k3⟩ := k
  refine ⟨⟨a', b', c', d', ?_⟩, k2.trans h2, fun x => (k3 x).trans (h3 x)⟩
  subst h1
  exact k1

theorem foldl {α : Type} {f : State → α → State} (h : ∀ s a, Scheduled s (f s a)) (l : List α) (s : State) :
    Scheduled s (l.foldl f s) := by
  induction l generalizing s with
  | nil => exact refl s
  | cons a l ih => exact (h s a).trans (ih (f s a))

theorem setBank (s : State) (b : Bank) (r : BankRecord) (h : r.lockHolder = (s.bank b).lockHolder) :
    Scheduled s (s.setBank b r) := by
  refine ⟨⟨_, _, _, _, rfl⟩, rfl, fun x => ?_⟩
  by_cases hx : x = b
  · subst hx; simpa [State.bank, State.setBank] using h
  · have : (b : Nat) ≠ x := fun e => hx (Fin.ext e.symm)
    simp [State.bank, State.setBank, Vector.getElem_set_ne _ _ this]

theorem setOp (s : State) (x : MaintOp) : Scheduled s (s.setOp x) := ⟨⟨_, _, _, _, rfl⟩, rfl, fun _ => rfl⟩

theorem freeCtr (s : State) (n : Nat) : Scheduled s { s with freeCtr := n } := ⟨⟨_, _, _, _, rfl⟩, rfl, fun _ => rfl⟩

theorem map_posted_markFirst (p : Access → Bool) (c : Condition) (l : List Access) :
    (markFirst p c l).map posted = l.map posted := by
  induction l with
  | nil => rfl
  | cons a l ih =>
    unfold markFirst
    split
    · rfl
    · simp [ih]

theorem mark (s : State) (p : Access → Bool) (c : Condition) :
    Scheduled s { s with accesses := markFirst p c s.accesses } :=
  ⟨⟨_, _, _, _, rfl⟩, map_posted_markFirst p c s.accesses, fun _ => rfl⟩

theorem closeBank (s : State) (b : Bank) : Scheduled s (s.closeBank b) := by
  unfold State.closeBank
  split
  exacts [setBank _ _ _ rfl, refl s]

theorem takeRepairClaim (s : State) (b : Bank) : Scheduled s (s.takeRepairClaim b) := by
  have h : Scheduled s (s.setBank b { s.bank b with state := .repairing }) := setBank s b _ rfl
  unfold State.takeRepairClaim
  dsimp only
  split
  exacts [h.trans (setOp _ _), h]

theorem beginRefresh (s : State) (g : Group) : Scheduled s (s.beginRefresh g) :=
  foldl (fun s b => setBank s b { s.bank b with state := .refreshing } rfl) _ s

theorem grant (s : State) (b : Bank) : Scheduled s (s.grant b) := by
  unfold State.grant
  split
  · exact refl s
  · exact (mark s _ _).trans (setBank _ _ _ rfl)

theorem takeRepairIfFirst (s : State) : Scheduled s s.takeRepairIfFirst := by
  unfold State.takeRepairIfFirst
  repeat' (first | split | dsimp only)
  exacts [refl s, (freeCtr s _).trans (takeRepairClaim _ _), freeCtr s _, takeRepairClaim s _, refl s]

theorem startBurst (s : State) : Scheduled s s.startBurst := by
  unfold State.startBurst
  repeat' split
  exacts [refl s, mark s _ _, mark s _ _, refl s]

theorem closeBanks (s : State) : Scheduled s s.closeBanks :=
  foldl (fun s b => by split; exacts [closeBank s b, refl s]) _ s

theorem takeClaims (s : State) : Scheduled s s.takeClaims :=
  (takeRepairIfFirst s).trans (foldl (fun s g => by split; exacts [beginRefresh s g, refl s]) _ _)

theorem closeForMisses (s : State) : Scheduled s s.closeForMisses :=
  foldl (fun s b => by split; exacts [closeBank s b, refl s]) _ s

theorem lockTimers (s : State) : Scheduled s s.lockTimers :=
  foldl (fun s b => setBank s b { s.bank b with lockTimer := s.lockTimerOf b } rfl) _ s

/-- The one statement about `schedule`. -/
theorem schedule (s : State) : Scheduled s s.schedule :=
  (closeBanks s).trans ((takeClaims _).trans ((foldl grant _ _).trans ((closeForMisses _).trans
    ((startBurst _).trans (lockTimers _)))))

end Scheduled
end Sys2Proof.Machine
end

