-- ==== Sys2Proof/Laws/Choices.lean ====
section
/-! SUPPORT. What the scheduler, the Refresh Unit, the Maintenance Engine, Part Control and the Media Monitor test, said once
in the statements' own words. -/

namespace Sys2Proof.Machine

open Sys2Proof.Safety

theorem Client.tag?_eq_some {c : Client} {t : Tag} : c.tag? = some t ↔ ∃ p : Port, c = .port p t := by
  cases c <;> simp [Client.tag?]

theorem Client.isScrub_eq_true {c : Client} : c.isScrub = true ↔ c = .maint .scrub := by
  cases c with
  | maint x => cases x <;> simp [Client.isScrub]
  | _ => simp [Client.isScrub]

theorem Client.isMaint_eq_false {c : Client} : c.isMaint = false ↔ ∀ x : MaintPurpose, c ≠ .maint x := by
  cases c <;> simp [Client.isMaint]

theorem Access.waiting_iff {a : Access} : a.condition = .waiting ↔ a.isInFlight = false ∧ a.isGranted = false := by
  unfold Access.isInFlight Access.isGranted
  cases a.condition <;> simp

theorem BankState.openLogical_eq_some {x : BankState} {row : Row} :
    x.openLogical = some row ↔ ∃ w : OpenRow, x = .opened w ∧ w.logical = row := by
  cases x <;> simp [BankState.openLogical]

theorem BankState.isClosed_iff {x : BankState} : x.isClosed = true ↔ x = .closed := by
  cases x <;> simp [BankState.isClosed]

theorem mem_banksOf {g : Group} {b : Bank} : b ∈ banksOf g ↔ groupOf b = g := by
  revert g b; decide

namespace State
variable {s : State} {a : Access} {b : Bank}

/-! ### The scheduler (R21 to R27) -/

theorem ofLockHolder_iff : s.ofLockHolder a = true ↔ OfLockHolder s a := by
  unfold State.ofLockHolder OfLockHolder
  cases h : (s.bank a.bank).lockHolder with
  | none => simp
  | some t =>
    simp only [Option.isSome_some, Bool.true_and, decide_eq_true_eq, Option.some.injEq]
    rw [eq_comm, Client.tag?_eq_some]
    exact ⟨fun ⟨p, e⟩ => ⟨p, t, e, rfl⟩, fun ⟨p, _, e, e'⟩ => ⟨p, e' ▸ e⟩⟩

theorem lockAllows_iff : s.lockAllows a = true ↔ LockAllows s a := by
  rw [LockAllows, ← ofLockHolder_iff]
  unfold State.lockAllows State.ofLockHolder
  cases (s.bank a.bank).lockHolder with
  | none => simp
  | some t => simp [eq_comm]

theorem claimBank_iff : s.claimBank = some b ↔ Claims s b := by
  unfold State.claimBank Claims
  rcases h : s.maint.op with _ | (⟨x⟩ | ⟨_, _⟩) | r
  · simp
  · have hx : ((s.bank x).state.isRepairing = true) ↔ (s.bank x).state = .repairing := by
      cases (s.bank x).state <;> simp [BankState.isRepairing]
    by_cases hr : (s.bank x).state = .repairing
    · simp only [hx.2 hr, ↓reduceIte, reduceCtorEq, false_iff]
      rintro (⟨e, hn⟩ | ⟨_, e, _⟩)
      · cases e; exact hn hr
      · cases e
    · simp only [mt hx.1 hr, Bool.false_eq_true, ↓reduceIte, Option.some.injEq]
      constructor
      · rintro rfl; exact .inl ⟨rfl, hr⟩
      · rintro (⟨e, _⟩ | ⟨_, e, _⟩)
        · cases e; rfl
        · cases e
  · simp
  · simp only [reduceCtorEq, false_and, MaintOp.repair.injEq, exists_eq_left', false_or]
    by_cases hp : r.phase = .claiming <;> simp [hp]

theorem leftOut_iff (h : a.condition = .waiting) : s.leftOut a = true ↔ StandsAside s a := by
  unfold State.leftOut StandsAside
  simp only [Bool.and_eq_true, Client.isScrub_eq_true, List.any_eq_true, decide_eq_true_eq, Bool.not_eq_true',
    Client.isMaint_eq_false, Access.isWaiting, h]
  tauto

theorem mayServe_iff : s.mayServe a = true ↔ Servable s a := by
  unfold State.mayServe Servable
  by_cases hw : a.condition = .waiting
  · have hheld : s.heldBank a.bank = false ↔ (s.bank a.bank).state ≠ .refreshing ∧ (s.bank a.bank).state ≠ .repairing ∧
        (Claims s a.bank → (s.bank a.bank).lockHolder ≠ none) := by
      unfold State.heldBank
      rw [← claimBank_iff]
      cases (s.bank a.bank).state <;> simp [BankState.isRefreshing, BankState.isRepairing, Option.isSome_iff_ne_none]
    simp only [Bool.and_eq_true, Bool.not_eq_true', lockAllows_iff, hheld, ← Bool.not_eq_true, leftOut_iff hw,
      Access.isWaiting, hw, State.urgentBank, decide_true]
    tauto
  · simp [Access.isWaiting, hw]

theorem eligibleToOpen_iff : (decide (a.bank = b) && s.eligibleToOpen a) = true ↔ MayOpen s b a := by
  unfold State.eligibleToOpen MayOpen
  simp only [Bool.and_eq_true, decide_eq_true_eq, mayServe_iff]
  constructor
  · rintro ⟨rfl, h, hc⟩
    refine ⟨rfl, ?_, h⟩
    cases e : (s.bank a.bank).state <;> simp [e, BankState.isClosed] at hc ⊢
  · rintro ⟨rfl, hc, h⟩
    exact ⟨rfl, h, by simp [hc, BankState.isClosed]⟩

theorem grantedOn_eq_false : s.grantedOn b = false ↔ ∀ x ∈ s.accesses, x.bank = b → x.condition ≠ .granted := by
  unfold State.grantedOn Access.isGranted
  simp only [List.any_eq_false, Bool.and_eq_true, decide_eq_true_eq, not_and]
  exact ⟨fun h x hx hb hg => h x hx hg hb, fun h x hx hg hb => h x hx hb hg⟩

/-- A candidate for the data path, in the words of R25. -/
theorem burstCandidate_iff : s.burstCandidate a = true ↔ Candidate s a := by
  unfold State.burstCandidate State.eligibleHit Candidate
  simp only [Bool.or_eq_true, Bool.and_eq_true, mayServe_iff, decide_eq_true_eq, Bool.not_eq_true', grantedOn_eq_false,
    BankState.openLogical_eq_some, Option.isSome_iff_exists, Access.isGranted]
  constructor
  · rintro (⟨hg, _, w, hw, _⟩ | ⟨⟨hs, w, hw, hr⟩, hn⟩)
    exacts [⟨w, hw, .inl hg⟩, ⟨w, hw, .inr ⟨hs, hr, hn⟩⟩]
  · rintro ⟨w, hw, hg | ⟨hs, hr, hn⟩⟩
    exacts [.inl ⟨hg, _, w, hw, rfl⟩, .inr ⟨⟨hs, w, hw, hr⟩, hn⟩]

theorem noneServedOn_iff : (s.inFlightOn b = false ∧ s.grantedOn b = false) ↔
    ∀ x ∈ s.accesses, x.bank = b → x.condition = .waiting := by
  unfold State.inFlightOn State.grantedOn
  simp only [List.any_eq_false, Bool.and_eq_true, decide_eq_true_eq, not_and, Access.waiting_iff]
  simp only [← Bool.not_eq_true]
  exact ⟨fun h x hx hb => ⟨fun e => h.1 x hx e hb, fun e => h.2 x hx e hb⟩,
    fun h => ⟨fun x hx e hb => (h x hx hb).1 e, fun x hx e hb => (h x hx hb).2 e⟩⟩

/-- The closes of R11 that no access asks for. -/
theorem mustClose_iff : s.mustClose b = true ↔ ∃ w : OpenRow, ClosesOtherwise s b w := by
  unfold State.mustClose ClosesOtherwise
  rw [← noneServedOn_iff]
  simp only [Bool.and_eq_true, Bool.or_eq_true, Bool.not_eq_true', decide_eq_true_eq, claimBank_iff,
    Option.isNone_iff_eq_none, List.isEmpty_iff, Option.isSome_iff_exists, BankState.openLogical_eq_some, State.urgentBank]
  constructor
  · rintro ⟨⟨⟨⟨_, w, hw, _⟩, h1⟩, h2⟩, h3⟩
    exact ⟨w, hw, ⟨h1, h2⟩, by tauto⟩
  · rintro ⟨w, hw, ⟨h1, h2⟩, h3⟩
    exact ⟨⟨⟨⟨_, w, hw, rfl⟩, h1⟩, h2⟩, by tauto⟩

/-- The close-then-open of R26. -/
theorem closesForMiss_iff : s.closesForMiss b = true ↔ ∃ w : OpenRow, ClosesForMiss s b w := by
  unfold State.closesForMiss
  cases h : (s.bank b).state.openLogical with
  | none =>
    simp only [Bool.false_eq_true, false_iff]
    rintro ⟨w, hw, _⟩
    simp [hw, BankState.openLogical] at h
  | some row =>
    obtain ⟨w, hw, rfl⟩ := BankState.openLogical_eq_some.1 h
    have hit : ∀ hn : ∀ x ∈ s.accesses, x.bank = b → x.condition = .waiting,
        (s.accesses.any fun a => decide (a.bank = b) && s.eligibleHit a) = false ↔
          ∀ a ∈ s.accesses, a.bank = b → a.row = w.logical → ¬Servable s a := by
      intro hn
      simp only [List.any_eq_false, Bool.and_eq_true, decide_eq_true_eq, State.eligibleHit, mayServe_iff,
        Bool.not_eq_true', not_and]
      constructor
      · rintro k a ha rfl hr hs
        exact k a ha rfl ⟨hs, by rw [h, hr]⟩ (noneServedOn_iff.2 hn).2
      · rintro k a ha rfl ⟨hs, hr⟩ _
        exact k a ha rfl (by rw [h] at hr; exact (Option.some.inj hr).symm) hs
    have miss : (s.accesses.any (s.missOf b w.logical)) = true ↔
        ∃ a ∈ s.accesses, a.bank = b ∧ a.row ≠ w.logical ∧ Servable s a := by
      simp only [List.any_eq_true, State.missOf, Bool.and_eq_true, decide_eq_true_eq, mayServe_iff, and_assoc]
    simp only [Bool.and_eq_true, Bool.or_eq_true, Bool.not_eq_true', decide_eq_true_eq, and_assoc]
    constructor
    · rintro ⟨h1, h2, h3, h4⟩
      have hn := noneServedOn_iff.1 ⟨h1, h2⟩
      exact ⟨w, hw, hn, miss.1 h3, h4.imp (hit hn).1 id⟩
    · rintro ⟨w', hw', hn, h3, h4⟩
      obtain rfl : w' = w := by rw [hw] at hw'; exact (BankState.opened.inj hw').symm
      obtain ⟨h1, h2⟩ := noneServedOn_iff.2 hn
      exact ⟨h1, h2, miss.2 h3, h4.imp (hit hn).2 id⟩

/-- A party waits for the locked bank (R33). -/
theorem lockWaited_iff : s.lockWaited b = true ↔ LockWaited s b := by
  unfold State.lockWaited LockWaited
  simp only [Bool.or_eq_true, List.any_eq_true, Bool.and_eq_true, decide_eq_true_eq, Bool.not_eq_true', ← Bool.not_eq_true,
    lockAllows_iff, claimBank_iff, Client.isScrub_eq_true, Access.isWaiting, and_assoc, ne_eq]

/-- A miss to the burst's bank waits (R27). -/
theorem missWaits_iff : s.missWaits a = true ↔ MissWaits s a := by
  unfold State.missWaits MissWaits
  simp only [List.any_eq_true, Bool.and_eq_true, decide_eq_true_eq, ← Bool.not_eq_true, Bool.not_eq_true', lockAllows_iff,
    Access.isWaiting, and_assoc, ne_eq]
  refine exists_congr fun x => and_congr_right fun _ => and_congr_right fun _ => and_congr_right fun _ => ?_
  exact and_congr_right fun hw => and_congr_right fun _ => not_congr (leftOut_iff hw)

/-! ### Refresh (R86, R88) -/

theorem refreshReady_iff {g : Group} : s.refreshReady g = true ↔ RefreshDue s g := by
  unfold State.refreshReady RefreshDue
  simp only [Bool.and_eq_true, Bool.or_eq_true, decide_eq_true_eq, List.all_eq_true, BankState.isClosed_iff, mem_banksOf, Bool.not_eq_true',
    List.any_eq_false, and_assoc, ne_eq]

/-! ### Repair and sleep (R13, R91, R117, R168, R170) -/

/-- The claim of a repair or of the spare step can be taken. -/
theorem repairReady_iff : s.repairReady b = true ↔ RepairDue s b := by
  unfold State.repairReady RepairDue State.inFlightOn State.urgentBank
  simp only [Bool.and_eq_true, decide_eq_true_eq, claimBank_iff, BankState.isClosed_iff, Option.isNone_iff_eq_none, Bool.not_eq_true',
    List.any_eq_false, not_and, and_assoc]
  constructor
  · rintro ⟨h1, h2, h3, h4, h5⟩
    exact ⟨h1, h2, h3, h5, fun a ha hb => by simpa using mt (fun e => h4 a ha e) (by simpa using hb)⟩
  · rintro ⟨h1, h2, h3, h5, h4⟩
    exact ⟨h1, h2, h3, fun a ha e hb => by simp [h4 a ha hb] at e, h5⟩

/-- What taking that claim does. -/
theorem takeRepairClaim_eq : s.takeRepairClaim b = claimTaken s b := by
  obtain ⟨⟩ := s
  rename_i maint _ _ _ _ _
  obtain ⟨op, scrub⟩ := maint
  cases op <;> rfl

/-- Every block lets the part go to sleep. -/
theorem sleepReady_iff : s.sleepReady = true ↔ MaySleep s := by
  unfold State.sleepReady MaySleep
  have hb : ∀ b : Bank, b ∈ allBanks := by decide
  have hg : ∀ g : Sys2Proof.Group, g ∈ allGroups := by decide
  simp only [Bool.and_eq_true, List.isEmpty_iff, List.all_eq_true, BankState.isClosed_iff, decide_eq_true_eq, and_assoc, hb, hg, forall_const]

/-! ### Reports (R30, R98) -/

theorem unrecorded_iff {row : Row} : s.unrecorded b row = true ↔ CannotRecord s b row := by
  unfold State.unrecorded CannotRecord WeakEntry.isOf Config.weakEntries
  simp only [Bool.and_eq_true, Bool.not_eq_true', List.any_eq_false, decide_eq_true_eq, decide_eq_false_iff_not, not_lt,
    List.all_eq_true, and_assoc]

end State

theorem reported_iff {rs : List WordResult} : reported rs = true ↔ CallsForReport rs := by
  unfold reported CallsForReport WordResult.isCorrected WordResult.isUncorrectable
  simp only [List.any_eq_true, Bool.or_eq_true, decide_eq_true_eq]

end Sys2Proof.Machine
end

