-- ==== Sys2Proof/Laws/Ports.lean ====
section
/-! SUPPORT. What the operations on jobs, locks and staging halves do: one lemma each, for what leaves a job, an engine or an
AWAITING half changed, and what reading ahead does. -/

namespace Sys2Proof.Machine

open Sys2Proof.Safety

/-! ### Job records -/

namespace State

theorem jobOf_tag {s : State} {t : Tag} {j : Job} (h : s.jobOf t = some j) : j.tag = t := by
  simpa using List.find?_some h

/-- A rewritten record is found under its tag. -/
theorem jobOf_updateJob {s : State} {t : Tag} {f : Job → Job} {j : Job} (hf : ∀ x, (f x).tag = x.tag)
    (h : s.jobOf t = some j) : (s.updateJob t f).jobOf t = some (f j) := by
  have key : ∀ l : List Job, l.find? (fun x => decide (x.tag = t)) = some j →
      (l.map fun x => if x.tag = t then f x else x).find? (fun x => decide (x.tag = t)) = some (f j) := by
    intro l
    induction l with
    | nil => simp
    | cons x l ih =>
      by_cases hx : x.tag = t
      · rw [List.find?_cons_of_pos (by simpa using hx), List.map_cons, if_pos hx,
          List.find?_cons_of_pos (by simpa [hf] using hx)]
        rintro ⟨⟩
        rfl
      · rw [List.find?_cons_of_neg (by simpa using hx), List.map_cons, if_neg hx,
          List.find?_cons_of_neg (by simpa using hx)]
        exact ih
  exact key _ h

/-! ### Locks (R32) -/

/-- Releasing the locks of a job touches the banks alone: those it held are unlocked, the others stand. -/
theorem releaseLocksOf_spec (s : State) (t : Tag) :
    ∃ bk, s.releaseLocksOf t = { s with banks := bk } ∧
      (∀ b : Bank, (s.bank b).lockHolder = some t →
        (s.releaseLocksOf t).bank b = { s.bank b with lockHolder := none, lockTimer := none }) ∧
      (∀ b : Bank, (s.bank b).lockHolder ≠ some t → (s.releaseLocksOf t).bank b = s.bank b) ∧
      ∀ b : Bank, ((s.releaseLocksOf t).bank b).lockHolder ≠ some t := by
  have key : ∀ (l : List Bank), l.Nodup → ∀ s : State,
      ∃ bk, l.foldl (fun s b => if (s.bank b).lockHolder = some t then s.unlock b else s) s = { s with banks := bk } ∧
        ∀ b : Bank, (l.foldl (fun s b => if (s.bank b).lockHolder = some t then s.unlock b else s) s).bank b =
          if b ∈ l ∧ (s.bank b).lockHolder = some t then { s.bank b with lockHolder := none, lockTimer := none }
          else s.bank b := by
    intro l
    induction l with
    | nil => intro _ s; exact ⟨_, rfl, fun b => by simp⟩
    | cons c l ih =>
      intro hl s
      obtain ⟨hc, hl⟩ := List.nodup_cons.1 hl
      obtain ⟨bk, h1, h2⟩ := ih hl (if (s.bank c).lockHolder = some t then s.unlock c else s)
      refine ⟨bk, ?_, fun b => ?_⟩
      · rw [List.foldl_cons, h1]
        split <;> rfl
      · rw [List.foldl_cons, h2]
        by_cases hb : b = c
        · subst hb
          by_cases hh : (s.bank b).lockHolder = some t <;> simp [hh, hc, unlock]
        · have : (if (s.bank c).lockHolder = some t then s.unlock c else s).bank b = s.bank b := by
            split
            exacts [bank_other _ _ _ b hb, rfl]
          simp [this, hb]
  obtain ⟨bk, h1, h2⟩ := key allBanks (by decide) s
  have all : ∀ b : Bank, b ∈ allBanks := by decide
  refine ⟨bk, h1, fun b hb => ?_, fun b hb => ?_, fun b => ?_⟩
  · exact (h2 b).trans (by simp [all, hb])
  · exact (h2 b).trans (by simp [hb])
  · have e := h2 b
    show ((allBanks.foldl _ s).bank b).lockHolder ≠ _
    by_cases hb : (s.bank b).lockHolder = some t <;> rw [e] <;> simp [all, hb]

/-- Releasing the locks of a job, in the words of Safety. -/
theorem releaseLocksOf_locks (s : State) (t : Tag) : LocksReleased s (s.releaseLocksOf t) t := by
  obtain ⟨-, -, held, other, -⟩ := releaseLocksOf_spec s t
  intro b
  split
  exacts [held b ‹_›, other b ‹_›]

/-- No bank is left locked by a job whose locks have been released. -/
theorem locksReleased_none {s u : State} {t : Tag} (h : LocksReleased s u t) (b : Bank) : (u.bank b).lockHolder ≠ some t := by
  rw [h b]
  split
  exacts [nofun, ‹_›]

/-- Locking a bank to a job touches the banks alone: that one is the job's, any other it held is unlocked, the rest stand; and
nothing happens where it is the job's already (R31). -/
theorem lockBank_spec (s : State) (b : Bank) (t : Tag) :
    (∃ bk, s.lockBank b t = { s with banks := bk }) ∧ ((s.lockBank b t).bank b).lockHolder = some t ∧
      ((s.bank b).lockHolder = some t → s.lockBank b t = s) ∧
      ((s.bank b).lockHolder ≠ some t → (s.lockBank b t).bank b = { s.bank b with lockHolder := some t, lockTimer := none } ∧
        ∀ c : Bank, c ≠ b → (s.bank c).lockHolder = some t →
          (s.lockBank b t).bank c = { s.bank c with lockHolder := none, lockTimer := none }) ∧
      ∀ c : Bank, c ≠ b → (s.bank c).lockHolder ≠ some t → (s.lockBank b t).bank c = s.bank c := by
  obtain ⟨bk, h1, h2, h3, -⟩ := releaseLocksOf_spec s t
  by_cases h : (s.bank b).lockHolder = some t
  · have e : s.lockBank b t = s := if_pos h
    rw [e]
    exact ⟨⟨_, rfl⟩, h, fun _ => rfl, fun k => absurd h k, fun _ _ _ => rfl⟩
  · have e : s.lockBank b t = (s.releaseLocksOf t).setBank b
        { (s.releaseLocksOf t).bank b with lockHolder := some t, lockTimer := none } := if_neg h
    rw [e, h3 b h]
    refine ⟨⟨_, by rw [h1]; rfl⟩, by rw [bank_self], fun k => absurd k h, fun _ => ⟨bank_self _ _ _, fun c hc k => ?_⟩,
      fun c hc k => ?_⟩
    · rw [bank_other _ _ _ _ hc, h2 c k]
    · rw [bank_other _ _ _ _ hc, h3 c k]

/-- No lock is placed in RESETTING, for LINK and MAINT, nor for a job without a hold in force (R31, R172). -/
theorem placeLock_none {s : State} {a : Access}
    (h : s.part.state = .resetting ∨ (∀ (p : Port) (t : Tag), a.client ≠ .port p t) ∨
      ∃ (p : Port) (t : Tag), a.client = .port p t ∧ ∀ j : Job, s.jobOf t = some j → holdInForce j = false) :
    s.placeLock a = s := by
  unfold placeLock
  rcases h with h | h | ⟨p, t, h, k⟩
  · split
    · rfl
    · split
      · rfl
      · rw [if_neg (by simp [h])]
  · cases e : a.client with
    | port p t => exact absurd e (h p t)
    | link => rfl
    | maint _ => rfl
  · rw [h]
    show (match s.jobOf t with | none => s | some j => _) = s
    cases e : s.jobOf t with
    | none => rfl
    | some j => simp [k j e]

end State

/-! ### Staging halves (R66 to R69) -/

/-- The first AWAITING half of a burst leaves the halves. -/
theorem dropFirst_awaiting {k : Nat} {before after : List Half} (h : .awaiting k ∉ before) :
    dropFirst (Half.isAwaiting k) (before ++ .awaiting k :: after) = before ++ after := by
  induction before with
  | nil => simp [dropFirst, Half.isAwaiting]
  | cons x l ih =>
    obtain ⟨hx, hl⟩ := not_or.1 (mt List.mem_cons.2 h)
    have : x.isAwaiting k = false := by cases x <;> simp_all [Half.isAwaiting, eq_comm]
    simp [dropFirst, this, ih hl]

/-- The first AWAITING half of a burst is LOADED. -/
theorem loadHalf_awaiting {k start : Nat} {bytes : List Byte} {before after : List Half} (h : .awaiting k ∉ before) :
    loadHalf k start bytes (before ++ .awaiting k :: after) = before ++ .loaded k start bytes :: after := by
  induction before with
  | nil => simp [loadHalf, Half.isAwaiting]
  | cons x l ih =>
    obtain ⟨hx, hl⟩ := not_or.1 (mt List.mem_cons.2 h)
    have : x.isAwaiting k = false := by cases x <;> simp_all [Half.isAwaiting, eq_comm]
    simp [loadHalf, this, ih hl]

/-- Nothing is posted where no half passes the test. -/
theorem postFilling_none (c : Client) (a e : Nat) (l : List Half) : postFilling c a e (fun _ => false) l = (l, []) := by
  induction l with
  | nil => rfl
  | cons x l ih => cases x <;> simp [postFilling, ih]

/-- What a job has staged is posted whole: the halves it leaves, and its WRITEs. -/
theorem postFilling_all (p : Port) (j : Job) (l : List Half) :
    postFilling (.port p j.tag) j.regionStart j.regionEnd (fun _ => true) (l.filter fun h => !h.isLoaded) =
      (awaitingHalves l, stagedWrites j p l) := by
  induction l with
  | nil => rfl
  | cons x l ih =>
    cases x with
    | filling k start bytes =>
      rw [List.filter_cons_of_pos rfl, postFilling, ih]
      rfl
    | awaiting k =>
      rw [List.filter_cons_of_pos rfl, postFilling, ih]
      exacts [rfl, nofun]
    | loaded k start bytes =>
      rw [List.filter_cons_of_neg (by simp [Half.isLoaded]), ih]
      rfl

theorem awaitingHalves_not_filling (l : List Half) : ∀ h ∈ awaitingHalves l, h.isFilling = false := by
  simp only [awaitingHalves, List.mem_filterMap]
  rintro h ⟨x, _, e⟩
  cases x <;> simp at e <;> subst e <;> rfl

/-- The halves whose part of the region has not been wholly given (R70). -/
theorem filter_not_given (j : Job) (n : Nat) (l : List Half) :
    (l.filter fun h => !h.isGiven j.regionEnd n) = notGiven j n l := by
  unfold notGiven
  congr 1
  funext h
  cases h with
  | loaded k start bytes =>
    exact (decide_not ..).symm.trans (decide_eq_decide.2 not_le)
  | _ => rfl

/-! ### Reading ahead (R69) -/

namespace State

/-- No FREE half, or no burst of the region left: nothing is read ahead. -/
theorem prefetchOne_none {s : State} {p : Port} {j : Job}
    (h : 2 ≤ (s.engine p).halves.length ∨
      ∀ k : Nat, (s.engine p).nextBurst = some k → j.address.getD 0 + j.length ≤ 32 * k) : s.prefetchOne p j = s := by
  unfold State.prefetchOne Job.regionEnd
  cases e : (s.engine p).nextBurst with
  | none => rfl
  | some k => exact if_neg fun c => h.elim (fun h => by omega) fun h => by have := h k e; omega

/-- A FREE half and a burst of the region left: its part is read ahead. -/
theorem prefetchOne_some {s : State} {p : Port} {j : Job} {k : Nat} (hp : j.port = p) (h : (s.engine p).halves.length < 2)
    (e : (s.engine p).nextBurst = some k) (hk : 32 * k < j.address.getD 0 + j.length) :
    s.prefetchOne p j = (s.setEngine p { s.engine p with
      halves := (s.engine p).halves ++ [.awaiting k], nextBurst := some (k + 1) }).post (partRead p j k) := by
  subst hp
  unfold State.prefetchOne
  rw [e]
  exact if_pos ⟨h, hk⟩

/-- What reading ahead does: the FREE halves are refilled, their READs posted, and nothing else (R69). -/
theorem prefetch_spec (s : State) {p : Port} {j : Job} (hp : j.port = p) :
    ∃ (halves : List Half) (next : Option Nat) (reads : List Access),
      Refilled p j (s.engine p).halves (s.engine p).nextBurst halves next reads ∧
      (s.prefetch p j).engine p = { s.engine p with halves := halves, nextBurst := next } ∧
      (s.prefetch p j).accesses = s.accesses ++ reads ∧
      ∃ en ac, s.prefetch p j = { s with engines := en, accesses := ac } := by
  unfold State.prefetch
  by_cases h : 2 ≤ (s.engine p).halves.length ∨
      ∀ k : Nat, (s.engine p).nextBurst = some k → j.address.getD 0 + j.length ≤ 32 * k
  · rw [prefetchOne_none h, prefetchOne_none h]
    refine ⟨_, _, [], ⟨fun _ => ⟨rfl, rfl, rfl⟩, fun k e hk => ?_⟩, rfl, (List.append_nil _).symm, _, _, rfl⟩
    have h2 : 2 ≤ (s.engine p).halves.length := h.resolve_right fun c => by have := c k e; omega
    refine ⟨fun c => ?_, fun c => ?_⟩
    · rcases c with c | ⟨c, -⟩
      · omega
      · simp [c] at h2
    · simp [c] at h2
  · push Not at h
    obtain ⟨h2, k, e, hk⟩ := h
    rw [prefetchOne_some hp h2 e hk]
    generalize hs : (s.setEngine p { s.engine p with
      halves := (s.engine p).halves ++ [.awaiting k], nextBurst := some (k + 1) }).post (partRead p j k) = u
    have hu : u.engine p = { s.engine p with
      halves := (s.engine p).halves ++ [.awaiting k], nextBurst := some (k + 1) } := hs ▸ engine_self _ _ _
    have ha : u.accesses = s.accesses ++ [partRead p j k] := by rw [← hs]; rfl
    have hf : ∃ en ac, u = { s with engines := en, accesses := ac } := ⟨_, _, hs.symm⟩
    by_cases h3 : (s.engine p).halves = [] ∧ 32 * (k + 1) < j.address.getD 0 + j.length
    · rw [prefetchOne_some (k := k + 1) hp (by simp [hu, h3.1]) (by simp [hu]) h3.2]
      refine ⟨[.awaiting k, .awaiting (k + 1)], some (k + 2), [partRead p j k, partRead p j (k + 1)],
        ⟨fun c => ?_, fun k' e' hk' => ?_⟩, ?_, ?_, ?_⟩
      · rcases c with c | c
        · omega
        · have := c k e; omega
      · rw [e] at e'; cases e'
        refine ⟨fun c => ?_, fun _ _ => ⟨rfl, rfl, rfl⟩⟩
        rcases c with c | ⟨-, c⟩
        · simp [h3.1] at c
        · omega
      · show (State.setEngine u p _).engine p = _
        rw [engine_self, hu, h3.1]
        rfl
      · show u.accesses ++ _ = _
        rw [ha, List.append_assoc]; rfl
      · obtain ⟨en, ac, rfl⟩ := hf
        exact ⟨_, _, rfl⟩
    · rw [prefetchOne_none (s := u) (by
        rw [hu]
        by_cases hl : (s.engine p).halves = []
        · right; rintro _ ⟨⟩; have := mt (And.intro hl) h3; omega
        · left; have := List.length_pos_iff.2 hl; simp; omega)]
      refine ⟨_, _, _, ⟨fun c => ?_, fun k' e' hk' => ?_⟩, hu, ha, hf⟩
      · rcases c with c | c
        · omega
        · have := c k e; omega
      · rw [e] at e'; cases e'
        exact ⟨fun _ => ⟨rfl, rfl, rfl⟩, fun c d => absurd ⟨c, d⟩ h3⟩

/-! ### A job's end (R44 to R46, R67) -/

/-- A job to STOPPING: its record, its engine, its locks, and what it posts; nothing else. -/
theorem stopJob_spec {s : State} {p : Port} {j x : Job} {o : JobOutcome} {f : Option Nat} (h : s.jobOf j.tag = some x) :
    (s.stopJob p j o f).jobOf j.tag = some { x with state := .stopping, outcome := some o, faultAddress := f } ∧
      (s.stopJob p j o f).engine p = { s.engine p with
        state := .stopping,
        halves := if o = .media then onlyAwaiting (s.engine p).halves else awaitingHalves (s.engine p).halves } ∧
      (∀ q : Port, q ≠ p → (s.stopJob p j o f).engine q = s.engine q) ∧
      (∀ b : Bank, ((s.stopJob p j o f).bank b).lockHolder ≠ some j.tag) ∧
      (s.stopJob p j o f).accesses = s.accesses ++ (if o = .media then [] else stagedWrites j p (s.engine p).halves) ∧
      ∃ jb en bk ac, s.stopJob p j o f = { s with jobs := jb, engines := en, banks := bk, accesses := ac } := by
  let s0 := s.updateJob j.tag fun y => { y with state := .stopping, outcome := some o, faultAddress := f }
  obtain ⟨bk, hbk, -, -, free⟩ := releaseLocksOf_spec s0 j.tag
  have job := jobOf_updateJob (f := fun y => { y with state := .stopping, outcome := some o, faultAddress := f })
    (fun _ => rfl) h
  let halves := if o = .media then onlyAwaiting (s.engine p).halves else awaitingHalves (s.engine p).halves
  let posted := if o = .media then [] else stagedWrites j p (s.engine p).halves
  have ends : s.stopJob p j o f =
      (({ s0 with banks := bk }).setEngine p { s.engine p with state := .stopping, halves := halves }).postAll posted := by
    unfold State.stopJob
    rw [show (s.updateJob j.tag fun y => { y with state := .stopping, outcome := some o, faultAddress := f }) = s0 from rfl,
      hbk]
    by_cases ho : o = .media
    · subst ho
      simp only [ne_eq, not_true_eq_false, decide_false, postFilling_none, List.filter_filter, halves, posted, ↓reduceIte,
        onlyAwaiting]
      rfl
    · have e := postFilling_all p j (s.engine p).halves
      have keep : (awaitingHalves (s.engine p).halves).filter (fun h => !h.isFilling) = awaitingHalves (s.engine p).halves :=
        List.filter_eq_self.2 fun x hx => by simp [awaitingHalves_not_filling _ x hx]
      simp only [ne_eq, ho, not_false_eq_true, decide_true, halves, posted, ↓reduceIte]
      rw [show (({ s0 with banks := bk } : State).engine p) = s.engine p from rfl, e]
      simp only [keep]
  rw [ends]
  refine ⟨job, engine_self _ _ _, fun q hq => engine_other _ _ _ q hq, ?_, rfl, _, _, _, _, rfl⟩
  rw [hbk] at free
  exact free

/-- A job to DRAINING: its record, its engine, and what it posts; nothing else. -/
theorem drainJob_spec (s : State) (p : Port) (j : Job) (o : JobOutcome) :
    s.drainJob p j o = ((s.updateJob j.tag fun x => { x with state := .draining, outcome := some o }).setEngine p
      { s.engine p with state := .draining, halves := awaitingHalves (s.engine p).halves }).postAll
        (stagedWrites j p (s.engine p).halves) := by
  have e := postFilling_all p j (s.engine p).halves
  unfold State.drainJob
  dsimp only
  rw [show ((s.updateJob j.tag fun x => { x with state := .draining, outcome := some o }).engine p) = s.engine p from rfl, e]

end State
end Sys2Proof.Machine
end

