-- ==== Sys2Proof/Laws/Notices.lean ====
section
/-! SUPPORT. What an admission does: the outbox, the number taken, and what the producer is told. -/

namespace Sys2Proof.Machine

open Sys2Proof.Safety

/-- The number an admission takes is the first from the next notice number on that no notice holds, within 16 raises (R142). -/
theorem freshNumber_eq (outbox : List Notice) (n : Byte) (fuel : Nat) : ∃ k : Nat, k ≤ fuel ∧
    freshNumber outbox fuel n = n + BitVec.ofNat 8 k ∧ ∀ i : Nat, i < k → ∃ x ∈ outbox, x.number = n + BitVec.ofNat 8 i := by
  induction fuel generalizing n with
  | zero => exact ⟨0, le_rfl, by simp [freshNumber], nofun⟩
  | succ f ih =>
    unfold freshNumber
    split
    · rename_i h
      obtain ⟨k, hk, e, free⟩ := ih (n + 1)
      have next (i : Nat) : n + 1 + BitVec.ofNat 8 i = n + BitVec.ofNat 8 (i + 1) := by
        rw [BitVec.ofNat_add, BitVec.add_assoc, BitVec.add_comm (1 : Byte)]; rfl
      refine ⟨k + 1, by omega, e.trans (next k), fun i hi => ?_⟩
      rcases i with _ | i
      · simpa using h
      · obtain ⟨x, hx, e⟩ := free i (by omega)
        exact ⟨x, hx, e.trans (next i)⟩
    · exact ⟨0, by omega, by simp, nofun⟩

/-- Nothing is left to do. -/
theorem iterate_none {f : State → Option State} {s : State} (h : f s = none) (n : Nat) : iterate f n s = s := by
  cases n with
  | zero => rfl
  | succ n => rw [iterate, h]

namespace State

/-- There is room for an ORDINARY notice (R143). -/
theorem roomForOrdinary_iff {s : State} :
    s.roomForOrdinary = true ↔ s.notices.outbox.length < 16 ∧ s.ordinaryCount < 12 := by
  unfold State.roomForOrdinary Config.outboxEntries Config.ordinaryEntries
  simp only [Bool.and_eq_true, decide_eq_true_eq]

/-- An admitted notice: the outbox and the number the next takes; nothing else. -/
theorem admitNotice_eq (s : State) (body : NoticeBody) :
    s.admitNotice body = { s with notices := admitted s.notices (freshNotice s.admissionNumber body) } := by
  unfold State.admitNotice State.setOutbox admitted freshNotice
  simp

/-- A producer is told of its notice, and nothing of the Notice Unit changes by it. -/
theorem onAdmitted_spec {s : State} {x : Producer} {body : NoticeBody} (h : s.bodyOf x = some body) (n : Byte) :
    Told s (s.onAdmitted x n) n x ∧ (s.onAdmitted x n).notices = s.notices := by
  cases x with
  | job p =>
    unfold State.bodyOf at h
    cases hq : s.queueOf p with
    | nil => simp [hq] at h
    | cons t rest =>
      let s0 := (s.updateJob t fun j => { j with state := .reported, noticeNumber := some n }).setQueue p rest
      obtain ⟨bk, hbk, -, -, -⟩ := releaseLocksOf_spec s0 t
      have locks : LocksReleased s (s0.releaseLocksOf t) t := releaseLocksOf_locks s0 t
      rw [hbk] at locks
      have e : s.onAdmitted (.job p) n = ({ s0 with banks := bk } : State).restEngine p .idle := by
        rw [← hbk]
        simp only [State.onAdmitted, State.reportJob, hq, s0]
      rw [e]
      exact ⟨⟨t, rest, hq, queueOf_self _ _ _, rfl, engine_self _ _ _, outp_self _ _ _,
        fun q hq => ⟨queueOf_other _ _ _ q hq, engine_other _ _ _ q hq, outp_other _ _ _ q hq⟩, locks, rfl⟩, rfl⟩
  | attention p => exact ⟨⟨engine_self _ _ _, fun q hq => engine_other _ _ _ q hq, rfl⟩, rfl⟩
  | scrub => exact ⟨⟨rfl, rfl⟩, rfl⟩
  | repair => exact ⟨⟨rfl, rfl⟩, rfl⟩
  | partControl => exact ⟨rfl, rfl⟩

/-- The producer is told whatever the Notice Unit holds. -/
theorem told_of_notices {s u : State} {notices : NoticeUnit} {n : Byte} {x : Producer}
    (h : Told { s with notices := notices } u n x) : Told s u n x := by
  have back {t : State} (e : t = { s with notices := notices }) : { t with notices := s.notices } = s := by rw [e]
  cases x with
  | job p =>
    obtain ⟨t, rest, h1, h2, h3, h4, h5, h6, h7, h8⟩ := h
    exact ⟨t, rest, h1, h2, h3, h4, h5, h6, h7, back h8⟩
  | attention p => exact ⟨h.1, h.2.1, back h.2.2⟩
  | scrub => exact ⟨h.1, back h.2⟩
  | repair => exact ⟨h.1, back h.2⟩
  | partControl => exact back (t := { u with notices := notices }) h

/-- An ORDINARY notice for which there is room is admitted and its producer told (R143). -/
theorem offer_admitted {s : State} {x : Producer} {body : NoticeBody} (ho : s.notices.outbox.length < 16)
    (hc : s.ordinaryCount < 12) (h : s.bodyOf x = some body) :
    Told s (s.offer x) s.admissionNumber x ∧
      (s.offer x).notices = admitted s.notices (freshNotice s.admissionNumber body) := by
  have e : s.offer x = (s.admitNotice body).onAdmitted x s.admissionNumber := by
    unfold State.offer State.admitFrom
    rw [if_pos (roomForOrdinary_iff.2 ⟨ho, hc⟩), h]
  rw [e, admitNotice_eq]
  have := onAdmitted_spec (s := { s with notices := admitted s.notices (freshNotice s.admissionNumber body) }) (x := x)
    (body := body) h s.admissionNumber
  exact ⟨told_of_notices this.1, this.2⟩

/-- A producer with nothing to report changes nothing while there is room. -/
theorem offer_none {s : State} {x : Producer} (ho : s.notices.outbox.length < 16) (hc : s.ordinaryCount < 12)
    (h : s.bodyOf x = none) : s.offer x = s := by
  unfold State.offer State.admitFrom
  rw [if_pos (roomForOrdinary_iff.2 ⟨ho, hc⟩), h]

/-- Without room the producer waits (R143). -/
theorem offer_waits {s : State} {x : Producer} (h : 16 ≤ s.notices.outbox.length ∨ 12 ≤ s.ordinaryCount) :
    s.offer x = { s with notices := { s.notices with waiting := s.notices.waiting ++ [x] } } := by
  unfold State.offer
  exact if_neg fun r => by have := roomForOrdinary_iff.1 r; omega

/-- An ALERT takes any free entry (R144). -/
theorem offerAlert_admitted {s : State} {body : NoticeBody} (h : s.notices.outbox.length < 16) :
    s.offerAlert body = { s with notices := admitted s.notices (freshNotice s.admissionNumber body) } := by
  rw [← admitNotice_eq]; exact if_pos h

/-- An ALERT without a free entry is lost (R144). -/
theorem offerAlert_lost {s : State} {body : NoticeBody} (h : 16 ≤ s.notices.outbox.length) :
    s.offerAlert body = { s with notices := { s.notices with alertsLost := true } } := if_neg (Nat.not_lt.2 h)

/-- What an ALERT does to the Notice Unit depends on the Notice Unit alone. -/
theorem offerAlert_notices {s t : State} (h : s.notices = t.notices) (x : NoticeBody) :
    (s.offerAlert x).notices = (t.offerAlert x).notices := by
  have e : s.admissionNumber = t.admissionNumber := by unfold State.admissionNumber; rw [h]
  by_cases hl : s.notices.outbox.length < 16
  · rw [offerAlert_admitted hl, offerAlert_admitted (h ▸ hl), e, h]
  · rw [offerAlert_lost (Nat.not_lt.1 hl), offerAlert_lost (h ▸ Nat.not_lt.1 hl), h]

/-- Where no producer waits, or there is no room, none is admitted (R143). -/
theorem admitWaitingOne_none {s : State}
    (h : s.notices.waiting = [] ∨ 16 ≤ s.notices.outbox.length ∨ 12 ≤ s.ordinaryCount) : s.admitWaitingOne = none := by
  unfold State.admitWaitingOne
  cases e : s.notices.waiting with
  | nil => rfl
  | cons x rest =>
    refine if_neg fun r => ?_
    have := roomForOrdinary_iff.1 r
    simp [e] at h
    omega

/-- The head of the waiting-producer list, where there is room: it leaves the list, and its notice, if it has one, is admitted
and the producer told (R143). -/
theorem admitWaitingOne_some {s : State} {x : Producer} {rest : List Producer} (e : s.notices.waiting = x :: rest)
    (ho : s.notices.outbox.length < 16) (hc : s.ordinaryCount < 12) :
    ∃ u : State, s.admitWaitingOne = some u ∧
      (s.bodyOf x = none → u = { s with notices := { s.notices with waiting := rest } }) ∧
      ∀ body : NoticeBody, s.bodyOf x = some body → Told s u s.admissionNumber x ∧
        u.notices = { admitted s.notices (freshNotice s.admissionNumber body) with waiting := rest } := by
  unfold State.admitWaitingOne
  rw [e]
  refine ⟨_, if_pos (roomForOrdinary_iff.2 ⟨ho, hc⟩), fun h => ?_, fun body h => ?_⟩
  · have : ({ s with notices := { s.notices with waiting := rest } } : State).bodyOf x = none := h
    simp only [State.admitFrom, this]
  · have h' : ({ s with notices := { s.notices with waiting := rest } } : State).bodyOf x = some body := h
    simp only [State.admitFrom, h', admitNotice_eq]
    have told := onAdmitted_spec (s := { s with
      notices := { admitted s.notices (freshNotice s.admissionNumber body) with waiting := rest } }) h s.admissionNumber
    exact ⟨told_of_notices told.1, told.2⟩

end State
end Sys2Proof.Machine
end

