-- ==== Sys2Proof/Laws/Memory.lean ====
section
/-! SUPPORT. The array: what a read gives after a write, and that every operation keeps the canonical form. -/

namespace Sys2Proof.Machine

/-! ### Sparse lists -/

section Sparse
set_option linter.unusedSectionVars false
variable {α : Type} [DecidableEq α] (z : α)

theorem Sparse.risingFrom_weaken {l : List (Nat × α)} {lo hi : Nat} (h : lo ≤ hi)
    (w : Sparse.risingFrom (some hi) l = true) : Sparse.risingFrom (some lo) l = true := by
  cases l with
  | nil => rfl
  | cons x t =>
    simp only [Sparse.risingFrom, Bool.and_eq_true, decide_eq_true_eq] at w ⊢
    exact ⟨by omega, w.2⟩

theorem Sparse.get_below {l : List (Nat × α)} {lo k : Nat} (w : Sparse.risingFrom (some lo) l = true)
    (h : k ≤ lo) : Sparse.get z l k = z := by
  induction l generalizing lo with
  | nil => rfl
  | cons x t ih =>
    obtain ⟨k', v⟩ := x
    simp only [Sparse.risingFrom, Bool.and_eq_true, decide_eq_true_eq] at w
    have : k ≠ k' := by omega
    simp only [Sparse.get, this, if_false]
    exact ih w.2 (by omega)

/-- A rising list after a write: the key holds what was written. -/
theorem Sparse.get_set_from {l : List (Nat × α)} {lo : Nat} (w : Sparse.risingFrom (some lo) l = true)
    (k : Nat) (v : α) (a : Nat) :
    Sparse.get z (Sparse.set z l k v) a = if a = k then v else Sparse.get z l a := by
  induction l generalizing lo with
  | nil =>
    by_cases hv : v = z
    · subst hv
      simp [Sparse.set, Sparse.get]
    · simp [Sparse.set, Sparse.get, hv]
  | cons x t ih =>
    obtain ⟨k', v'⟩ := x
    simp only [Sparse.risingFrom, Bool.and_eq_true, decide_eq_true_eq] at w
    simp only [Sparse.set]
    split
    · rename_i hlt
      by_cases hv : v = z
      · subst hv
        simp only [if_true]
        by_cases ha : a = k
        · subst ha
          have hne : a ≠ k' := by omega
          simp only [if_true, Sparse.get, hne, if_false]
          exact Sparse.get_below v w.2 (by omega)
        · simp only [ha, if_false]
      · simp only [hv, if_false, Sparse.get]
    · split
      · rename_i h1 h2
        subst h2
        by_cases hv : v = z
        · subst hv
          simp only [if_true]
          by_cases ha : a = k
          · subst ha
            simp only [if_true]
            exact Sparse.get_below v w.2 (le_refl _)
          · simp only [ha, if_false, Sparse.get]
        · by_cases ha : a = k <;> simp [hv, Sparse.get, ha]
      · rename_i h1 h2
        simp only [Sparse.get]
        by_cases ha : a = k'
        · subst ha
          have : ¬ a = k := fun e => h2 e.symm
          simp [this]
        · simp only [ha, if_false]
          exact ih w.2

theorem Sparse.risingFrom_set {l : List (Nat × α)} {lo k : Nat} (w : Sparse.risingFrom (some lo) l = true)
    (h : lo < k) (v : α) : Sparse.risingFrom (some lo) (Sparse.set z l k v) = true := by
  induction l generalizing lo with
  | nil => by_cases hv : v = z <;> simp [Sparse.set, hv, Sparse.risingFrom, h]
  | cons x t ih =>
    obtain ⟨k', v'⟩ := x
    simp only [Sparse.risingFrom, Bool.and_eq_true, decide_eq_true_eq] at w
    simp only [Sparse.set]
    split
    · rename_i hlt
      by_cases hv : v = z
      · simp [hv, Sparse.risingFrom, w]
      · simp [hv, Sparse.risingFrom, w, h, hlt]
    · split
      · rename_i h1 h2
        subst h2
        by_cases hv : v = z
        · simp only [hv, if_true]
          exact Sparse.risingFrom_weaken (le_of_lt w.1) w.2
        · simp [hv, Sparse.risingFrom, w]
      · simp only [Sparse.risingFrom, Bool.and_eq_true, decide_eq_true_eq]
        exact ⟨w.1, ih w.2 (by omega)⟩

theorem Sparse.risingFrom_none_iff (l : List (Nat × α)) :
    Sparse.risingFrom none l = true ↔ l = [] ∨ ∃ k v t, l = (k, v) :: t ∧ Sparse.risingFrom (some k) t = true := by
  cases l with
  | nil => simp [Sparse.risingFrom]
  | cons x t =>
    obtain ⟨k, v⟩ := x
    simp [Sparse.risingFrom]

theorem Sparse.rising_set {l : List (Nat × α)} (w : Sparse.risingFrom none l = true) (k : Nat) (v : α) :
    Sparse.risingFrom none (Sparse.set z l k v) = true := by
  rcases (Sparse.risingFrom_none_iff l).1 w with rfl | ⟨k', v', t, rfl, h⟩
  · by_cases hv : v = z <;> simp [Sparse.set, hv, Sparse.risingFrom]
  · simp only [Sparse.set]
    split
    · rename_i hlt
      by_cases hv : v = z <;> simp [hv, Sparse.risingFrom, h, hlt]
    · split
      · rename_i h1 h2
        subst h2
        by_cases hv : v = z
        · simp only [hv, if_true]
          rcases t with _ | ⟨⟨k2, v2⟩, t2⟩
          · rfl
          · simp only [Sparse.risingFrom, Bool.and_eq_true] at h ⊢
            exact h.2
        · simp [hv, Sparse.risingFrom, h]
      · simp only [Sparse.risingFrom]
        exact Sparse.risingFrom_set z h (by omega) v

theorem Sparse.mem_set {l : List (Nat × α)} {k : Nat} {v : α} {x : Nat × α} (h : x ∈ Sparse.set z l k v) :
    x ∈ l ∨ (x = (k, v) ∧ v ≠ z) := by
  induction l with
  | nil =>
    by_cases hv : v = z <;> simp [Sparse.set, hv] at h
    exact Or.inr ⟨h, hv⟩
  | cons y t ih =>
    obtain ⟨k', v'⟩ := y
    simp only [Sparse.set] at h
    split at h
    · by_cases hv : v = z
      · simp only [hv, if_true] at h
        exact Or.inl h
      · simp only [hv, if_false, List.mem_cons] at h
        rcases h with h | h
        · exact Or.inr ⟨h, hv⟩
        · exact Or.inl (List.mem_cons.2 h)
    · split at h
      · by_cases hv : v = z
        · simp only [hv, if_true] at h
          exact Or.inl (List.mem_cons_of_mem _ h)
        · simp only [hv, if_false, List.mem_cons] at h
          rcases h with h | h
          · exact Or.inr ⟨h, hv⟩
          · exact Or.inl (List.mem_cons_of_mem _ h)
      · rcases List.mem_cons.1 h with h | h
        · exact Or.inl (h ▸ List.mem_cons_self)
        · rcases ih h with h | h
          · exact Or.inl (List.mem_cons_of_mem _ h)
          · exact Or.inr h

/-- A write keeps the canonical form. -/
theorem Sparse.wf_set {l : List (Nat × α)} (w : Sparse.wf z l = true) (k : Nat) (v : α) :
    Sparse.wf z (Sparse.set z l k v) = true := by
  simp only [Sparse.wf, Bool.and_eq_true, List.all_eq_true, decide_eq_true_eq] at w ⊢
  refine ⟨Sparse.rising_set z w.1 k v, fun x hx => ?_⟩
  rcases Sparse.mem_set z hx with h | ⟨rfl, h⟩
  · exact w.2 x h
  · exact h

/-- A write leaves every other key, whatever the list. -/
theorem Sparse.get_set_other (l : List (Nat × α)) {k a : Nat} (v : α) (h : a ≠ k) :
    Sparse.get z (Sparse.set z l k v) a = Sparse.get z l a := by
  induction l with
  | nil => unfold Sparse.set; split <;> simp [Sparse.get, h]
  | cons x t ih =>
    unfold Sparse.set
    split
    · split <;> simp [Sparse.get, h]
    · split
      · rename_i e; subst e; split <;> simp [Sparse.get, h]
      · simp [Sparse.get, ih]

/-- What a key holds after a write to a list in canonical form. -/
theorem Sparse.get_set {l : List (Nat × α)} (w : Sparse.wf z l = true) (k : Nat) (v : α) (a : Nat) :
    Sparse.get z (Sparse.set z l k v) a = if a = k then v else Sparse.get z l a := by
  simp only [Sparse.wf, Bool.and_eq_true] at w
  rcases (Sparse.risingFrom_none_iff l).1 w.1 with rfl | ⟨k', v', t, rfl, h⟩
  · exact Sparse.get_set_from z (lo := 0) rfl k v a
  · -- the head's key is the least: shift the bound below it
    simp only [Sparse.set]
    split
    · rename_i hlt
      by_cases hv : v = z
      · subst hv
        simp only [if_true]
        by_cases ha : a = k
        · subst ha
          have hne : a ≠ k' := by omega
          simp only [if_true, Sparse.get, hne, if_false]
          exact Sparse.get_below v h (by omega)
        · simp only [ha, if_false]
      · simp only [hv, if_false, Sparse.get]
    · split
      · rename_i h1 h2
        subst h2
        by_cases hv : v = z
        · subst hv
          simp only [if_true]
          by_cases ha : a = k
          · subst ha
            simp only [if_true]
            exact Sparse.get_below v h (le_refl _)
          · simp only [ha, if_false, Sparse.get]
        · by_cases ha : a = k <;> simp [hv, Sparse.get, ha]
      · rename_i h1 h2
        simp only [Sparse.get]
        by_cases ha : a = k'
        · subst ha
          have : ¬ a = k := fun e => h2 e.symm
          simp [this]
        · simp only [ha, if_false]
          exact Sparse.get_set_from z h k v a

theorem Sparse.risingFrom_clear {l : List (Nat × α)} {b : Nat} (w : Sparse.risingFrom (some b) l = true) (lo hi : Nat) :
    Sparse.risingFrom (some b) (Sparse.clear l lo hi) = true := by
  induction l generalizing b with
  | nil => rfl
  | cons x t ih =>
    obtain ⟨k, v⟩ := x
    simp only [Sparse.risingFrom, Bool.and_eq_true, decide_eq_true_eq] at w
    simp only [Sparse.clear, List.filter_cons]
    split
    · simp only [Sparse.risingFrom, Bool.and_eq_true, decide_eq_true_eq]
      exact ⟨w.1, ih w.2⟩
    · exact Sparse.risingFrom_weaken (le_of_lt w.1) (ih w.2)

/-- Clearing a range keeps the canonical form. -/
theorem Sparse.wf_clear {l : List (Nat × α)} (w : Sparse.wf z l = true) (lo hi : Nat) :
    Sparse.wf z (Sparse.clear l lo hi) = true := by
  simp only [Sparse.wf, Bool.and_eq_true, List.all_eq_true, decide_eq_true_eq] at w ⊢
  refine ⟨?_, fun x hx => w.2 x (List.mem_of_mem_filter hx)⟩
  rcases (Sparse.risingFrom_none_iff l).1 w.1 with rfl | ⟨k, v, t, rfl, h⟩
  · rfl
  · simp only [Sparse.clear, List.filter_cons]
    split
    · exact Sparse.risingFrom_clear h lo hi
    · have := Sparse.risingFrom_clear h lo hi
      simp only [Sparse.clear] at this
      revert this
      generalize List.filter _ t = m
      intro this
      rcases m with _ | ⟨⟨k2, v2⟩, m2⟩
      · rfl
      · simp only [Sparse.risingFrom, Bool.and_eq_true] at this ⊢
        exact this.2

/-- What a key holds after a range has been cleared. -/
theorem Sparse.get_clear (l : List (Nat × α)) (lo hi a : Nat) :
    Sparse.get z (Sparse.clear l lo hi) a = if lo ≤ a ∧ a < hi then z else Sparse.get z l a := by
  induction l with
  | nil => simp [Sparse.clear, Sparse.get]
  | cons x t ih =>
    obtain ⟨k, v⟩ := x
    simp only [Sparse.clear] at ih
    simp only [Sparse.clear, List.filter_cons]
    by_cases hk : lo ≤ k ∧ k < hi
    · simp only [hk, decide_true, Bool.and_self, Bool.not_true, Bool.false_eq_true, if_false, ih, Sparse.get]
      by_cases ha : a = k
      · subst ha
        simp [hk]
      · simp [ha]
    · have hk' : (!(decide (lo ≤ k) && decide (k < hi))) = true := by
        rw [Bool.not_eq_true', Bool.and_eq_false_iff]
        rcases Decidable.not_and_iff_or_not.1 hk with h | h
        · exact Or.inl (decide_eq_false h)
        · exact Or.inr (decide_eq_false h)
      simp only [hk', if_true, Sparse.get, ih]
      by_cases ha : a = k
      · subst ha
        simp [hk]
      · simp [ha]

end Sparse

/-! ### The array -/

theorem Memory.wf_empty : Memory.empty.wf = true := rfl

theorem Memory.wf_setByte {m : Memory} (w : m.wf = true) (a : Nat) (b : Byte) : (m.setByte a b).wf = true := by
  simp only [Memory.wf, Memory.setByte, Bool.and_eq_true] at w ⊢
  exact ⟨Sparse.wf_set _ w.1 a b, w.2⟩

theorem Memory.wf_setWrong {m : Memory} (w : m.wf = true) (a : Nat) (e : Bits39) : (m.setWrong a e).wf = true := by
  simp only [Memory.wf, Memory.setWrong, Bool.and_eq_true] at w ⊢
  exact ⟨w.1, Sparse.wf_set _ w.2 a e⟩

theorem Memory.wf_setWord {m : Memory} (w : m.wf = true) (a : Nat) (d : Word) : (m.setWord a d).wf = true :=
  Memory.wf_setWrong (Memory.wf_setByte (Memory.wf_setByte (Memory.wf_setByte (Memory.wf_setByte w _ _) _ _) _ _) _ _)
    _ _

/-- A word written leaves every byte and every wrong bit of the others, whatever the array. -/
theorem Memory.setWord_other (m : Memory) {a : Nat} (d : Word) :
    (∀ x : Nat, (x < a ∨ a + 4 ≤ x) → (m.setWord a d).byte x = m.byte x) ∧
      ∀ w : Nat, w ≠ a / 4 → (m.setWord a d).wrong w = m.wrong w := by
  refine ⟨fun x hx => ?_, fun w hw => Sparse.get_set_other _ _ _ hw⟩
  have other (m : Memory) (k : Nat) (b : Byte) (h : x ≠ k) : (m.setByte k b).byte x = m.byte x :=
    Sparse.get_set_other _ _ _ h
  exact (other _ (a + 3) _ (by omega)).trans ((other _ (a + 2) _ (by omega)).trans
    ((other _ (a + 1) _ (by omega)).trans (other _ a _ (by omega))))

theorem Memory.byte_setByte {m : Memory} (w : m.wf = true) (a : Nat) (b : Byte) (x : Nat) :
    (m.setByte a b).byte x = if x = a then b else m.byte x := by
  simp only [Memory.wf, Bool.and_eq_true] at w
  exact Sparse.get_set _ w.1 a b x

theorem Memory.wrong_setWrong {m : Memory} (w : m.wf = true) (a : Nat) (e : Bits39) (x : Nat) :
    (m.setWrong a e).wrong x = if x = a then e else m.wrong x := by
  simp only [Memory.wf, Bool.and_eq_true] at w
  exact Sparse.get_set _ w.2 a e x

@[simp] theorem Memory.byte_setWrong (m : Memory) (a : Nat) (e : Bits39) (x : Nat) :
    (m.setWrong a e).byte x = m.byte x := rfl
@[simp] theorem Memory.wrong_setByte (m : Memory) (a : Nat) (b : Byte) (x : Nat) :
    (m.setByte a b).wrong x = m.wrong x := rfl

theorem Memory.wf_decayOne {m : Memory} (w : m.wf = true) (x : Decay) : (m.decayOne x).wf = true := by
  unfold Memory.decayOne
  split
  · exact Memory.wf_setWrong w _ _
  · exact w

theorem Memory.wf_decay {m : Memory} (w : m.wf = true) (xs : List Decay) : (m.decay xs).wf = true := by
  unfold Memory.decay
  induction xs generalizing m with
  | nil => exact w
  | cons x t ih => exact ih (Memory.wf_decayOne w x)

theorem Memory.wf_zeroRows {m : Memory} (w : m.wf = true) (lo hi : Nat) : (m.zeroRows lo hi).wf = true := by
  simp only [Memory.wf, Memory.zeroRows, Bool.and_eq_true] at w ⊢
  exact ⟨Sparse.wf_clear _ w.1 _ _, Sparse.wf_clear _ w.2 _ _⟩

theorem Memory.wf_zeroSpares {m : Memory} (w : m.wf = true) (b : Bank) : (m.zeroSpares b).wf = true :=
  Memory.wf_zeroRows w _ _

theorem wf_writeOne {m : Memory} (w : m.wf = true) (a addr : Nat) (d : Word) (mask : BitVec 4) :
    (writeOne m a addr d mask).1.wf = true := by
  unfold writeOne
  split
  · exact w
  · split
    · exact Memory.wf_setWord w _ _
    · dsimp only
      split
      · exact w
      · exact Memory.wf_setWord w _ _

theorem wf_rewriteOne {m : Memory} (w : m.wf = true) (a addr : Nat) (d : Word) (mask : BitVec 4) :
    (rewriteOne m a addr d mask).1.wf = true := by
  unfold rewriteOne
  split
  · exact w
  · dsimp only
    split
    · exact Memory.wf_setWord w _ _
    · exact w

theorem wf_writeWords (guarded : Bool) (base : Nat) (b : Bank) (r : Row) (data : List Word)
    (masks : List (BitVec 4)) {m : Memory} (w : m.wf = true) (k n : Nat) :
    (writeWords guarded base b r data masks m k n).1.wf = true := by
  induction n generalizing m k with
  | zero => exact w
  | succ n ih =>
    simp only [writeWords]
    apply ih
    split
    · exact wf_rewriteOne w _ _ _ _
    · exact wf_writeOne w _ _ _ _

theorem wf_copyWords (src dst : Nat) {m : Memory} (w : m.wf = true) (k n : Nat) :
    (copyWords src dst m k n).1.wf = true := by
  induction n generalizing m k with
  | zero => exact w
  | succ n ih =>
    simp only [copyWords]
    exact ih (Memory.wf_setWord w _ _) _

/-- A copy touches the words it copies to alone. -/
theorem copyWords_other (src : Nat) {dst : Nat} (h : dst % 4 = 0) (n : Nat) : ∀ (m : Memory) (k : Nat),
    (∀ x : Nat, (x < dst + 4 * k ∨ dst + 4 * (k + n) ≤ x) → (copyWords src dst m k n).1.byte x = m.byte x) ∧
      ∀ w : Nat, (w < dst / 4 + k ∨ dst / 4 + (k + n) ≤ w) → (copyWords src dst m k n).1.wrong w = m.wrong w := by
  induction n with
  | zero => exact fun m k => ⟨fun _ _ => rfl, fun _ _ => rfl⟩
  | succ n ih =>
    intro m k
    have one := Memory.setWord_other m (a := dst + 4 * k)
      (if decide ((m.read (src + 4 * k)).1 = .uncorrectable) then 0 else (m.read (src + 4 * k)).2)
    have rest := ih (m.setWord (dst + 4 * k)
      (if decide ((m.read (src + 4 * k)).1 = .uncorrectable) then 0 else (m.read (src + 4 * k)).2)) (k + 1)
    exact ⟨fun x hx => (rest.1 x (by omega)).trans (one.1 x (by omega)),
      fun w hw => (rest.2 w (by omega)).trans (one.2 w (by omega))⟩

/-- A READ gives one result for each of its words. -/
theorem length_readWords (m : Memory) (base : Nat) (b : Bank) (r : Row) (k n : Nat) :
    (readWords m base b r k n).length = n := by
  induction n generalizing k with
  | zero => rfl
  | succ n ih => simp [readWords, ih]

end Sys2Proof.Machine
end

