-- ==== Sys2Proof/Laws/Results.lean ====
section
/-! SUPPORT. The results of an access: word by word, in address order, and the lowest word that was faulty or was left. -/

namespace Sys2Proof.Machine

/-- The lowest word of a result that passes a test, found first. -/
theorem find_lowest {q : WordResult → Bool} {rs : List WordResult} (h : rs.Pairwise fun x y => x.address < y.address) (w : Nat) :
    (rs.find? q).map WordResult.address = some w ↔
      (∃ x ∈ rs, q x = true ∧ x.address = w) ∧ ∀ x ∈ rs, q x = true → w ≤ x.address := by
  induction rs with
  | nil => simp
  | cons x l ih =>
    obtain ⟨hx, hl⟩ := List.pairwise_cons.1 h
    by_cases e : q x = true
    · rw [List.find?_cons_of_pos e]
      constructor
      · rintro ⟨⟩
        exact ⟨⟨x, List.mem_cons_self, e, rfl⟩, fun y hy _ => (List.mem_cons.1 hy).elim (· ▸ le_rfl) fun hy => (hx y hy).le⟩
      · rintro ⟨⟨y, hy, ey, rfl⟩, low⟩
        rcases List.mem_cons.1 hy with rfl | hy
        · rfl
        · have := low x List.mem_cons_self e; have := hx y hy; omega
    · rw [List.find?_cons_of_neg e, ih hl]
      simp [e]

/-- The first faulty address is the lowest word UNCORRECTABLE (R28). -/
theorem firstFaulty_iff {rs : List WordResult} (h : rs.Pairwise fun x y => x.address < y.address) (w : Nat) :
    firstFaulty rs = some w ↔ (∃ x ∈ rs, x.outcome = some .uncorrectable ∧ x.address = w) ∧
      ∀ x ∈ rs, x.outcome = some .uncorrectable → w ≤ x.address := by
  rw [firstFaulty, find_lowest h]; simp [WordResult.isUncorrectable]

/-- There is none where no word is. -/
theorem firstFaulty_none {rs : List WordResult} : firstFaulty rs = none ↔ ∀ x ∈ rs, x.outcome ≠ some .uncorrectable := by
  simp [firstFaulty, WordResult.isUncorrectable]

/-- The first word not written is the lowest such one (R29). -/
theorem firstUnwritten_iff {rs : List WordResult} (h : rs.Pairwise fun x y => x.address < y.address) (w : Nat) :
    firstUnwritten rs = some w ↔ (∃ x ∈ rs, x.written = false ∧ x.address = w) ∧
      ∀ x ∈ rs, x.written = false → w ≤ x.address := by
  rw [firstUnwritten, find_lowest h]; simp

/-- There is none where every word was written. -/
theorem firstUnwritten_none {rs : List WordResult} : firstUnwritten rs = none ↔ ∀ x ∈ rs, x.written = true := by
  simp [firstUnwritten]

/-- A word written leaves what another one reads as. -/
theorem read_setWord_other (m : Memory) {a b : Nat} (d : Word) (ha : a % 4 = 0) (hb : b % 4 = 0) (h : a ≠ b) :
    (m.setWord a d).read b = m.read b := by
  obtain ⟨h1, h2⟩ := m.setWord_other (a := a) d
  unfold Memory.read Memory.word
  rw [h1 _ (by omega), h1 _ (by omega), h1 _ (by omega), h1 _ (by omega), h2 _ (by omega)]

/-- The result of a word's write depends on what the word reads as, alone. -/
theorem writeOne_result_congr {m m' : Memory} {a : Nat} (h : m.read a = m'.read a) (addr : Nat) (d : Word) (mask : BitVec 4) :
    (writeOne m a addr d mask).2 = (writeOne m' a addr d mask).2 ∧
      (rewriteOne m a addr d mask).2 = (rewriteOne m' a addr d mask).2 := by
  unfold writeOne rewriteOne
  rw [h]
  constructor
  · split
    · rfl
    · split
      · rfl
      · dsimp only; split <;> rfl
  · split
    · rfl
    · dsimp only; split <;> rfl

/-- A word's write, guarded or not, leaves what another one reads as. -/
theorem read_writeOne_other (m : Memory) {a b : Nat} (addr : Nat) (d : Word) (mask : BitVec 4) (ha : a % 4 = 0) (hb : b % 4 = 0)
    (h : a ≠ b) : (writeOne m a addr d mask).1.read b = m.read b ∧ (rewriteOne m a addr d mask).1.read b = m.read b := by
  unfold writeOne rewriteOne
  constructor
  · split
    · rfl
    · split
      · exact read_setWord_other _ _ ha hb h
      · dsimp only; split
        · rfl
        · exact read_setWord_other _ _ ha hb h
  · split
    · rfl
    · dsimp only; split
      · exact read_setWord_other _ _ ha hb h
      · rfl

/-- The results of a WRITE, word by word: each is that of the word's write into the array as it was before (R15, R106). -/
theorem writeWords_results (guarded : Bool) {base : Nat} (hb : base % 4 = 0) (b : Bank) (r : Row) (data : List Word)
    (masks : List (BitVec 4)) (n : Nat) : ∀ (m : Memory) (w : Nat),
    (writeWords guarded base b r data masks m w n).2 = (List.range n).map fun k =>
      if guarded then
        (rewriteOne m (base + 4 * (w + k)) (wordAddress b r (w + k)) (data.getD ((w + k) % 8) 0) (masks.getD ((w + k) % 8) 0)).2
      else
        (writeOne m (base + 4 * (w + k)) (wordAddress b r (w + k)) (data.getD ((w + k) % 8) 0) (masks.getD ((w + k) % 8) 0)).2 := by
  induction n with
  | zero => intro m w; rfl
  | succ n ih =>
    intro m w
    rw [writeWords, List.range_succ_eq_map, List.map_cons, List.map_map]
    dsimp only
    rw [ih]
    cases guarded
    · refine congrArg₂ _ rfl (List.map_congr_left fun k _ => ?_)
      simp only [Bool.false_eq_true, ↓reduceIte, Function.comp, show w + 1 + k = w + k.succ by omega]
      exact (writeOne_result_congr (read_writeOne_other m _ _ _ (by omega) (by omega) (by omega)).1 _ _ _).1
    · refine congrArg₂ _ rfl (List.map_congr_left fun k _ => ?_)
      simp only [↓reduceIte, Function.comp, show w + 1 + k = w + k.succ by omega]
      exact (writeOne_result_congr (read_writeOne_other m _ _ _ (by omega) (by omega) (by omega)).2 _ _ _).2

/-- A word's result has the word's address. -/
theorem writeOne_address (m : Memory) (a addr : Nat) (d : Word) (mask : BitVec 4) :
    (writeOne m a addr d mask).2.address = addr ∧ (rewriteOne m a addr d mask).2.address = addr := by
  unfold writeOne rewriteOne
  constructor
  · split
    · rfl
    · split
      · rfl
      · dsimp only; split <;> rfl
  · split
    · rfl
    · dsimp only; split <;> rfl

/-- The results of a READ, word by word (R28). -/
theorem readWords_results (m : Memory) (base : Nat) (b : Bank) (r : Row) (n : Nat) : ∀ w : Nat,
    readWords m base b r w n = (List.range n).map fun k =>
      { address := wordAddress b r (w + k), data := (m.read (base + 4 * (w + k))).2,
        outcome := some (m.read (base + 4 * (w + k))).1, written := false } := by
  induction n with
  | zero => intro w; rfl
  | succ n ih =>
    intro w
    rw [readWords, List.range_succ_eq_map, List.map_cons, List.map_map]
    dsimp only
    rw [ih]
    refine congrArg₂ _ rfl (List.map_congr_left fun k _ => ?_)
    simp only [Function.comp, show w + 1 + k = w + k.succ by omega]

/-- Rows begin at words. -/
theorem openCell_aligned (s : State) (b : Bank) (row : Row) : s.openCell b row % 4 = 0 := by
  have aligned : ∀ (b : Bank) (r : Row) (x : PhysRow), rowCell b r x % 4 = 0 := by
    intro b r x
    cases x with
    | native => simp only [rowCell]; omega
    | spare i => simp only [rowCell, Config.arrayBytes, Config.rowBytes]; omega
  unfold State.openCell
  split <;> exact aligned _ _ _

/-- The results of an access stand in address order (R28, R29). -/
theorem perform_rising (s : State) (a : Access) : (s.perform a).2.Pairwise fun x y => x.address < y.address := by
  unfold State.perform
  split
  · rw [readWords_results, List.pairwise_map]
    refine List.pairwise_lt_range.imp fun h => ?_
    simp only [wordAddress]
    omega
  · rw [writeWords_results _ (openCell_aligned s a.bank a.row), List.pairwise_map]
    refine List.pairwise_lt_range.imp fun h => ?_
    split
    · rw [(writeOne_address ..).2, (writeOne_address ..).2]; unfold wordAddress; omega
    · rw [(writeOne_address ..).1, (writeOne_address ..).1]; unfold wordAddress; omega

/-! ### Copies (R118) -/

/-- A word written in a canonical array holds its data with a fresh check code (R5). -/
theorem setWord_self {m : Memory} (w : m.wf = true) (a : Nat) (d : Word) :
    (m.setWord a d).word a = d ∧ (m.setWord a d).wrong (a / 4) = 0 := by
  have w1 := Memory.wf_setByte w a (d.extractLsb' 0 8)
  have w2 := Memory.wf_setByte w1 (a + 1) (d.extractLsb' 8 8)
  have w3 := Memory.wf_setByte w2 (a + 2) (d.extractLsb' 16 8)
  have w4 := Memory.wf_setByte w3 (a + 3) (d.extractLsb' 24 8)
  refine ⟨?_, (Memory.wrong_setWrong w4 _ _ _).trans (if_pos rfl)⟩
  have b (x : Nat) : (m.setWord a d).byte x =
      if x = a + 3 then d.extractLsb' 24 8 else if x = a + 2 then d.extractLsb' 16 8 else
      if x = a + 1 then d.extractLsb' 8 8 else if x = a then d.extractLsb' 0 8 else m.byte x := by
    refine (Memory.byte_setByte w3 _ _ _).trans ?_
    rw [Memory.byte_setByte w2, Memory.byte_setByte w1, Memory.byte_setByte w]
  unfold Memory.word
  simp only [b, ↓reduceIte, show ¬(a + 2 = a + 3) by omega, show ¬(a + 1 = a + 3) by omega, show ¬(a + 1 = a + 2) by omega,
    show ¬(a = a + 3) by omega, show ¬(a = a + 2) by omega, show ¬(a = a + 1) by omega]
  ext i hi
  simp only [BitVec.getElem_append, BitVec.getElem_extractLsb']
  split_ifs <;> (rw [← BitVec.getLsbD_eq_getElem]; congr 1; omega)

/-- A copy, word by word: what the source reads as, zero for an UNCORRECTABLE word, with fresh check codes (R118). -/
theorem copyWords_word (src dst : Nat) (hs : src % 4 = 0) (hd : dst % 4 = 0) (n : Nat) :
    ∀ (m : Memory) (k : Nat), m.wf = true →
    (∀ i j : Nat, i < k + n → j < k + n → src + 4 * i ≠ dst + 4 * j) →
    ∀ i : Nat, k ≤ i → i < k + n →
      (copyWords src dst m k n).1.word (dst + 4 * i) =
        (if (m.read (src + 4 * i)).1 = .uncorrectable then 0 else (m.read (src + 4 * i)).2) ∧
      (copyWords src dst m k n).1.wrong (dst / 4 + i) = 0 := by
  induction n with
  | zero => intro m k _ _ i h1 h2; omega
  | succ n ih =>
    intro m k w sep i h1 h2
    simp only [copyWords]
    generalize hd' : (if decide ((m.read (src + 4 * k)).1 = .uncorrectable) = true then 0 else (m.read (src + 4 * k)).2) = d
    have w1 := Memory.wf_setWord w (dst + 4 * k) d
    by_cases e : i = k
    · subst e
      obtain ⟨o1, o2⟩ := copyWords_other src hd n (m.setWord (dst + 4 * i) d) (i + 1)
      have hword : (m.setWord (dst + 4 * i) d).word (dst + 4 * i) = d := (setWord_self w _ _).1
      refine ⟨?_, ?_⟩
      · unfold Memory.word
        rw [o1 _ (by omega), o1 _ (by omega), o1 _ (by omega), o1 _ (by omega)]
        refine hword.trans ?_
        rw [← hd']; simp
      · rw [o2 _ (by omega), show dst / 4 + i = (dst + 4 * i) / 4 by omega]
        exact (setWord_self w _ _).2
    · obtain ⟨a, b⟩ := ih _ (k + 1) w1 (fun i j hi hj => sep i j (by omega) (by omega)) i (by omega) (by omega)
      have rd : (m.setWord (dst + 4 * k) d).read (src + 4 * i) = m.read (src + 4 * i) :=
        read_setWord_other m d (by omega) (by omega) (fun h => sep i k h2 (by omega) h.symm)
      rw [rd] at a
      exact ⟨a, b⟩

/-- A row's copy into a spare of its bank, as far as it has come (R118). -/
theorem copyWords_copied (m : Memory) (b : Bank) (row : Row) (i : Spare) (n : Nat) (hn : n ≤ 512) :
    Safety.CopiedInto m (copyWords (rowCell b row .native) (rowCell b row (.spare i)) m 0 n).1 b row i n := by
  have hs : rowCell b row .native % 4 = 0 := by simp only [rowCell]; omega
  have hd : rowCell b row (.spare i) % 4 = 0 := by simp only [rowCell, Config.arrayBytes, Config.rowBytes]; omega
  obtain ⟨o1, o2⟩ := copyWords_other (rowCell b row .native) hd n m 0
  refine ⟨fun w k hk => ?_, fun x hx => o1 x (by omega), fun x hx => o2 x (by omega)⟩
  refine copyWords_word _ _ hs hd n m 0 w (fun x y hx hy => ?_) k (Nat.zero_le _) (by omega)
  simp only [rowCell, Config.arrayBytes, Config.rowBytes]
  have := b.isLt; have := row.isLt
  omega

end Sys2Proof.Machine
end

