-- ==== Sys2Proof/Laws/Ends.lean ====
section
/-! SUPPORT. What the ends of things do: a job's finish, an engine reset's parts, the sampling of lines, a tick. -/

namespace Sys2Proof.Machine

open Sys2Proof.Safety

namespace State

/-! ### A job's finish (R49) -/

/-- A job HELD (R49). -/
theorem holdJob_isHeld (s : State) (p : Port) (j : Job) :
    IsHeld s (s.holdJob p j) p j ∧ (s.holdJob p j).notices = s.notices := by
  unfold State.holdJob
  obtain ⟨bk, hbk, -⟩ := releaseLocksOf_spec (s.updateJob j.tag fun x => { x with state := .held }) j.tag
  have locks : LocksReleased s _ j.tag := releaseLocksOf_locks (s.updateJob j.tag fun x => { x with state := .held }) j.tag
  rw [hbk] at locks
  rw [hbk]
  exact ⟨⟨rfl, engine_self _ _ _, fun q hq => engine_other _ _ _ q hq, locks, rfl⟩, rfl⟩

/-- A job's record is found rewritten. -/
theorem jobOf_map {s t : State} {j : Job} {f : Job → Job} (hj : s.jobOf j.tag = some j) (hf : ∀ x, (f x).tag = x.tag)
    (e : t.jobs = s.jobs.map (fun x => if x.tag = j.tag then f x else x)) : t.jobOf j.tag = some (f j) := by
  have := jobOf_updateJob hf hj
  unfold State.jobOf at this ⊢
  rw [e]; exact this

/-- Holding a job leaves the array. -/
theorem isHeld_mem {s t : State} {p : Port} {j : Job} (h : IsHeld s t p j) : t.mem = s.mem :=
  have h := congrArg State.mem h.2.2.2.2
  h

/-- A job is held whatever the Notice Unit held. -/
theorem isHeld_of_notices {s t : State} {p : Port} {j : Job} {x : NoticeUnit} (h : IsHeld { s with notices := x } t p j) :
    IsHeld s t p j :=
  have k := congrArg (fun t : State => { t with notices := s.notices }) h.2.2.2.2
  ⟨h.1, h.2.1, h.2.2.1, h.2.2.2.1, k⟩

/-- Reporting a job leaves the array. -/
theorem told_mem {s t : State} {p : Port} {n : Byte} (h : Told s t n (.job p)) : t.mem = s.mem := by
  obtain ⟨_, _, -, -, -, -, -, -, -, h⟩ := h
  have := congrArg State.mem h
  exact this

/-- The finish with HOLDN asserted (R49, R50). -/
theorem finishJob_held {s : State} {p : Port} {j : Job} {rest : List Tag} (hj : s.jobOf j.tag = some j)
    (hh : (s.pin p).holdn = true) : Finishes s (s.finishJob p j) p j rest := by
  have e : s.finishJob p j = s.holdJob p j := if_pos hh
  obtain ⟨k, kn⟩ := holdJob_isHeld s p j
  rw [e]
  generalize s.holdJob p j = t at k kn
  have no : (s.pin p).holdn ≠ false := by simp [hh]
  exact ⟨locksReleased_none k.2.2.2.1, isHeld_mem k, fun x => absurd x no,
    fun _ => ⟨jobOf_map (f := fun x => { x with state := .held }) hj (fun _ => rfl) k.1, k, kn⟩, fun x => absurd x no⟩

/-- The finish with room (R49). -/
theorem finishJob_admitted {s : State} {p : Port} {j : Job} {rest : List Tag} (hj : s.jobOf j.tag = some j)
    (hq : s.queueOf p = j.tag :: rest) (hh : (s.pin p).holdn ≠ true) (r : s.roomForOrdinary = true) :
    Finishes s (s.finishJob p j) p j rest := by
  have body : s.bodyOf (.job p) =
      some (.jobEnd j.tag j.port j.mode j.outcome j.moved j.faultAddress j.holdBroken j.correctedSeen) := by
    simp [State.bodyOf, hq, hj]
  have e : s.finishJob p j = s.offer (.job p) := (if_neg hh).trans (if_pos r)
  obtain ⟨ho, hc⟩ := roomForOrdinary_iff.1 r
  obtain ⟨told, nt⟩ := offer_admitted ho hc body
  rw [e]
  generalize s.offer (.job p) = u at told nt
  have told' := told
  obtain ⟨t, rs, h1, h2, h3, h4, h5, h6, h7, h8⟩ := told
  obtain ⟨rfl, rfl⟩ := List.cons.inj (hq.symm.trans h1)
  exact ⟨locksReleased_none h7, told_mem told', fun _ _ _ =>
    ⟨jobOf_map (f := fun x => { x with state := .reported, noticeNumber := some s.admissionNumber }) hj (fun _ => rfl) h3,
      h2, told', nt⟩, fun x => absurd x hh, fun _ x => by omega⟩

/-- The finish without room (R49, R143). -/
theorem finishJob_refused {s : State} {p : Port} {j : Job} {rest : List Tag} (hj : s.jobOf j.tag = some j)
    (hh : (s.pin p).holdn ≠ true) (r : s.roomForOrdinary ≠ true) : Finishes s (s.finishJob p j) p j rest := by
  have full : 16 ≤ s.notices.outbox.length ∨ 12 ≤ s.ordinaryCount := by
    have := mt roomForOrdinary_iff.2 r; omega
  have e : s.finishJob p j = (s.offer (.job p)).holdJob p j := (if_neg hh).trans (if_neg r)
  rw [e, offer_waits full]
  obtain ⟨k, kn⟩ := holdJob_isHeld { s with notices := { s.notices with waiting := s.notices.waiting ++ [.job p] } } p j
  generalize State.holdJob _ p j = t at k kn ⊢
  have k := isHeld_of_notices k
  exact ⟨locksReleased_none k.2.2.2.1, isHeld_mem k, fun _ a b => by omega, fun x => absurd x hh,
    fun _ _ => ⟨jobOf_map (f := fun x => { x with state := .held }) hj (fun _ => rfl) k.1, k, kn⟩⟩

/-- What the finish of a port's head job does (R49). -/
theorem finishJob_finishes {s : State} {p : Port} {j : Job} {rest : List Tag} (hj : s.jobOf j.tag = some j)
    (hq : s.queueOf p = j.tag :: rest) : Finishes s (s.finishJob p j) p j rest := by
  by_cases hh : (s.pin p).holdn = true
  · exact finishJob_held hj hh
  · by_cases r : s.roomForOrdinary = true
    exacts [finishJob_admitted hj hq hh r, finishJob_refused hj hh r]

end State

/-! ### The parts of an engine reset (R82, R110, R122, R151) -/

/-- The repair at an engine reset, by its phase (R122). -/
theorem resetRepair_claiming {s : State} {r : RepairRecord} (h : s.maint.op = .repair r) (k : r.phase = .claiming) :
    s.resetRepair = s.setOp .none := by
  unfold State.resetRepair
  rw [h]; dsimp only; rw [k]

/-- A copy under way is given up. -/
theorem resetRepair_copying {s : State} {r : RepairRecord} (h : s.maint.op = .repair r) (k : r.phase = .copying) :
    s.resetRepair = s.abandonCopy r := by
  unfold State.resetRepair
  rw [h]; dsimp only; rw [k]

/-- Programming goes on. -/
theorem resetRepair_other {s : State}
    (h : ∀ r : RepairRecord, s.maint.op = .repair r → r.phase ≠ .claiming ∧ r.phase ≠ .copying) : s.resetRepair = s := by
  unfold State.resetRepair
  split
  · rename_i r e
    have := h r e
    split <;> simp_all
  · rfl

/-- Every lock is released (R82). -/
theorem releaseAllLocks_spec (s : State) : (∃ bk, s.releaseAllLocks = { s with banks := bk }) ∧
    ∀ b : Bank, s.releaseAllLocks.bank b = { s.bank b with lockHolder := none, lockTimer := none } := by
  have key : ∀ (l : List Bank), l.Nodup → ∀ s : State, (∃ bk, l.foldl State.unlock s = { s with banks := bk }) ∧
      ∀ b : Bank, (l.foldl State.unlock s).bank b =
        if b ∈ l then { s.bank b with lockHolder := none, lockTimer := none } else s.bank b := by
    intro l
    induction l with
    | nil => exact fun _ s => ⟨⟨_, rfl⟩, fun b => by simp⟩
    | cons c l ih =>
      intro hl s
      obtain ⟨hc, hl⟩ := List.nodup_cons.1 hl
      obtain ⟨⟨bk, h1⟩, h2⟩ := ih hl (s.unlock c)
      refine ⟨⟨bk, by rw [List.foldl_cons, h1]; rfl⟩, fun b => ?_⟩
      rw [List.foldl_cons, h2]
      by_cases hb : b = c
      · subst hb; simp [hc, State.unlock]
      · have : (s.unlock c).bank b = s.bank b := State.bank_other _ _ _ b hb
        simp [this, hb]
  obtain ⟨h1, h2⟩ := key allBanks (by decide) s
  have all : ∀ b : Bank, b ∈ allBanks := by decide
  exact ⟨h1, fun b => (h2 b).trans (if_pos (all b))⟩

/-- A copy given up (R122): the bank is CLOSED, the repair gone, and the copy as far as it had come. -/
theorem abandonCopy_spec (s : State) (r : RepairRecord) :
    (∃ n : Nat, n ≤ 512 ∧ CopiedInto s.mem (s.abandonCopy r).mem r.bank r.row r.target n) ∧
      (s.abandonCopy r).bank r.bank = { s.bank r.bank with state := .closed } ∧
      (∀ b : Bank, b ≠ r.bank → (s.abandonCopy r).bank b = s.bank b) ∧
      (s.abandonCopy r).maint = { s.maint with op := .none } ∧
      { s.abandonCopy r with banks := s.banks, maint := s.maint, mem := s.mem, freeCtr := s.freeCtr } = s :=
  ⟨⟨_, Nat.le_of_lt_succ (Nat.mod_lt _ (by decide)),
      copyWords_copied _ _ _ _ _ (Nat.le_of_lt_succ (Nat.mod_lt _ (by decide)))⟩,
    State.bank_self _ _ _, fun b hb => State.bank_other _ _ _ b hb, rfl, rfl⟩

/-- The repair at an engine reset (R122): what it can change, and what of it stands by phase. -/
theorem resetRepair_spec (s : State) : ∃ bk op m c,
    s.resetRepair = { s with banks := bk, maint := { s.maint with op := op }, mem := m, freeCtr := c } ∧
    (∀ r : RepairRecord, s.maint.op = .repair r → (r.phase = .claiming ∨ r.phase = .copying) → op = .none) ∧
    ((∀ r : RepairRecord, s.maint.op = .repair r → r.phase ≠ .claiming ∧ r.phase ≠ .copying) → op = s.maint.op) ∧
    (∀ r : RepairRecord, s.maint.op = .repair r → r.phase = .copying →
      (∃ n : Nat, n ≤ 512 ∧ CopiedInto s.mem m r.bank r.row r.target n) ∧
      bk[r.bank] = { s.bank r.bank with state := .closed } ∧ ∀ b : Bank, b ≠ r.bank → bk[b] = s.bank b) ∧
    ((∀ r : RepairRecord, s.maint.op = .repair r → r.phase ≠ .copying) →
      m = s.mem ∧ c = s.freeCtr ∧ bk = s.banks) := by
  by_cases h1 : ∃ r, s.maint.op = .repair r ∧ r.phase = .claiming
  · obtain ⟨r, hr, hp⟩ := h1
    refine ⟨s.banks, .none, s.mem, s.freeCtr, resetRepair_claiming hr hp, fun _ _ _ => rfl, fun h => absurd hp (h r hr).1,
      fun r' hr' hp' => ?_, fun _ => ⟨rfl, rfl, rfl⟩⟩
    rw [hr] at hr'; cases hr'; rw [hp] at hp'; cases hp'
  by_cases h2 : ∃ r, s.maint.op = .repair r ∧ r.phase = .copying
  · obtain ⟨r, hr, hp⟩ := h2
    obtain ⟨k1, k2, k3, -, -⟩ := abandonCopy_spec s r
    refine ⟨(s.abandonCopy r).banks, .none, (s.abandonCopy r).mem, s.freeCtr + 1, resetRepair_copying hr hp,
      fun _ _ _ => rfl,
      fun h => absurd hp (h r hr).2, fun r' hr' hp' => ?_, fun h => absurd hp (h r hr)⟩
    rw [hr] at hr'; cases hr'
    exact ⟨k1, k2, k3⟩
  · have h : ∀ r : RepairRecord, s.maint.op = .repair r → r.phase ≠ .claiming ∧ r.phase ≠ .copying :=
      fun r hr => ⟨fun hp => h1 ⟨r, hr, hp⟩, fun hp => h2 ⟨r, hr, hp⟩⟩
    exact ⟨s.banks, s.maint.op, s.mem, s.freeCtr, resetRepair_other h,
      fun r hr hp => absurd hp (by have := h r hr; tauto), fun _ => rfl, fun r hr hp => absurd hp (h r hr).2,
      fun _ => ⟨rfl, rfl, rfl⟩⟩

/-- The ports' producers leave the waiting-producer list (R151). -/
theorem withdrawPorts_eq (s : State) : s.withdrawPorts =
    { s with notices := { s.notices with waiting := s.notices.waiting.filter fun x => !ofPort x } } := by
  have : (fun x : Producer => match x with
      | .job _ => false
      | .attention _ => false
      | _ => true) = fun x => !ofPort x := by funext x; cases x <;> rfl
  exact congrArg (fun keep : Producer → Bool => { s with notices := { s.notices with
    waiting := s.notices.waiting.filter keep } }) this

/-- What an engine's stopping in RESETTING does (R82). -/
theorem stopPort_spec (s : State) (p : Port) :
    (s.stopPort p).engine p = atRest (s.engine p) .inert ∧ (s.stopPort p).outp p = stoppedOuts (s.outp p) ∧
      (∀ q : Port, q ≠ p → (s.stopPort p).engine q = s.engine q ∧ (s.stopPort p).outp q = s.outp q) ∧
      { s.stopPort p with engines := s.engines, outs := s.outs } = s := by
  let s0 := s.setEngine p (atRest (s.engine p) .inert)
  let s1 := s0.setOutp p { s0.outp p with sel := 0 }
  let s2 := s1.setOutp p { s1.outp p with xack := false, d := .off, cout := false, cin := false }
  let s3 := s2.setOutp p { s2.outp p with pclrPulses := (s2.outp p).pclrPulses + 1, pclrSel := (s2.outp p).sel }
  have e : s.stopPort p = s3 := rfl
  rw [e]
  have o1 : s1.outp p = { s.outp p with sel := 0 } := State.outp_self _ _ _
  have o2 : s2.outp p = { s1.outp p with xack := false, d := .off, cout := false, cin := false } := State.outp_self _ _ _
  have o3 : s3.outp p = { s2.outp p with pclrPulses := (s2.outp p).pclrPulses + 1, pclrSel := (s2.outp p).sel } :=
    State.outp_self _ _ _
  refine ⟨State.engine_self _ _ _, ?_, fun q hq => ⟨State.engine_other _ _ _ q hq, ?_⟩, rfl⟩
  · rw [o3, o2, o1]; rfl
  · exact (State.outp_other _ _ _ q hq).trans ((State.outp_other _ _ _ q hq).trans (State.outp_other _ _ _ q hq))

/-- The enabled ports' engines enter IDLE; the others stand (R82, R91). -/
theorem readyEngines_spec (s : State) :
    (∀ p : Port, (s.portSettings p).enable = true →
       s.readyEngines.engine p = atRest (s.engine p) .idle ∧ s.readyEngines.outp p = { s.outp p with sel := 0 }) ∧
    (∀ p : Port, (s.portSettings p).enable = false →
      s.readyEngines.engine p = s.engine p ∧ s.readyEngines.outp p = s.outp p) ∧
    ∃ en ou, s.readyEngines = { s with engines := en, outs := ou } := by
  have key : ∀ (l : List Port), l.Nodup → ∀ s : State,
      (∃ en ou, l.foldl (fun s p => if (s.portSettings p).enable then s.restEngine p .idle else s) s =
        { s with engines := en, outs := ou }) ∧
      ∀ p : Port,
        (l.foldl (fun s p => if (s.portSettings p).enable then s.restEngine p .idle else s) s).engine p =
          (if p ∈ l ∧ (s.portSettings p).enable = true then atRest (s.engine p) .idle else s.engine p) ∧
        (l.foldl (fun s p => if (s.portSettings p).enable then s.restEngine p .idle else s) s).outp p =
          (if p ∈ l ∧ (s.portSettings p).enable = true then { s.outp p with sel := 0 } else s.outp p) := by
    intro l
    induction l with
    | nil => exact fun _ s => ⟨⟨_, _, rfl⟩, fun p => by simp⟩
    | cons c l ih =>
      intro hl s
      obtain ⟨hc, hl⟩ := List.nodup_cons.1 hl
      obtain ⟨⟨en, ou, h1⟩, h2⟩ := ih hl (if (s.portSettings c).enable then s.restEngine c .idle else s)
      have fr : ∃ en ou, (if (s.portSettings c).enable then s.restEngine c .idle else s) =
          { s with engines := en, outs := ou } := by
        split <;> exact ⟨_, _, rfl⟩
      obtain ⟨en', ou', fr⟩ := fr
      have ps (p : Port) : (if (s.portSettings c).enable then s.restEngine c .idle else s).portSettings p =
          s.portSettings p := by
        rw [fr]; rfl
      refine ⟨⟨en, ou, by rw [List.foldl_cons, h1, fr]⟩, fun p => ?_⟩
      rw [List.foldl_cons, (h2 p).1, (h2 p).2, ps]
      by_cases hp : p = c
      · subst hp
        by_cases he : (s.portSettings p).enable = true
        · simp only [hc, false_and, if_false, he, if_true, List.mem_cons_self, and_self]
          exact ⟨State.engine_self _ _ _, State.outp_self _ _ _⟩
        · simp [he, hc]
      · have e1 : (if (s.portSettings c).enable then s.restEngine c .idle else s).engine p = s.engine p := by
          split
          exacts [State.engine_other _ _ _ p hp, rfl]
        have e2 : (if (s.portSettings c).enable then s.restEngine c .idle else s).outp p = s.outp p := by
          split
          exacts [State.outp_other _ _ _ p hp, rfl]
        simp [e1, e2, hp]
  have all : ∀ p : Port, p ∈ allPorts := by decide
  obtain ⟨h1, h2⟩ := key allPorts (by decide) s
  exact ⟨fun p he => ⟨(h2 p).1.trans (if_pos ⟨all p, he⟩), (h2 p).2.trans (if_pos ⟨all p, he⟩)⟩,
    fun p he => ⟨(h2 p).1.trans (if_neg (by simp [he])), (h2 p).2.trans (if_neg (by simp [he]))⟩, h1⟩

/-! ### Sampled lines, and a tick (R35, R85) -/

/-- The sampled lines are as the row brings them, and nothing else moves. -/
theorem sample_spec (s : State) (lines : PortLines) :
    (∀ q : Port, (s.sample lines).pin q = { s.pin q with
      holdn := lines[q].holdn, pstat := lines[q].pstat, d := lines[q].d }) ∧
    { s.sample lines with pins := s.pins } = s := by
  have key : ∀ (l : List Port), l.Nodup → ∀ (s : State) (q : Port), (l.foldl
      (fun s p => s.setPin p { s.pin p with holdn := lines[p].holdn, pstat := lines[p].pstat, d := lines[p].d }) s).pin q =
      if q ∈ l then { s.pin q with holdn := lines[q].holdn, pstat := lines[q].pstat, d := lines[q].d } else s.pin q := by
    intro l
    induction l with
    | nil => exact fun _ _ _ => rfl
    | cons c l ih =>
      intro hl s q
      obtain ⟨hc, hl⟩ := List.nodup_cons.1 hl
      rw [List.foldl_cons, ih hl]
      by_cases h : q = c
      · subst h; rw [if_neg hc, if_pos List.mem_cons_self]; exact State.pin_self _ _ _
      · rw [State.pin_other _ _ _ q h]
        simp [h]
  have all : ∀ p : Port, p ∈ allPorts := by decide
  constructor
  · intro q
    unfold State.sample
    rw [key allPorts (by decide) s q, if_pos (all q)]
  · obtain ⟨_, e⟩ : ∃ pins, s.sample lines = { s with pins := pins } := ⟨_, rfl⟩
    rw [e]

/-- Breaking the locks of some banks: HOLD BROKEN is set on their holders alone (R35). -/
theorem breakLocks_spec (l : List Bank) (hn : l.Nodup) : ∀ s : State,
    (l.foldl State.breakLock s).jobs = s.jobs.map (fun j =>
      if ∃ b ∈ l, (s.bank b).lockHolder = some j.tag then { j with holdBroken := true } else j) ∧
    (∀ b : Bank, b ∉ l → (l.foldl State.breakLock s).bank b = s.bank b) ∧
    ∃ jb bk, l.foldl State.breakLock s = { s with jobs := jb, banks := bk } := by
  induction l with
  | nil => exact fun s => ⟨by simp, fun _ _ => rfl, _, _, rfl⟩
  | cons c l ih =>
    intro s
    obtain ⟨hc, hl⟩ := List.nodup_cons.1 hn
    obtain ⟨h1, h2, jb, bk, h3⟩ := ih hl (s.breakLock c)
    have one : (s.breakLock c).jobs = s.jobs.map (fun j =>
          if (s.bank c).lockHolder = some j.tag then { j with holdBroken := true } else j) ∧
        (∀ b, b ≠ c → (s.breakLock c).bank b = s.bank b) ∧ ∃ jb bk, s.breakLock c = { s with jobs := jb, banks := bk } := by
      unfold State.breakLock
      cases e : (s.bank c).lockHolder with
      | none => exact ⟨by simp, fun _ _ => rfl, _, _, rfl⟩
      | some t =>
        refine ⟨?_, fun b hb => State.bank_other _ _ _ b hb, _, _, rfl⟩
        show s.jobs.map _ = _
        refine List.map_congr_left fun j _ => ?_
        simp [eq_comm]
    obtain ⟨o1, o2, jb', bk', o3⟩ := one
    rw [List.foldl_cons]
    refine ⟨?_, fun b hb => ?_, ?_⟩
    · rw [h1, o1, List.map_map]
      refine List.map_congr_left fun j _ => ?_
      have same : (∃ b ∈ l, ((s.breakLock c).bank b).lockHolder = some j.tag) ↔
          ∃ b ∈ l, (s.bank b).lockHolder = some j.tag := by
        constructor <;> rintro ⟨b, hb, h⟩ <;> refine ⟨b, hb, ?_⟩
        · rw [← o2 b (fun e => hc (e ▸ hb))]; exact h
        · rw [o2 b (fun e => hc (e ▸ hb))]; exact h
      simp only [Function.comp]
      have tag : (if (s.bank c).lockHolder = some j.tag then { j with holdBroken := true } else j).tag = j.tag := by
        split <;> rfl
      rw [tag]
      by_cases ha : (s.bank c).lockHolder = some j.tag <;> by_cases hb : ∃ b ∈ l, (s.bank b).lockHolder = some j.tag <;>
        simp only [ha, same, hb, if_true, if_false, List.mem_cons, exists_eq_or_imp, or_true, true_or, or_self]
    · rw [h2 b (fun h => hb (List.mem_cons_of_mem _ h)), o2 b (fun h => hb (h ▸ List.mem_cons_self))]
    · exact ⟨jb, bk, by rw [h3, o3]⟩

/-- What a tick does at one group to everything but the groups. -/
theorem tickGroup_spec (s : State) (g : Group) :
    (s.tickGroup g).jobs = s.jobs.map (fun j =>
      if ∃ b : Bank, groupOf b = g ∧ (s.group g).debt = 7 ∧ (s.bank b).lockHolder = some j.tag then
        { j with holdBroken := true }
      else j) ∧
    (∀ b : Bank, groupOf b ≠ g → (s.tickGroup g).bank b = s.bank b) ∧
    (∀ g' : Group, g' ≠ g → (s.tickGroup g).group g' = s.group g') ∧
    (s.tickGroup g).notices = (if 8 ≤ (s.group g).debt then s.offerAlert (.refreshOverrun g) else s).notices := by
  unfold State.tickGroup
  have eight : Config.urgentDebt = 8 := rfl
  rw [eight]
  by_cases h1 : (s.group g).debt + 1 < 8
  · rw [if_pos h1, if_neg (by omega)]
    refine ⟨?_, fun _ _ => rfl, fun g' hg => ?_, rfl⟩
    · show s.jobs = _
      conv_lhs => rw [← List.map_id s.jobs]
      refine List.map_congr_left fun j _ => ?_
      rw [if_neg]; · rfl
      rintro ⟨b, _, h, _⟩; omega
    · exact State.group_other _ _ _ g' hg
  rw [if_neg h1]
  by_cases h2 : (s.group g).debt < 8
  · rw [if_pos h2, if_neg (by omega)]
    obtain ⟨k1, k2, jb, bk, k3⟩ := breakLocks_spec (banksOf g) ((by decide : ∀ g : Group, (banksOf g).Nodup) g)
      (s.setGroup g { s.group g with debt := 8, urgent := true })
    unfold State.becomeUrgent
    rw [eight]
    refine ⟨k1.trans ?_, fun b hb => ?_, fun g' hg => ?_, by rw [k3]; rfl⟩
    · refine List.map_congr_left fun j _ => ?_
      have : (∃ b ∈ banksOf g, (s.bank b).lockHolder = some j.tag) ↔
          ∃ b : Bank, groupOf b = g ∧ (s.group g).debt = 7 ∧ (s.bank b).lockHolder = some j.tag := by
        constructor
        · rintro ⟨b, hb, h⟩; exact ⟨b, mem_banksOf.1 hb, by omega, h⟩
        · rintro ⟨b, hb, _, h⟩; exact ⟨b, mem_banksOf.2 hb, h⟩
      show (if ∃ b ∈ banksOf g, (s.bank b).lockHolder = some j.tag then _ else _) = _
      by_cases hh : ∃ b ∈ banksOf g, (s.bank b).lockHolder = some j.tag
      · rw [if_pos hh, if_pos (this.1 hh)]
      · rw [if_neg hh, if_neg (mt this.2 hh)]
    · exact k2 b (fun h => hb (mem_banksOf.1 h))
    · rw [k3]; exact State.group_other _ _ _ g' hg
  · rw [if_neg h2, if_pos (by omega)]
    have : ∃ nt, s.offerAlert (.refreshOverrun g) = { s with notices := nt } := by
      by_cases hl : s.notices.outbox.length < 16
      · exact ⟨_, State.offerAlert_admitted hl⟩
      · exact ⟨_, State.offerAlert_lost (Nat.not_lt.1 hl)⟩
    obtain ⟨nt, e⟩ := this
    rw [e]
    refine ⟨?_, fun _ _ => rfl, fun _ _ => rfl, rfl⟩
    show s.jobs = _
    conv_lhs => rw [← List.map_id s.jobs]
    refine List.map_congr_left fun j _ => ?_
    rw [if_neg]; · rfl
    rintro ⟨b, _, h, _⟩; omega

/-- What a tick does to the jobs and to the Notice Unit (R35, R85). -/
theorem tick_spec (s : State) :
    s.tick.jobs = s.jobs.map (fun j =>
        if ∃ b : Bank, (s.group (groupOf b)).debt = 7 ∧ (s.bank b).lockHolder = some j.tag then { j with holdBroken := true }
        else j) ∧
      s.tick.notices = (overrunsOffered s).notices := by
  have key : ∀ (l : List Group), l.Nodup → ∀ s0 s v : State, (∀ g ∈ l, s.group g = s0.group g) →
      (∀ b : Bank, groupOf b ∈ l → s.bank b = s0.bank b) → v.notices = s.notices →
      (l.foldl State.tickGroup s).jobs = s.jobs.map (fun j =>
        if ∃ b : Bank, groupOf b ∈ l ∧ (s0.group (groupOf b)).debt = 7 ∧ (s0.bank b).lockHolder = some j.tag then
          { j with holdBroken := true }
        else j) ∧
      (l.foldl State.tickGroup s).notices =
        (l.foldl (fun v g => if 8 ≤ (s0.group g).debt then v.offerAlert (.refreshOverrun g) else v) v).notices := by
    intro l
    induction l with
    | nil => exact fun _ s0 s v _ _ hv => ⟨by simp, hv.symm⟩
    | cons c l ih =>
      intro hl s0 s v hg hb hv
      obtain ⟨hc, hl⟩ := List.nodup_cons.1 hl
      obtain ⟨k1, k2, k3, k4⟩ := tickGroup_spec s c
      have e8 := hg c List.mem_cons_self
      obtain ⟨i1, i2⟩ := ih hl s0 (s.tickGroup c) (if 8 ≤ (s0.group c).debt then v.offerAlert (.refreshOverrun c) else v)
        (fun g h => (k3 g (fun e => hc (e ▸ h))).trans (hg g (List.mem_cons_of_mem _ h)))
        (fun b h => (k2 b (fun e => hc (e ▸ h))).trans (hb b (List.mem_cons_of_mem _ h)))
        (by rw [k4, e8]; split
            · exact State.offerAlert_notices hv _
            · exact hv)
      rw [List.foldl_cons, List.foldl_cons]
      refine ⟨?_, i2⟩
      rw [i1, k1, List.map_map]
      refine List.map_congr_left fun j _ => ?_
      simp only [Function.comp]
      have tag (p : Prop) [Decidable p] : (if p then { j with holdBroken := true } else j).tag = j.tag := by split <;> rfl
      rw [tag]
      by_cases ha : ∃ b : Bank, groupOf b = c ∧ (s.group c).debt = 7 ∧ (s.bank b).lockHolder = some j.tag
      · rw [if_pos ha]
        obtain ⟨b, b1, b2, b3⟩ := ha
        have all : ∃ b : Bank, groupOf b ∈ c :: l ∧ (s0.group (groupOf b)).debt = 7 ∧ (s0.bank b).lockHolder = some j.tag :=
          ⟨b, by rw [b1]; exact List.mem_cons_self, by rw [b1, ← e8]; exact b2,
            by rw [← hb b (by rw [b1]; exact List.mem_cons_self)]; exact b3⟩
        rw [if_pos all]
        split <;> rfl
      · rw [if_neg ha]
        by_cases hh : ∃ b : Bank, groupOf b ∈ l ∧ (s0.group (groupOf b)).debt = 7 ∧ (s0.bank b).lockHolder = some j.tag
        · obtain ⟨b, b1, b2, b3⟩ := hh
          rw [if_pos ⟨b, b1, b2, b3⟩, if_pos ⟨b, List.mem_cons_of_mem _ b1, b2, b3⟩]
        · rw [if_neg hh, if_neg]
          rintro ⟨b, b1, b2, b3⟩
          rcases List.mem_cons.1 b1 with b1 | b1
          · exact ha ⟨b, b1, by rw [e8, ← b1]; exact b2, by rw [hb b (by rw [b1]; exact List.mem_cons_self)]; exact b3⟩
          · exact hh ⟨b, b1, b2, b3⟩
  have all : ∀ g : Group, g ∈ allGroups := by decide
  obtain ⟨a, b⟩ := key allGroups (by decide) s { s with refresh := { s.refresh with tick := some s.effectiveRange } } s
    (fun _ _ => rfl) (fun _ _ => rfl) rfl
  refine ⟨a.trans ?_, b⟩
  refine List.map_congr_left fun j _ => ?_
  simp only [all, true_and]

end Sys2Proof.Machine
end

