-- ==== Sys2Proof/Laws/Link.lean ====
section
/-! SUPPORT. The reply cache after one more response, and what answering a request executed at once does. -/

namespace Sys2Proof.Machine

open Sys2Proof.Safety

/-- A response entering the cache changes the cache alone (R134). -/
theorem State.cacheResponse_eq (s : State) (r : Response) :
    s.cacheResponse r = { s with link := { s.link with cache := withCached s.link.cache r } } := by
  have e (c : List Response) : (if Config.cacheDepth < (c ++ [r]).length then (c ++ [r]).tail else c ++ [r]) =
      if c.length < 8 then c ++ [r] else (c ++ [r]).tail := by
    rw [List.length_append, List.length_singleton]
    by_cases h : c.length < 8
    · rw [if_pos h, if_neg (show ¬Config.cacheDepth < c.length + 1 by simp only [Config.cacheDepth]; omega)]
    · rw [if_neg h, if_pos (show Config.cacheDepth < c.length + 1 by simp only [Config.cacheDepth]; omega)]
  unfold State.cacheResponse withCached
  dsimp only
  rw [e]

/-- The response is in the cache it has entered. -/
theorem mem_withCached (c : List Response) (r : Response) : r ∈ withCached c r := by
  unfold withCached
  split
  · simp
  · rename_i h
    generalize (c.filter fun x => decide (x.seq ≠ r.seq)) = l at h ⊢
    cases l with
    | nil => exact absurd (by decide) h
    | cons x l => simp

/-- The cache keeps its capacity, and no two of its responses share a SEQ (R134). -/
theorem withCached_bounded {c : List Response} (hn : (c.map Response.seq).Nodup) (hl : c.length ≤ 8) (r : Response) :
    ((withCached c r).map Response.seq).Nodup ∧ (withCached c r).length ≤ 8 := by
  have key : (((c.filter fun x => decide (x.seq ≠ r.seq)) ++ [r]).map Response.seq).Nodup := by
    rw [List.map_append, List.nodup_append]
    refine ⟨hn.sublist (List.filter_sublist.map _), by simp, ?_⟩
    rintro _ h b hb
    obtain ⟨x, hx, rfl⟩ := List.mem_map.1 h
    obtain rfl : b = r.seq := by simpa using hb
    simpa using (List.mem_filter.1 hx).2
  have len : (c.filter fun x => decide (x.seq ≠ r.seq)).length ≤ 8 := (List.length_filter_le ..).trans hl
  unfold withCached
  split
  · rename_i h
    exact ⟨key, by rw [List.length_append]; exact h⟩
  · exact ⟨key.sublist ((List.tail_sublist _).map _), by rw [List.length_tail, List.length_append]; exact len⟩

/-- The answer to a request executed at once, given in a state `b` whose link is that of `s` with the request taken: what it
does to the link and the processor, and that it does nothing else (R134, R135). -/
theorem State.answer_spec {s b : State} {rest : List Request} (r : Request) (st : Status) (fs : List Byte)
    (hl : b.link = { s.link with intake := rest }) (hp : b.proc.executing = none) :
    AnsweredFrom s (b.answer r st fs) rest { seq := r.seq, payload := r.code :: st.code :: fs } ∧
      { b.answer r st fs with link := b.link, proc := b.proc } = b := by
  unfold State.answer
  rw [cacheResponse_eq, hl]
  unfold State.queueOrHold responseOf
  split
  · exact ⟨⟨⟨mem_withCached _ _, Or.inl (by simp), hp⟩, ⟨rfl, rfl, rfl, rfl, rfl, rfl⟩, rfl, rfl, rfl⟩, by rw [← hl]⟩
  · exact ⟨⟨⟨mem_withCached _ _, Or.inr rfl, hp⟩, ⟨rfl, rfl, rfl, rfl, rfl, rfl⟩, rfl, rfl, rfl⟩, by rw [← hl]⟩

end Sys2Proof.Machine
end

