-- ==== Sys2Proof/Laws/Receiver.lean ====
section
/-! SUPPORT. What one character does at the receiver. -/

namespace Sys2Proof.Machine

open Sys2Proof.Safety

/-- LEN is the first two bytes of a frame, the high one first (R125). -/
theorem field_two (b c : Byte) (l : List Byte) : field (b :: c :: l) 0 2 = b.toNat * 256 + c.toNat := by
  simp [field, beNat]

/-- Handing a frame on leaves RESETN. -/
theorem handOn_resetn (s : State) (f : Frame) : (s.handOn f).resetn = s.resetn := by
  have rev (u : State) : u.reviveStale.resetn = u.resetn := by unfold State.reviveStale; split <;> rfl
  have qa (u : State) (r : Response) : (u.queueAtArrival r).resetn = u.resetn := by unfold State.queueAtArrival; split <;> rfl
  unfold State.handOn
  split
  · rw [← rev s]
    unfold State.requestArrived
    split
    · rfl
    split
    · exact qa _ _
    split
    · unfold State.newRequest
      split
      · exact qa _ _
      split
      · exact qa _ _
      · rfl
    · unfold State.otherRequest
      split
      · split
        · exact qa _ _
        · rfl
      · exact qa _ _
  split
  · rw [← rev s]
    unfold State.noticeAcked
    split
    · rfl
    · rename_i u hu
      refine (Internal.afterRemoval u).resetn.trans ?_
      unfold State.ackNotice at hu
      split at hu
      · cases hu
      · dsimp only at hu; split at hu <;> cases hu <;> rfl
  · rfl

/-- A character that ends nothing changes the receiver alone (R127). -/
theorem receiveChar_none {s : State} {c : Byte} {rx : Receiver} (h : s.link.rx.take c = (rx, none)) :
    s.receiveChar c = { s with link := { s.link with rx := rx } } := by
  unfold State.receiveChar; rw [h]

/-- A frame error, the receiver HUNTING again (R128, R137). -/
theorem frameFailed_hunting (s : State) (e : ErrorRecord) :
    ({ s with link := { s.link with rx := .hunting } } : State).frameFailed e = afterFrameError s e := by
  unfold State.frameFailed afterFrameError Config.errorLogDepth
  by_cases h : s.link.log.length < 4
  · simp [h]
  · simp [h, not_lt.1 h]

/-- A character at which the frame fails (R128). -/
theorem receiveChar_error {s : State} {c : Byte} {e : ErrorRecord} (h : s.link.rx.take c = (.hunting, some (.error e))) :
    s.receiveChar c = (afterFrameError s e).transmit := by
  rw [← frameFailed_hunting]; unfold State.receiveChar; rw [h]

/-- A character that completes a good frame (R127, R130). -/
theorem receiveChar_good {s : State} {c : Byte} {f : Frame} (h : s.link.rx.take c = (.hunting, some (.good f))) :
    s.receiveChar c = State.transmit (State.handOn { s with link := { s.link with rx := .hunting } } f) := by
  unfold State.receiveChar; rw [h]

/-- A character leaves RESETN. -/
theorem receiveChar_resetn (s : State) (c : Byte) : (s.receiveChar c).resetn = s.resetn := by
  unfold State.receiveChar
  dsimp only
  split
  · rfl
  · exact (congrArg State.resetn (Outward.transmit _).rest).trans (handOn_resetn _ _)
  · exact (congrArg State.resetn (Outward.transmit _).rest).trans rfl

/-- Characters are received one after another. -/
theorem receive_cons (s : State) (c : Byte) (chars : List Byte) :
    s.receive (c :: chars) = (s.receive [c]).receive chars := by
  by_cases hr : s.resetn = true
  · simp [State.receive, hr]
  · have hr : s.resetn = false := by simpa using hr
    have e : s.receive [c] = s.receiveChar c := by simp [State.receive, hr]
    rw [e]
    unfold State.receive
    rw [receiveChar_resetn, hr]
    rfl

end Sys2Proof.Machine
end

