-- ==== Sys2Proof/Laws/Units.lean ====
section
/-! SUPPORT. What a unit's handling is made of: the bytes LOADED, the bytes staged, and the changes one turn of a port makes. -/

namespace Sys2Proof.Machine

open Sys2Proof.Safety

namespace State

/-! ### Bytes LOADED (R70, R71) -/

/-- A byte is found in the halves exactly where it stands LOADED. -/
theorem loadedByte_iff (halves : List Half) (a : Nat) (b : Byte) : loadedByte halves a = some b ↔ LoadedAt halves a b := by
  induction halves with
  | nil => simp [loadedByte, LoadedAt]
  | cons h t ih =>
    have skip (hh : ∀ (x : Nat) (bs : List Byte), h ≠ .loaded (a / 32) x bs) : LoadedAt (h :: t) a b ↔ LoadedAt t a b := by
      constructor
      · rintro ⟨before, after, start, bytes, e, nb, r⟩
        cases before with
        | nil => simp at e; exact absurd e.1 (hh _ _)
        | cons x before =>
          simp at e
          exact ⟨before, after, start, bytes, e.2, fun y hy => nb y (List.mem_cons_of_mem _ hy), r⟩
      · rintro ⟨before, after, start, bytes, e, nb, r⟩
        refine ⟨h :: before, after, start, bytes, by rw [e]; rfl, fun y hy => ?_, r⟩
        rcases List.mem_cons.1 hy with rfl | hy
        exacts [hh, nb y hy]
    cases h with
    | filling k start bytes => rw [skip nofun]; exact ih
    | awaiting k => rw [skip nofun]; exact ih
    | loaded k start bytes =>
      by_cases hk : k = burstOfAddress a
      · subst hk
        rw [loadedByte, if_pos rfl, byteAt]
        constructor
        · intro e
          split at e
          · exact ⟨[], t, start, bytes, rfl, nofun, by assumption, e⟩
          · cases e
        · rintro ⟨before, after, start', bytes', e, nb, r1, r2⟩
          cases before with
          | nil => simp at e; obtain ⟨⟨-, rfl, rfl⟩, -⟩ := e; simp [r1, r2]
          | cons x before => simp at e; exact absurd e.1.symm (nb x List.mem_cons_self _ _)
      · rw [skip (by rintro x bs ⟨⟩; exact hk rfl), loadedByte, if_neg hk]; exact ih

/-- No byte of a unit lies in the marked word (R71). -/
theorem unitMarked_iff {mark : Option Nat} {a n : Nat} (hn : 1 ≤ n) : unitMarked mark a n = false ↔
    ∀ m : Nat, mark = some m → ∀ k : Nat, k < n → a + k < m ∨ m + 4 ≤ a + k := by
  cases mark with
  | none => simp [unitMarked]
  | some m =>
    simp only [unitMarked, Bool.and_eq_false_iff, decide_eq_false_iff_not, Option.some.injEq, forall_eq']
    constructor
    · intro h k hk; omega
    · intro h
      by_contra c
      have := h (max m a - a) (by omega)
      omega

/-- A unit can be given exactly when none of its bytes lies in the marked word and each stands LOADED (R70, R71). -/
theorem unitLoaded_iff {s : State} {p : Port} {n : Nat} (hn : n = 1 ∨ n = 2) (bytes : List Byte) :
    s.unitLoaded p n = some bytes ↔ bytes.length = n ∧
      (∀ m : Nat, (s.engine p).faultMark = some m → ∀ k : Nat, k < n →
        (s.engine p).nextAddress.getD 0 + k < m ∨ m + 4 ≤ (s.engine p).nextAddress.getD 0 + k) ∧
      ∀ k : Nat, k < n → LoadedAt (s.engine p).halves ((s.engine p).nextAddress.getD 0 + k) (bytes.getD k 0) := by
  rw [← unitMarked_iff (by omega)]
  simp only [← loadedByte_iff]
  unfold unitLoaded
  dsimp only
  cases hm : unitMarked (s.engine p).faultMark ((s.engine p).nextAddress.getD 0) n with
  | true => simp
  | false =>
    rcases hn with rfl | rfl
    · rcases bytes with _ | ⟨x, _ | ⟨y, l⟩⟩ <;> simp
    · generalize hx : loadedByte (s.engine p).halves ((s.engine p).nextAddress.getD 0) = x
      generalize hy : loadedByte (s.engine p).halves ((s.engine p).nextAddress.getD 0 + 1) = y
      have two (q : Nat → Prop) : (∀ k : Nat, k < 2 → q k) ↔ q 0 ∧ q 1 :=
        ⟨fun h => ⟨h 0 (by omega), h 1 (by omega)⟩, fun h k hk => by
          rcases k with _ | _ | k
          exacts [h.1, h.2, by omega]⟩
      rw [two, Nat.add_zero, hx, hy]
      rcases bytes with _ | ⟨b, _ | ⟨c, _ | ⟨d, l⟩⟩⟩ <;> cases x <;> cases y <;> simp

/-! ### Bytes staged (R66, R67) -/

/-- WRITEs posted before stand first. -/
theorem stageBytes_posted (p : Port) (j : Job) (bs : List Byte) : ∀ (a : Nat) (halves : List Half) (posted : List Access),
    stageBytes p j bs a halves posted =
      (stageBytes p j bs a halves []).map fun r => (r.1, posted ++ r.2) := by
  induction bs with
  | nil => intro a h posted; simp [stageBytes]
  | cons b t ih =>
    intro a h posted
    unfold stageBytes
    cases placeByte h a b with
    | none => rfl
    | some hs =>
      dsimp only
      split
      · rw [ih, ih _ _ ([] ++ _)]
        simp only [Option.map_map]
        congr 1
        funext r
        simp
      · rw [ih]

/-- A unit's first byte goes into staging, then the rest (R67). -/
theorem stageBytes_cons (p : Port) (j : Job) (b : Byte) (t : List Byte) (a : Nat) (halves : List Half) :
    stageBytes p j (b :: t) a halves [] = (stageBytes p j [b] a halves []).bind fun r =>
      (stageBytes p j t (a + 1) r.1 []).map fun r' => (r'.1, r.2 ++ r'.2) := by
  simp only [stageBytes]
  cases placeByte halves a b with
  | none => rfl
  | some hs =>
    dsimp only
    split
    · rw [stageBytes_posted]; simp
    · rw [stageBytes_posted]; simp

/-- No half is FILLING for the burst: none takes the byte. -/
theorem fillHalf_none {halves : List Half} {k : Nat} (h : NoneFilling halves k) (b : Byte) : fillHalf k b halves = none := by
  induction halves with
  | nil => rfl
  | cons x t ih =>
    have e := ih fun y hy => h y (List.mem_cons_of_mem _ hy)
    cases x with
    | filling k' st bs =>
      have : k' ≠ k := by rintro rfl; exact h _ List.mem_cons_self st bs rfl
      simp [fillHalf, this, e]
    | awaiting _ => simp [fillHalf, e]
    | loaded _ _ _ => simp [fillHalf, e]

/-- The half FILLING for the burst takes the byte. -/
theorem fillHalf_some {before after : List Half} {k st : Nat} {bs : List Byte} (h : NoneFilling before k) (b : Byte) :
    fillHalf k b (before ++ .filling k st bs :: after) = some (before ++ .filling k st (bs ++ [b]) :: after) := by
  induction before with
  | nil => simp [fillHalf]
  | cons x t ih =>
    have e := ih fun y hy => h y (List.mem_cons_of_mem _ hy)
    cases x with
    | filling k' st bs =>
      have : k' ≠ k := by rintro rfl; exact h _ List.mem_cons_self st bs rfl
      simp [fillHalf, this, e]
    | awaiting _ => simp [fillHalf, e]
    | loaded _ _ _ => simp [fillHalf, e]

/-- Halves that are not FILLING for the burst stand. -/
theorem postFilling_other (c : Client) (a e : Nat) {l : List Half} {k : Nat} (h : NoneFilling l k) (m : List Half) :
    postFilling c a e (fun x => decide (x = k)) (l ++ m) =
      (l ++ (postFilling c a e (fun x => decide (x = k)) m).1, (postFilling c a e (fun x => decide (x = k)) m).2) := by
  induction l with
  | nil => rfl
  | cons x t ih =>
    have e := ih fun y hy => h y (List.mem_cons_of_mem _ hy)
    cases x with
    | filling k' st bs =>
      have : k' ≠ k := by rintro rfl; exact h _ List.mem_cons_self st bs rfl
      simp [postFilling, this, e]
    | awaiting _ => simp [postFilling, e]
    | loaded _ _ _ => simp [postFilling, e]

/-- The half FILLING for the burst is posted, and it alone (R67). -/
theorem postFilling_one (c : Client) (a e : Nat) {before after : List Half} {k st : Nat} {bs : List Byte}
    (h : NoneFilling (before ++ after) k) :
    postFilling c a e (fun x => decide (x = k)) (before ++ .filling k st bs :: after) =
      (before ++ .awaiting k :: after, [accessFor c (partLow a k) (partHigh e k) (writeKind st bs k)]) := by
  rw [postFilling_other c a e fun y hy => h y (List.mem_append_left _ hy)]
  have : postFilling c a e (fun x => decide (x = k)) after = (after, []) := by
    simpa [postFilling] using
      postFilling_other c a e (l := after) (k := k) (fun y hy => h y (List.mem_append_right _ hy)) []
  simp [postFilling, this]

/-! ### A port's turn -/

/-- The records of other tags stand. -/
theorem jobOf_updateJob_other {s : State} {t u : Tag} {f : Job → Job} (hf : ∀ x, (f x).tag = x.tag) (h : u ≠ t) :
    (s.updateJob t f).jobOf u = s.jobOf u := by
  show (s.jobs.map fun x => if x.tag = t then f x else x).find? _ = s.jobs.find? _
  induction s.jobs with
  | nil => rfl
  | cons x l ih =>
    rw [List.map_cons]
    by_cases hx : x.tag = u
    · have : x.tag ≠ t := hx ▸ h
      rw [if_neg this, List.find?_cons_of_pos (by simpa using hx), List.find?_cons_of_pos (by simpa using hx)]
    · have hx' : (if x.tag = t then f x else x).tag ≠ u := by
        split
        exacts [(hf x).symm ▸ hx, hx]
      rw [List.find?_cons_of_neg (by simpa using hx'), List.find?_cons_of_neg (by simpa using hx), ih]

/-- A turn goes on with another. -/
theorem turnOf_trans {s u v : State} {p : Port} {j after : Job} {x : Job} (h : TurnOf s u p j x)
    (k : TurnOf u v p j after) (hb : u.banks = s.banks) : TurnOf s v p j after := by
  obtain ⟨-, h2, h3, h4, h5⟩ := h
  obtain ⟨k1, k2, k3, k4, k5⟩ := k
  have e : ∀ b : Bank, u.bank b = s.bank b := fun b => by simp [State.bank, hb]
  refine ⟨k1, fun t ht => (k2 t ht).trans (h2 t ht),
    fun q hq => ⟨(k3 q hq).1.trans (h3 q hq).1, (k3 q hq).2.trans (h3 q hq).2⟩,
    fun b hb' => (k4 b (by rw [e b]; exact hb')).trans (e b), ?_⟩
  rw [← h5, ← k5]

/-- A job to STOPPING is a turn of its port, with the outputs as they stood. -/
theorem turnOf_stopJob {s : State} {p : Port} {j x : Job} {o : JobOutcome} {f : Option Nat} (h : s.jobOf j.tag = some x) :
    TurnOf s (s.stopJob p j o f) p j { x with state := .stopping, outcome := some o, faultAddress := f } ∧
      (s.stopJob p j o f).outs = s.outs := by
  obtain ⟨h1, h2, h3, h4, h5, jb, en, bk, ac, h6⟩ := stopJob_spec (p := p) (o := o) (f := f) h
  obtain ⟨bk', hbk, -, same, -⟩ := releaseLocksOf_spec
    (s.updateJob j.tag fun y => { y with state := .stopping, outcome := some o, faultAddress := f }) j.tag
  refine ⟨⟨h1, fun t ht => ?_, fun q hq => ⟨h3 q hq, by rw [h6]; rfl⟩, fun b hb => ?_, by rw [h6]⟩, by rw [h6]⟩
  · refine Eq.trans ?_ (jobOf_updateJob_other (s := s)
      (f := fun y => { y with state := .stopping, outcome := some o, faultAddress := f }) (fun _ => rfl) ht)
    unfold stopJob
    rw [hbk]
    rfl
  · refine Eq.trans ?_ (same b hb)
    unfold stopJob
    rw [hbk]
    rfl

/-- A job to DRAINING is a turn of its port, with the outputs and the locks as they stood. -/
theorem turnOf_drainJob {s : State} {p : Port} {j x : Job} {o : JobOutcome} (h : s.jobOf j.tag = some x) :
    TurnOf s (s.drainJob p j o) p j { x with state := .draining, outcome := some o } ∧
      (s.drainJob p j o).outs = s.outs ∧ (s.drainJob p j o).banks = s.banks ∧
      (s.drainJob p j o).engine p = { s.engine p with state := .draining, halves := awaitingHalves (s.engine p).halves } ∧
      (s.drainJob p j o).accesses = s.accesses ++ stagedWrites j p (s.engine p).halves := by
  rw [drainJob_spec]
  exact ⟨⟨jobOf_updateJob (f := fun y => { y with state := .draining, outcome := some o }) (fun _ => rfl) h,
    fun _ ht =>
      jobOf_updateJob_other (s := s) (f := fun y => { y with state := .draining, outcome := some o }) (fun _ => rfl) ht,
    fun q hq => ⟨engine_other _ _ _ q hq, rfl⟩, fun _ _ => rfl, rfl⟩, rfl, rfl, engine_self _ _ _, rfl⟩

/-- An acknowledgement is a turn of its port: XACK, the count, and the next address. -/
theorem turnOf_acknowledge {s : State} {p : Port} {j : Job} (n : Nat) (h : s.jobOf j.tag = some j) :
    TurnOf s (s.acknowledge p j n) p j { j with moved := j.moved + n } ∧
      (s.acknowledge p j n).outp p = { s.outp p with xack := true } ∧ (s.acknowledge p j n).banks = s.banks ∧
      (s.acknowledge p j n).engine p = { s.engine p with nextAddress := (s.engine p).nextAddress.map (· + n) } ∧
      (s.acknowledge p j n).accesses = s.accesses :=
  ⟨⟨jobOf_updateJob (f := fun x => { x with moved := j.moved + n }) (fun _ => rfl) h,
    fun _ ht => jobOf_updateJob_other (s := s) (f := fun x => { x with moved := j.moved + n }) (fun _ => rfl) ht,
    fun q hq => ⟨engine_other _ _ _ q hq, outp_other _ _ _ q hq⟩, fun _ _ => rfl, rfl⟩,
    outp_self _ _ _, rfl, engine_self _ _ _, rfl⟩

/-- Rewriting the port's engine stays in the turn. -/
theorem turnOf_setEngine {s u : State} {p : Port} {j x : Job} (h : TurnOf s u p j x) (e : Engine) :
    TurnOf s (u.setEngine p e) p j x :=
  ⟨h.1, h.2.1, fun q hq => ⟨(engine_other _ _ _ q hq).trans (h.2.2.1 q hq).1, (h.2.2.1 q hq).2⟩, h.2.2.2.1, h.2.2.2.2⟩

/-- Rewriting the port's outputs stays in the turn. -/
theorem turnOf_setOutp {s u : State} {p : Port} {j x : Job} (h : TurnOf s u p j x) (o : Outs) :
    TurnOf s (u.setOutp p o) p j x :=
  ⟨h.1, h.2.1, fun q hq => ⟨(h.2.2.1 q hq).1, (outp_other _ _ _ q hq).trans (h.2.2.1 q hq).2⟩, h.2.2.2.1, h.2.2.2.2⟩

/-- Posting stays in the turn. -/
theorem turnOf_postAll {s u : State} {p : Port} {j x : Job} (h : TurnOf s u p j x) (l : List Access) :
    TurnOf s (u.postAll l) p j x := h

/-- The bytes of a unit on D (R65). -/
theorem driveOf_eq (w : Width) (bs : List Byte) : driveOf w bs =
    if w = .w8 then .low (bs.getD 0 0) else .full (bs.getD 1 0 ++ bs.getD 0 0) := by
  cases w <;> cases bs <;> rfl

/-- Equal bytes agree to the end. -/
theorem equalPrefix_self (l : List Byte) : equalPrefix l l = l.length := by
  induction l with
  | nil => rfl
  | cons a l ih => simp [equalPrefix, ih]

/-- Bytes that agree up to the `k`-th and differ there agree in `k` (R72). -/
theorem equalPrefix_lt {l m : List Byte} {k : Nat} (hk : k < l.length) (hm : k < m.length) (h : l.take k = m.take k)
    (d : l.getD k 0 ≠ m.getD k 0) : equalPrefix l m = k := by
  induction k generalizing l m with
  | zero => rcases l with _ | ⟨a, l⟩ <;> rcases m with _ | ⟨b, m⟩ <;> simp_all [equalPrefix]
  | succ k ih =>
    rcases l with _ | ⟨a, l⟩
    · simp at hk
    rcases m with _ | ⟨b, m⟩
    · simp at hm
    simp at h d hk hm
    simp [equalPrefix, h.1, ih hk hm h.2 (by simpa using d)]

/-- Reading ahead stays in the turn. -/
theorem turnOf_prefetch {s u : State} {p : Port} {j x : Job} (h : TurnOf s u p j x) : TurnOf s (u.prefetch p j) p j x := by
  have one (u : State) (h : TurnOf s u p j x) : TurnOf s (u.prefetchOne p j) p j x := by
    unfold prefetchOne
    split
    · exact h
    · split
      · exact turnOf_setEngine h _
      · exact h
  exact one _ (one _ h)

end State
end Sys2Proof.Machine
end

