-- ==== Sys2Proof/WellFormed.lean ====
section
/-! DEFINITION. What a sender of commands promises about a command's operands beyond their types. The meanings
are total and do not rely on it (log 1). -/

namespace Sys2Proof

/-- The characters of a frame still to come: at least one, and no more than a longest frame has (R125). -/
def charsOk (chars : List Byte) : Bool :=
  !chars.isEmpty && decide (chars.length ≤ Config.maxLen + 5)

/-- A decayed word is a word of the array, and some bit of it has flipped (R1, R6). -/
def Decay.ok (x : Decay) : Bool :=
  decide (x.word < Config.cellWords) && decide (x.bits ≠ 0)

/-- A command's operands are as its event has them. -/
def Instr.wellFormed : Instr → Bool
  | .requestArrival chars => charsOk chars
  | .frameError chars => charsOk chars
  | .linkOpen chars => charsOk chars
  | .noticeAck chars _ => charsOk chars
  | .burstComplete decay _ => decay.all Decay.ok
  | .repairCopyEnd decay => decay.all Decay.ok
  | .holdnDeassert p lines => !lines[p].holdn
  | .powerOn _ _ => true
  | .resetnAssert => true
  | .spareStepEnd => true
  | .gapTimerExpiry => true
  | .unknownRequest => true
  | .identify => true
  | .status _ => true
  | .getSetting => true
  | .setSetting => true
  | .submit _ => true
  | .cancel _ => true
  | .jobQuery => true
  | .hostWrite => true
  | .hostRead => true
  | .portOut => true
  | .portIn => true
  | .readWeakList => true
  | .clearWeakEntry => true
  | .repairRow => true
  | .readRemap => true
  | .readErrorLog => true
  | .clearError => true
  | .engineReset => true
  | .sleep => true
  | .wake => true
  | .frameTransmitEnd => true
  | .noticeResendExpiry _ => true
  | .refreshTick => true
  | .groupRefreshComplete _ => true
  | .temperatureChange _ => true
  | .bankOpenComplete _ => true
  | .bankCloseComplete _ => true
  | .lockWaitExpiry _ => true
  | .unitRequest _ _ _ _ _ => true
  | .xreqRemoved _ => true
  | .attnEdge _ _ => true
  | .strobeEnd _ => true
  | .scrubTimerExpiry => true
  | .fuseVerify _ => true
  | .wakeComplete => true
  | .characterArrival _ => true

end Sys2Proof
end

