-- ==== Sys2Proof/Tests/Slice0.lean ====
section
/-! SUPPORT. Small tests of one step each, the smoke test of WellFormed, and for every statement a state and operands that
meet its hypotheses, clause by clause. -/

namespace Sys2Proof.Tests

open Sys2Proof.Machine Sys2Proof.Safety

set_option Elab.async false

/-! ### Small states -/

def quiet : PortLines := Vector.replicate 4 { holdn := false, pstat := 0, d := 0 }

/-- READY, the link OPEN, nothing in hand. -/
def ready : State :=
  { State.reset with
    part := { State.reset.part with state := .ready }, maint := { State.reset.maint with op := .none },
    link := { Link.reset with isOpen := true } }

def req (payload : List Byte) : Request := { seq := 5, payload := payload }

/-- A request at the head of the intake queue. -/
def asking (s : State) (payload : List Byte) : State := { s with link := { s.link with intake := [req payload] } }

def inPart (st : PartState) : State := { ready with part := { ready.part with state := st } }

/-- Port 0 enabled, its engine IDLE, 8 bits wide. -/
def port0 : State :=
  (ready.setPortSettings 0 { enable := true, width := .w8, attention := true }).restEngine 0 .idle

/-- A job of 4 bytes at address 64 of port 0, tag 7. -/
def job (m : Mode) (st : JobState) (moved : Nat) : Job :=
  { tag := 7, port := 0, mode := m, address := if m = .count then none else some 64, length := 4, steer := 2, hold := false,
    state := st, moved := moved, outcome := none, faultAddress := none, holdBroken := false, correctedSeen := false,
    noticeNumber := none }

/-- Port 0 with that job, its engine in a state. -/
def working (j : Job) (st : EngineState) (halves : List Half) : State :=
  { port0 with
    jobs := [j],
    queues := port0.queues.set 0 [7],
    engines := port0.engines.set 0 { Engine.reset with
      state := st, activeJob := some 7, nextAddress := j.address.map (· + j.moved), halves := halves } }

def note (k : Nat) (body : NoticeBody) : Notice := freshNotice (BitVec.ofNat 8 k) body

def withOutbox (s : State) (l : List Notice) : State := s.setOutbox l

/-- Sixteen notices, twelve of them ORDINARY. -/
def sixteen : List Notice :=
  (List.range 12).map (fun k => note k .started) ++ (List.range 4).map fun k => note (12 + k) (.refreshOverrun 0)

/-- A burst in flight. -/
def flyingAccess (c : Client) (k : AccessKind) : Access :=
  { client := c, bank := 0, row := 0, firstWord := 0, wordCount := 1, kind := k, condition := .inFlight false }

def openBank0 (s : State) : State :=
  s.setBank 0 { BankRecord.reset with state := .opened { logical := 0, physical := .native } }

def copying (k : RepairKind) (phase : RepairPhase) (slot : Option Slot) : RepairRecord :=
  { bank := 15, row := 8191, kind := k, target := 7, phase := phase, fuseSlot := slot, uncorrectable := 0,
    outcome := none }

def after (c : Instr) (s : State) : State :=
  match exec c s with
  | .next t => t
  | _ => s

/-- The payload of the frame on the line. -/
def onLine (s : State) : List Byte := (s.link.tx.map fun f => f.frame.payload).getD []

/-! ### WellFormed -/

theorem test_no_characters_refused : (Instr.requestArrival []).wellFormed = false := by decide
theorem test_too_many_characters_refused : (Instr.frameError (List.replicate 1048 0)).wellFormed = false := by
  decide +kernel
theorem test_longest_frame_accepted : (Instr.linkOpen (List.replicate 1047 0)).wellFormed = true := by decide +kernel
theorem test_no_ack_characters_refused : (Instr.noticeAck [] quiet).wellFormed = false := by decide
theorem test_no_open_characters_refused : (Instr.linkOpen []).wellFormed = false := by decide
theorem test_no_error_characters_refused : (Instr.frameError []).wellFormed = false := by decide
theorem test_decay_outside_array_refused :
    (Instr.burstComplete [{ word := 67174400, bits := 1 }] quiet).wellFormed = false := by decide
theorem test_decay_of_last_word_accepted :
    (Instr.burstComplete [{ word := 67174399, bits := 1 }] quiet).wellFormed = true := by decide
theorem test_decay_of_nothing_refused : (Instr.repairCopyEnd [{ word := 0, bits := 0 }]).wellFormed = false := by decide
theorem test_asserted_holdn_refused :
    (Instr.holdnDeassert 0 (quiet.set 0 { holdn := true, pstat := 0, d := 0 })).wellFormed = false := by decide

/-! ### One step each -/

theorem test_crc : crc16 [0x31, 0x32, 0x33, 0x34, 0x35, 0x36, 0x37, 0x38, 0x39] = 0x29B1#16 := by decide +kernel
theorem test_powerOn_hot : (after (.powerOn 2 85001) State.reset).range = .hot := by decide +kernel
theorem test_powerOn_normal : (after (.powerOn 2 85000) State.reset).range = .normal := by decide +kernel
theorem test_resetnAssert : (after .resetnAssert ready).resetn = true := by decide +kernel
theorem test_spareStep_claims_bank0 : ((after (.powerOn 0 0) State.reset).bank 0).state = .repairing := by decide +kernel
theorem test_spareStepEnd : ((after .spareStepEnd (after (.powerOn 0 0) State.reset)).bank 1).state = .repairing := by
  decide +kernel
theorem test_requestArrival :
    (after (.requestArrival (requestFrame { seq := 0, payload := [0x02] }).chars) ready).link.intake =
      [{ seq := 0, payload := [0x02] }] := by decide +kernel
theorem test_requestArrival_closed :
    onLine (after (.requestArrival (requestFrame { seq := 0, payload := [0x02] }).chars) State.reset) = [0x02, 0x14] := by
  decide +kernel
theorem test_frameError :
    onLine (after (.frameError [0xC3, 0x00, 0x01]) ready) = [0x02, 0x00, 0x00] := by decide +kernel
theorem test_gapTimerExpiry :
    onLine (after .gapTimerExpiry (after (.characterArrival 0xC3) ready)) = [0x04, 0x00, 0x00] := by decide +kernel
theorem test_linkOpen :
    onLine (after (.linkOpen (requestFrame { seq := 9, payload := [0x01] }).chars) State.reset) = [0x01, 0x00] := by
  decide +kernel
theorem test_noticeAck :
    (after (.noticeAck (Frame.chars { kind := 4, seq := 0, payload := [] }) quiet)
      (withOutbox ready [note 0 .started])).notices.npend = false := by decide +kernel
theorem test_unknownRequest : onLine (after .unknownRequest (asking ready [0x77])) = [0x77, 0x06] := by decide +kernel
theorem test_identify : onLine (after .identify (asking ready [0x02])) =
    [0x02, 0x00, 0x4F, 0x52, 0x02, 0x56, 1, 16, 0x20, 0x00, 8, 64, 0] := by decide +kernel
theorem test_status_length : (onLine (after (.status quiet) (asking ready [0x03]))).length = 42 := by decide +kernel
theorem test_getSetting : onLine (after .getSetting (asking ready [0x04, 0x10])) = [0x04, 0x00, 0x10, 32] := by
  decide +kernel
theorem test_setSetting : onLine (after .setSetting (asking ready [0x05, 0x04, 16])) = [0x05, 0x00, 0x04, 16] := by
  decide +kernel
theorem test_setSetting_range : onLine (after .setSetting (asking ready [0x05, 0x04, 9])) = [0x05, 0x03] := by
  decide +kernel
theorem test_submit :
    ((after (.submit quiet) (asking port0 [0x10, 0, 7, 0, 0, 0, 0, 0, 64, 0, 0, 0, 4, 2, 0])).engine 0).state =
      .running := by decide +kernel
theorem test_submit_portOff :
    onLine (after (.submit quiet) (asking ready [0x10, 0, 7, 0, 0, 0, 0, 0, 64, 0, 0, 0, 4, 2, 0])) = [0x10, 0x13] := by
  decide +kernel
theorem test_cancel : onLine (after (.cancel quiet) (asking (working (job .inn .active 0) .running []) [0x11, 0, 7])) =
    [0x11, 0x00, 0x03] := by decide +kernel
theorem test_jobQuery : (onLine (after .jobQuery (asking (working (job .inn .active 0) .running []) [0x12, 0, 7]))).length =
    30 := by decide +kernel
theorem test_hostWrite :
    (after .hostWrite (asking ready [0x20, 0, 0, 0, 1, 0, 1, 0xAB])).accesses.map Access.bank = [0] := by decide +kernel
theorem test_hostRead :
    (after .hostRead (asking ready [0x21, 0, 0, 8, 0, 0, 1])).accesses.map Access.bank = [1] := by decide +kernel
theorem test_portOut : ((after .portOut (asking port0 [0x22, 0, 3, 0xAB])).outp 0).d = .low 0xAB := by decide +kernel
theorem test_portIn : ((after .portIn (asking port0 [0x23, 0, 3])).outp 0).cin = true := by decide +kernel
theorem test_strobeEnd :
    onLine (after (.strobeEnd (quiet.set 0 { holdn := false, pstat := 0, d := 0x1234 }))
      (after .portIn (asking port0 [0x23, 0, 3]))) = [0x23, 0x00, 0x34] := by decide +kernel
theorem test_readWeakList : onLine (after .readWeakList (asking ready [0x30])) = [0x30, 0x00, 0, 0] := by decide +kernel
theorem test_clearWeakEntry : onLine (after .clearWeakEntry (asking ready [0x31, 0, 0, 0])) = [0x31, 0x15] := by
  decide +kernel
theorem test_repairRow : ((after .repairRow (asking ready [0x32, 0, 0, 9, 0])).bank 0).state = .repairing := by
  decide +kernel
theorem test_readRemap : (onLine (after .readRemap (asking ready [0x33, 0]))).length = 28 := by decide +kernel
theorem test_readErrorLog : onLine (after .readErrorLog (asking ready [0x40])) = [0x40, 0x00, 0, 0] := by decide +kernel
theorem test_clearError : onLine (after .clearError (asking ready [0x41, 1])) = [0x41, 0x00] := by decide +kernel
theorem test_engineReset : onLine (after .engineReset (asking ready [0x50])) = [0x50, 0x00] := by decide +kernel
theorem test_sleep : (after .sleep (asking ready [0x51])).part.state = .sleeping := by decide +kernel
theorem test_wake : (after .wake (asking (inPart .sleeping) [0x52])).part.state = .waking := by decide +kernel
theorem test_wakeComplete :
    onLine (after .wakeComplete (after .wake (asking (inPart .sleeping) [0x52]))) = [0x52, 0x00] := by decide +kernel
theorem test_frameTransmitEnd : (after .frameTransmitEnd (after .identify (asking ready [0x02]))).link.tx = none := by
  decide +kernel
theorem test_noticeResendExpiry :
    (after (.noticeResendExpiry 0) (withOutbox ready
      [{ note 0 .started with sent := true, sendCount := 4, timer := some 20 }])).notices.stale = true := by decide +kernel
theorem test_refreshTick : ((after .refreshTick ready).group 0).debt = 1 := by decide +kernel
theorem test_groupRefreshComplete :
    ((after (.groupRefreshComplete 0) (after .refreshTick ready)).group 0).debt = 0 := by decide +kernel
theorem test_temperatureChange : onLine (after (.temperatureChange 85001) ready) = [0x83, 1] := by decide +kernel
theorem test_bankOpens : ((after (.bankOpenComplete 0) (after .hostWrite
    (asking ready [0x20, 0, 0, 0, 1, 0, 1, 0xAB]))).accesses.any Access.isInFlight) = true := by decide +kernel
theorem test_burstWrites : (after (.burstComplete [] quiet) (after (.bankOpenComplete 0) (after .hostWrite
    (asking ready [0x20, 0, 0, 0, 1, 0, 1, 0xAB])))).mem.byte 1 = 0xAB := by decide +kernel
theorem test_burstAnswers : onLine (after (.burstComplete [] quiet) (after (.bankOpenComplete 0) (after .hostWrite
    (asking ready [0x20, 0, 0, 0, 1, 0, 1, 0xAB])))) = [0x20, 0x00] := by decide +kernel
theorem test_bankCloses : ((after (.bankCloseComplete 0) (ready.setBank 0 { BankRecord.reset with
    state := .closing { logical := 0, physical := .native } })).bank 0).state = .closed := by decide +kernel
theorem test_lockWaitExpiry : ((after (.lockWaitExpiry 0) (ready.setBank 0 { BankRecord.reset with
    lockHolder := some 7, lockTimer := some 32 })).bank 0).lockHolder = none := by decide +kernel
theorem test_unitRequest_in : ((after (.unitRequest 0 true false 0x55 quiet)
    (working (job .inn .active 0) .running [])).outp 0).xack = true := by decide +kernel
theorem test_unitRequest_end : ((after (.unitRequest 0 true true 0x55 quiet)
    (working (job .count .active 0) .running [])).notices.outbox.map fun n => n.body) =
      [.jobEnd 7 0 .count (some .short) 1 none false false] := by decide +kernel
theorem test_xreqRemoved : ((after (.xreqRemoved 0) (after (.unitRequest 0 true false 0x55 quiet)
    (working (job .inn .active 0) .running []))).outp 0).xack = false := by decide +kernel
theorem test_holdnDeassert : ((after (.holdnDeassert 0 quiet) (working (job .inn .held 0) .held [])).engine 0).state =
    .idle := by decide +kernel
theorem test_attnEdge : onLine (after (.attnEdge 0 quiet) port0) = [0x02, 0, 0, 0] := by decide +kernel
theorem test_scrubTimerExpiry : (after .scrubTimerExpiry (after .setSetting (asking ready [0x05, 0x12, 1]))).maintPosted =
    true := by decide +kernel
theorem test_copy_of_two_words :
    ((copyWords 294912 268435456 { cells := [(294913, 0xAB), (294916, 1)], faults := [(73729, 3)] } 0 2).1.byte 268435457,
      (copyWords 294912 268435456 { cells := [(294913, 0xAB), (294916, 1)], faults := [(73729, 3)] } 0 2).2) = (0xAB, 1) := by
  decide +kernel
theorem test_fuseVerify : (after (.fuseVerify true) (ready.setOp (.repair
    { bank := 0, row := 9, kind := .hard, target := 0, phase := .programming, fuseSlot := some 0, uncorrectable := 0,
      outcome := none }))).fuseOf 0 0 = .used 9 0 := by decide +kernel
theorem test_characterArrival : (after (.characterArrival 0xC3) ready).link.rx = .inFrame [] := by decide +kernel
theorem test_two_wrong_bits_uncorrectable : (checkWord 0 3).1 = .uncorrectable := by decide +kernel
theorem test_one_wrong_bit_corrected : checkWord 0x12345678 1 = (.corrected, 0x12345678) := by decide +kernel
theorem test_address_0x1234567 :
    (bankOfAddress 0x1234567, rowOfAddress 0x1234567, wordOfAddress 0x1234567) = (8, 582, 345) := by decide +kernel

/-! ### The statements' hypotheses are met -/

theorem witness_StepRunsFrontCommand :
    ({ ready with pending := [.identify] } : State).pending = [.identify] ∧ ready.pending = [] := by decide +kernel

theorem witness_ResetnEndsEverything :
    ({ ready with resetn := true } : State).resetn = true ∧ (0x02, Instr.identify) ∈ requestRows quiet ∧
      (0x52, Instr.wake) ∈ requestRows quiet := by decide +kernel

theorem witness_heldInReset : HeldInReset (after .resetnAssert ready) ∧ Instr.burstComplete [] quiet ≠ .powerOn 0 0 :=
  ⟨rfl, nofun⟩

/-- In bank 0, whose end goes on to bank 1, and in bank 15, whose end begins the logical step. -/
theorem witness_SpareStepWritesZero :
    ∀ b ∈ ([0, 14, 15] : List Bank),
      (((State.reset.setOp (.clear (.spares b))).setBank b { BankRecord.reset with state := .repairing }).maint.op =
          .clear (.spares b) ∧
        (((State.reset.setOp (.clear (.spares b))).setBank b { BankRecord.reset with state := .repairing }).bank b).state =
          .repairing) := by decide +kernel

/-- The start-up clear's logical step, the burst of its access in flight. -/
def clearing (position burst : Nat) : State :=
  { State.reset with
    maint := { State.reset.maint with op := .clear (.logical position burst) },
    accesses := [flyingAccess (.maint .clear) (.write (List.replicate 8 0) (List.replicate 8 15))] }

/-- Before a row's last burst, at it, and at the last burst of the last row. -/
theorem witness_SpareStepWritesZero_walk :
    (∀ x ∈ ([(0, 62), (131070, 63), (131071, 63)] : List (Nat × Nat)),
      (clearing x.1 x.2).part.state = .starting ∧ (clearing x.1 x.2).part.sleepEntry = false ∧
        (clearing x.1 x.2).maint.op = .clear (.logical x.1 x.2) ∧
        (clearing x.1 x.2).flying = some (flyingAccess (.maint .clear) (.write (List.replicate 8 0) (List.replicate 8 15))) ∧
        (clearing x.1 x.2).settings.scrubRate = 0 ∧ (clearing x.1 x.2).notices.outbox.length < 16 ∧
        (clearing x.1 x.2).ordinaryCount < 12) ∧
      12 ≤ (withOutbox (clearing 131071 63) sixteen).ordinaryCount ∧
      62 + 1 < 64 ∧ 64 ≤ 63 + 1 ∧ 131070 + 1 < 131072 ∧ 131072 ≤ 131071 + 1 := by decide +kernel

theorem test_clear_ends_ready : (after (.burstComplete [] quiet) (clearing 131071 63)).part.state = .ready := by
  decide +kernel

/-- The shortest and the longest payload, each KIND. -/
theorem witness_FrameCharactersAreHandedOn :
    ready.resetn = false ∧ ready.link.rx = .hunting ∧
      (Frame.mk 0x01 0 []).payload.length ≤ 1040 ∧ (Frame.mk 0x04 255 (List.replicate 1040 0xFF)).payload.length ≤ 1040 := by
  decide +kernel

/-- The first byte of LEN; a byte kept after LEN; LEN at both ends of its range and one beyond each. -/
theorem witness_ReceiverTakesCharacters :
    ready.resetn = false ∧ ready.link.rx = .hunting ∧ ([] : List Byte).length = 0 ∧
      (∀ bytes ∈ ([[0, 2], [0, 2, 1, 5]] : List (List Byte)),
        2 ≤ bytes.length ∧ bytes.length + 1 ≠ (bytes.getD 0 0).toNat * 256 + (bytes.getD 1 0).toNat + 4) ∧
      ([(0x00, 0x02), (0x04, 0x12), (0x00, 0x01), (0x04, 0x13)] : List (Byte × Byte)).map
        (fun x => x.1.toNat * 256 + x.2.toNat) = [2, 1042, 1, 1043] := by decide +kernel

/-- The bytes after START of an empty frame of a KIND, its last one off by as much as given. -/
def frameBytes (k wrong : Byte) : List Byte :=
  (Frame.mk k 5 []).chars.tail.dropLast ++ [(Frame.mk k 5 []).chars.getLastD 0 + wrong]

/-- The last byte of a frame of each KIND, an unknown one among them, and with the last byte of CHECK wrong. -/
theorem witness_ReceiverTakesCharacters_frame :
    ∀ k ∈ ([0x01, 0x04, 0x02] : List Byte),
      (frameBytes k 0).length = 2 + 4 ∧ (frameBytes k 0).take 2 = [0, 2] ∧ (frameBytes k 0).getD 2 0 = k ∧
        (frameBytes k 0).drop (2 + 2) = natBytes 2 (crc16 ((frameBytes k 0).take (2 + 2))).toNat ∧
        (frameBytes k 1).drop (2 + 2) ≠ natBytes 2 (crc16 ((frameBytes k 1).take (2 + 2))).toNat := by decide +kernel

/-- A frame is completed by its last character: a good one is handed on, one with a wrong CHECK logged. -/
theorem test_character_completes_frame :
    let s := { ready with link := { ready.link with expected := 5, rx := .inFrame (Frame.mk 1 5 [0x02]).chars.tail.dropLast } }
    (after (.characterArrival ((Frame.mk 1 5 [0x02]).chars.getLastD 0)) s).link.intake = [req [0x02]] ∧
      ((after (.characterArrival ((Frame.mk 1 5 [0x02]).chars.getLastD 0 + 1)) s).link.log.map ErrorRecord.cause) = [.check] := by
  decide +kernel

theorem witness_FrameErrorsAreLogged :
    ready.resetn = false ∧ ready.link.rx = .hunting ∧ (0 : BitVec 16) ≠ crc16 (Frame.mk 1 0 []).body ∧
      (Frame.mk 0x02 0 []).kind ≠ 0x01 ∧ (Frame.mk 0x02 0 []).kind ≠ 0x04 ∧
      (∀ n ∈ ([0, 1, 1043, 65535] : List Nat), n < 65536 ∧ (n < 2 ∨ 1042 < n)) ∧
      (after (.characterArrival 0xC3) ready).link.rx = .inFrame [] := by decide +kernel

theorem witness_NewRequestJoinsIntake :
    ready.resetn = false ∧ ready.link.rx = .hunting ∧ (Request.mk 0 [0x02]).payload.length ≤ 1040 ∧
      ready.link.isOpen = true ∧ (Request.mk 0 [0x02]).code ≠ 0x01 ∧ (Request.mk 0 [0x02]).seq = ready.link.expected ∧
      ready.link.halt = false ∧ haltExempt (Request.mk 0 [0x02]).code = true ∧ ready.link.intake.length < 8 := by
  decide +kernel

/-- STALE with a notice in the outbox, the processor free and nothing else waiting for the line. -/
def staleLink : State :=
  { withOutbox ready [{ note 0 .started with sent := true, sendCount := 4 }] with
    notices := { (withOutbox ready [{ note 0 .started with sent := true, sendCount := 4 }]).notices with stale := true } }

theorem witness_NewRequestJoinsIntake_stale :
    staleLink.notices.stale = true ∧ staleLink.resetn = false ∧ staleLink.link.rx = .hunting ∧
      staleLink.link.isOpen = true ∧ staleLink.link.halt = false ∧ staleLink.proc.executing = none ∧
      staleLink.proc.held = none ∧ staleLink.link.openResponse = none ∧ staleLink.link.linkError = none ∧
      staleLink.link.queue = [] := by decide +kernel

/-- The reviving request is answered before the revived notice is sent. -/
theorem test_response_before_revived_notice :
    onLine (after (.status quiet) (after (.requestArrival (requestFrame { seq := 0, payload := [0x03] }).chars)
      staleLink)) ≠ [] ∧
    (after (.requestArrival (requestFrame { seq := 0, payload := [0x03] }).chars) staleLink).link.tx = none := by
  decide +kernel

/-- CLOSED; HALTED; FULL; a duplicate at the far end of the window with and without a cached response; SEQUENCE just outside
the window and at E + 1. -/
theorem witness_RequestsAnsweredAtArrival :
    State.reset.link.isOpen = false ∧
      ({ ready.link with halt := true } : Link).halt = true ∧ haltExempt (Request.mk 0 [0x10]).code = false ∧
      8 ≤ ({ ready.link with intake := List.replicate 8 (req [0x02]) } : Link).intake.length ∧
      (ready.link.expected - 1 - (248 : Byte)).toNat < 8 ∧
      (({ ready.link with cache := [{ seq := 248, payload := [2, 0] }] } : Link).cache.find? fun x =>
        decide (x.seq = 248)) = some { seq := 248, payload := [2, 0] } ∧
      (∀ x ∈ ready.link.cache, x.seq ≠ 248) ∧
      8 ≤ (ready.link.expected - 1 - (247 : Byte)).toNat ∧ 8 ≤ (ready.link.expected - 1 - (1 : Byte)).toNat := by
  decide +kernel

/-- A response under a SEQ still cached takes the earlier one's place, at the tail. -/
theorem test_one_response_per_seq :
    (({ ready with link := { ready.link with cache := [{ seq := 1, payload := [2, 0] }, { seq := 2, payload := [2, 0] }] } } :
      State).cacheResponse { seq := 1, payload := [3, 0x0E] }).link.cache =
        [{ seq := 2, payload := [2, 0] }, { seq := 1, payload := [3, 0x0E] }] := by decide +kernel

theorem witness_LinkOpenStartsAfresh :
    ready.resetn = false ∧ ready.link.rx = .hunting ∧ (List.replicate 1039 (0 : Byte)).length ≤ 1039 := by decide +kernel

theorem witness_NoticeAckRemovesTheNotice :
    ready.resetn = false ∧ ready.link.rx = .hunting ∧ ready.link.isOpen = true ∧ State.reset.link.isOpen = false ∧
      ((withOutbox ready [note 3 .started]).notices.outbox.find? fun x => decide (x.number = 3)) = some (note 3 .started) ∧
      (∀ x ∈ (withOutbox ready [note 3 .started]).notices.outbox, x.number ≠ 4) ∧
      (Frame.mk 0x04 3 []).payload.length ≤ 1040 := by decide +kernel

theorem witness_NoticesAreAdmittedOrWait :
    ready.bodyOf .partControl = some .started ∧ ready.notices.outbox.length < 16 ∧ ready.ordinaryCount < 12 ∧
      16 ≤ (withOutbox ready sixteen).notices.outbox.length ∧ 12 ≤ (withOutbox ready sixteen).ordinaryCount ∧
      (withOutbox ready sixteen).notices.outbox.length ≤ 16 ∧
      note 15 (.refreshOverrun 0) ∈ (withOutbox ready sixteen).notices.outbox := by decide +kernel

/-- A producer with a notice and one with nothing to report at the head of the list, with room; and no room. -/
theorem witness_NoticesAreAdmittedOrWait_waiting :
    ∀ x ∈ ([.partControl, .scrub] : List Producer),
      ({ ready with notices := { ready.notices with waiting := [x, .job 0] } } : State).notices.waiting = x :: [.job 0] ∧
        (({ ready with notices := { ready.notices with waiting := [x, .job 0] } } : State).bodyOf x = none ∨
          ({ ready with notices := { ready.notices with waiting := [x, .job 0] } } : State).bodyOf x = some .started) := by
  decide +kernel

/-- The number taken when the next one and the one after it are held, across 255; the producers with something to report; ALERTs
and the others in the outbox. -/
theorem witness_NoticesAreAdmittedOrWait_reports :
    ({ withOutbox ready [note 255 .started, note 0 (.refreshOverrun 0)] with
      notices := { ready.notices with outbox := [note 255 .started, note 0 (.refreshOverrun 0)], nextNumber := 255 } } :
        State).admissionNumber = 1 ∧
      (withOutbox ready [note 255 .started, note 0 (.refreshOverrun 0)]).ordinaryCount = 1 ∧
      (port0.setEngine 0 { port0.engine 0 with attention := some { pstat := 9, merged := true } }).bodyOf (.attention 0) =
        some (.attention 0 9 true) ∧
      (working (job .inn .held 0) .held []).bodyOf (.job 0) = some (.jobEnd 7 0 .inn none 0 none false false) ∧
      ready.queueOf 0 = [] ∧ (port0.setQueue 0 [7]).queueOf 0 = 7 :: [] ∧ (port0.setQueue 0 [7]).jobOf 7 = none ∧
      (ready.setOp (.repair {
        bank := 1, row := 9, kind := .hard, target := 2, phase := .reporting, fuseSlot := some 3, uncorrectable := 4,
        outcome := some .fuseFail })).bodyOf .repair = some (.repairEnd 1 9 .hard (some .fuseFail) 4) := by
  decide +kernel

theorem witness_FrameEndFreesTheLine :
    ready.resetn = false ∧
      ({ ready.link with tx := some { frame := (Response.mk 0 []).frame, notice := some 3 } } : Link).tx.isSome = true := by
  decide +kernel

def sentNote (k : Nat) (due : Bool) : Notice := { note k .started with sent := true, sendCount := 1, resendDue := due }

/-- Nothing before the notices; of two due the older; else the oldest UNSENT, with 3 SENT and with 4; none due and none UNSENT;
STALE; a request at the head of a free processor; a CLOSED link. -/
theorem witness_TransmitterOrder :
    ready.link.tx = none ∧ ready.link.openResponse = none ∧ ready.link.linkError = none ∧ ready.link.queue = [] ∧
      ready.link.isOpen = true ∧ State.reset.link.isOpen = false ∧ ready.notices.stale = false ∧
      staleLink.notices.stale = true ∧ ready.link.intake = [] ∧ (asking ready [0x02]).link.intake ≠ [] ∧
      (asking ready [0x02]).proc.executing = none ∧ (asking ready [0x02]).proc.held = none ∧
      ((sentNote 1 true).sent = true ∧ (sentNote 1 true).resendDue = true ∧
        ∀ x ∈ [note 0 .started], ¬(x.sent = true ∧ x.resendDue = true)) ∧
      ((∀ x ∈ [sentNote 0 false, sentNote 1 false, sentNote 2 false, note 3 .started], ¬(x.sent = true ∧ x.resendDue = true)) ∧
        ([sentNote 0 false, sentNote 1 false, sentNote 2 false, note 3 .started].filter Notice.sent).length < 4 ∧
        (note 3 .started).sent = false ∧ ∀ x ∈ [sentNote 0 false, sentNote 1 false, sentNote 2 false], x.sent = true) ∧
      4 ≤ ((List.range 4).map fun k => sentNote k false).length ∧
      (∀ x ∈ [sentNote 0 false], x.sent = true) := by decide +kernel

/-- A response queue whose rest has room for the held response, and one whose rest has none. -/
theorem witness_TransmitterOrder_held :
    ∀ n ∈ ([7, 8] : List Nat), List.replicate (n + 1) (Response.mk 0 []) = Response.mk 0 [] :: List.replicate n (Response.mk 0 []) ∧
      ((List.replicate n (Response.mk 0 [])).length < 8 ∨ 8 ≤ (List.replicate n (Response.mk 0 [])).length) := by
  decide +kernel

/-- The bytes of notices with a field in each place. -/
theorem test_notice_bytes :
    (NoticeBody.jobEnd 0x1234 3 .compare (some .media) 0x01020304 (some 0x0A0B0C0D) false true).bytes =
        [0x01, 0x12, 0x34, 3, 3, 3, 1, 2, 3, 4, 1, 0x0A, 0x0B, 0x0C, 0x0D, 0, 1] ∧
      (NoticeBody.repairEnd 15 0x1ABC .hard (some .fuseFail) 0x0102).bytes = [0x04, 15, 0x1A, 0xBC, 1, 1, 1, 2] ∧
      (NoticeBody.uncorrectable .scrub 15 0x1ABC 0x0D5E7F00).bytes =
        [0x81, 5, 15, 0x1A, 0xBC, 0x0D, 0x5E, 0x7F, 0x00] := by decide +kernel

/-- At send counts 3 and 4. -/
theorem witness_ResendExpiryMakesDueOrStale :
    ∀ k ∈ ([1, 3, 4] : List Nat),
      (withOutbox ready [{ note 0 .started with sent := true, sendCount := k, timer := some 20 }]).notices.outbox.Nodup ∧
        (∀ x ∈ [{ note 0 .started with sent := true, sendCount := k, timer := some 20 }], x.number = 0 →
          x = { note 0 .started with sent := true, sendCount := k, timer := some 20 }) := by decide +kernel

theorem witness_CommonRefusals :
    AtHead (asking ready [0x77]) (req [0x77]) [] ∧ (∀ c ∈ assignedCodes, (req [0x77]).code ≠ c) ∧
      AtHead (asking ready [0x02, 0]) (req [0x02, 0]) [] ∧ lengthOk (req [0x02, 0]) = false ∧
      AtHead (asking (inPart .starting) [0x51]) (req [0x51]) [] ∧ lengthOk (req [0x51]) = true ∧
      (0x51, Instr.sleep) ∈ requestRows quiet ∧ (inPart .starting).part.state = .starting ∧
      (inPart .sleeping).part.state = .sleeping ∧ (inPart .waking).part.state = .waking ∧
      (inPart .resetting).part.state = .resetting := by unfold AtHead; decide +kernel

theorem witness_IdentifyAnswers : AtHead (asking ready [0x02]) (req [0x02]) [] := by unfold AtHead; decide +kernel
theorem witness_StatusAnswers : AtHead (asking ready [0x03]) (req [0x03]) [] := by unfold AtHead; decide +kernel

/-- Ids 0x00, 0x0B, 0x10 and 0x15 name settings, 0x0C, 0x0F and 0x16 do not. -/
theorem witness_GetSettingAnswers :
    AtHead (asking ready [0x04, 0x15]) (req [0x04, 0x15]) [] ∧ Param.ofId 0 = some (.enable 0) ∧
      Param.ofId 11 = some (.attention 3) ∧ Param.ofId 16 = some .holdLimit ∧ Param.ofId 21 = some .wakeOnAttention ∧
      Param.ofId 12 = none ∧ Param.ofId 15 = none ∧ Param.ofId 22 = none := by unfold AtHead; decide +kernel

theorem witness_SetSettingWritesOrRefuses :
    AtHead (asking ready [0x05, 0x12, 64]) (req [0x05, 0x12, 64]) [] ∧ Param.ofId 0x12 = some .scrubRate ∧
      Param.scrubRate.valueOk 64 = true ∧ Param.scrubRate.valueOk 65 = false ∧ Param.holdLimit.valueOk 0 = false ∧
      Param.holdLimit.valueOk 1 = true ∧ (Param.width 0).valueOk 8 = true ∧ (Param.width 0).valueOk 9 = false ∧
      ready.mayChange .scrubRate = true ∧ ready.mayChange (.enable 0) = true ∧ ready.settings.scrubRate = 0 ∧
      (ready.engine 0).state = .inert ∧ ready.part.state = .ready ∧
      (working (job .inn .active 0) .running []).queueOf 0 ≠ [] := by unfold AtHead; decide +kernel

/-- ENABLE of a port whose engine is not INERT, or in a part that is not READY; a rate set from a rate other than 0. -/
theorem witness_SetSettingWritesOrRefuses_frame :
    (port0.engine 0).state ≠ .inert ∧ port0.mayChange (.enable 0) = true ∧ (inPart .sleeping).part.state ≠ .ready ∧
      (after .setSetting (asking ready [0x05, 0x12, 1])).settings.scrubRate ≠ 0 := by decide +kernel

/-- The last byte of the array, the longest job, every mode code and one past it. -/
theorem witness_SubmitFieldsAreRead :
    (Mode.ofCode 0 = some .inn ∧ Mode.ofCode 3 = some .compare ∧ Mode.ofCode 4 = none) ∧
      (4194304 : Nat) < 4294967296 ∧ (264241152 : Nat) + 4194304 ≤ 268435456 ∧ ¬(264241153 : Nat) + 4194304 ≤ 268435456 := by
  decide +kernel

def submitPayload : List Byte := [0x10, 0, 7, 0, 0, 0, 0, 0, 64, 0, 0, 0, 4, 2, 0]

theorem witness_SubmitRefused :
    AtHead (asking ready submitPayload) (req submitPayload) [] ∧ (req submitPayload).code = 0x10 ∧
      lengthOk (req submitPayload) = true ∧ ready.part.state = .ready ∧
      submitJob (req [0x10, 0, 7, 4, 0, 0, 0, 0, 64, 0, 0, 0, 4, 2, 0]) = none ∧
      submitJob (req submitPayload) = some (job .inn .queued 0) ∧ (ready.portSettings 0).enable = false ∧
      (port0.portSettings 0).enable = true ∧ ((working (job .inn .active 0) .running []).jobOf 7).isSome = true ∧
      8 ≤ ((port0.setQueue 0 (List.replicate 8 1)).queueOf 0).length ∧
      32 ≤ ({ port0 with jobs := List.replicate 32 { job .inn .queued 0 with tag := 1 } } : State).jobs.length ∧
      ({ port0 with jobs := List.replicate 32 { job .inn .queued 0 with tag := 1 } } : State).jobOf 7 = none := by
  unfold AtHead; decide +kernel

theorem witness_SubmitAccepted :
    AtHead (asking port0 submitPayload) (req submitPayload) [] ∧ (req submitPayload).code = 0x10 ∧
      lengthOk (req submitPayload) = true ∧ port0.part.state = .ready ∧
      submitJob (req submitPayload) = some (job .inn .queued 0) ∧ (port0.portSettings 0).enable = true ∧
      (asking port0 submitPayload).jobOf 7 = none ∧ ((port0.setQueue 0 (List.replicate 7 1)).queueOf 0).length < 8 ∧
      (List.replicate 31 (job .inn .queued 0)).length < 32 := by unfold AtHead; decide +kernel

theorem witness_SubmitStartsTheJob :
    AtHead (asking port0 submitPayload) (req submitPayload) [] ∧
      submitJob (req submitPayload) = some (job .inn .queued 0) ∧ (port0.portSettings 0).enable = true ∧
      (asking port0 submitPayload).jobOf 7 = none ∧ (asking port0 submitPayload).queueOf 0 = [] ∧
      ((asking port0 submitPayload).engine 0).state = .idle ∧ ((asking port0 submitPayload).pin 0).xreq = none := by
  unfold AtHead; decide +kernel

/-- A region that ends where its first burst ends, and one a byte longer. -/
theorem witness_SubmitStartsTheJob_reads :
    submitJob (req [0x10, 0, 7, 0, 1, 0, 0, 0, 64, 0, 0, 0, 33, 2, 0]) = some { job .out .queued 0 with length := 33 } ∧
      64 + 32 ≤ 32 * (64 / 32) + 32 ∧ 32 * (64 / 32) + 32 < 64 + 33 ∧
      ((after (.submit quiet) (asking port0 [0x10, 0, 7, 0, 1, 0, 0, 0, 64, 0, 0, 0, 33, 2, 0])).accesses.map
        fun a => (a.firstWord, a.wordCount)) = [(16, 8), (24, 1)] := by decide +kernel

/-- Port 0 with that job, and a request standing on XREQ. -/
def standing (j : Job) (st : EngineState) (halves : List Half) : State :=
  (working j st halves).setPin 0 { (working j st halves).pin 0 with xreq := some { xdir := true, xend := false, d := 0x55 } }

/-- The head of an IDLE engine's queue starts, a request standing; the next turn takes the request. -/
theorem witness_SubmitStartsTheJob_turn :
    (∀ m ∈ ([.inn, .out, .count, .compare] : List Mode),
      (standing (job m .queued 0) .idle []).part.state = .ready ∧
        ((standing (job m .queued 0) .idle []).engine 0).state = .idle ∧
        (standing (job m .queued 0) .idle []).queueOf 0 = 7 :: [] ∧
        (standing (job m .queued 0) .idle []).jobOf 7 = some (job m .queued 0)) ∧
      (((standing (job .inn .queued 0) .idle []).portSettle 0).jobs.map fun j => (j.state, j.moved)) = [(.active, 1)] := by
  decide +kernel

/-- A job in each state, and no job. -/
theorem witness_CancelByJobState :
    AtHead (asking (working (job .inn .active 0) .running []) [0x11, 0, 7]) (req [0x11, 0, 7]) [] ∧
      (req [0x11, 0, 7]).payload = 0x11 :: natBytes 2 (7 : Tag).toNat ∧
      (∀ st ∈ ([.queued, .active, .draining, .stopping, .held, .reported] : List JobState),
        (working (job .inn st 0) .running []).jobOf 7 = some (job .inn st 0)) ∧ ready.jobOf 7 = none := by
  unfold AtHead; decide +kernel

/-- Bytes staged in the middle of a word: the WRITE is of the whole part's words, its masks are of the staged bytes. -/
theorem test_cancel_posts_staged :
    ((after (.cancel quiet) (asking (working (job .inn .active 1) .running [.filling 2 64 [0xAB]]) [0x11, 0, 7])).accesses.map
      posted) = stagedWrites (job .inn .active 1) 0 [.filling 2 64 [0xAB], .loaded 3 96 [1]] ∧
    (stagedWrites { job .inn .active 1 with length := 40 } 0 [.filling 2 64 [0xAB]]).map Access.wordCount = [8] := by
  decide +kernel

theorem witness_JobQueryAnswers :
    AtHead (asking (working (job .count .active 0) .running []) [0x12, 0, 7]) (req [0x12, 0, 7]) [] ∧
      (req [0x12, 0, 7]).payload = 0x12 :: natBytes 2 (7 : Tag).toNat ∧
      (working (job .count .active 0) .running []).jobOf 7 = some (job .count .active 0) ∧ ready.jobOf 7 = none := by
  unfold AtHead; decide +kernel

/-- Without HOLDN and with room; the two other clauses differ from it in HOLDN or in the outbox alone. -/
theorem witness_JobFinishes :
    ∀ s ∈ [working (job .inn .stopping 0) .stopping [],
          withOutbox (working (job .inn .stopping 0) .stopping []) sixteen,
          (working (job .inn .stopping 0) .stopping []).setPin 0 { Pins.reset with holdn := true }],
      s.part.state = .ready ∧ (s.engine 0).state = .stopping ∧ (s.engine 0).activeJob = some 7 ∧
        s.jobOf 7 = some (job .inn .stopping 0) ∧ s.queueOf 0 = 7 :: [] ∧ s.outstanding 0 = 0 ∧
        ∀ h ∈ (s.engine 0).halves, h.isFilling = false := by decide +kernel

/-- A job CANCELLED in the queue, at its head. -/
def cancelledHead : State :=
  { port0 with jobs := [{ job .inn .queued 0 with outcome := some .cancelled }], queues := port0.queues.set 0 [7] }

theorem witness_JobFinishes_queued :
    cancelledHead.part.state = .ready ∧ (cancelledHead.engine 0).state = .idle ∧ cancelledHead.queueOf 0 = 7 :: [] ∧
      cancelledHead.jobOf 7 = some { job .inn .queued 0 with outcome := some .cancelled } := by decide +kernel

/-- One byte at the end of the array, and the most bytes from its start. -/
theorem witness_HostAccessesPosted :
    AtHead (asking ready (0x21 :: (natBytes 4 268435455 ++ natBytes 2 1))) (req (0x21 :: (natBytes 4 268435455 ++ natBytes 2 1)))
        [] ∧
      ready.part.state = .ready ∧ 268435455 + 1 ≤ 268435456 ∧ 0 + 1024 ≤ 268435456 ∧
      (List.replicate 1024 (0 : Byte)).length = 1024 := by unfold AtHead; decide +kernel

/-- No byte, a byte too many, and a region one byte past the end. -/
theorem witness_HostAccessesPosted_range :
    AtHead (asking ready (0x21 :: (natBytes 4 268435455 ++ natBytes 2 2))) (req (0x21 :: (natBytes 4 268435455 ++ natBytes 2 2)))
        [] ∧
      AtHead (asking ready (0x20 :: (natBytes 4 0 ++ natBytes 2 0 ++ []))) (req (0x20 :: (natBytes 4 0 ++ natBytes 2 0 ++ [])))
        [] ∧
      1024 < 1025 ∧ (268435456 : Nat) < 268435455 + 2 ∧ (List.replicate 1025 (0 : Byte)).length = 1025 := by
  unfold AtHead; decide +kernel

/-- A HOST READ in hand, its burst in flight: with a last burst, with more to come, and with an UNCORRECTABLE word. -/
def hostReading (n : Nat) : State :=
  { openBank0 ready with
    proc := { executing := some { seq := 5, code := 0x21, work := .hostRead 0 n 0 [], discard := false }, held := none },
    accesses := [flyingAccess .link .read] }

theorem witness_HostReadBurstCompletes :
    (hostReading 4).flying = some (flyingAccess .link .read) ∧ (hostReading 4).part.state = .ready ∧
      firstFaulty (State.perform (hostReading 4) (flyingAccess .link .read)).2 = none ∧ 0 + 4 ≤ 32 * (0 + 1) ∧
      32 * (0 + 1) < 0 + 33 ∧
      firstFaulty (State.perform { hostReading 4 with
        mem := (hostReading 4).mem.decay [{ word := 0, bits := 3 }] } (flyingAccess .link .read)).2 = some 0 := by
  decide +kernel

theorem witness_HostWriteBurstCompletes :
    firstUnwritten (State.perform (openBank0 ready) (flyingAccess .link (.write [1] [1]))).2 = none ∧
      firstUnwritten (State.perform { openBank0 ready with
        mem := (openBank0 ready).mem.decay [{ word := 0, bits := 3 }] } (flyingAccess .link (.write [1] [1]))).2 = some 0 ∧
      0 + (List.replicate 32 (0 : Byte)).length ≤ 32 * (0 + 1) ∧ 32 * (0 + 1) < 0 + (List.replicate 33 (0 : Byte)).length := by
  decide +kernel

/-- Taken; RANGE at port 4 and at steer 16; PORT OFF; BUSY. -/
theorem witness_StrobesBeginOrAreRefused :
    AtHead (asking port0 [0x22, 0, 15, 0xAB]) (req [0x22, byteOf (0 : Port).val, (15 : BitVec 4).setWidth 8, 0xAB]) [] ∧
      AtHead (asking port0 [0x23, 0, 15]) (req [0x23, byteOf (0 : Port).val, (15 : BitVec 4).setWidth 8]) [] ∧
      port0.part.state = .ready ∧ (port0.portSettings 0).enable = true ∧ (port0.engine 0).state = .idle ∧
      (4 : Nat) ≤ (4 : Byte).toNat ∧ (16 : Nat) ≤ (16 : Byte).toNat ∧ (15 : Byte).toNat < 16 ∧
      (ready.portSettings 0).enable = false ∧ ((working (job .inn .active 0) .running []).engine 0).state ≠ .idle := by
  unfold AtHead; decide +kernel

theorem witness_StrobeEnds :
    (∀ q : Port, ready.work ≠ some (.portOut q) ∧ ready.work ≠ some (.portIn q)) ∧
      (after .portOut (asking port0 [0x22, 0, 15, 0xAB])).proc.executing =
        some { seq := 5, code := 0x22, work := .portOut 0, discard := false } ∧
      (after .portIn (asking port0 [0x23, 0, 15])).proc.executing =
        some { seq := 5, code := 0x23, work := .portIn 0, discard := false } ∧
      (after .portIn (asking port0 [0x23, 0, 15])).proc.held = none := by decide +kernel

/-- A LINK OPEN during a strobe condemns its response: at the end nothing is cached, and the processor is free. -/
theorem test_condemned_response :
    let s := after (.linkOpen (requestFrame { seq := 9, payload := [0x01] }).chars) (after .portIn (asking port0 [0x23, 0, 3]))
    s.proc.executing.map Execution.discard = some true ∧ (after (.strobeEnd quiet) s).link.cache = [] ∧
      (after (.strobeEnd quiet) s).proc.executing = none := by decide +kernel

def weak (b : Bank) (r : Row) : WeakEntry :=
  { bank := b, row := r, correctedCount := 1, uncorrectable := false, remapped := false, firstSource := .link }

theorem witness_WeakListIsReadAndCleared :
    AtHead (asking ready [0x30]) (req [0x30]) [] ∧
      AtHead (asking ready (0x31 :: (natBytes 1 15 ++ natBytes 2 8191))) (req (0x31 :: (natBytes 1 15 ++ natBytes 2 8191))) [] ∧
      (∀ e ∈ ready.media.list, ¬(e.bank.val = 15 ∧ e.row.val = 8191)) ∧
      (ready.setWeakList [weak 1 2, weak 15 8191]).media.list = [weak 1 2] ++ weak 15 8191 :: [] ∧
      (∀ x ∈ [weak 1 2], ¬(x.bank = (weak 15 8191).bank ∧ x.row = (weak 15 8191).row)) ∧
      (inPart .sleeping).part.state = .sleeping ∧ (16 : Nat) < 256 ∧ (8192 : Nat) < 65536 := by
  unfold AtHead; decide +kernel

/-- A list of 32: all UNCORRECTABLE, or with the oldest that is not in the second place. -/
def fullList (second : Bool) : List WeakEntry :=
  (List.range 32).map fun k => { weak (Fin.ofNat 16 k) (Fin.ofNat 8192 k) with uncorrectable := second || decide (k ≠ 1) }

/-- A report on a listed row, with room, with an entry to evict, and with none; a result with an UNCORRECTABLE word, and
none. -/
theorem witness_WeakListIsReadAndCleared_reports :
    (ready.setWeakList [weak 1 2, weak 15 8191]).media.list = [weak 1 2] ++ weak 15 8191 :: [] ∧
      (∀ x ∈ [weak 1 2] ++ [], ¬(x.bank = 15 ∧ x.row = 8191)) ∧
      (∀ x ∈ (fullList true), ¬(x.bank = 15 ∧ x.row = 8191)) ∧ 32 ≤ (fullList true).length ∧
      (∀ x ∈ fullList true, x.uncorrectable = true) ∧
      (ready.setWeakList (fullList false)).media.list =
        [{ weak 0 0 with uncorrectable := true }] ++ weak 1 1 :: (fullList false).drop 2 ∧
      ready.media.listFull = false ∧ ready.media.scrubMark = none ∧
      (State.perform { hostReading 4 with mem := (hostReading 4).mem.decay [{ word := 0, bits := 3 }] }
        (flyingAccess .link .read)).2.map WordResult.outcome = [some .uncorrectable] ∧
      (State.perform (hostReading 4) (flyingAccess .link .read)).2.map WordResult.outcome = [some .clean] := by
  decide +kernel

theorem witness_cannotRecord : CannotRecord (ready.setWeakList (fullList true)) 15 8191 ∧ ¬CannotRecord ready 15 8191 :=
  ⟨State.unrecorded_iff.1 (by decide +kernel), fun h => absurd (State.unrecorded_iff.2 h) (by decide +kernel)⟩

/-- A row with an entry; no FREE spare; no FREE fuse slot; another operation; the target the lowest FREE spare. -/
theorem witness_RepairRowIsJudged :
    AtHead (asking ready (0x32 :: (natBytes 1 15 ++ natBytes 2 8191 ++ natBytes 1 1)))
        (req (0x32 :: (natBytes 1 15 ++ natBytes 2 8191 ++ natBytes 1 1))) [] ∧
      RepairKind.hard.code = 1 ∧
      (∃ e ∈ (ready.setRemap 15 [{ row := 8191, spare := 0, kind := .soft }]).remapOf 15, e.row = 8191) ∧
      (∀ i : Spare, ∃ e ∈ (ready.setRemap 15 (([0, 1, 2, 3, 4, 5, 6, 7] : List Spare).map fun i =>
        { row := Fin.ofNat 8192 i.val, spare := i, kind := .soft })).remapOf 15, e.spare = i) ∧
      (∀ e ∈ ready.remapOf 15, e.row ≠ 8191) ∧ (∀ e ∈ ready.remapOf 15, e.spare ≠ 0) ∧
      (∀ i' : Spare, i' < 0 → ∃ e ∈ ready.remapOf 15, e.spare = i') ∧ ready.fuseOf 15 0 = .free ∧ ready.maint.op = .none ∧
      State.reset.maint.op ≠ .none ∧
      (∀ m : Slot, ((((ready.setFuse 15 0 .spoiled).setFuse 15 1 .spoiled).setFuse 15 2 .spoiled).setFuse 15 3 .spoiled).fuseOf
        15 m ≠ .free) := by unfold AtHead; decide +kernel

theorem witness_RemapIsRead :
    AtHead (asking ready [0x33, 15]) (req [0x33, 15]) [] ∧ (15 : Bank).val = (15 : Byte).toNat ∧ 16 ≤ (16 : Byte).toNat ∧
      ([{ row := 2, spare := 1, kind := .soft }, { row := 1, spare := 4, kind := .hard }] : List RemapEntry).Perm
        ((ready.setRemap 15 [{ row := 1, spare := 4, kind := .hard }, { row := 2, spare := 1, kind := .soft }]).remapOf 15) ∧
      ([{ row := 2, spare := 1, kind := .soft }, { row := 1, spare := 4, kind := .hard }] : List RemapEntry).Pairwise
        fun x y => x.spare < y.spare := by unfold AtHead; decide +kernel

theorem witness_ErrorLogIsReadAndCleared :
    AtHead (asking ready [0x40]) (req [0x40]) [] ∧ AtHead (asking ready [0x41, 1]) (req [0x41, 1]) [] ∧
      AtHead (asking ready [0x41, 2]) (req [0x41, 2]) [] ∧ (1 : Byte).toNat ≤ 1 ∧ 1 < (2 : Byte).toNat := by
  unfold AtHead; decide +kernel

/-- Nothing outstanding, and one access outstanding at a RUNNING engine. -/
theorem witness_EngineResetByPartState :
    AtHead (asking ready [0x50]) (req [0x50]) [] ∧ (∀ p : Port, ready.outstanding p = 0) ∧
      0 < ({ working (job .inn .active 0) .running [] with accesses := [flyingAccess (.port 0 7) .read] } : State).outstanding
        0 ∧ ((working (job .inn .active 0) .running []).engine 0).state ≠ .inert ∧ (inPart .waking).part.state = .waking := by
  unfold AtHead; decide +kernel

/-- A repair in each phase; RESETTING with every engine stopped, and with one that is not; the target of a wake. -/
theorem witness_EngineResetByPartState_blocks :
    (∀ x ∈ ([.claiming, .copying, .programming, .reporting] : List RepairPhase),
      (ready.setOp (.repair (copying .hard x none))).maint.op = .repair (copying .hard x none) ∧
        (copying .hard x none).phase = x) ∧
      (∀ x ∈ ([.programming, .reporting] : List RepairPhase), x ≠ .claiming ∧ x ≠ .copying) ∧
      (inPart .resetting).part.state = .resetting ∧ (∀ p : Port, ((inPart .resetting).engine p).state = .inert) ∧
      ((working (job .inn .active 0) .running []).engine 0).state ≠ .inert ∧ ready.proc.executing = none ∧
      ({ (inPart .waking).part with wakeTarget := some .resetting } : Part).wakeTarget = some .resetting := by
  decide +kernel

/-- A waiting SCRUB PASS outlives an engine reset, a port's attention does not, and a repair that copies is given up. -/
theorem test_engineReset_keeps_the_pass :
    let s := { (ready.setScrub { ready.maint.scrub with
        visit := .atPassEnd, waitingPass := some { passNumber := 3, corrected := 0, uncorrectable := 0 }, passNumber := 3 }).setOp
        (.repair (copying .soft .copying none)) with
      notices := { (withOutbox ready sixteen).notices with waiting := [.attention 1, .scrub] } };
    let t := after .engineReset (asking s [0x50]);
    t.notices.waiting = [.scrub] ∧ t.maint.scrub.passNumber = 3 ∧ t.maint.op = .none ∧ t.part.state = .ready := by
  decide +kernel

/-- RESETTING, the burst of port 0 in flight and as many accesses of it behind as given. -/
def resetting (behind : Nat) (discard : Bool) : State :=
  { working (job .out .active 0) .running [.awaiting 0] with
    part := (inPart .resetting).part, banks := (openBank0 ready).banks,
    proc := { executing := some { seq := 5, code := 0x50, work := .engineReset, discard := discard }, held := none },
    accesses := flyingAccess (.port 0 7) .read ::
      List.replicate behind { flyingAccess (.port 0 7) .read with condition := .waiting } }

/-- The last burst outstanding, and one before it. -/
theorem witness_EngineResetByPartState_ends :
    (∀ n ∈ ([0, 1] : List Nat), (resetting n false).part.state = .resetting ∧ (resetting n false).part.sleepEntry = false ∧
      (resetting n false).flying = some (flyingAccess (.port 0 7) .read) ∧ (resetting n false).proc.held = none ∧
      (resetting n false).outstanding 0 = n + 1 ∧ ((resetting n false).engine 0).state ≠ .inert ∧
      ∀ q : Port, q ≠ 0 → ((resetting n false).engine q).state = .inert) ∧
    (after (.burstComplete [] quiet) (resetting 0 false)).part.state = .ready ∧
    (after (.burstComplete [] quiet) (resetting 0 true)).link.cache = [] ∧
    (after (.burstComplete [] quiet) (resetting 1 false)).part.state = .resetting := by decide +kernel

theorem witness_SleepIsEnteredWhenQuiet :
    AtHead (asking ready [0x51]) (req [0x51]) [] ∧ ready.part.state = .ready ∧ (∀ p : Port, ready.queueOf p = []) ∧
      ready.maint.op = .none ∧ ready.accesses = [] ∧ (∀ b : Bank, (ready.bank b).state = .closed) ∧
      (∀ g : Group, (ready.group g).debt = 0) ∧ ((openBank0 ready).bank 0).state ≠ .closed ∧
      (working (job .inn .active 0) .running []).queueOf 0 ≠ [] ∧ State.reset.maint.op ≠ .none := by
  unfold AtHead; decide +kernel

/-- Sleep entry, its SLEEP in execution, with nothing left to wait for. -/
def entering : State :=
  { ready with
    part := { ready.part with sleepEntry := true },
    proc := { executing := some { seq := 5, code := 0x51, work := .sleep, discard := false }, held := none } }

theorem witness_maySleep : MaySleep entering ∧ ¬MaySleep ready ∧ ¬MaySleep (openBank0 entering) :=
  ⟨State.sleepReady_iff.1 (by decide +kernel), fun h => absurd (State.sleepReady_iff.2 h) (by decide +kernel),
    fun h => absurd (State.sleepReady_iff.2 h) (by decide +kernel)⟩

/-- A group of banks in one state. -/
def groupIn (g : Group) (x : BankState) (s : State) : State :=
  (banksOf g).foldl (fun s b => s.setBank b { BankRecord.reset with state := x }) s

/-- The last bank CLOSING; a group REFRESHING that owes 0, 1 and 2; a burst in flight. -/
theorem witness_SleepIsEnteredWhenQuiet_ends :
    (let s := entering.setBank 15 { BankRecord.reset with state := .closing { logical := 0, physical := .native } };
      s.part.sleepEntry = true ∧ s.maint.op = .none ∧ s.accesses = [] ∧ s.proc.held = none ∧
        (s.bank 15).state = .closing { logical := 0, physical := .native } ∧
        ∀ b' : Bank, b' ≠ 15 → (s.bank b').state = .closed) ∧
    (∀ n ∈ ([0, 1, 2] : List Nat),
      let s := (groupIn 3 .refreshing entering).setGroup 3 { debt := n, urgent := false, rotation := 0 };
      (∀ b : Bank, groupOf b = 3 → (s.bank b).state = .refreshing) ∧ (∀ b : Bank, groupOf b ≠ 3 → (s.bank b).state = .closed) ∧
        ((after (.groupRefreshComplete 3) s).part.state = .sleeping ↔ n ≤ 1)) ∧
    (({ openBank0 entering with accesses := [flyingAccess (.maint .scrub) .read] } : State).bank 0).state =
      .opened { logical := 0, physical := .native } := by decide +kernel

theorem witness_WakeByPartState :
    AtHead (asking ready [0x52]) (req [0x52]) [] ∧
      (after .wake (asking (inPart .sleeping) [0x52])).part.state = .waking ∧
      (after .wake (asking (inPart .sleeping) [0x52])).part.wakeTarget = some .ready ∧
      (after .wake (asking (inPart .sleeping) [0x52])).part.wakeWaiting = true ∧
      (after .engineReset (asking (inPart .sleeping) [0x50])).part.wakeTarget = some .resetting ∧
      (∀ p : Port, (after .engineReset (asking (inPart .sleeping) [0x50])).outstanding p = 0) := by
  unfold AtHead; decide +kernel

/-- At debts 6, 7 and 8. -/
theorem witness_RefreshKeepsItsDebts :
    ready.refresh.tick.isSome = true ∧
      ((ready.setGroup 1 { debt := 6, urgent := false, rotation := 0 }).group 1).debt < 7 ∧
      ((ready.setGroup 1 { debt := 7, urgent := false, rotation := 0 }).group 1).debt = 7 ∧
      8 ≤ ((ready.setGroup 1 { debt := 8, urgent := true, rotation := 0 }).group 1).debt ∧
      (∀ g' : Group, g' ≠ 1 → ((ready.setGroup 1 { debt := 8, urgent := true, rotation := 0 }).group g').debt < 8) ∧
      (∀ b : Bank, groupOf b = 0 → ((after .refreshTick ready).bank b).state = .refreshing) := by decide +kernel

/-- Groups 2 and 1 both owe 8 at a tick; a bank of group 0, which owes 7, is locked to job 7. -/
def ticking : State :=
  (((working (job .inn .active 0) .running []).setGroup 1 { debt := 8, urgent := true, rotation := 0 }).setGroup 2
    { debt := 8, urgent := true, rotation := 0 }).setGroup 0 { debt := 7, urgent := true, rotation := 0 } |>.setBank 0
    { BankRecord.reset with lockHolder := some 7 }

theorem test_tick_alerts_in_order_and_breaks_the_hold :
    ticking.refresh.tick.isSome = true ∧
      (after .refreshTick ticking).notices.outbox.map Notice.body = [.refreshOverrun 1, .refreshOverrun 2] ∧
      ((after .refreshTick ticking).jobOf 7).map Job.holdBroken = some true := by decide +kernel

/-- A group that owes, and the same with an access to it in the list, and one that owes nothing. -/
theorem witness_refreshDue :
    RefreshDue (ready.setGroup 3 { debt := 1, urgent := false, rotation := 0 }) 3 ∧ ¬RefreshDue ready 3 ∧
      ¬RefreshDue { (ready.setGroup 0 { debt := 1, urgent := false, rotation := 0 }) with
        accesses := [{ flyingAccess .link .read with condition := .waiting }] } 0 :=
  ⟨State.refreshReady_iff.1 (by decide +kernel), fun h => absurd (State.refreshReady_iff.2 h) (by decide +kernel),
    fun h => absurd (State.refreshReady_iff.2 h) (by decide +kernel)⟩

/-- A repair's claim that can be taken, alone and beside the group's refresh claim; and no claim. -/
theorem witness_repairDue :
    let s := ready.setOp (.repair
      { bank := 3, row := 9, kind := .soft, target := 0, phase := .claiming, fuseSlot := none, uncorrectable := 0,
        outcome := none });
    RepairDue s 3 ∧ ¬RefreshDue s (groupOf 3) ∧ RefreshDue (s.setGroup 0 { debt := 1, urgent := false, rotation := 0 }) 0 ∧
      RepairDue (s.setGroup 0 { debt := 1, urgent := false, rotation := 0 }) 3 ∧ ∀ b : Bank, ¬RepairDue ready b :=
  ⟨State.repairReady_iff.1 (by decide +kernel), fun h => absurd (State.refreshReady_iff.2 h) (by decide +kernel),
    State.refreshReady_iff.1 (by decide +kernel), State.repairReady_iff.1 (by decide +kernel),
    fun b h => absurd (State.repairReady_iff.2 h) ((by decide +kernel : ∀ b : Bank, ¬ready.repairReady b = true) b)⟩

/-- At 85 and 80 degrees and one thousandth beyond each. -/
theorem witness_TemperatureMovesTheRange :
    ready.resetn = false ∧ ready.range = .normal ∧ (85000 : Int) ≤ 85000 ∧ (85000 : Int) < 85001 ∧
      ({ ready with range := .hot } : State).range = .hot ∧ (80000 : Int) ≤ 80000 ∧ (79999 : Int) < 80000 ∧
      ready.notices.outbox.length < 16 ∧ 16 ≤ (withOutbox ready sixteen).notices.outbox.length := by decide +kernel

theorem witness_BanksOpenAndClose :
    ((after .hostRead (asking ready [0x21, 0, 0, 0, 0, 0, 1])).bank 0).state =
        .opening { logical := 0, physical := .native } ∧
      (after .hostRead (asking ready [0x21, 0, 0, 0, 0, 0, 1])).grantedOn 0 = true ∧
      ((openBank0 ready).closeBank 0).bank 0 =
        { BankRecord.reset with state := .closing { logical := 0, physical := .native } } := by decide +kernel

/-- One WAITING access of LINK to bank 0 at a row. -/
def wants (row : Row) : Access := { flyingAccess .link .read with row := row, condition := .waiting }

/-- A CLOSED bank that may open; a hit, and the burst of a hit beside a miss; a miss alone, and a miss beside a hit after 16
hits; a bank of an URGENT group. -/
theorem witness_choices :
    MayOpen { ready with accesses := [wants 0] } 0 (wants 0) ∧
      Candidate { openBank0 ready with accesses := [wants 0, wants 1] } (wants 0) ∧
      ¬Candidate { openBank0 ready with accesses := [wants 0, wants 1] } (wants 1) ∧
      MissWaits { openBank0 ready with accesses := [wants 0, wants 1] } (wants 0) ∧
      (∃ w, ClosesForMiss { openBank0 ready with accesses := [wants 1] } 0 w) ∧
      (¬∃ w, ClosesForMiss { openBank0 ready with accesses := [wants 0, wants 1] } 0 w) ∧
      (∃ w, ClosesForMiss { ready.setBank 0 { BankRecord.reset with
        state := .opened { logical := 0, physical := .native }, hitRun := 16 } with accesses := [wants 0, wants 1] } 0 w) ∧
      (∃ w, ClosesOtherwise ((openBank0 ready).setGroup 0 { debt := 8, urgent := true, rotation := 0 }) 0 w) ∧
      ¬∃ w, ClosesOtherwise (openBank0 ready) 0 w :=
  ⟨State.eligibleToOpen_iff.1 (by decide +kernel), State.burstCandidate_iff.1 (by decide +kernel),
    fun h => absurd (State.burstCandidate_iff.2 h) (by decide +kernel), State.missWaits_iff.1 (by decide +kernel),
    State.closesForMiss_iff.1 (by decide +kernel), fun h => absurd (State.closesForMiss_iff.2 h) (by decide +kernel),
    State.closesForMiss_iff.1 (by decide +kernel), State.mustClose_iff.1 (by decide +kernel),
    fun h => absurd (State.mustClose_iff.2 h) (by decide +kernel)⟩

theorem witness_BurstTouchesItsWordsAlone :
    ready.flying = none ∧ (hostReading 4).flying = some (flyingAccess .link .read) := by decide +kernel

/-- A READ and a WRITE of a port's job in hand, the half of its burst AWAITING; the job ACTIVE or STOPPING, the mark at the next
byte, or a whole unit past it; the last access outstanding, or not. -/
theorem witness_BurstTouchesItsWordsAlone_port :
    (∀ m ∈ ([.out, .inn] : List Mode), ∀ st ∈ ([.active, .stopping] : List JobState),
      ((working (job m st 0) .running [.awaiting 2]).engine 0).halves = [] ++ .awaiting 2 :: [] ∧
        (working (job m st 0) .running [.awaiting 2]).jobOf 7 = some (job m st 0) ∧
        (working (job m st 0) .running [.awaiting 2]).part.state ≠ .resetting) ∧
      (2 : Nat) = ((0 : Row).val * 32768 + (0 : Bank).val * 2048 + 16 * 4) / 32 ∧ .awaiting 2 ∉ ([] : List Half) ∧
      ((working (job .out .active 0) .running [.awaiting 2]).engine 0).nextAddress.getD 0 +
        unitSize (working (job .out .active 0) .running [.awaiting 2]) 0 (job .out .active 0) ≤ 65 ∧
      64 ≤ ((working (job .out .active 0) .running [.awaiting 2]).engine 0).nextAddress.getD 0 ∧
      ((working (job .out .active 0) .running [.awaiting 2]).engine 0).nextAddress.getD 0 < 64 + 4 ∧
      (working (job .out .active 0) .running [.awaiting 2]).outstanding 0 = 0 ∧
      ({ working (job .out .active 0) .running [.awaiting 2] with
        accesses := [flyingAccess (.port 0 7) .read] } : State).outstanding 0 ≠ 0 := by decide +kernel

/-- A WRITE of four words: untouched, whole, merged, and not written; the first faulty word and the first not written are its
last. -/
theorem test_write_results :
    let rs := (State.perform { openBank0 ready with mem := Memory.empty.setWrong 3 3 } { flyingAccess .link
      (.write [0, 1, 2, 3] [0, 15, 1, 1]) with wordCount := 4 }).2;
    rs.map (fun x => (x.address, x.outcome, x.written)) =
        [(0, none, true), (4, none, true), (8, some .clean, true), (12, some .uncorrectable, false)] ∧
      firstFaulty rs = some 12 ∧ firstUnwritten rs = some 12 := by decide +kernel

theorem witness_callsForReport :
    (∃ rs : List WordResult, CallsForReport rs) ∧ ¬CallsForReport [] :=
  ⟨⟨[{ address := 0, data := 0, outcome := some .corrected, written := false }], reported_iff.1 (by decide)⟩,
    fun h => absurd (reported_iff.2 h) (by decide)⟩

/-- A READ's fault at the next byte ends the job with MEDIA. -/
theorem test_portRead_media :
    (((working (job .out .active 0) .running [.awaiting 2]).portResult 0 7 { flyingAccess (.port 0 7) .read with firstWord := 16 }
      [{ address := 64, data := 0, outcome := some .uncorrectable, written := false }]).jobs.map
        fun j => (j.outcome, j.faultAddress)) = [(some .media, some 64)] := by decide +kernel

theorem witness_WordsAreCheckedAndMerged :
    wrongCount 0 = 0 ∧ wrongCount 0x4000000000 = 1 ∧ wrongCount 0x4000000001 = 2 ∧ Memory.empty.wf = true ∧
      (1 : BitVec 4) ≠ 0 ∧ (1 : BitVec 4) ≠ 15 ∧ (14 : BitVec 4) ≠ 15 ∧
      ((Memory.empty.setWrong 0 3).read 0).1 = .uncorrectable ∧ (Memory.empty.read 0).1 ≠ .uncorrectable ∧
      (Memory.empty.setWrong 0 1).read 0 = (.corrected, 0) ∧ (Memory.empty.setWrong 0 1).read 0 ≠ (.corrected, 1) := by
  decide +kernel

theorem witness_LocksArePlacedAndBroken :
    State.holdInForce { job .inn .active 0 with hold := true } = true ∧
      (working { job .inn .active 0 with hold := true } .running []).jobOf 7 = some { job .inn .active 0 with hold := true } ∧
      ready.urgentBank 0 = false ∧ (ready.setGroup 0 { debt := 8, urgent := true, rotation := 0 }).urgentBank 0 = true ∧
      (ready.bank 0).lockTimer = none ∧
      ((ready.setBank 0 { BankRecord.reset with lockHolder := some 7, lockTimer := some 32 }).bank 0).lockTimer.isSome =
        true := by decide +kernel

/-- LINK and MAINT, a part in RESETTING, and jobs whose hold is not in force, by the hold, by HOLD BROKEN and by the state. -/
theorem witness_LocksArePlacedAndBroken_none :
    (∀ (p : Port) (t : Tag), (flyingAccess .link .read).client ≠ .port p t) ∧ (inPart .resetting).part.state = .resetting ∧
      (flyingAccess (.port 0 7) .read).client = .port 0 7 ∧ (working (job .inn .active 0) .running []).jobOf 7 =
        some (job .inn .active 0) ∧
      State.holdInForce (job .inn .active 0) = false ∧
      State.holdInForce { job .inn .active 0 with hold := true, holdBroken := true } = false ∧
      State.holdInForce { job .inn .stopping 0 with hold := true } = false ∧
      State.holdInForce { job .inn .draining 0 with hold := true } = true ∧
      (working { job .inn .active 0 with hold := true } .running []).part.state ≠ .resetting ∧
      ((working { job .inn .active 0 with hold := true } .running []).bank 3).lockHolder ≠ some 7 :=
  ⟨nofun, by decide +kernel⟩

/-- A locked bank for which LINK waits, and one for which nobody does. -/
theorem witness_lockWaited :
    LockWaited { ready.setBank 0 { BankRecord.reset with lockHolder := some 7 } with accesses := [wants 0] } 0 ∧
      ¬LockWaited (ready.setBank 0 { BankRecord.reset with lockHolder := some 7 }) 0 :=
  ⟨State.lockWaited_iff.1 (by decide +kernel), fun h => absurd (State.lockWaited_iff.2 h) (by decide +kernel)⟩

/-- A RUNNING engine in each mode; the unit's bytes loaded, or no room for them. -/
theorem witness_UnitsAreTaken :
    (∀ m ∈ ([.inn, .out, .count, .compare] : List Mode),
      (working (job m .active 0) .running []).resetn = false ∧
        ((working (job m .active 0) .running []).pin 0).xreq = none ∧
        ((working (job m .active 0) .running []).outp 0).xack = false ∧
        ((working (job m .active 0) .running []).engine 0).activeJob = some 7 ∧
        (working (job m .active 0) .running []).jobOf 7 = some (job m .active 0) ∧ (job m .active 0).moved < 4 ∧
        (job m .active 3).moved + 1 = 4) ∧
      State.stageBytes 0 (job .inn .active 0) (laneBytes 1 0x55) 64 [] [] = some ([.filling 2 64 [0x55]], []) ∧
      State.stageBytes 0 (job .inn .active 0) (laneBytes 2 0x55) 64 [.awaiting 0, .awaiting 1] [] = none ∧
      (working (job .out .active 0) .running []).unitLoaded 0 1 = none ∧
      (working (job .out .active 0) .running [.loaded 2 64 [1, 2, 3, 4]]).unitLoaded 0 2 = some [1, 2] ∧
      laneBytes 2 0x0201 = [1, 2] ∧ (laneBytes 2 0x0301).take 1 = ([1, 2] : List Byte).take 1 ∧
      (laneBytes 2 0x0301).getD 1 0 ≠ ([1, 2] : List Byte).getD 1 0 := by decide +kernel

/-- At the last byte of the length, and before it; the mark at the next byte after the unit, and beyond a further unit. -/
theorem witness_UnitsAreTaken_ends :
    (∀ m ∈ ([.out, .compare] : List Mode),
      (working (job m .active 3) .running [.loaded 2 64 [1, 2, 3, 4]]).unitLoaded 0 1 = some [4] ∧
        (job m .active 3).moved + 1 = (job m .active 3).length) ∧
      State.stageBytes 0 (job .inn .active 3) (laneBytes 1 0x55) 67 [] [] =
        some ([.awaiting 2], [wordsAccess (.port 0 7) 64 68 (writeKind 67 [0x55] 2)]) ∧
      (job .inn .active 0).moved + 1 < (job .inn .active 0).length ∧
      (let s := (working (job .out .active 3) .running [.loaded 2 64 [1, 2, 3, 4]]).setEngine 0
          { (working (job .out .active 3) .running [.loaded 2 64 [1, 2, 3, 4]]).engine 0 with faultMark := some 68 };
        s.unitLoaded 0 1 = some [4] ∧ (s.engine 0).nextAddress = some 67 ∧ 68 ≤ 67 + 1 ∧ 67 + 1 < 68 + 4 ∧
          66 + 1 + unitSize s 0 { job .out .active 2 with moved := 3 } ≤ 68) := by decide +kernel

/-- An OUT job of 100 bytes at address 64, its two halves LOADED and AWAITING, about to give the byte at `64 + moved`. -/
def reading (moved : Nat) : State :=
  let s := working { job .out .active moved with length := 100 } .running [.loaded 2 64 (List.replicate 32 0xAB), .awaiting 3]
  s.setEngine 0 { s.engine 0 with nextBurst := some 4 }

/-- The unit that gives a half's last byte, and the one before it: the half is refilled with the next burst of the region, or
stands. Where the unit ends the job, it is not. -/
theorem test_half_refilled :
    ((after (.unitRequest 0 false false 0 quiet) (reading 31)).engine 0).halves = [.awaiting 3, .awaiting 4] ∧
      (after (.unitRequest 0 false false 0 quiet) (reading 31)).accesses.map posted =
        [partRead 0 { job .out .active 31 with length := 100 } 4] ∧
      ((after (.unitRequest 0 false false 0 quiet) (reading 30)).engine 0).halves =
        [.loaded 2 64 (List.replicate 32 0xAB), .awaiting 3] ∧
      (after (.unitRequest 0 false true 0 quiet) (reading 31)).accesses = [] := by decide +kernel

/-- Both halves bound; one FREE; both FREE with one burst left, and with two; none left. -/
theorem witness_refilled :
    2 ≤ ([.awaiting 3, .awaiting 4] : List Half).length ∧ ([.awaiting 3] : List Half).length = 1 ∧
      (let j := { job .out .active 31 with length := 100 };
        32 * 5 < j.address.getD 0 + j.length ∧ j.address.getD 0 + j.length ≤ 32 * (5 + 1) ∧
          32 * (4 + 1) < j.address.getD 0 + j.length ∧ j.address.getD 0 + j.length ≤ 32 * 6) := by decide +kernel

/-- A request standing at a RUNNING engine, in each mode; the unit withheld for want of room is taken when a half becomes FREE. -/
theorem witness_UnitsAreTaken_standing :
    (∀ m ∈ ([.inn, .out, .count, .compare] : List Mode),
      ((standing (job m .active 0) .running []).pin 0).xreq = some { xdir := true, xend := false, d := 0x55 } ∧
        ((standing (job m .active 0) .running []).outp 0).xack = false ∧
        (standing (job m .active 0) .running []).activeJob 0 = some (job m .active 0) ∧
        unitSize (standing (job m .active 0) .running []) 0 (job m .active 0) = 1) ∧
      ((standing (job .inn .active 0) .running [.awaiting 0, .awaiting 1]).portSettle 0).accesses = [] ∧
      (((standing (job .inn .active 0) .running [.awaiting 0, .awaiting 1]).portSettle 0).outp 0).xack = false ∧
      (((standing (job .inn .active 0) .running [.awaiting 1]).portSettle 0).outp 0).xack = true ∧
      (((standing (job .inn .active 0) .running [.awaiting 1]).portSettle 0).engine 0).halves =
        [.awaiting 1, .filling 2 64 [0x55]] := by decide +kernel

/-- Bytes LOADED behind another half: a COMPARE unit that is equal to them, and the same bytes with the mark on their word. -/
theorem witness_unitGiven :
    UnitGiven (standing (job .compare .active 0) .running [.awaiting 3, .loaded 2 64 [0x55, 2]]) 0 (job .compare .active 0)
        { xdir := true, xend := false, d := 0x55 } 1 .off ∧
      LoadedAt [.awaiting 3, .loaded 2 64 [0x55, 2]] 65 2 ∧
      (let s := working (job .out .active 0) .running [.awaiting 3, .loaded 2 64 [0x55, 2]];
        (s.setEngine 0 { s.engine 0 with faultMark := some 64 }).unitLoaded 0 1 = none) :=
  ⟨⟨[0x55], by decide +kernel, Or.inr (by decide +kernel)⟩, ⟨[.awaiting 3], [], 64, [0x55, 2], rfl, by simp, by decide, rfl⟩,
    by decide +kernel⟩

theorem witness_StagedBytesGoToTheirBurst :
    ([.filling 3 96 [2], .filling (95 / 32) 64 [1]] : List Half) = [.filling 3 96 [2]] ++ .filling (95 / 32) 64 [1] :: [] ∧
      NoneFilling ([.filling 3 96 [2]] ++ []) (95 / 32) ∧ 95 % 32 = 31 ∧ NoneFilling [.awaiting 2] (95 / 32) ∧
      ([.awaiting 0] : List Half).length < 2 ∧ 2 ≤ ([.awaiting 0, .awaiting 1] : List Half).length :=
  ⟨rfl, by simp [NoneFilling], rfl, by simp [NoneFilling], by decide, by decide⟩

/-- The two bytes of a unit across the end of a burst: with room for both, for the first alone, and for neither. -/
theorem witness_StagedBytesGoToTheirBurst_two :
    let j := { job .inn .active 0 with length := 100 };
    State.stageBytes 0 j [1, 2] 95 [] [] =
        some ([.awaiting 2, .filling 3 96 [2]], [wordsAccess (.port 0 7) 64 96 (writeKind 95 [1] 2)]) ∧
      (State.stageBytes 0 j [1] 95 [.awaiting 0] []).isSome = true ∧ State.stageBytes 0 j [1, 2] 95 [.awaiting 0] [] = none ∧
      State.stageBytes 0 j [1] 95 [.awaiting 0, .awaiting 1] [] = none := by decide +kernel

theorem witness_RequestsStandOnThePins :
    ready.resetn = false ∧ (ready.pin 0).xreq = none ∧ (ready.engine 0).state = .inert ∧
      (port0.engine 0).state = .idle ∧ port0.queueOf 0 = [] ∧
      (∀ (steer : BitVec 4), (ready.engine 0).control ≠ some (.portOut steer 0)) ∧ (ready.engine 0).control = none := by
  decide +kernel

theorem witness_HoldAndAttentionPins :
    (working (job .inn .held 0) .held []).resetn = false ∧
      ((working (job .inn .held 0) .held []).engine 0).state = .held ∧
      (working (job .inn .held 0) .held []).queueOf 0 = 7 :: [] ∧
      (working (job .inn .held 0) .held []).jobOf 7 = some (job .inn .held 0) ∧
      .job 0 ∉ (working (job .inn .held 0) .held []).notices.waiting ∧
      (working (job .inn .held 0) .held []).ordinaryCount < 12 ∧
      12 ≤ (withOutbox (working (job .inn .held 0) .held []) sixteen).ordinaryCount ∧
      (ready.portSettings 0).enable = false ∧ (port0.portSettings 0).attention = true ∧
      (port0.engine 0).attention = none ∧ (inPart .sleeping).part.state = .sleeping ∧
      port0.notices.outbox.length < 16 ∧ port0.ordinaryCount < 12 ∧ 12 ≤ (withOutbox port0 sixteen).ordinaryCount ∧
      ({ Settings.reset with wakeOnAttention := true } : Settings).wakeOnAttention = true := by decide +kernel

theorem witness_ScrubTimerBeginsARow :
    ready.maint.scrub.timer = none ∧
      (after .setSetting (asking ready [0x05, 0x12, 1])).maint.scrub.timer.isSome = true ∧
      (after .setSetting (asking ready [0x05, 0x12, 1])).scrubAllowed = true ∧
      (after .setSetting (asking ready [0x05, 0x12, 1])).maint.scrub.visit = .betweenRows ∧
      (after .setSetting (asking ready [0x05, 0x12, 1])).maintPosted = false ∧ ready.scrubAllowed = false := by
  decide +kernel

/-- The scrub allowed, in each visit; a read's result with and without a CORRECTED word; a row's last burst but one and its last;
the last row; room for SCRUB PASS, and none. -/
theorem witness_ScrubTimerBeginsARow_advance :
    let s : State := { ready with settings := { ready.settings with scrubRate := 1 } }
    s.scrubAllowed = true ∧ s.maint.scrub.visit = .betweenRows ∧ s.maint.scrub.credit = false ∧
      s.beginRow.scrubAllowed = true ∧ s.beginRow.maint.scrub.visit = .inRow ∧
      s.beginRow.maint.scrub.resumeAtExpiry = false ∧ s.beginRow.maintPosted = false ∧
      s.beginRow.postScrubRead.maintPosted = true ∧ s.maint.scrub.discardResult = false ∧
      62 + 1 < 64 ∧ 64 ≤ 63 + 1 ∧ 131070 + 1 < 131072 ∧ 131072 ≤ 131071 + 1 ∧
      s.notices.outbox.length < 16 ∧ s.ordinaryCount < 12 ∧ 12 ≤ (withOutbox s sixteen).ordinaryCount := by decide +kernel

/-- A row IN ROW that a rate of 0 had stopped goes on at the next expiry, at its burst. -/
theorem test_scrub_resumes_at_expiry :
    let s := (ready.setScrub { ready.maint.scrub with
      visit := .inRow, burst := 5, timer := some 1, resumeAtExpiry := true });
    let s := { s with settings := { s.settings with scrubRate := 1 } };
    s.scrubAllowed = true ∧ s.maintPosted = false ∧
      (after .scrubTimerExpiry s).accesses.map posted = [scrubAccess 0 5 .read] := by decide +kernel

theorem witness_RepairCopyInstallsTheSpare :
    (ready.setOp (.repair (copying .soft .copying none))).maint.op = .repair (copying .soft .copying none) ∧
      (copying .hard .copying none).phase = .copying ∧ ready.mem.wf = true ∧ ready.fuseOf 15 0 = .free ∧
      (∀ m' : Slot, m' < 0 → ready.fuseOf 15 m' ≠ .free) := by decide +kernel

/-- The row listed in a full list whose flag is set, and not listed. -/
theorem witness_RepairCopyInstallsTheSpare_listed :
    (([weak 15 8191] : List WeakEntry).any fun e => decide (e.bank = 15) && decide (e.row = 8191)) = true ∧
      ((fullList true).any fun e => decide (e.bank = 15) && decide (e.row = 8191)) = false ∧
      (0 < rowCell 15 8191 (.spare 7) / 4 ∧ rowCell 15 8191 (.spare 7) / 4 + 512 ≤ 67174400) := by decide +kernel

theorem witness_FuseVerifyEndsProgramming :
    (ready.setOp (.repair (copying .hard .programming (some 3)))).maint.op =
        .repair (copying .hard .programming (some 3)) ∧
      (copying .hard .programming (some 3)).phase = .programming ∧
      (copying .hard .programming (some 3)).fuseSlot = some 3 := by decide +kernel

/-- The invariants hold at a state that has moved on from reset, and a step from it answers a next state. -/
theorem witness_invariants :
    (withOutbox ready sixteen).notices.npend = !(withOutbox ready sixteen).notices.outbox.isEmpty ∧
      (withOutbox ready sixteen).ordinaryCount ≤ 12 ∧ ready.mem.wf = true ∧
      (hostReading 4).accesses.length = 1 ∧ ((hostReading 4).accesses.filter Access.isInFlight).length ≤ 1 ∧
      (match step { ready with pending := [.refreshTick] } with
        | .next t => decide ((t.group 0).debt = 1)
        | _ => false) = true := by decide +kernel

end Sys2Proof.Tests
end

