-- ==== Sys2Proof/Proofs/Requests.lean ====
section
/-! PROOF. A request that is executed at once: how it is taken, that its response outlives the transmitter's turn, and that its
command answers and changes nothing else (R134 to R136). -/

namespace Sys2Proof.Machine

open Sys2Proof.Safety

/-- The state in which a request taken from the head of the intake queue is executed: `rest` is left in the queue. -/
def State.withIntake (s : State) (rest : List Request) : State := { s with link := { s.link with intake := rest } }

@[simp] theorem State.withIntake_part (s : State) (rest : List Request) : (s.withIntake rest).part = s.part := rfl

/-- A free processor takes the request at the head, if the row is the one of its code (R135). -/
theorem takeRequest_of_atHead {s : State} {r : Request} {rest : List Request} {p : Byte → Bool} (h : AtHead s r rest)
    (hp : p r.code = true) : s.takeRequest p = some (r, s.withIntake rest) := by
  obtain ⟨-, hfree, hheld, hintake⟩ := h
  simp [State.takeRequest, State.withIntake, hfree, hheld, hintake, hp]

/-- A request of the right length is executed, and then the transmitter goes on (R135, R136). -/
theorem runRequest_of_atHead {s : State} {r : Request} {rest : List Request} {p : Byte → Bool} {f : Request → State → State}
    (h : AtHead s r rest) (hp : p r.code = true) (hl : lengthOk r = true) :
    s.runRequest p f = (f r (s.withIntake rest)).transmit := by
  have ⟨hresetn, _⟩ := h
  simp [State.runRequest, takeRequest_of_atHead h hp, hl, hresetn]

/-! ### The transmitter while a response waits (R136) -/

/-- Releasing a held response moves it, if there is one and room for it, to the tail of the response queue (R135). -/
theorem releaseHeld_cases (s : State) : s.releaseHeld = s ∨ ∃ x : Response, s.proc.held = some x ∧
    s.releaseHeld = { s with link := { s.link with queue := s.link.queue ++ [x] }, proc := { s.proc with held := none } } := by
  unfold State.releaseHeld
  split
  · exact .inl rfl
  · rename_i x hx
    split
    · exact .inr ⟨x, hx, rfl⟩
    · exact .inl rfl

theorem releaseHeld_frame (s : State) :
    s.releaseHeld.link.intake = s.link.intake ∧ s.releaseHeld.proc.executing = s.proc.executing ∧
      LinkKept s s.releaseHeld ∧ { s.releaseHeld with link := s.link, proc := s.proc } = s := by
  rcases releaseHeld_cases s with h | ⟨_, -, h⟩ <;> rw [h] <;> exact ⟨rfl, rfl, ⟨rfl, rfl, rfl, rfl, rfl, rfl⟩, rfl⟩

theorem made_releaseHeld {s : State} {resp : Response} (h : Made s resp) : Made s.releaseHeld resp := by
  obtain ⟨hcache, hwhere⟩ := h
  rcases releaseHeld_cases s with e | ⟨x, hx, e⟩
  · rw [e]
    exact ⟨hcache, hwhere⟩
  · rw [e]
    refine ⟨hcache, ?_⟩
    rcases hwhere with hqueue | hline | hheld
    · exact .inl (List.mem_append_left _ hqueue)
    · exact .inr (.inl hline)
    · obtain rfl : resp = x := Option.some.inj (hheld.symm.trans hx)
      exact .inl (List.mem_append_right _ (List.mem_singleton_self _))

/-- With a response in the queue, the transmitter waits or sends a response or a LINK ERROR of higher preference, or it sends the
queue's head; in no case does it begin a notice. -/
theorem transmit_of_queue {s : State} {q : Response} {tail : List Response} (e : s.link.queue = q :: tail) :
    (∃ tx op le, s.transmit = { s with link := { s.link with tx := tx, openResponse := op, linkError := le } }) ∨
    s.transmit = State.releaseHeld
      { s with link := { s.link with tx := some { frame := q.frame, notice := none }, queue := tail } } := by
  unfold State.transmit
  split
  · exact .inl ⟨_, _, _, rfl⟩
  · split
    · exact .inl ⟨_, _, _, rfl⟩
    · split
      · exact .inl ⟨_, _, _, rfl⟩
      · rw [e]
        exact .inr rfl

/-- With a response in the queue, the transmitter's turn leaves everything but the line, what waits for it, and the held
response. -/
theorem transmit_frame {s : State} (hq : s.link.queue ≠ []) :
    s.transmit.link.intake = s.link.intake ∧ s.transmit.proc.executing = s.proc.executing ∧ LinkKept s s.transmit ∧
      { s.transmit with link := s.link, proc := s.proc } = s := by
  obtain ⟨q, tail, e⟩ := List.exists_cons_of_ne_nil hq
  rcases transmit_of_queue e with ⟨_, _, _, ht⟩ | ht <;> rw [ht]
  · exact ⟨rfl, rfl, ⟨rfl, rfl, rfl, rfl, rfl, rfl⟩, rfl⟩
  · obtain ⟨hintake, hexec, hkept, hrest⟩ := releaseHeld_frame
      { s with link := { s.link with tx := some { frame := q.frame, notice := none }, queue := tail } }
    exact ⟨hintake, hexec, hkept, congrArg (fun x : State => { x with link := s.link }) hrest⟩

/-- A response that has been made is not lost in the transmitter's turn: it stays queued or held, moves from held to queued, or
is on the line. -/
theorem made_transmit {s : State} {resp : Response} (h : Answered s resp) (hq : s.link.queue ≠ []) : Made s.transmit resp := by
  obtain ⟨hcache, hwhere, -⟩ := h
  obtain ⟨q, tail, e⟩ := List.exists_cons_of_ne_nil hq
  rcases transmit_of_queue e with ⟨_, _, _, ht⟩ | ht <;> rw [ht]
  · exact ⟨hcache, hwhere.imp_right .inr⟩
  · refine made_releaseHeld ⟨hcache, ?_⟩
    rw [e, List.mem_cons] at hwhere
    rcases hwhere with (rfl | hqueue) | hheld
    · exact .inr (.inl rfl)
    · exact .inl hqueue
    · exact .inr (.inr hheld)

/-- After an answer the response queue holds a response: this one, or those that left no room for it. -/
theorem answer_queue_ne_nil (s : State) (r : Request) (st : Status) (fs : List Byte) : (s.answer r st fs).link.queue ≠ [] := by
  unfold State.answer State.queueOrHold
  split
  · simp
  · rename_i full
    dsimp only
    exact fun e => full (by simp [e, Config.responseDepth])

/-- `s` with the link and the processor of `b`. -/
def linkAndProcOf (b s : State) : State := { s with link := b.link, proc := b.proc }

/-- A row whose execution of the request is an answer and nothing else answers only. `b` is the state once the row's sampled lines,
if it brings any, have been looked at. -/
theorem answersOnly_of_answer {c : Instr} {s b : State} {r : Request} {rest : List Request} {p : Byte → Bool}
    {f : Request → State → State} {st : Status} {fs : List Byte} (h : AtHead b r rest)
    (hc : exec c s = .next (b.runRequest p f)) (hp : p r.code = true) (hl : lengthOk r = true)
    (hf : f r (b.withIntake rest) = (b.withIntake rest).answer r st fs) :
    AnswersOnly c s b rest { seq := r.seq, payload := r.code :: st.code :: fs } := by
  have ⟨_, hfree, _, _⟩ := h
  obtain ⟨⟨hmade, ⟨h1, h2, h3, h4, h5, h6⟩, hintake, -, -⟩, hrest⟩ :=
    State.answer_spec (s := b) (b := b.withIntake rest) (rest := rest) r st fs rfl hfree
  have ⟨_, _, hexec⟩ := hmade
  have hq := answer_queue_ne_nil (b.withIntake rest) r st fs
  obtain ⟨tintake, texec, ⟨t1, t2, t3, t4, t5, t6⟩, trest⟩ := transmit_frame hq
  have back := congrArg (linkAndProcOf b) trest
  have base := congrArg (linkAndProcOf b) hrest
  exact ⟨_, hc.trans (by rw [runRequest_of_atHead h hp hl, hf]), made_transmit hmade hq, tintake.trans hintake,
    texec.trans hexec, back.trans base,
    t1.trans h1, t2.trans h2, t3.trans h3, t4.trans h4, t5.trans h5, t6.trans h6⟩

/-! ### Requests executed in READY and in SLEEPING (R103, R123) -/

theorem PartState.readRefusal_eq_none {x : PartState} : x.readRefusal = none ↔ x = .ready ∨ x = .sleeping := by
  cases x <;> simp [PartState.readRefusal]

theorem whenReadable_run {s : State} (h : s.part.state = .ready ∨ s.part.state = .sleeping) (r : Request) (k : State) :
    s.whenReadable r k = k := by
  simp [State.whenReadable, PartState.readRefusal_eq_none.2 h]

theorem whenReadable_refused {s : State} {st : Status} (h : s.part.state.readRefusal = some st) (r : Request) (k : State) :
    s.whenReadable r k = s.answer r st [] := by
  simp [State.whenReadable, h]

end Sys2Proof.Machine
end

