-- ==== Sys2Proof/Proofs/ReadRemap.lean ====
section
/-! PROOF. READ REMAP (R123): its fields are the bank's entries in ascending order of spare, the spares' flags and the fuse
slots, and its row answers only. -/

namespace Sys2Proof.Machine

open Sys2Proof.Safety

/-! ### The entries in ascending order of spare -/

theorem mem_remapBySpare_of_find {s : State} {b : Bank} {e : RemapEntry} (h : e ∈ s.remapBySpare b) : e ∈ s.remapOf b := by
  obtain ⟨i, -, hi⟩ := List.mem_filterMap.1 h
  exact List.mem_of_find?_eq_some hi

/-- Where no two entries name one spare, each entry is the one found under its spare. -/
theorem mem_remapBySpare {s : State} {b : Bank} (h : ((s.remapOf b).map RemapEntry.spare).Nodup) {e : RemapEntry} :
    e ∈ s.remapBySpare b ↔ e ∈ s.remapOf b := by
  refine ⟨mem_remapBySpare_of_find, fun he => List.mem_filterMap.2 ⟨e.spare, ?_, ?_⟩⟩
  · generalize e.spare = i
    revert i
    decide
  · have found : ((s.remapOf b).find? fun x => decide (x.spare = e.spare)).isSome :=
      List.find?_isSome.2 ⟨e, he, decide_eq_true rfl⟩
    obtain ⟨x, hx⟩ := Option.isSome_iff_exists.1 found
    have hspare : x.spare = e.spare := by simpa using List.find?_some hx
    rw [hx, List.inj_on_of_nodup_map h (List.mem_of_find?_eq_some hx) he hspare]

/-- What is found under ascending spares ascends. -/
theorem remapBySpare_ascending (s : State) (b : Bank) : (s.remapBySpare b).Pairwise fun x y => x.spare < y.spare := by
  have spares : ([0, 1, 2, 3, 4, 5, 6, 7] : List Spare).Pairwise (· < ·) := by decide
  refine List.pairwise_filterMap.2 (spares.imp fun {i j} hij x hx y hy => ?_)
  have hxi : x.spare = i := by simpa using List.find?_some hx
  have hyj : y.spare = j := by simpa using List.find?_some hy
  rwa [hxi, hyj]

/-- The bank's entries, listed in any way that ascends by spare, are listed as READ REMAP lists them: two lists that ascend and
have the same members are one. -/
theorem remapBySpare_eq {s : State} {b : Bank} {entries : List RemapEntry} (hperm : entries.Perm (s.remapOf b))
    (hasc : entries.Pairwise fun x y => x.spare < y.spare) : s.remapBySpare b = entries := by
  have distinct : (entries.map RemapEntry.spare).Nodup := List.pairwise_map.2 (hasc.imp fun h => ne_of_lt h)
  have nodup {l : List RemapEntry} (h : l.Pairwise fun x y => x.spare < y.spare) : l.Nodup :=
    h.imp fun hlt e => absurd (congrArg RemapEntry.spare e) (ne_of_lt hlt)
  have members (e : RemapEntry) : e ∈ s.remapBySpare b ↔ e ∈ entries :=
    (mem_remapBySpare ((hperm.map _).nodup_iff.1 distinct)).trans hperm.mem_iff.symm
  have perm : (s.remapBySpare b).Perm entries :=
    (List.perm_ext_iff_of_nodup (nodup (remapBySpare_ascending s b)) (nodup hasc)).2 members
  exact perm.eq_of_pairwise (fun _ _ _ _ h h' => absurd h' (lt_asymm h)) (remapBySpare_ascending s b) hasc

/-! ### The layout of the fields (R140) -/

/-- An entry's kind is a flag byte, set for HARD. -/
theorem RemapEntry.bytes_eq (e : RemapEntry) :
    e.bytes = natBytes 2 e.row.val ++ [byteOf e.spare.val, flagByte (decide (e.kind = .hard))] := by
  obtain ⟨row, spare, kind⟩ := e
  cases kind <;> rfl

/-- The fields, with the bank's entries given in ascending order of spare. -/
theorem remapFields_eq {s : State} {b : Bank} {entries : List RemapEntry} (hperm : entries.Perm (s.remapOf b))
    (hasc : entries.Pairwise fun x y => x.spare < y.spare) :
    s.remapFields b = [byteOf b.val, byteOf entries.length] ++
      (entries.flatMap fun e => natBytes 2 e.row.val ++ [byteOf e.spare.val, flagByte (decide (e.kind = .hard))]) ++
      (([0, 1, 2, 3, 4, 5, 6, 7] : List Spare).map fun i => flagByte (entries.any fun e => decide (e.spare = i))) ++
      ([0, 1, 2, 3] : List Slot).flatMap fun m => (s.fuseOf b m).bytes := by
  have inUse (i : Spare) : s.spareInUse b i = entries.any fun e => decide (e.spare = i) := (hperm.any_eq).symm
  have bytes : RemapEntry.bytes = _ := funext RemapEntry.bytes_eq
  simp only [State.remapFields, remapBySpare_eq hperm hasc, hperm.length_eq, inUse, bytes]

/-! ### What the row answers -/

theorem exec_readRemap (s : State) :
    exec .readRemap s = .next (s.runRequest (codeIs codeReadRemap) fun r s => s.doReadRemap r) := rfl

theorem doReadRemap_refused {s : State} {st : Status} (h : s.part.state.readRefusal = some st) (r : Request) :
    s.doReadRemap r = s.answer r st [] := whenReadable_refused h r _

theorem doReadRemap_range {s : State} {r : Request} (h : s.part.state = .ready ∨ s.part.state = .sleeping)
    (hb : 16 ≤ field r.payload 1 1) : s.doReadRemap r = s.answer r .range [] := by
  rw [State.doReadRemap, whenReadable_run h, dif_neg (not_lt.2 hb)]

theorem doReadRemap_ok {s : State} {r : Request} {b : Bank} (h : s.part.state = .ready ∨ s.part.state = .sleeping)
    (hb : field r.payload 1 1 = b.val) : s.doReadRemap r = s.answer r .ok (s.remapFields b) := by
  rw [State.doReadRemap, whenReadable_run h, dif_pos (hb ▸ b.isLt)]
  simp only [hb]

/-- The bank a READ REMAP names. -/
theorem field_readRemap (bank : Byte) : field [0x33, bank] 1 1 = bank.toNat := by
  simp [field, beNat]

/-- READ_REMAP answers only, whatever its execution answers. -/
theorem readRemap_answersOnly {s : State} {r : Request} {rest : List Request} {bank : Byte} {st : Status} {fs : List Byte}
    (h : AtHead s r rest) (hr : r.payload = [0x33, bank])
    (hf : (s.withIntake rest).doReadRemap r = (s.withIntake rest).answer r st fs) :
    AnswersOnly .readRemap s s rest { seq := r.seq, payload := 0x33 :: st.code :: fs } := by
  have hcode : r.code = 0x33 := by simp [Request.code, hr]
  have hlen : lengthOk r = true := by simp [lengthOk, hcode, hr]
  have key := answersOnly_of_answer h (exec_readRemap s) (by simp [codeIs, hcode, codeReadRemap]) hlen hf
  rwa [hcode] at key

/-- Settles O37: the four answers by part state and by the bank's range, each an answer alone, and the OK fields in the layout of
R140. -/
theorem remapIsRead : Obligations.RemapIsRead := by
  intro s r rest bank h hr
  have hfield : field r.payload 1 1 = bank.toNat := by rw [hr, field_readRemap]
  refine ⟨fun hpart => ⟨fun hbank => ?_, fun b entries hb hperm hasc => ?_⟩, fun hpart => ?_, fun hpart => ?_⟩
  · exact readRemap_answersOnly h hr (doReadRemap_range (by simpa using hpart) (by rwa [hfield]))
  · have hbyte : byteOf b.val = bank := by simp [byteOf, hb]
    have hfields := remapFields_eq (s := s.withIntake rest) hperm hasc
    have key := readRemap_answersOnly h hr (doReadRemap_ok (by simpa using hpart) (hfield.trans hb.symm))
    rw [hfields, hbyte] at key
    exact key
  · exact readRemap_answersOnly (st := .starting) h hr (doReadRemap_refused (by simp [hpart, PartState.readRefusal]) r)
  · refine readRemap_answersOnly (st := .busy) h hr (doReadRemap_refused ?_ r)
    rcases hpart with hpart | hpart <;> simp [hpart, PartState.readRefusal]

end Sys2Proof.Machine
end

