-- ==== Sys2Proof/Proofs/GetSetting.lean ====
section
/-! PROOF. GET SETTING (R157): its answer is the value in force or RANGE, and its row answers only. -/

namespace Sys2Proof.Machine

open Sys2Proof.Safety

/-! ### A field of one byte (R125) -/

/-- The field of one byte that follows the code of a request. -/
theorem field_one_one (code b : Byte) (l : List Byte) : field (code :: b :: l) 1 1 = b.toNat := by
  simp [field, beNat]

@[simp] theorem byteOf_toNat (b : Byte) : byteOf b.toNat = b := by simp [byteOf]

/-! ### What the row answers -/

theorem exec_getSetting (s : State) :
    exec .getSetting s = .next (s.runRequest (codeIs codeGetSetting) fun r s => s.doGetSetting r) := rfl

/-- Taking a request leaves every setting (R156). -/
@[simp] theorem State.withIntake_setting (s : State) (rest : List Request) (x : Param) :
    (s.withIntake rest).setting x = s.setting x := rfl

theorem doGetSetting_ok {s : State} {r : Request} {id : Byte} {x : Param} (hr : r.payload = [0x04, id])
    (hx : Param.ofId id.toNat = some x) : s.doGetSetting r = s.answer r .ok [id, s.setting x] := by
  simp [State.doGetSetting, hr, field_one_one, hx]

theorem doGetSetting_range {s : State} {r : Request} {id : Byte} (hr : r.payload = [0x04, id])
    (hx : Param.ofId id.toNat = none) : s.doGetSetting r = s.answer r .range [] := by
  simp [State.doGetSetting, hr, field_one_one, hx]

/-- GET_SETTING answers only, whatever its execution answers. -/
theorem getSetting_answersOnly {s : State} {r : Request} {rest : List Request} {id : Byte} {st : Status} {fs : List Byte}
    (h : AtHead s r rest) (hr : r.payload = [0x04, id])
    (hf : (s.withIntake rest).doGetSetting r = (s.withIntake rest).answer r st fs) :
    AnswersOnly .getSetting s s rest { seq := r.seq, payload := 0x04 :: st.code :: fs } := by
  have hcode : r.code = 0x04 := by simp [Request.code, hr]
  have hlen : lengthOk r = true := by simp [lengthOk, hcode, hr]
  have key := answersOnly_of_answer h (exec_getSetting s) (by simp [codeIs, hcode, codeGetSetting]) hlen hf
  rwa [hcode] at key

/-- Settles O21: the id names a setting, whose value is answered, or it names none. -/
theorem getSettingAnswers : Obligations.GetSettingAnswers := by
  intro s r rest id h hr
  refine ⟨fun x hx => ?_, fun hx => ?_⟩
  · have key := getSetting_answersOnly h hr (doGetSetting_ok hr hx)
    rwa [State.withIntake_setting] at key
  · exact getSetting_answersOnly h hr (doGetSetting_range hr hx)

end Sys2Proof.Machine
end

