-- ==== Sys2Proof/Proofs/ErrorLog.lean ====
section
/-! PROOF. READ ERROR LOG and CLEAR ERROR (R164, R165): the one answers only; the other, where it accepts, answers OK in the
state it has cleared and does nothing else. -/

namespace Sys2Proof.Machine

open Sys2Proof.Safety

/-! ### READ ERROR LOG (R164) -/

theorem exec_readErrorLog (s : State) :
    exec .readErrorLog s = .next (s.runRequest (codeIs codeReadErrorLog) fun r s => s.answer r .ok s.logFields) := rfl

/-- Taking a request leaves the frame error log and OVERFLOW. -/
@[simp] theorem State.withIntake_logFields (s : State) (rest : List Request) :
    (s.withIntake rest).logFields = s.logFields := rfl

/-- READ_ERROR_LOG answers the log as it stands, in every part state, and does nothing else. -/
theorem readErrorLog_answersOnly {s : State} {r : Request} {rest : List Request} (h : AtHead s r rest)
    (hr : r.payload = [0x40]) :
    AnswersOnly .readErrorLog s s rest { seq := r.seq, payload := [0x40, 0x00] ++ s.logFields } := by
  have hcode : r.code = 0x40 := by simp [Request.code, hr]
  have hlen : lengthOk r = true := by simp [lengthOk, hcode, hr]
  have key := answersOnly_of_answer h (exec_readErrorLog s) (by simp [codeIs, hcode, codeReadErrorLog]) hlen rfl
  rwa [hcode, State.withIntake_logFields] at key

/-! ### CLEAR ERROR (R165) -/

/-- The state a CLEAR ERROR leaves before it answers: HALT and the alerts-lost flag are clear, and with `clr` the frame error
log is empty and OVERFLOW clear. -/
def State.errorsCleared (s : State) (clr : Bool) : State :=
  { s with
    link := { s.link with
      halt := false, log := if clr then [] else s.link.log, overflow := s.link.overflow && !clr },
    notices := { s.notices with alertsLost := false } }

theorem State.errorsCleared_overflow (s : State) (clr : Bool) :
    (s.errorsCleared clr).link.overflow = if clr then false else s.link.overflow := by
  cases clr <;> simp [State.errorsCleared]

/-- What CLEAR ERROR clears is none of what a request needs to be executed. -/
theorem atHead_errorsCleared {s : State} {r : Request} {rest : List Request} (h : AtHead s r rest) (clr : Bool) :
    AtHead (s.errorsCleared clr) r rest := h

theorem exec_clearError (s : State) :
    exec .clearError s = .next (s.runRequest (codeIs codeClearError) fun r s => s.doClearError r) := rfl

theorem doClearError_ok {s : State} {r : Request} {v : Byte} (hr : r.payload = [0x41, v]) (hv : v.toNat ≤ 1) :
    s.doClearError r = (s.errorsCleared (decide (v = 1))).answer r .ok [] := by
  have hone : v.toNat = 1 ↔ v = 1 := BitVec.toNat_inj (y := 1)
  simp only [State.doClearError, hr, field_one_one, if_pos hv, hone, State.errorsCleared]

theorem doClearError_range {s : State} {r : Request} {v : Byte} (hr : r.payload = [0x41, v]) (hv : 1 < v.toNat) :
    s.doClearError r = s.answer r .range [] := by
  rw [State.doClearError, hr, field_one_one, if_neg (not_le.2 hv)]

/-- A row that changes a state to `b` and then answers, answers only in `b`, where the same request could as well have been
taken. -/
theorem answersOnly_of_answerIn {c : Instr} {s b : State} {r : Request} {rest : List Request} {p : Byte → Bool}
    {f : Request → State → State} {st : Status} {fs : List Byte} (h : AtHead s r rest) (hb : AtHead b r rest)
    (hc : exec c s = .next (s.runRequest p f)) (hp : p r.code = true) (hl : lengthOk r = true)
    (hf : f r (s.withIntake rest) = (b.withIntake rest).answer r st fs) :
    AnswersOnly c s b rest { seq := r.seq, payload := r.code :: st.code :: fs } := by
  have run : s.runRequest p f = b.runRequest p fun r u => u.answer r st fs := by
    rw [runRequest_of_atHead h hp hl, runRequest_of_atHead hb hp hl, hf]
  exact answersOnly_of_answer hb (hc.trans (congrArg _ run)) hp hl rfl

/-- CLEAR_ERROR answers only, in the state `b` in which its execution answers. -/
theorem clearError_answersOnly {s b : State} {r : Request} {rest : List Request} {v : Byte} {st : Status} {fs : List Byte}
    (h : AtHead s r rest) (hb : AtHead b r rest) (hr : r.payload = [0x41, v])
    (hf : (s.withIntake rest).doClearError r = (b.withIntake rest).answer r st fs) :
    AnswersOnly .clearError s b rest { seq := r.seq, payload := 0x41 :: st.code :: fs } := by
  have hcode : r.code = 0x41 := by simp [Request.code, hr]
  have hlen : lengthOk r = true := by simp [lengthOk, hcode, hr]
  have key := answersOnly_of_answerIn h hb (exec_clearError s) (by simp [codeIs, hcode, codeClearError]) hlen hf
  rwa [hcode] at key

/-- Settles O38: READ_ERROR_LOG by the log's fields, CLEAR_ERROR by its value: above 1 it is refused, and else all it does
beside clearing is to answer. -/
theorem errorLogIsReadAndCleared : Obligations.ErrorLogIsReadAndCleared := by
  intro s r rest h
  refine ⟨fun hr => readErrorLog_answersOnly h hr, fun v hr => ⟨fun hv => ?_, fun hv => ?_⟩⟩
  · exact clearError_answersOnly h h hr (doClearError_range hr hv)
  · obtain ⟨t, hexec, hmade, hintake, -, hrest, hopen, hexpected, hrx, hlog, hoverflow, hhalt⟩ :=
      clearError_answersOnly h (atHead_errorsCleared h _) hr (doClearError_ok hr hv)
    have kept := congrArg (fun x : State => { x with link := s.link, proc := s.proc, notices := s.notices }) hrest
    refine ⟨t, hexec, hmade, hintake, hhalt, congrArg State.notices hrest, ?_, ?_, hopen, hexpected, hrx, kept⟩
    · simp [hlog, State.errorsCleared]
    · simp [hoverflow, State.errorsCleared_overflow]

end Sys2Proof.Machine
end

