-- ==== Sys2Proof/Proofs/Kept.lean ====
section
/-! PROOF. What every operation of the part keeps: one relation, `Kept`, says of two states that the queue of commands is the
same and that each invariant of Safety passes from the first to the second. Each named operation is shown to be `Kept` once. -/

namespace Sys2Proof.Machine

open Sys2Proof.Safety

-- One thread: the whole text is checked under a memory limit that holds a bounded number of thread stacks.
set_option Elab.async false

/-! ### The invariants, component by component -/

/-- The limits of the outbox (R141). -/
def OutboxOk (l : List Notice) : Prop :=
  l.length ≤ 16 ∧ (l.filter fun n => decide (n.body.cls = .ordinary)).length ≤ 12 ∧ (l.filter Notice.sent).length ≤ 4 ∧
    (l.map Notice.number).Nodup

/-- The limits of the link's queues (R129, R132, R134, R136). -/
def LinkOk (l : Link) : Prop :=
  (l.cache.map Response.seq).Nodup ∧ l.intake.length ≤ 8 ∧ l.cache.length ≤ 8 ∧ l.queue.length ≤ 8 ∧ l.log.length ≤ 4

/-- The limits of the job table (R38). -/
def JobsOk (l : List Job) : Prop := l.length ≤ 32 ∧ (l.map Job.tag).Nodup

/-- The limits of the weak-row list, and what its list-full flag says (R96, R98). -/
def WeakOk (m : Media) : Prop :=
  m.list.length ≤ 32 ∧ (m.list.map fun e => (e.bank, e.row)).Nodup ∧
    (m.listFull = true → m.list.length = 32 ∧ ∀ e ∈ m.list, e.uncorrectable = true)

/-- One port's outputs follow its engine and its pins (R62, R63). -/
def PortOk (e : Engine) (o : Outs) (x : Pins) : Prop :=
  ((e.state = .idle ∨ e.state = .inert) → o.sel = 0) ∧ (o.xack = true → x.xreq.isSome = true)

/-- One group's debt and URGENT flag are in order (R83, R85, R88). -/
def DebtOk (x : GroupRefresh) : Prop := x.debt ≤ 8 ∧ (x.urgent = true → 4 < x.debt) ∧ (x.debt = 8 → x.urgent = true)

/-- An unlocked bank's lock wait timer is STOPPED (R33). -/
def TimerOk (r : BankRecord) : Prop := r.lockHolder = none → r.lockTimer = none

/-- The queue of commands is left alone, and every invariant that holds of `s` holds of `t`. Where an operation does not touch
what an invariant speaks of, the two instances of the invariant are one and the field needs no proof. -/
structure Kept (s t : State) : Prop where
  pending : t.pending = s.pending := by rfl
  array : ArrayCanonical s → ArrayCanonical t := by exact id
  debts : DebtsBounded s → DebtsBounded t := by exact id
  npend : NpendFollowsOutbox s → NpendFollowsOutbox t := by exact id
  outbox : OutboxBounded s → OutboxBounded t := by exact id
  oneBurst : OneBurstInFlight s → OneBurstInFlight t := by exact id
  timers : UnlockedTimersStopped s → UnlockedTimersStopped t := by exact id
  jobs : JobTableBounded s → JobTableBounded t := by exact id
  outputs : OutputsFollowEngines s → OutputsFollowEngines t := by exact id
  weak : WeakListBounded s → WeakListBounded t := by exact id
  link : LinkBounded s → LinkBounded t := by exact id

namespace Kept
variable {s t u : State}

theorem refl (s : State) : Kept s s where

theorem trans (h : Kept s t) (k : Kept t u) : Kept s u where
  pending := k.pending.trans h.pending
  array := k.array ∘ h.array
  debts := k.debts ∘ h.debts
  npend := k.npend ∘ h.npend
  outbox := k.outbox ∘ h.outbox
  oneBurst := k.oneBurst ∘ h.oneBurst
  timers := k.timers ∘ h.timers
  jobs := k.jobs ∘ h.jobs
  outputs := k.outputs ∘ h.outputs
  weak := k.weak ∘ h.weak
  link := k.link ∘ h.link

theorem foldl {α : Type} {f : State → α → State} (h : ∀ s a, Kept s (f s a)) (l : List α) (s : State) :
    Kept s (l.foldl f s) := by
  induction l generalizing s with
  | nil => exact refl s
  | cons a l ih => exact (h s a).trans (ih (f s a))

theorem iterate {f : State → Option State} (h : ∀ s t, f s = some t → Kept s t) (n : Nat) (s : State) :
    Kept s (iterate f n s) := by
  induction n generalizing s with
  | zero => exact refl s
  | succ n ih =>
    simp only [Machine.iterate]
    split
    · rename_i t ht
      exact (h s t ht).trans (ih t)
    · exact refl s

/-! ### Writes to one component -/

theorem setMem (s : State) {m : Memory} (h : s.mem.wf = true → m.wf = true) : Kept s { s with mem := m } where
  array := h

theorem setLink (s : State) {l : Link} (h : LinkOk s.link → LinkOk l := by exact id) : Kept s { s with link := l } where
  link := h

theorem setMedia (s : State) {m : Media} (h : WeakOk s.media → WeakOk m := by exact id) : Kept s { s with media := m } where
  weak := h

theorem setJobs (s : State) {l : List Job} (h : JobsOk s.jobs → JobsOk l) : Kept s { s with jobs := l } where
  jobs := fun ⟨hlen, htags, hqueues⟩ => ⟨(h ⟨hlen, htags⟩).1, (h ⟨hlen, htags⟩).2, hqueues⟩

theorem setAccesses (s : State) {l : List Access}
    (h : (s.accesses.filter Access.isInFlight).length ≤ 1 → (l.filter Access.isInFlight).length ≤ 1) :
    Kept s { s with accesses := l } where
  oneBurst := h

/-- What of the Notice Unit is no notice. -/
theorem setNotices (s : State) {n : NoticeUnit} (ho : n.outbox = s.notices.outbox := by rfl)
    (hp : n.npend = s.notices.npend := by rfl) :
    Kept s { s with notices := n } where
  npend := fun h => hp.trans (h.trans (congrArg (fun l : List Notice => !l.isEmpty) ho.symm))
  outbox := fun h => show OutboxOk n.outbox from ho ▸ h

theorem setOutbox (s : State) {l : List Notice} (h : OutboxOk s.notices.outbox → OutboxOk l) : Kept s (s.setOutbox l) where
  npend := fun _ => rfl
  outbox := h

theorem setScrub (s : State) (x : Scrub) : Kept s (s.setScrub x) where
theorem setOp (s : State) (x : MaintOp) : Kept s (s.setOp x) where
theorem setRemap (s : State) (b : Bank) (x : List RemapEntry) : Kept s (s.setRemap b x) where
theorem setFuse (s : State) (b : Bank) (i : Slot) (x : FuseSlot) : Kept s (s.setFuse b i x) where
theorem setPortSettings (s : State) (p : Port) (x : PortSettings) : Kept s (s.setPortSettings p x) where
theorem setProc (s : State) (x : Processor) : Kept s { s with proc := x } where
theorem setPart (s : State) (x : Part) : Kept s { s with part := x } where
theorem setFreeCtr (s : State) (x : Nat) : Kept s { s with freeCtr := x } where
theorem setTick (s : State) (x : Option TempRange) : Kept s { s with refresh := { s.refresh with tick := x } } where

theorem setBank (s : State) (b : Bank) {r : BankRecord} (h : TimerOk (s.bank b) → TimerOk r := by exact id) :
    Kept s (s.setBank b r) where
  timers := fun k c => by
    by_cases hc : c = b
    · subst hc
      rw [State.bank_self]
      exact h (k c)
    · rw [State.bank_other _ _ _ _ hc]
      exact k c

theorem setGroup (s : State) (g : Group) {x : GroupRefresh} (h : DebtOk (s.group g) → DebtOk x) : Kept s (s.setGroup g x) where
  debts := fun k c => by
    by_cases hc : c = g
    · subst hc
      rw [State.group_self]
      exact h (k c)
    · rw [State.group_other _ _ _ _ hc]
      exact k c

theorem setQueue (s : State) (p : Port) {q : List Tag} (h : (s.queueOf p).length ≤ 8 → q.length ≤ 8) :
    Kept s (s.setQueue p q) where
  jobs := fun ⟨hlen, htags, hqueues⟩ => ⟨hlen, htags, fun c => by
    by_cases hc : c = p
    · subst hc
      rw [State.queueOf_self]
      exact h (hqueues c)
    · rw [State.queueOf_other _ _ _ _ hc]
      exact hqueues c⟩

/-- A port's engine and outputs rewritten together. -/
theorem setPort (s : State) (p : Port) {e : Engine} {o : Outs} (h : PortOk (s.engine p) (s.outp p) (s.pin p) → PortOk e o (s.pin p)) :
    Kept s ((s.setEngine p e).setOutp p o) where
  outputs := fun k c => by
    by_cases hc : c = p
    · subst hc
      rw [State.outp_self]
      show PortOk ((s.setEngine c e).engine c) o (s.pin c)
      rw [State.engine_self]
      exact h (k c)
    · rw [State.outp_other _ _ _ _ hc]
      show PortOk ((s.setEngine p e).engine c) (s.outp c) (s.pin c)
      rw [State.engine_other _ _ _ _ hc]
      exact k c

theorem setOutp (s : State) (p : Port) {o : Outs}
    (h : PortOk (s.engine p) (s.outp p) (s.pin p) → PortOk (s.engine p) o (s.pin p) := by exact id) :
    Kept s (s.setOutp p o) := by
  have := setPort s p (e := s.engine p) h
  rwa [show s.setEngine p (s.engine p) = s by simp [State.setEngine, State.engine]] at this

/-- An engine's other fields, or its state where that becomes neither IDLE nor INERT. -/
theorem setEngine (s : State) (p : Port) {e : Engine}
    (h : (e.state = .idle ∨ e.state = .inert) → ((s.engine p).state = .idle ∨ (s.engine p).state = .inert) := by exact id) :
    Kept s (s.setEngine p e) := by
  have := setPort s p (e := e) (o := s.outp p) fun k => ⟨k.1 ∘ h, k.2⟩
  rwa [show (s.setEngine p e).setOutp p (s.outp p) = s.setEngine p e by simp [State.setEngine, State.setOutp, State.outp]] at this

theorem setPin (s : State) (p : Port) {x : Pins}
    (h : (s.pin p).xreq.isSome = true → x.xreq.isSome = true := by exact id) :
    Kept s (s.setPin p x) where
  outputs := fun k c => by
    by_cases hc : c = p
    · subst hc
      rw [State.pin_self]
      exact ⟨(k c).1, h ∘ (k c).2⟩
    · rw [State.pin_other _ _ _ _ hc]
      exact k c

/-! ### Tables of the state -/

theorem updateJob (s : State) (t : Tag) {f : Job → Job} (hf : ∀ x, (f x).tag = x.tag := by exact fun _ => rfl) :
    Kept s (s.updateJob t f) :=
  setJobs s fun ⟨hlen, htags⟩ => ⟨by simpa using hlen, by
    have : Job.tag ∘ (fun j => if j.tag = t then f j else j) = Job.tag := by
      funext j
      simp only [Function.comp]
      split
      exacts [hf j, rfl]
    rwa [List.map_map, this]⟩

theorem postAll (s : State) {l : List Access} (h : ∀ a ∈ l, a.condition = .waiting) : Kept s (s.postAll l) :=
  setAccesses s fun k => by
    have : l.filter Access.isInFlight = [] := List.filter_eq_nil_iff.2 fun a ha => by simp [Access.isInFlight, h a ha]
    rwa [List.filter_append, this, List.append_nil]

theorem post (s : State) {a : Access} (h : a.condition = .waiting) : Kept s (s.post a) :=
  postAll s (l := [a]) (by simpa using h)

theorem unlock (s : State) (b : Bank) : Kept s (s.unlock b) := setBank s b fun _ _ => rfl

theorem releaseLocksOf (s : State) (t : Tag) : Kept s (s.releaseLocksOf t) :=
  foldl (fun s b => by split; exacts [unlock s b, refl s]) _ s

theorem releaseAllLocks (s : State) : Kept s s.releaseAllLocks := foldl unlock _ s

theorem breakLock (s : State) (b : Bank) : Kept s (s.breakLock b) := by
  unfold State.breakLock
  split
  · exact refl s
  · exact (updateJob s _).trans (unlock _ _)

theorem sample (s : State) (lines : PortLines) : Kept s (s.sample lines) := foldl (fun s p => setPin s p) _ s

end Kept

/-! ### The outbox (R141, R142) -/

/-- If the number an admission would take is held, so is every number tried before it. -/
theorem held_of_freshNumber_held {outbox : List Notice} (fuel : Nat) : ∀ n : Byte,
    (∃ x ∈ outbox, x.number = freshNumber outbox fuel n) →
    ∀ i : Nat, i ≤ fuel → ∃ x ∈ outbox, x.number = n + BitVec.ofNat 8 i := by
  induction fuel with
  | zero =>
    intro n h i hi
    obtain rfl : i = 0 := by omega
    simpa [freshNumber] using h
  | succ f ih =>
    intro n h i hi
    unfold freshNumber at h
    split at h
    · rename_i held
      rcases i with _ | i
      · simpa using held
      · obtain ⟨x, hx, e⟩ := ih (n + 1) h i (by omega)
        refine ⟨x, hx, e.trans ?_⟩
        rw [BitVec.ofNat_add, BitVec.add_assoc, BitVec.add_comm (1 : Byte)]
        rfl
    · rename_i free
      simp only [List.any_eq_true, decide_eq_true_eq] at free
      exact absurd h free

/-- The number an admission takes is held by no notice: 17 numbers are tried, and at most 16 are held (R142). -/
theorem State.admissionNumber_fresh {s : State} (h : s.notices.outbox.length ≤ 16) :
    ∀ n ∈ s.notices.outbox, n.number ≠ s.admissionNumber := by
  intro n hn e
  have held := held_of_freshNumber_held 16 s.notices.nextNumber ⟨n, hn, e⟩
  have tried : ((List.range 17).map fun i => s.notices.nextNumber + BitVec.ofNat 8 i).Nodup := by
    refine (List.nodup_map_iff_inj_on List.nodup_range).2 fun i hi j hj e => ?_
    have e := congrArg BitVec.toNat ((BitVec.add_right_inj _).1 e)
    simp only [List.mem_range, BitVec.toNat_ofNat] at hi hj e
    omega
  have sub : ((List.range 17).map fun i => s.notices.nextNumber + BitVec.ofNat 8 i) ⊆ s.notices.outbox.map Notice.number := by
    intro x hx
    obtain ⟨i, hi, rfl⟩ := List.mem_map.1 hx
    obtain ⟨y, hy, e⟩ := held i (by have := List.mem_range.1 hi; omega)
    exact List.mem_map.2 ⟨y, hy, e⟩
  have := (List.subperm_of_subset tried sub).length_le
  simp only [List.length_map, List.length_range] at this
  omega

theorem OutboxOk.sublist {l m : List Notice} (h : OutboxOk m) (k : l.Sublist m) : OutboxOk l := by
  obtain ⟨hlen, hord, hsent, hnum⟩ := h
  exact ⟨k.length_le.trans hlen, (k.filter _).length_le.trans hord, (k.filter _).length_le.trans hsent, hnum.sublist (k.map _)⟩

/-- Rewriting notices without renumbering them, or changing their kind, or making one SENT. -/
theorem OutboxOk.map {l : List Notice} (h : OutboxOk l) {f : Notice → Notice}
    (hn : ∀ x, (f x).number = x.number := by exact fun _ => rfl)
    (hb : ∀ x, (f x).body = x.body := by exact fun _ => rfl)
    (hs : ∀ x, (f x).sent = true → x.sent = true := by exact fun _ h => h) : OutboxOk (l.map f) := by
  obtain ⟨hlen, hord, hsent, hnum⟩ := h
  refine ⟨by simpa using hlen, ?_, ?_, by rwa [List.map_map, show Notice.number ∘ f = Notice.number from funext hn]⟩
  · rw [List.filter_map, List.length_map]
    simpa only [Function.comp_def, hb] using hord
  · rw [List.filter_map, List.length_map]
    exact (List.monotone_filter_right l (fun x hx => hs x hx)).length_le.trans hsent

/-- A notice with a fresh number where there is room for it (R143, R144). -/
theorem OutboxOk.append {l : List Notice} (h : OutboxOk l) {number : Byte} {body : NoticeBody} (hlen : l.length < 16)
    (hroom : body.cls = .ordinary → (l.filter fun n => decide (n.body.cls = .ordinary)).length < 12)
    (hfresh : ∀ n ∈ l, n.number ≠ number) : OutboxOk (l ++ [freshNotice number body]) := by
  obtain ⟨-, hord, hsent, hnum⟩ := h
  refine ⟨by simpa using hlen, ?_, ?_, ?_⟩
  · rw [List.filter_append, List.length_append]
    by_cases hc : body.cls = .ordinary
    · have := hroom hc
      simp [freshNotice, hc]
      omega
    · simpa [freshNotice, hc] using hord
  · simpa [List.filter_append, freshNotice] using hsent
  · rw [List.map_append, List.nodup_append]
    refine ⟨hnum, by simp, ?_⟩
    intro a ha b hb
    obtain ⟨n, hn, rfl⟩ := List.mem_map.1 ha
    obtain rfl : b = number := by simpa [freshNotice] using hb
    exact hfresh n hn

/-- A notice whose frame begins (R145). -/
def Notice.begun (n : Notice) : Notice := { n with sent := true, sendCount := n.sendCount + 1, resendDue := false }

/-- Among distinct numbers, one notice made SENT adds one to those SENT. -/
theorem sent_count_of_mark {l : List Notice} (h : (l.map Notice.number).Nodup) {n : Notice} (hn : n ∈ l) {f : Notice → Notice} :
    ((l.map fun x => if x.number = n.number then f x else x).filter Notice.sent).length ≤
      (l.filter Notice.sent).length + (if n.sent then 0 else 1) := by
  induction l with
  | nil => cases hn
  | cons x l ih =>
    rw [List.map_cons] at h
    obtain ⟨hx, hl⟩ := List.nodup_cons.1 h
    have others (k : x.number = n.number) : (l.map fun y => if y.number = n.number then f y else y) = l := by
      refine (List.map_congr_left fun y hy => if_neg fun e => ?_).trans (List.map_id l)
      exact hx (k.trans e.symm ▸ List.mem_map_of_mem hy)
    rw [List.map_cons]
    by_cases hk : x.number = n.number
    · obtain rfl : n = x := by
        rcases List.mem_cons.1 hn with e | hn
        · exact e
        · exact absurd (hk ▸ List.mem_map_of_mem hn) hx
      rw [others rfl, if_pos rfl]
      cases hsent : n.sent <;> cases hf : (f n).sent <;> simp [hsent, hf]
    · have hn : n ∈ l := (List.mem_cons.1 hn).resolve_left fun e => hk (by rw [e])
      have := ih hl hn
      rw [if_neg hk]
      cases hsent : x.sent <;> simp [hsent] <;> omega

namespace Kept

/-- Admission where there is room (R143, R144). -/
theorem admitNotice (s : State) (body : NoticeBody) (hlen : s.notices.outbox.length < 16)
    (hroom : body.cls = .ordinary → s.ordinaryCount < 12) : Kept s (s.admitNotice body) := by
  rw [State.admitNotice_eq]
  exact (setOutbox s fun h => h.append hlen hroom (State.admissionNumber_fresh hlen.le)).trans
    (t := s.setOutbox (s.notices.outbox ++ [freshNotice s.admissionNumber body]))
    (setNotices _ rfl (by simp [admitted]))

theorem offerAlert (s : State) {body : NoticeBody} (h : body.cls = .alert) : Kept s (s.offerAlert body) := by
  unfold State.offerAlert
  split
  · exact admitNotice s body ‹_› (by simp [h])
  · exact setNotices s

theorem restEngine (s : State) (p : Port) (st : EngineState) : Kept s (s.restEngine p st) :=
  setPort s p fun h => ⟨fun _ => rfl, h.2⟩

theorem reportJob (s : State) (p : Port) (n : Byte) : Kept s (s.reportJob p n) := by
  unfold State.reportJob
  split
  · exact refl s
  · rename_i t rest hq
    have shorter : (s.queueOf p).length ≤ 8 → rest.length ≤ 8 := by rw [hq]; exact (Nat.le_succ _).trans
    exact trans (updateJob s t) (trans (setQueue _ p shorter) (trans (releaseLocksOf _ t) (restEngine _ p _)))

theorem onAdmitted (s : State) (x : Producer) (n : Byte) : Kept s (s.onAdmitted x n) := by
  cases x with
  | job p => exact reportJob s p n
  | attention p => exact setEngine s p
  | scrub => exact setScrub s _
  | repair => exact setOp s _
  | partControl => exact refl s

theorem admitFrom (s : State) (x : Producer) (h : s.roomForOrdinary = true) : Kept s (s.admitFrom x) := by
  obtain ⟨hlen, hord⟩ := State.roomForOrdinary_iff.1 h
  unfold State.admitFrom
  split
  · exact refl s
  · exact (admitNotice s _ hlen fun _ => hord).trans (onAdmitted _ _ _)

theorem offer (s : State) (x : Producer) : Kept s (s.offer x) := by
  unfold State.offer
  split
  · exact admitFrom s x ‹_›
  · exact setNotices s

theorem admitWaitingOne {s t : State} (h : s.admitWaitingOne = some t) : Kept s t := by
  unfold State.admitWaitingOne at h
  split at h
  · cases h
  · rename_i x rest _
    split at h
    · rename_i hroom
      cases h
      exact trans (setNotices s) (admitFrom _ x hroom)
    · cases h

theorem admitWaiting (s : State) : Kept s s.admitWaiting := iterate (fun _ _ => admitWaitingOne) _ s

theorem unsendAll (s : State) : Kept s s.unsendAll :=
  setOutbox s fun h => h.map (hs := fun _ h => by cases h)

theorem openNotices (s : State) : Kept s s.openNotices := (unsendAll s).trans (setNotices _)

theorem reviveStale (s : State) : Kept s s.reviveStale := by
  unfold State.reviveStale
  split
  · exact openNotices s
  · exact refl s

theorem ackNotice {s t : State} {n : Byte} (h : s.ackNotice n = some t) : Kept s t := by
  unfold State.ackNotice at h
  split at h
  · cases h
  · have removed : Kept s (s.setOutbox (s.notices.outbox.filter fun x => decide (x.number ≠ n))) :=
      setOutbox s fun h => h.sublist List.filter_sublist
    dsimp only at h
    split at h <;> cases h
    · exact removed.trans (setJobs _ fun ⟨hlen, htags⟩ =>
        ⟨(List.length_filter_le ..).trans hlen, htags.sublist (List.filter_sublist.map _)⟩)
    · exact removed

theorem updateNotice (s : State) (n : Byte) {f : Notice → Notice} (hn : ∀ x, (f x).number = x.number := by exact fun _ => rfl)
    (hb : ∀ x, (f x).body = x.body := by exact fun _ => rfl)
    (hs : ∀ x, (f x).sent = true → x.sent = true := by exact fun _ h => h) : Kept s (s.updateNotice n f) :=
  setOutbox s fun h => h.map (fun x => by split; exacts [hn x, rfl]) (fun x => by split; exacts [hb x, rfl])
    (fun x => by split; exacts [hs x, id])

theorem setStale (s : State) : Kept s s.setStale :=
  trans (setOutbox s OutboxOk.map) (setNotices _)

theorem dropJobEnds (s : State) : Kept s s.dropJobEnds := setOutbox s fun h => h.sublist List.filter_sublist

theorem withdrawPorts (s : State) : Kept s s.withdrawPorts := setNotices s

/-! ### The sending side (R134 to R136, R145) -/

theorem cacheResponse (s : State) (r : Response) : Kept s (s.cacheResponse r) := by
  rw [State.cacheResponse_eq]
  refine setLink s fun ⟨hseq, hin, hcache, hq, hlog⟩ => ?_
  obtain ⟨h1, h2⟩ := withCached_bounded hseq hcache r
  exact ⟨h1, hin, h2, hq, hlog⟩

/-- A response joins the response queue where that has room. -/
theorem enqueue (s : State) (r : Response) (h : s.link.queue.length < 8) :
    Kept s { s with link := { s.link with queue := s.link.queue ++ [r] } } :=
  setLink s fun ⟨hseq, hin, hcache, _, hlog⟩ => ⟨hseq, hin, hcache, by simpa using h, hlog⟩

theorem queueAtArrival (s : State) (r : Response) : Kept s (s.queueAtArrival r) := by
  unfold State.queueAtArrival
  split
  · exact enqueue s r ‹_›
  · exact refl s

theorem queueOrHold (s : State) (r : Response) : Kept s (s.queueOrHold r) := by
  unfold State.queueOrHold
  split
  · exact enqueue s r ‹_›
  · exact setProc s _

theorem releaseHeld (s : State) : Kept s s.releaseHeld := by
  unfold State.releaseHeld
  split
  · exact refl s
  · split
    · exact (enqueue s _ ‹_›).trans (setProc _ _)
    · exact refl s

/-- What is on the line, and what waits beside the response queue. -/
theorem setLine (s : State) (tx : Option TxFrame) (open' : Option Response) (le : Option ErrorRecord) :
    Kept s { s with link := { s.link with tx := tx, openResponse := open', linkError := le } } where

/-- The notice the Notice Unit has ready is in the outbox, and is SENT already, or fewer than 4 are (R145). -/
theorem ready_cases {u : NoticeUnit} {n : Notice} (h : u.ready = some n) :
    n ∈ u.outbox ∧ (n.sent = true ∨ (u.outbox.filter Notice.sent).length < 4) := by
  unfold NoticeUnit.ready at h
  split at h
  · cases h
  · split at h
    · rename_i hm
      cases h
      have due : n.sent = true ∧ n.resendDue = true := by simpa using List.find?_some hm
      exact ⟨List.mem_of_find?_eq_some hm, .inl due.1⟩
    · split at h
      · rename_i hw
        exact ⟨List.mem_of_find?_eq_some h, .inr hw⟩
      · cases h

theorem beginNotice {s : State} {n : Notice} (h : s.notices.ready = some n) : Kept s (s.beginNotice n) := by
  obtain ⟨hmem, hsent⟩ := ready_cases h
  refine trans (setOutbox s (l := s.notices.outbox.map fun x => if x.number = n.number then x.begun else x) ?_)
    (setLine _ _ _ _)
  rintro ⟨hl, ho, hs, hn⟩
  have keeps {α : Type} (g : Notice → α) (hg : ∀ x, g x.begun = g x) :
      (g ∘ fun x => if x.number = n.number then x.begun else x) = g := by
    funext x
    simp only [Function.comp]
    split
    exacts [hg x, rfl]
  refine ⟨by simpa using hl, ?_, ?_, by rwa [List.map_map, keeps Notice.number fun _ => rfl]⟩
  · rw [List.filter_map, List.length_map, keeps (fun x => decide (x.body.cls = .ordinary)) fun _ => rfl]
    exact ho
  · refine (sent_count_of_mark hn hmem).trans ?_
    rcases hsent with e | hw
    · simpa [e] using hs
    · split <;> omega

theorem transmit (s : State) : Kept s s.transmit := by
  unfold State.transmit
  split
  · exact refl s
  split
  · exact setLine s _ _ _
  split
  · exact setLine s _ _ _
  split
  · rename_i r rest hq
    refine trans (setLink s ?_) (releaseHeld _)
    rintro ⟨hseq, hin, hcache, hlen, hlog⟩
    rw [hq] at hlen
    exact ⟨hseq, hin, hcache, (Nat.le_succ _).trans hlen, hlog⟩
  split
  · split
    · exact beginNotice ‹_›
    · exact refl s
  · exact refl s

theorem answer (s : State) (r : Request) (st : Status) (fs : List Byte) : Kept s (s.answer r st fs) :=
  (cacheResponse _ _).trans (queueOrHold _ _)

theorem endExecution (s : State) (st : Status) (fs : List Byte) : Kept s (s.endExecution st fs) := by
  unfold State.endExecution
  split
  · exact refl s
  · dsimp only
    split
    · exact setProc s _
    · exact (setProc s _).trans ((cacheResponse _ _).trans (queueOrHold _ _))

theorem beginExecution (s : State) (r : Request) (w : Work) : Kept s (s.beginExecution r w) := setProc s _

theorem takeRequest {s t : State} {p : Byte → Bool} {r : Request} (h : s.takeRequest p = some (r, t)) : Kept s t := by
  unfold State.takeRequest at h
  split at h
  · cases h
  · split at h
    · cases h
    · rename_i r rest hin
      split at h
      · cases h
        refine setLink s ?_
        rintro ⟨hseq, hlen, hrest⟩
        rw [hin] at hlen
        exact ⟨hseq, (Nat.le_succ _).trans hlen, hrest⟩
      · cases h

/-! ### The scheduler -/

/-- A bank's state and hit-run counter: the lock and its timer stand. -/
theorem setBankState (s : State) (b : Bank) (st : BankState) (n : Nat) :
    Kept s (s.setBank b { s.bank b with state := st, hitRun := n }) := setBank s b

theorem closeBank (s : State) (b : Bank) : Kept s (s.closeBank b) := by
  unfold State.closeBank
  split
  · exact setBankState s b _ _
  · exact refl s

theorem closeBanks (s : State) : Kept s s.closeBanks :=
  foldl (fun s b => by split; exacts [closeBank s b, refl s]) _ s

theorem takeRepairClaim (s : State) (b : Bank) : Kept s (s.takeRepairClaim b) := by
  unfold State.takeRepairClaim
  dsimp only
  split
  · exact (setBankState s b _ _).trans (setOp _ _)
  · exact setBankState s b _ _

theorem takeRepairIfFirst (s : State) : Kept s s.takeRepairIfFirst := by
  unfold State.takeRepairIfFirst
  split
  · exact refl s
  split
  · split
    · dsimp only
      split
      · exact (setFreeCtr s _).trans (takeRepairClaim _ _)
      · exact setFreeCtr s _
    · exact takeRepairClaim _ _
  · exact refl s

theorem beginRefresh (s : State) (g : Group) : Kept s (s.beginRefresh g) := foldl (fun s b => setBankState s b _ _) _ s

theorem takeClaims (s : State) : Kept s s.takeClaims :=
  (takeRepairIfFirst s).trans (foldl (fun s g => by split; exacts [beginRefresh s g, refl s]) _ _)

end Kept

/-- Marking an access adds a burst in flight only where the mark is that. -/
theorem inFlight_markFirst_le (p : Access → Bool) (c : Condition) (l : List Access) :
    ((markFirst p c l).filter Access.isInFlight).length ≤ (l.filter Access.isInFlight).length + 1 := by
  induction l with
  | nil => simp [markFirst]
  | cons a l ih =>
    unfold markFirst
    split
    · cases h : a.isInFlight <;> cases h' : ({ a with condition := c } : Access).isInFlight <;>
        simp [h, h']
      omega
    · cases h : a.isInFlight <;> simp [h] <;> omega

theorem inFlight_markFirst_granted (p : Access → Bool) (l : List Access) :
    ((markFirst p .granted l).filter Access.isInFlight).length ≤ (l.filter Access.isInFlight).length := by
  induction l with
  | nil => simp [markFirst]
  | cons a l ih =>
    unfold markFirst
    split
    · rw [List.filter_cons_of_neg (by simp [Access.isInFlight])]
      exact ((List.sublist_cons_self a l).filter _).length_le
    · cases h : a.isInFlight <;> simp [h] <;> omega

namespace Kept

theorem grant (s : State) (b : Bank) : Kept s (s.grant b) := by
  unfold State.grant
  split
  · exact refl s
  · exact (setAccesses s fun h => (inFlight_markFirst_granted _ _).trans h).trans (setBank _ _)

/-- An access whose burst begins while none is in flight. -/
theorem markInFlight (s : State) (h : s.burstInFlight = false) (p : Access → Bool) (c : Condition) :
    Kept s { s with accesses := markFirst p c s.accesses } :=
  setAccesses s fun _ => by
    have none : s.accesses.filter Access.isInFlight = [] :=
      List.filter_eq_nil_iff.2 fun a ha => by simpa using List.any_eq_false.1 h a ha
    simpa [none] using inFlight_markFirst_le p c s.accesses

theorem startBurst (s : State) : Kept s s.startBurst := by
  unfold State.startBurst
  split
  · exact refl s
  · rename_i h
    have h : s.burstInFlight = false := by simpa using h
    split
    · exact markInFlight s h _ _
    · split
      · exact markInFlight s h _ _
      · exact refl s

/-- The lock wait timer of an unlocked bank is STOPPED (R33). -/
theorem lockTimers (s : State) : Kept s s.lockTimers :=
  foldl (fun s b => setBank s b fun _ h => by
    have h : (s.bank b).lockHolder = none := h
    simp [State.lockTimerOf, h]) _ s

/-- The scheduler's decisions keep every invariant. -/
theorem schedule (s : State) : Kept s s.schedule :=
  (closeBanks s).trans ((takeClaims _).trans ((foldl grant _ _).trans
    ((foldl (fun s b => by split; exacts [closeBank s b, refl s]) _ _).trans ((startBurst _).trans (lockTimers _)))))

end Kept
end Sys2Proof.Machine
end

