-- ==== Sys2Proof/Proofs/Steps.lean ====
section
/-! PROOF. Every command is `Kept`: block by block, what each named operation keeps, and the statements that follow for a step. -/

namespace Sys2Proof.Machine

open Sys2Proof.Safety

-- One thread: the whole text is checked under a memory limit that holds a bounded number of thread stacks.
set_option Elab.async false

/-! ### The weak-row list (R97, R98, R101) -/

theorem dropFirst_sublist {α : Type} (p : α → Bool) (l : List α) : (dropFirst p l).Sublist l := by
  induction l with
  | nil => exact .slnil
  | cons x l ih =>
    unfold dropFirst
    split
    · exact List.sublist_cons_self x l
    · exact ih.cons_cons x

theorem dropFirst_length {α : Type} {p : α → Bool} {l : List α} (h : l.any p = true) :
    (dropFirst p l).length + 1 = l.length := by
  induction l with
  | nil => simp at h
  | cons x l ih =>
    unfold dropFirst
    split
    · rfl
    · rename_i hx
      have := ih (by simpa [hx] using h)
      simp [this]

/-- An entry of a row that has none, in a list with room left. -/
theorem WeakOk.append {m : Media} {l : List WeakEntry} {e : WeakEntry} (hl : l.Sublist m.list) (hroom : l.length < 32)
    (hnew : m.list.any (WeakEntry.isOf e.bank e.row) = false) (hflag : m.listFull = false) (h : WeakOk m) :
    WeakOk { m with list := l ++ [e] } := by
  obtain ⟨-, hkeys, -⟩ := h
  refine ⟨by simpa using hroom, ?_, fun k => by simp [hflag] at k⟩
  rw [List.map_append, List.nodup_append]
  refine ⟨hkeys.sublist (hl.map _), by simp, ?_⟩
  intro a ha b hb
  obtain ⟨x, hx, rfl⟩ := List.mem_map.1 ha
  obtain rfl : b = (e.bank, e.row) := by simpa using hb
  have := List.any_eq_false.1 hnew x (hl.mem hx)
  simpa [WeakEntry.isOf] using this

/-- Events that leave the entries' rows and clear no UNCORRECTABLE flag. -/
theorem WeakOk.map {m : Media} (h : WeakOk m) {f : WeakEntry → WeakEntry} (hkey : ∀ e, ((f e).bank, (f e).row) = (e.bank, e.row))
    (hf : ∀ e, e.uncorrectable = true → (f e).uncorrectable = true) : WeakOk { m with list := m.list.map f } := by
  obtain ⟨hlen, hkeys, hfull⟩ := h
  refine ⟨by simpa using hlen, ?_, fun k => ⟨by simpa using (hfull k).1, ?_⟩⟩
  · rw [List.map_map]
    exact (congrArg List.Nodup (List.map_congr_left fun e _ => hkey e)).mpr hkeys
  · intro e he
    obtain ⟨x, hx, rfl⟩ := List.mem_map.1 he
    exact hf x ((hfull k).2 x hx)

namespace Kept

theorem record (s : State) (src : Source) (b : Bank) (row : Row) (c u : Nat) : Kept s (s.record src b row c u) := by
  unfold State.record
  split
  · refine setMedia s fun h => h.map (fun e => ?_) fun e he => ?_
    · split <;> rfl
    · split <;> simp [he]
  rename_i hnew
  have hnew : s.media.list.any (WeakEntry.isOf b row) = false := by simpa using hnew
  split
  · rename_i hroom
    refine setMedia s fun h => h.append (List.Sublist.refl _) hroom hnew ?_
    by_contra k
    have := (h.2.2 (by simpa using k)).1
    simp only [Config.weakEntries] at hroom
    omega
  split
  · rename_i hsome
    refine setMedia s fun h => h.append (dropFirst_sublist _ _) ?_ hnew ?_
    · have := dropFirst_length hsome
      have := h.1
      omega
    · by_contra k
      obtain ⟨e, he, hu⟩ := List.any_eq_true.1 hsome
      simp [(h.2.2 (by simpa using k)).2 e he] at hu
  · exact refl s

theorem alertUncorrectable (s : State) (src : Source) (b : Bank) (row : Row) (addr : Nat) :
    Kept s (s.alertUncorrectable src b row addr) := by
  unfold State.alertUncorrectable
  split
  · split
    · exact refl s
    · exact trans (setMedia s) (offerAlert _ rfl)
  · exact offerAlert s rfl

/-- A report that cannot be recorded finds the list full of UNCORRECTABLE entries, and leaves it (R98). -/
theorem alertListFull (s : State) (b : Bank) (row : Row) (hlen : 32 ≤ s.media.list.length)
    (hall : ∀ e ∈ s.media.list, e.uncorrectable = true) : Kept s (s.alertListFull b row) := by
  unfold State.alertListFull
  split
  · exact refl s
  · refine trans (setMedia s ?_) (offerAlert _ rfl)
    exact fun ⟨h, hkeys, _⟩ => ⟨h, hkeys, fun _ => ⟨le_antisymm h hlen, hall⟩⟩

theorem record_unrecorded {s : State} {b : Bank} {row : Row} (h : CannotRecord s b row) (src : Source) (c u : Nat) :
    s.record src b row c u = s := by
  obtain ⟨hnew, hlen, hall⟩ := h
  unfold State.record
  rw [if_neg, if_neg, if_neg]
  · simpa using hall
  · simp only [Config.weakEntries]
    omega
  · simpa [WeakEntry.isOf] using hnew

/-- The alerts leave the weak-row list. -/
theorem alertUncorrectable_list (s : State) (src : Source) (b : Bank) (row : Row) (addr : Nat) :
    (s.alertUncorrectable src b row addr).media.list = s.media.list := by
  have alert (u : State) (x : NoticeBody) : (u.offerAlert x).media = u.media := by
    unfold State.offerAlert
    split <;> rfl
  unfold State.alertUncorrectable
  split
  · split
    · rfl
    · rw [alert]
  · rw [alert]

theorem report (s : State) (a : Access) (rs : List WordResult) : Kept s (s.report a rs) := by
  unfold State.report
  dsimp only
  have recorded : Kept s (match firstFaulty rs with
      | some addr => (s.record a.client.source a.bank a.row (correctedWords rs) (uncorrectableWords rs)).alertUncorrectable
          a.client.source a.bank a.row addr
      | none => s.record a.client.source a.bank a.row (correctedWords rs) (uncorrectableWords rs)) := by
    split
    · exact (record s _ _ _ _ _).trans (alertUncorrectable _ _ _ _ _)
    · exact record s _ _ _ _ _
  split
  · rename_i lost
    obtain ⟨hnew, hlen, hall⟩ := State.unrecorded_iff.1 lost
    have list : (match firstFaulty rs with
      | some addr => (s.record a.client.source a.bank a.row (correctedWords rs) (uncorrectableWords rs)).alertUncorrectable
          a.client.source a.bank a.row addr
      | none => s.record a.client.source a.bank a.row (correctedWords rs) (uncorrectableWords rs)).media.list = s.media.list := by
      rw [record_unrecorded ⟨hnew, hlen, hall⟩]
      split
      · exact alertUncorrectable_list _ _ _ _ _
      · rfl
    exact recorded.trans (alertListFull _ _ _ (list ▸ hlen) (list ▸ hall))
  · exact recorded

theorem removeWeak (s : State) (b : Bank) (row : Row) : Kept s (s.removeWeak b row) := by
  unfold State.removeWeak
  split
  · exact setMedia s fun ⟨hlen, hkeys, _⟩ =>
      ⟨(dropFirst_sublist _ _).length_le.trans hlen, hkeys.sublist ((dropFirst_sublist _ _).map _), nofun⟩
  · exact refl s

/-! ### The scrub -/

theorem beginRow (s : State) : Kept s s.beginRow := (setScrub s _).trans (setMedia _)

theorem scrubAdvance (s : State) : Kept s s.scrubAdvance := by
  unfold State.scrubAdvance
  split
  · dsimp only
    have begun : Kept s (if s.maint.scrub.visit = .betweenRows ∧ s.maint.scrub.credit = true then s.beginRow else s) := by
      split
      · exact beginRow s
      · exact refl s
    refine begun.trans ?_
    generalize (if s.maint.scrub.visit = .betweenRows ∧ s.maint.scrub.credit = true then s.beginRow else s) = x
    split
    · exact post x rfl
    · exact refl x
  · exact refl s

theorem endPass (s : State) : Kept s s.endPass := (setScrub s _).trans (offer _ _)

theorem burstDone (s : State) : Kept s s.burstDone := by
  unfold State.burstDone
  dsimp only
  split
  · exact setScrub s _
  split
  · exact setScrub s _
  · exact endPass s

theorem scrubRead (s : State) (a : Access) (rs : List WordResult) : Kept s (s.scrubRead a rs) := by
  unfold State.scrubRead
  dsimp only
  split
  · exact (setScrub s _).trans ((burstDone _).trans (scrubAdvance _))
  · exact (setScrub s _).trans (post _ rfl)

theorem scrubResult (s : State) (a : Access) (rs : List WordResult) : Kept s (s.scrubResult a rs) := by
  unfold State.scrubResult
  split
  · exact (setScrub s _).trans (scrubAdvance _)
  split
  · exact scrubRead s a rs
  · exact (burstDone s).trans (scrubAdvance _)

theorem restartScrubTimer (s : State) : Kept s s.restartScrubTimer := setScrub s _

theorem scrubExpiry (s : State) : Kept s s.scrubExpiry := by
  unfold State.scrubExpiry
  split
  · exact beginRow s
  · exact setScrub s _

theorem setRange (s : State) (x : TempRange) : Kept s { s with range := x } where

theorem setSettings (s : State) (x : Settings) : Kept s { s with settings := x } where

theorem changeScrubRate (s : State) (v : Byte) : Kept s (s.changeScrubRate v) := by
  unfold State.changeScrubRate
  dsimp only
  split
  · exact (setSettings s _).trans (setScrub _ _)
  split
  · exact (setSettings s _).trans (setScrub _ _)
  · exact setSettings s _

theorem resetScrub (s : State) : Kept s s.resetScrub := setScrub s _

/-! ### The ports -/

/-- The accesses of a region are posted WAITING (R20). -/
theorem postFilling_waiting (c : Client) (a e : Nat) (p : Nat → Bool) (l : List Half) :
    ∀ x ∈ (postFilling c a e p l).2, x.condition = .waiting := by
  induction l with
  | nil => simp [postFilling]
  | cons h t ih =>
    cases h with
    | filling k start bytes =>
      unfold postFilling
      dsimp only
      split
      · intro x hx
        rcases List.mem_cons.1 hx with rfl | hx
        · rfl
        · exact ih x hx
      · exact ih
    | awaiting k => simpa [postFilling] using ih
    | loaded k start bytes => simpa [postFilling] using ih

theorem stageBytes_waiting (p : Port) (j : Job) (bs : List Byte) : ∀ (a : Nat) (hs : List Half) (posted : List Access)
    (r : List Half × List Access), (∀ x ∈ posted, x.condition = .waiting) → State.stageBytes p j bs a hs posted = some r →
    ∀ x ∈ r.2, x.condition = .waiting := by
  induction bs with
  | nil =>
    intro a hs posted r hw h
    cases h
    exact hw
  | cons b t ih =>
    intro a hs posted r hw h
    unfold State.stageBytes at h
    split at h
    · cases h
    · dsimp only at h
      split at h
      · refine ih _ _ _ r (fun x hx => ?_) h
        rcases List.mem_append.1 hx with hx | hx
        · exact hw x hx
        · exact postFilling_waiting _ _ _ _ _ x hx
      · exact ih _ _ _ r hw h

theorem setHalves (s : State) (p : Port) (hs : List Half) : Kept s (s.setHalves p hs) := setEngine s p

theorem prefetchOne (s : State) (p : Port) (j : Job) : Kept s (s.prefetchOne p j) := by
  unfold State.prefetchOne
  split
  · exact refl s
  · split
    · exact trans (setEngine s p) (post _ rfl)
    · exact refl s

theorem prefetch (s : State) (p : Port) (j : Job) : Kept s (s.prefetch p j) :=
  (prefetchOne s p j).trans (prefetchOne _ p j)

theorem startJob (s : State) (p : Port) (j : Job) : Kept s (s.startJob p j) := by
  unfold State.startJob
  refine ((updateJob _ _).trans (setPort _ p ?_)).trans (prefetch _ p j)
  exact fun h => ⟨by simp, h.2⟩

theorem stopJob (s : State) (p : Port) (j : Job) (o : JobOutcome) (f : Option Nat) : Kept s (s.stopJob p j o f) := by
  unfold State.stopJob
  refine (((updateJob _ _).trans (releaseLocksOf _ _)).trans (setEngine _ p ?_)).trans (postAll _ ?_)
  · simp
  · exact postFilling_waiting _ _ _ _ _

theorem drainJob (s : State) (p : Port) (j : Job) (o : JobOutcome) : Kept s (s.drainJob p j o) := by
  unfold State.drainJob
  refine ((updateJob _ _).trans (setEngine _ p ?_)).trans (postAll _ ?_)
  · simp
  · exact postFilling_waiting _ _ _ _ _

/-- XACK is asserted only for a present request (R63). -/
theorem acknowledge (s : State) (p : Port) (j : Job) (n : Nat) (h : (s.pin p).xreq.isSome = true) :
    Kept s (s.acknowledge p j n) := by
  unfold State.acknowledge
  refine ((setOutp s p ?_).trans (setEngine _ p)).trans (updateJob _ _)
  exact fun k => ⟨k.1, fun _ => h⟩

theorem checkMark (s : State) (p : Port) (j : Job) : Kept s (s.checkMark p j) := by
  unfold State.checkMark
  dsimp only
  split
  · exact stopJob _ _ _ _ _
  · exact refl s

theorem afterUnit (s : State) (p : Port) (j : Job) (n : Nat) (x : Bool) : Kept s (s.afterUnit p j n x) := by
  unfold State.afterUnit
  split
  · exact drainJob _ _ _ _
  · exact (setHalves _ _ _).trans ((prefetch _ _ _).trans (checkMark _ _ _))

section Units
variable {p : Port} {j : Job} {r : UnitRequest} {n : Nat}

theorem unitIn (hx : (s.pin p).xreq.isSome = true) (h : s.unitIn p j r n = some t) : Kept s t := by
  unfold State.unitIn at h
  dsimp only at h
  split at h
  · cases h
  · rename_i hs posted staged
    have waiting := stageBytes_waiting _ _ _ _ _ [] _ nofun staged
    have acked : Kept s (((s.acknowledge p j n).setHalves p hs).postAll posted) :=
      (acknowledge s p j n hx).trans ((setHalves _ _ _).trans (postAll _ waiting))
    split at h <;> cases h
    · exact acked.trans (drainJob _ _ _ _)
    · exact acked

theorem unitOut (hx : (s.pin p).xreq.isSome = true) (h : s.unitOut p j r n = some t) : Kept s t := by
  unfold State.unitOut at h
  split at h
  · cases h
  · cases h
    exact ((acknowledge s p j n hx).trans (setOutp _ p)).trans (afterUnit _ _ _ _ _)

theorem unitCompare (hx : (s.pin p).xreq.isSome = true) (h : s.unitCompare p j r n = some t) : Kept s t := by
  unfold State.unitCompare at h
  split at h
  · cases h
  · dsimp only at h
    split at h <;> obtain rfl := Option.some.inj h
    · exact (acknowledge s p j n hx).trans (afterUnit _ _ _ _ _)
    · exact ((acknowledge s p j n hx).trans (updateJob _ _)).trans (stopJob _ _ _ _ _)

theorem unitCount (hx : (s.pin p).xreq.isSome = true) (h : s.unitCount p j r n = some t) : Kept s t := by
  unfold State.unitCount at h
  dsimp only at h
  split at h <;> cases h
  · exact (acknowledge s p j n hx).trans (drainJob _ _ _ _)
  · exact acknowledge s p j n hx

theorem takeUnit (h : s.takeUnit p = some t) : Kept s t := by
  unfold State.takeUnit at h
  split at h
  · rename_i hreq _
    have hx : (s.pin p).xreq.isSome = true := by simp [hreq]
    split at h
    · cases h
    split at h
    · obtain rfl := Option.some.inj h
      exact stopJob _ _ _ _ _
    · dsimp only at h
      split at h
      · exact unitIn hx h
      · exact unitOut hx h
      · exact unitCompare hx h
      · exact unitCount hx h
  · cases h

end Units

theorem pulsePclr (s : State) (p : Port) : Kept s (s.pulsePclr p) := setOutp s p

theorem holdJob (s : State) (p : Port) (j : Job) : Kept s (s.holdJob p j) := by
  unfold State.holdJob
  refine ((updateJob _ _).trans (releaseLocksOf _ _)).trans (setEngine _ p ?_)
  simp

theorem finishJob (s : State) (p : Port) (j : Job) : Kept s (s.finishJob p j) := by
  unfold State.finishJob
  split
  · exact holdJob _ _ _
  split
  · exact offer _ _
  · exact (offer _ _).trans (holdJob _ _ _)

theorem finishIfDone {p : Port} (h : s.finishIfDone p = some t) : Kept s t := by
  unfold State.finishIfDone at h
  split at h
  · cases h
  split at h
  · cases h
    dsimp only
    split
    · exact ((pulsePclr s p).trans (setEngine _ p)).trans (finishJob _ _ _)
    · exact (setEngine s p).trans (finishJob _ _ _)
  · cases h

theorem startHead {p : Port} (h : s.startHead p = some t) : Kept s t := by
  unfold State.startHead at h
  split at h
  · cases h
  split at h
  · split at h <;> cases h
    · exact startJob _ _ _
    · exact finishJob _ _ _
  · cases h

theorem offerHeld {p : Port} (h : s.offerHeld p = some t) : Kept s t := by
  unfold State.offerHeld at h
  split at h
  · cases h
  · cases h
    exact offer _ _

theorem portStep {p : Port} (h : State.portStep p s = some t) : Kept s t := by
  unfold State.portStep at h
  split at h
  · split at h
    · exact startHead h
    · exact takeUnit h
    · exact finishIfDone h
    · exact finishIfDone h
    · exact offerHeld h
    · cases h
    · cases h
  · cases h

theorem portSettle (s : State) (p : Port) : Kept s (s.portSettle p) := iterate (fun _ _ => portStep) _ s

theorem portsSettle (s : State) : Kept s s.portsSettle := foldl portSettle _ s

theorem markCorrected (s : State) (t : Tag) (rs : List WordResult) : Kept s (s.markCorrected t rs) := by
  unfold State.markCorrected
  split
  · exact updateJob s t
  · exact refl s

theorem freeHalf (s : State) (p : Port) (burst : Nat) : Kept s (s.freeHalf p burst) := setHalves s p _

theorem portRead (s : State) (p : Port) (j : Job) (a : Access) (rs : List WordResult) : Kept s (s.portRead p j a rs) := by
  unfold State.portRead
  dsimp only
  split
  · exact ((markCorrected s _ _).trans (setEngine _ p)).trans (checkMark _ _ _)
  · exact (markCorrected s _ _).trans (freeHalf _ _ _)

theorem portWrite (s : State) (p : Port) (j : Job) (a : Access) (rs : List WordResult) : Kept s (s.portWrite p j a rs) := by
  have freed : Kept s ((s.markCorrected j.tag rs).freeHalf p a.burst) := (markCorrected s _ _).trans (freeHalf _ _ _)
  unfold State.portWrite
  dsimp only
  split
  · exact freed
  split
  · exact freed.trans (stopJob _ _ _ _ _)
  · exact freed

/-- A port's outputs but SEL, with XACK deasserted. -/
theorem dropOutputs (s : State) (p : Port) (d : Drive) (cout cin : Bool) :
    Kept s (s.setOutp p { s.outp p with xack := false, d := d, cout := cout, cin := cin }) := setOutp s p fun h => ⟨h.1, nofun⟩

theorem stopPort (s : State) (p : Port) : Kept s (s.stopPort p) :=
  (restEngine s p _).trans ((dropOutputs _ p _ _ _).trans (pulsePclr _ p))

theorem portResult (s : State) (p : Port) (tag : Tag) (a : Access) (rs : List WordResult) : Kept s (s.portResult p tag a rs) := by
  unfold State.portResult
  split
  · dsimp only
    split
    · exact (freeHalf s p _).trans (stopPort _ p)
    · exact freeHalf s p _
  split
  · exact freeHalf s p _
  split
  · exact (portRead s p _ a rs).trans (portSettle _ p)
  · exact (portWrite s p _ a rs).trans (portSettle _ p)

theorem inertEngine (s : State) (p : Port) : Kept s (s.inertEngine p) := (restEngine s p _).trans (dropOutputs _ p _ _ _)

theorem readyEngines (s : State) : Kept s s.readyEngines :=
  foldl (fun s p => by split; exacts [restEngine s p _, refl s]) _ s

/-! ### Part Control and the Maintenance Engine -/

theorem clearAt (s : State) (position burst : Nat) : Kept s (s.clearAt position burst) := (setOp s _).trans (post _ rfl)

theorem endClear (s : State) : Kept s s.endClear := by
  unfold State.endClear
  exact ((((setOp s _).trans (setPart _ _)).trans (readyEngines _)).trans (offer _ _)).trans (scrubAdvance _)

theorem clearResult (s : State) : Kept s s.clearResult := by
  unfold State.clearResult
  split
  · split
    · exact clearAt s _ _
    split
    · exact clearAt s _ _
    · exact endClear s
  · exact refl s

theorem endSpareStep (s : State) (b : Bank) : Kept s (s.endSpareStep b) := by
  unfold State.endSpareStep
  dsimp only
  have zeroed := setMem s fun h => Memory.wf_zeroSpares h b
  split
  · exact (zeroed.trans (setBankState _ b _ _)).trans (setOp _ _)
  · exact (zeroed.trans (setBankState _ b _ _)).trans (clearAt _ _ _)

theorem endSleepEntry (s : State) : Kept s s.endSleepEntry := by
  unfold State.endSleepEntry
  split
  · exact ((setTick s none).trans (setPart _ _)).trans (endExecution _ _ _)
  · exact refl s

theorem beginSleep (s : State) : Kept s s.beginSleep := (setPart s _).trans (foldl inertEngine _ _)

theorem startWake (s : State) (target : WakeTarget) : Kept s (s.startWake target) where

theorem endWake (s : State) : Kept s s.endWake := by
  have woken : Kept s (State.scrubAdvance (State.readyEngines
      { s with part := { s.part with state := .ready, wakeTarget := none, wakeWaiting := false } })) :=
    ((setPart s _).trans (readyEngines _)).trans (scrubAdvance _)
  unfold State.endWake
  dsimp only
  split
  · exact woken.trans (endExecution _ _ _)
  · exact woken

/-- The array and the counter of free choices. -/
theorem setCopied (s : State) {m : Memory} (h : s.mem.wf = true → m.wf = true) (n : Nat) :
    Kept s { s with mem := m, freeCtr := n } where
  array := h

theorem abandonCopy (s : State) (r : RepairRecord) : Kept s (s.abandonCopy r) := by
  unfold State.abandonCopy
  refine ((setCopied s ?_ _).trans (setBank _ r.bank)).trans (setOp _ _)
  exact fun h => wf_copyWords _ _ h _ _

theorem resetRepair (s : State) : Kept s s.resetRepair := by
  unfold State.resetRepair
  split
  · split
    · exact setOp s _
    · exact abandonCopy s _
    · exact refl s
    · exact refl s
  · exact refl s

theorem beginStop (s : State) (p : Port) : Kept s (s.beginStop p) := by
  unfold State.beginStop
  dsimp only
  split
  · exact (setEngine s p).trans (stopPort _ p)
  · exact setEngine s p

theorem endReset (s : State) : Kept s s.endReset := by
  unfold State.endReset
  split
  · dsimp only
    have emptied : Kept s { s with jobs := [], queues := Vector.replicate 4 [] } :=
      { jobs := fun _ => ⟨by simp, by simp, fun p => by simp [State.queueOf]⟩ }
    exact (((((emptied.trans (dropJobEnds _)).trans (admitWaiting _)).trans (setPart _ _)).trans (readyEngines _)).trans
      (scrubAdvance _)).trans (endExecution _ _ _)
  · exact refl s

theorem enterReset (s : State) : Kept s s.enterReset := by
  unfold State.enterReset
  exact (((((((setPart s _).trans (withdrawPorts _)).trans (releaseAllLocks _)).trans (resetRepair _)).trans
    (resetScrub _)).trans (setMedia _)).trans (foldl beginStop _ _)).trans (endReset _)

theorem install (s : State) (r : RepairRecord) : Kept s (s.install r) :=
  ((setRemap s _ _).trans (removeWeak _ _ _)).trans (setBankState _ r.bank _ _)

theorem reportRepair (s : State) (r : RepairRecord) (o : RepairOutcome) : Kept s (s.reportRepair r o) :=
  ((setOp s _).trans (offer _ _)).trans (scrubAdvance _)

theorem beginProgramming (s : State) (r : RepairRecord) : Kept s (s.beginProgramming r) := by
  unfold State.beginProgramming
  split
  · exact setOp s _
  · exact (setFuse s _ _ _).trans (setOp _ _)

theorem endCopy (s : State) (r : RepairRecord) : Kept s (s.endCopy r) := by
  have copied : Kept s (s.finishCopy r).1 := setMem s fun h => wf_copyWords _ _ h _ _
  unfold State.endCopy
  dsimp only
  split
  · exact copied.trans ((install _ _).trans (reportRepair _ _ _))
  · exact copied.trans ((install _ _).trans (beginProgramming _ _))

theorem endProgramming (s : State) (r : RepairRecord) (i : Slot) (pass : Bool) : Kept s (s.endProgramming r i pass) := by
  unfold State.endProgramming
  split
  · exact (setFuse s _ _ _).trans ((setRemap _ _ _).trans (reportRepair _ _ _))
  · exact (setFuse s _ _ _).trans (reportRepair _ _ _)

theorem setFuses (s : State) (x : Vector (Vector FuseSlot 4) 16) : Kept s { s with fuses := x } where

theorem loadFuses (s : State) : Kept s s.loadFuses :=
  foldl (fun s b => (setFuses s _).trans (setRemap _ b _)) _ s

/-! ### The receiver (R127 to R133, R149) -/

theorem frameFailed (s : State) (r : ErrorRecord) : Kept s (s.frameFailed r) :=
  setLink s fun ⟨hseq, hin, hcache, hq, hlog⟩ => ⟨hseq, hin, hcache, hq, by
    dsimp only
    split
    · rename_i room
      simpa [Config.errorLogDepth] using of_decide_eq_true room
    · exact hlog⟩

/-- The link and the processor. -/
theorem setLinkProc (s : State) {l : Link} (h : LinkOk s.link → LinkOk l) (x : Processor) :
    Kept s { s with link := l, proc := x } where
  link := h

theorem openLink (s : State) (seq : Byte) : Kept s (s.openLink seq) := by
  unfold State.openLink
  refine (setLinkProc s ?_ _).trans (openNotices _)
  exact fun ⟨_, _, _, _, hlog⟩ => ⟨List.nodup_nil, Nat.zero_le _, Nat.zero_le _, Nat.zero_le _, hlog⟩

/-- E, and whatever else of the link is no queue. -/
theorem setExpected (s : State) (e : Byte) : Kept s { s with link := { s.link with expected := e } } := setLink s

theorem newRequest (s : State) (r : Request) : Kept s (s.newRequest r) := by
  unfold State.newRequest
  split
  · exact (cacheResponse s _).trans ((queueAtArrival _ _).trans (setExpected _ _))
  split
  · exact queueAtArrival s _
  · rename_i room
    refine setLink s fun ⟨hseq, _, hrest⟩ => ⟨hseq, ?_, hrest⟩
    simpa [Config.intakeDepth] using room

theorem otherRequest (s : State) (r : Request) : Kept s (s.otherRequest r) := by
  unfold State.otherRequest
  split
  · split
    · exact queueAtArrival s _
    · exact refl s
  · exact queueAtArrival s _

theorem requestArrived (s : State) (r : Request) : Kept s (s.requestArrived r) := by
  unfold State.requestArrived
  split
  · exact openLink s _
  split
  · exact queueAtArrival s _
  split
  · exact newRequest s r
  · exact otherRequest s r

theorem afterRemoval (s : State) : Kept s s.afterRemoval :=
  (admitWaiting s).trans ((portsSettle _).trans ((scrubAdvance _).trans (schedule _)))

theorem noticeAcked (s : State) (n : Byte) : Kept s (s.noticeAcked n) := by
  unfold State.noticeAcked
  split
  · exact refl s
  · exact (ackNotice ‹_›).trans (afterRemoval _)

theorem handOn (s : State) (f : Frame) : Kept s (s.handOn f) := by
  unfold State.handOn
  split
  · exact (reviveStale s).trans (requestArrived _ _)
  split
  · exact (reviveStale s).trans (noticeAcked _ _)
  · exact refl s

theorem setRx (s : State) (rx : Receiver) : Kept s { s with link := { s.link with rx := rx } } := setLink s

theorem receiveChar (s : State) (c : Byte) : Kept s (s.receiveChar c) := by
  unfold State.receiveChar
  dsimp only
  split
  · exact setRx s _
  · exact (setRx s _).trans ((handOn _ _).trans (transmit _))
  · exact (setRx s _).trans ((frameFailed _ _).trans (transmit _))

theorem receive (s : State) (chars : List Byte) : Kept s (s.receive chars) := by
  unfold State.receive
  split
  · exact refl s
  · exact foldl receiveChar _ s

theorem startResendTimer (s : State) (n : Option Byte) : Kept s (s.startResendTimer n) := by
  unfold State.startResendTimer
  split
  · exact refl s
  split
  · exact refl s
  · exact updateNotice s _ (fun x => by split <;> rfl) (fun x => by split <;> rfl) (fun x => by split <;> exact id)

theorem resendExpired (s : State) (n : Notice) : Kept s (s.resendExpired n) := by
  unfold State.resendExpired
  dsimp only
  split
  · exact (updateNotice s _).trans (setStale _)
  · exact (updateNotice s _).trans (updateNotice _ _)

/-! ### Requests in execution -/

theorem runRequest (s : State) (p : Byte → Bool) {f : Request → State → State} (h : ∀ r s, Kept s (f r s)) :
    Kept s (s.runRequest p f) := by
  unfold State.runRequest
  split
  · exact refl s
  split
  · exact refl s
  · split
    · exact (takeRequest ‹_›).trans ((h _ _).trans (transmit _))
    · exact (takeRequest ‹_›).trans ((answer _ _ _ _).trans (transmit _))

theorem whenReady (s : State) (r : Request) {k : State} (h : Kept s k) : Kept s (s.whenReady r k) := by
  unfold State.whenReady
  split
  · exact answer s r _ _
  · exact h

theorem whenReadable (s : State) (r : Request) {k : State} (h : Kept s k) : Kept s (s.whenReadable r k) := by
  unfold State.whenReadable
  split
  · exact answer s r _ _
  · exact h

theorem setEnable (s : State) (p : Port) (v : Bool) : Kept s (s.setEnable p v) := by
  unfold State.setEnable
  dsimp only
  split
  · split
    · exact (setPortSettings s p _).trans (restEngine _ p _)
    · exact setPortSettings s p _
  · exact (setPortSettings s p _).trans (inertEngine _ p)

theorem applySetting (s : State) (x : Param) (v : Byte) : Kept s (s.applySetting x v) := by
  cases x with
  | enable p => exact setEnable s p _
  | width p => exact setPortSettings s p _
  | attention p => exact setPortSettings s p _
  | scrubRate => exact changeScrubRate s v
  | holdLimit => exact setSettings s _
  | refreshRange => exact setSettings s _
  | noticeTimeout => exact setSettings s _
  | frameErrorHalt => exact setSettings s _
  | wakeOnAttention => exact setSettings s _

theorem doGetSetting (s : State) (r : Request) : Kept s (s.doGetSetting r) := by
  unfold State.doGetSetting
  split <;> exact answer s r _ _

theorem doSetSetting (s : State) (r : Request) : Kept s (s.doSetSetting r) := by
  unfold State.doSetSetting
  split
  · exact answer s r _ _
  split
  · exact answer s r _ _
  split
  · exact answer s r _ _
  · exact (applySetting s _ _).trans (answer _ r _ _)

/-- A job accepted: its tag is new, and there is a slot and a place in its port's queue (R38, R39, R41). -/
theorem acceptJob (s : State) (r : Request) (j : Job) (hnew : s.jobOf j.tag = none) (hslot : s.jobs.length < 32)
    (hport : (s.queueOf j.port).length < 8) : Kept s (s.acceptJob r j) := by
  unfold State.acceptJob
  refine ((setJobs s ?_).trans (setQueue _ _ fun _ => by simpa using hport)).trans (answer _ _ _ _)
  rintro ⟨-, htags⟩
  refine ⟨by simpa using hslot, ?_⟩
  rw [List.map_append, List.nodup_append]
  refine ⟨htags, by simp, ?_⟩
  intro a ha b hb
  obtain ⟨x, hx, rfl⟩ := List.mem_map.1 ha
  obtain rfl : b = j.tag := by simpa using hb
  simpa using List.find?_eq_none.1 hnew x hx

theorem doSubmit (s : State) (r : Request) : Kept s (s.doSubmit r) := by
  refine whenReady s r ?_
  split
  · exact answer s r _ _
  split
  · exact answer s r _ _
  split
  · exact answer s r _ _
  rename_i htag
  split
  · exact answer s r _ _
  rename_i hport
  split
  · exact answer s r _ _
  rename_i hslot
  simp only [Config.portJobs, Config.jobSlots, State.unfinished, not_le] at hport hslot
  exact (acceptJob s r _ (by simpa using htag) hslot hport).trans ((portSettle _ _).trans (schedule _))

theorem doCancel (s : State) (r : Request) : Kept s (s.doCancel r) := by
  refine whenReady s r ?_
  split
  · exact answer s r _ _
  split
  · exact (((updateJob s _).trans (answer _ r _ _)).trans (portSettle _ _)).trans (schedule _)
  · exact (stopJob s _ _ _ _).trans ((answer _ r _ _).trans ((portSettle _ _).trans (schedule _)))
  · exact answer s r _ _

theorem doJobQuery (s : State) (r : Request) : Kept s (s.doJobQuery r) := by
  refine whenReady s r ?_
  split <;> exact answer s r _ _

theorem doHostRead (s : State) (r : Request) : Kept s (s.doHostRead r) := by
  refine whenReady s r ?_
  split
  · exact (beginExecution s r _).trans ((post _ rfl).trans (schedule _))
  · exact answer s r _ _

theorem doHostWrite (s : State) (r : Request) : Kept s (s.doHostWrite r) := by
  refine whenReady s r ?_
  split
  · exact (beginExecution s r _).trans ((post _ rfl).trans (schedule _))
  · exact answer s r _ _

theorem strobeChecks (s : State) (r : Request) {k : Port → BitVec 4 → State} (h : ∀ p x, Kept s (k p x)) :
    Kept s (s.strobeChecks r k) := by
  refine whenReady s r ?_
  split
  · exact answer s r _ _
  split
  · exact answer s r _ _
  split
  · exact answer s r _ _
  · exact h _ _

/-- In CONTROL a port's SEL may be any (R62). -/
theorem beginPortOut (s : State) (r : Request) (p : Port) (steer : BitVec 4) : Kept s (s.beginPortOut r p steer) := by
  unfold State.beginPortOut
  refine (setPort s p ?_).trans (beginExecution _ r _)
  exact fun h => ⟨by simp, h.2⟩

theorem beginPortIn (s : State) (r : Request) (p : Port) (steer : BitVec 4) : Kept s (s.beginPortIn r p steer) := by
  unfold State.beginPortIn
  refine (setPort s p ?_).trans (beginExecution _ r _)
  exact fun h => ⟨by simp, h.2⟩

theorem doClearWeakEntry (s : State) (r : Request) : Kept s (s.doClearWeakEntry r) := by
  refine whenReady s r ?_
  split
  · exact answer s r _ _
  split
  · exact (removeWeak s _ _).trans (answer _ r _ _)
  · exact answer s r _ _

theorem acceptRepair (s : State) (r : Request) (b : Bank) (row : Row) (k : RepairKind) (i : Spare) :
    Kept s (s.acceptRepair r b row k i) := (setOp s _).trans ((answer _ r _ _).trans (schedule _))

theorem doRepairRow (s : State) (r : Request) : Kept s (s.doRepairRow r) := by
  refine whenReady s r ?_
  split
  · split
    · exact answer s r _ _
    split
    · exact answer s r _ _
    split
    · exact answer s r _ _
    split
    · exact answer s r _ _
    · exact acceptRepair s r _ _ _ _
  · exact answer s r _ _

theorem doReadRemap (s : State) (r : Request) : Kept s (s.doReadRemap r) := by
  refine whenReadable s r ?_
  split <;> exact answer s r _ _

theorem doClearError (s : State) (r : Request) : Kept s (s.doClearError r) := by
  unfold State.doClearError
  split
  · dsimp only
    refine ((setLink s ?_).trans (setNotices _)).trans (answer _ r _ _)
    rintro ⟨hseq, hin, hcache, hq, hlog⟩
    refine ⟨hseq, hin, hcache, hq, ?_⟩
    dsimp only
    split
    · exact Nat.zero_le _
    · exact hlog
  · exact answer s r _ _

theorem doSleep (s : State) (r : Request) : Kept s (s.doSleep r) := by
  refine whenReady s r ?_
  split
  · exact answer s r _ _
  split
  · exact answer s r _ _
  · exact (beginExecution s r _).trans ((beginSleep _).trans ((schedule _).trans (endSleepEntry _)))

theorem doWake (s : State) (r : Request) : Kept s (s.doWake r) := by
  unfold State.doWake
  split
  · exact (beginExecution s r _).trans ((startWake _ _).trans (setPart _ _))
  · exact (beginExecution s r _).trans (setPart _ _)
  all_goals exact answer s r _ _

theorem doEngineReset (s : State) (r : Request) : Kept s (s.doEngineReset r) := by
  unfold State.doEngineReset
  split
  · exact answer s r _ _
  · exact (beginExecution s r _).trans ((enterReset _).trans (schedule _))
  · exact (beginExecution s r _).trans (startWake _ _)
  · exact (beginExecution s r _).trans (setPart _ _)
  · exact beginExecution s r _

/-! ### Ends in the array -/

theorem countHit (s : State) (a : Access) : Kept s (s.countHit a) := by
  unfold State.countHit
  split
  · exact setBank s a.bank
  · exact refl s

theorem lockBank (s : State) (b : Bank) (tag : Tag) : Kept s (s.lockBank b tag) := by
  unfold State.lockBank
  split
  · exact refl s
  · exact (releaseLocksOf s tag).trans (setBank _ b fun _ _ => rfl)

theorem placeLock (s : State) (a : Access) : Kept s (s.placeLock a) := by
  unfold State.placeLock
  split
  · exact refl s
  split
  · exact refl s
  split
  · dsimp only
    split
    · exact (lockBank s _ _).trans (breakLock _ _)
    · exact lockBank s _ _
  · exact refl s

theorem hostReadDone (s : State) (addr n burst : Nat) (got : List Byte) (a : Access) (rs : List WordResult) :
    Kept s (s.hostReadDone addr n burst got a rs) := by
  unfold State.hostReadDone
  split
  · exact endExecution s _ _
  · dsimp only
    split
    · exact (setProc s _).trans (post _ rfl)
    · exact endExecution s _ _

theorem hostWriteDone (s : State) (addr : Nat) (data : List Byte) (burst : Nat) (rs : List WordResult) :
    Kept s (s.hostWriteDone addr data burst rs) := by
  unfold State.hostWriteDone
  split
  · exact endExecution s _ _
  split
  · exact (setProc s _).trans (post _ rfl)
  · exact endExecution s _ _

theorem linkResult (s : State) (a : Access) (rs : List WordResult) : Kept s (s.linkResult a rs) := by
  unfold State.linkResult
  split
  · exact hostReadDone s _ _ _ _ _ _
  · exact hostWriteDone s _ _ _ _
  · exact refl s

theorem clientResult (s : State) (a : Access) (rs : List WordResult) : Kept s (s.clientResult a rs) := by
  unfold State.clientResult
  split
  · exact portResult s _ _ _ _
  · exact linkResult s _ _
  · exact clearResult s
  · exact scrubResult s _ _

theorem deliver (s : State) (a : Access) (rs : List WordResult) : Kept s (s.deliver a rs) := by
  unfold State.deliver
  split
  · split
    · exact (report s a rs).trans (clientResult _ a rs)
    · dsimp only
      split
      · exact (setFreeCtr s _).trans ((report _ a rs).trans (clientResult _ a rs))
      · exact (setFreeCtr s _).trans ((clientResult _ a rs).trans (report _ a rs))
  · exact clientResult s a rs

theorem perform_wf (s : State) (a : Access) (h : s.mem.wf = true) : (s.perform a).1.wf = true := by
  unfold State.perform
  split
  · exact h
  · exact wf_writeWords _ _ _ _ _ _ h _ _

theorem burstDoneAt (s : State) (a : Access) : Kept s (s.burstDoneAt a) := by
  unfold State.burstDoneAt
  refine ((((((((setMem s (perform_wf s a)).trans (countHit _ a)).trans (setAccesses _ ?_)).trans (placeLock _ a)).trans
    (deliver _ a _)).trans (endReset _)).trans (schedule _)).trans (endSleepEntry _)).trans (transmit _)
  exact fun h => ((dropFirst_sublist _ _).filter _).length_le.trans h

theorem becomeUrgent (s : State) (g : Group) : Kept s (s.becomeUrgent g) := by
  unfold State.becomeUrgent
  refine (setGroup s g ?_).trans (foldl breakLock _ _)
  exact fun _ => ⟨le_rfl, fun _ => (by decide : 4 < 8), fun _ => rfl⟩

theorem tickGroup (s : State) (g : Group) : Kept s (s.tickGroup g) := by
  unfold State.tickGroup
  split
  · rename_i below
    simp only [Config.urgentDebt] at below
    exact setGroup s g fun ⟨_, hurgent, _⟩ =>
      ⟨by dsimp only; omega, fun h => Nat.lt_succ_of_lt (hurgent h), fun h => by dsimp only at h; omega⟩
  split
  · exact becomeUrgent s g
  · exact offerAlert s rfl

theorem tick (s : State) : Kept s s.tick := (setTick s _).trans (foldl tickGroup _ _)

theorem endRefresh (s : State) (g : Group) : Kept s (s.endRefresh g) := by
  unfold State.endRefresh
  refine (foldl (fun s b => setBank s b) _ s).trans (setGroup _ g ?_)
  generalize State.group _ g = x
  rintro ⟨hle, hurgent, hfull⟩
  refine ⟨by dsimp only; omega, fun h => ?_, fun h => by dsimp only at h; omega⟩
  have hu : x.urgent = true ∧ x.debt - 1 ≠ 4 := by simpa [Config.calmDebt] using h
  have := hurgent hu.1
  dsimp only
  omega

/-! ### The devices at the ports -/

theorem portGoesOn (s : State) (p : Port) : Kept s (s.portGoesOn p) :=
  (portSettle s p).trans ((schedule _).trans (transmit _))

/-- XACK falls with XREQ (R63). -/
theorem dropRequest (s : State) (p : Port) : Kept s (s.dropRequest p) where
  outputs := fun k c => by
    by_cases hc : c = p
    · subst hc
      refine ⟨fun h => ?_, fun h => ?_⟩
      · have : ((s.dropRequest c).outp c).sel = (s.outp c).sel := by simp [State.dropRequest]; rfl
        exact this.trans ((k c).1 h)
      · simp [State.dropRequest] at h
    · have hout : (s.dropRequest p).outp c = s.outp c := State.outp_other _ _ _ _ hc
      have hpin : (s.dropRequest p).pin c = s.pin c := State.pin_other _ _ _ _ hc
      rw [hout, hpin]
      exact k c

theorem attentionEdge (s : State) (p : Port) : Kept s (s.attentionEdge p) := by
  unfold State.attentionEdge
  split
  · exact setEngine s p
  · unfold State.attentionEvent
    dsimp only
    split
    · exact ((setEngine s p).trans (offer _ _)).trans (startWake _ _)
    · exact (setEngine s p).trans (offer _ _)

theorem endStrobe (s : State) (p : Port) (fields : List Byte) : Kept s (s.endStrobe p fields) :=
  ((restEngine s p _).trans (setOutp _ p)).trans (endExecution _ _ _)

theorem releaseD (s : State) (p : Port) : Kept s (s.releaseD p) := setOutp s p

end Kept

/-! ### Reset -/

/-- Settles O60: every table is empty, every debt 0 and every timer STOPPED. -/
theorem invariantsHoldAtReset : Obligations.InvariantsHoldAtReset := by
  refine ⟨rfl, fun g => ?_, rfl, ⟨by decide, by decide, by decide, by decide⟩,
    ⟨by decide, by decide, by decide, by decide, by decide⟩, Nat.zero_le _, fun b _ => ?_,
    ⟨by decide, by decide, fun p => ?_⟩, fun p => ?_, ⟨by decide, by decide, nofun⟩⟩
  · simp [State.group, State.reset, Refresh.reset]
  · simp [State.bank, State.reset, BankRecord.reset]
  · simp [State.queueOf, State.reset]
  · simp [State.outp, State.reset, Outs.reset]

/-! ### Every command -/

namespace Kept

/-- A state with every block at its reset value, whatever the straps, the range, the tick timer, the maintenance operation, the
pins and the fuse store: its invariants hold as they do at reset. -/
theorem resetState (s : State) (resetn : Bool) (baud : BitVec 3) (range : TempRange) (tick : Option TempRange) (maint : Maint) :
    Kept s { s.resetBlocks with
      resetn := resetn, baud := baud, range := range, refresh := { Refresh.reset range with tick := tick }, maint := maint } := by
  obtain ⟨-, debts, npend, outbox, link, oneBurst, timers, jobs, outputs, weak⟩ := invariantsHoldAtReset
  exact {
    debts := fun _ => debts
    npend := fun _ => npend
    outbox := fun _ => outbox
    oneBurst := fun _ => oneBurst
    timers := fun _ => timers
    jobs := fun _ => jobs
    outputs := fun _ p => ⟨(outputs p).1, fun h => by
      have off : (State.reset.outp p).xack = false := by simp [State.outp, State.reset, Outs.reset]
      rw [show (State.outp { s.resetBlocks with
        resetn := resetn, baud := baud, range := range, refresh := { Refresh.reset range with tick := tick },
        maint := maint } p) = State.reset.outp p from rfl, off] at h
      cases h⟩
    weak := fun _ => weak
    link := fun _ => link }

theorem powerUp (s : State) (baud : BitVec 3) (temp : Int) : Kept s (s.powerUp baud temp) :=
  ((resetState s false baud _ _ _).trans (loadFuses _)).trans (schedule _)

theorem holdInReset (s : State) : Kept s s.holdInReset := resetState s true s.baud s.range none _

end Kept

/-- Every command answers a next state, and keeps what `Kept` says. -/
theorem exec_kept (c : Instr) (s : State) : ∃ t : State, exec c s = .next t ∧ Kept s t := by
  cases c with
  | powerOn baud temp => exact ⟨_, rfl, Kept.powerUp s _ _⟩
  | resetnAssert => exact ⟨_, rfl, Kept.holdInReset s⟩
  | spareStepEnd =>
    refine ⟨_, rfl, ?_⟩
    split
    · split
      · exact (Kept.endSpareStep s _).trans (Kept.schedule _)
      · exact Kept.refl s
    · exact Kept.refl s
  | requestArrival chars => exact ⟨_, rfl, Kept.receive s _⟩
  | frameError chars => exact ⟨_, rfl, Kept.receive s _⟩
  | gapTimerExpiry =>
    refine ⟨_, rfl, ?_⟩
    split
    · exact Kept.refl s
    split
    · exact Kept.refl s
    · exact ((Kept.setRx s _).trans (Kept.frameFailed _ _)).trans (Kept.transmit _)
  | linkOpen chars => exact ⟨_, rfl, Kept.receive s _⟩
  | noticeAck chars lines => exact ⟨_, rfl, (Kept.sample s _).trans (Kept.receive _ _)⟩
  | unknownRequest => exact ⟨_, rfl, Kept.runRequest s _ fun r s => Kept.answer s r _ _⟩
  | identify => exact ⟨_, rfl, Kept.runRequest s _ fun r s => Kept.answer s r _ _⟩
  | status lines => exact ⟨_, rfl, (Kept.sample s _).trans (Kept.runRequest _ _ fun r s => Kept.answer s r _ _)⟩
  | getSetting => exact ⟨_, rfl, Kept.runRequest s _ fun r s => Kept.doGetSetting s r⟩
  | setSetting => exact ⟨_, rfl, Kept.runRequest s _ fun r s => Kept.doSetSetting s r⟩
  | submit lines => exact ⟨_, rfl, (Kept.sample s _).trans (Kept.runRequest _ _ fun r s => Kept.doSubmit s r)⟩
  | cancel lines => exact ⟨_, rfl, (Kept.sample s _).trans (Kept.runRequest _ _ fun r s => Kept.doCancel s r)⟩
  | jobQuery => exact ⟨_, rfl, Kept.runRequest s _ fun r s => Kept.doJobQuery s r⟩
  | hostWrite => exact ⟨_, rfl, Kept.runRequest s _ fun r s => Kept.doHostWrite s r⟩
  | hostRead => exact ⟨_, rfl, Kept.runRequest s _ fun r s => Kept.doHostRead s r⟩
  | portOut => exact ⟨_, rfl, Kept.runRequest s _ fun r s => Kept.strobeChecks s r (Kept.beginPortOut s r)⟩
  | portIn => exact ⟨_, rfl, Kept.runRequest s _ fun r s => Kept.strobeChecks s r (Kept.beginPortIn s r)⟩
  | readWeakList => exact ⟨_, rfl, Kept.runRequest s _ fun r s => Kept.whenReadable s r (Kept.answer s r _ _)⟩
  | clearWeakEntry => exact ⟨_, rfl, Kept.runRequest s _ fun r s => Kept.doClearWeakEntry s r⟩
  | repairRow => exact ⟨_, rfl, Kept.runRequest s _ fun r s => Kept.doRepairRow s r⟩
  | readRemap => exact ⟨_, rfl, Kept.runRequest s _ fun r s => Kept.doReadRemap s r⟩
  | readErrorLog => exact ⟨_, rfl, Kept.runRequest s _ fun r s => Kept.answer s r _ _⟩
  | clearError => exact ⟨_, rfl, Kept.runRequest s _ fun r s => Kept.doClearError s r⟩
  | engineReset => exact ⟨_, rfl, Kept.runRequest s _ fun r s => Kept.doEngineReset s r⟩
  | sleep => exact ⟨_, rfl, Kept.runRequest s _ fun r s => Kept.doSleep s r⟩
  | wake => exact ⟨_, rfl, Kept.runRequest s _ fun r s => Kept.doWake s r⟩
  | frameTransmitEnd =>
    refine ⟨_, rfl, ?_⟩
    split
    · exact Kept.refl s
    split
    · exact Kept.refl s
    · exact ((Kept.setLink s).trans (Kept.startResendTimer _ _)).trans (Kept.transmit _)
  | noticeResendExpiry number =>
    refine ⟨_, rfl, ?_⟩
    split
    · exact Kept.refl s
    split
    · exact Kept.refl s
    · exact (Kept.resendExpired s _).trans (Kept.transmit _)
  | refreshTick =>
    refine ⟨_, rfl, ?_⟩
    split
    · exact Kept.refl s
    · exact ((Kept.tick s).trans (Kept.schedule _)).trans (Kept.transmit _)
  | groupRefreshComplete g =>
    refine ⟨_, rfl, ?_⟩
    split
    · exact (((Kept.endRefresh s g).trans (Kept.schedule _)).trans (Kept.endSleepEntry _)).trans (Kept.transmit _)
    · exact Kept.refl s
  | temperatureChange temp =>
    refine ⟨_, rfl, ?_⟩
    dsimp only
    split
    · exact Kept.refl s
    · exact ((Kept.setRange s _).trans (Kept.offerAlert _ rfl)).trans (Kept.transmit _)
  | bankOpenComplete b =>
    refine ⟨_, rfl, ?_⟩
    split
    · exact (Kept.setBank s b).trans (Kept.schedule _)
    · exact Kept.refl s
  | bankCloseComplete b =>
    refine ⟨_, rfl, ?_⟩
    split
    · exact (((Kept.setBank s b).trans (Kept.schedule _)).trans (Kept.endSleepEntry _)).trans (Kept.transmit _)
    · exact Kept.refl s
  | burstComplete decay lines =>
    refine ⟨_, rfl, ?_⟩
    dsimp only
    split
    · exact Kept.sample s _
    · exact ((Kept.sample s _).trans (Kept.setMem _ fun h => Memory.wf_decay h _)).trans (Kept.burstDoneAt _ _)
  | lockWaitExpiry b =>
    refine ⟨_, rfl, ?_⟩
    split
    · exact (Kept.breakLock s b).trans (Kept.schedule _)
    · exact Kept.refl s
  | unitRequest p xdir xend d lines =>
    refine ⟨_, rfl, ?_⟩
    dsimp only
    have raised (u : UnitRequest) : Kept s ((s.sample lines).raiseRequest p u) :=
      (Kept.sample s lines).trans (Kept.setPin _ p fun _ => rfl)
    split
    · exact Kept.sample s _
    split
    · exact raised _
    · exact (raised _).trans (Kept.portGoesOn _ p)
  | xreqRemoved p => exact ⟨_, rfl, Kept.dropRequest s p⟩
  | holdnDeassert p lines =>
    refine ⟨_, rfl, ?_⟩
    dsimp only
    split
    · exact (Kept.sample s _).trans (Kept.setPin _ p)
    · exact ((Kept.sample s _).trans (Kept.setPin _ p)).trans (Kept.portGoesOn _ p)
  | attnEdge p lines =>
    refine ⟨_, rfl, ?_⟩
    dsimp only
    split
    · exact Kept.sample s _
    · exact ((Kept.sample s _).trans (Kept.attentionEdge _ p)).trans (Kept.transmit _)
  | strobeEnd lines =>
    refine ⟨_, rfl, ?_⟩
    dsimp only
    split
    · exact (((Kept.sample s _).trans (Kept.releaseD _ _)).trans (Kept.endStrobe _ _ _)).trans (Kept.portGoesOn _ _)
    · exact ((Kept.sample s _).trans (Kept.endStrobe _ _ _)).trans (Kept.portGoesOn _ _)
    · exact Kept.sample s _
  | scrubTimerExpiry =>
    refine ⟨_, rfl, ?_⟩
    split
    · exact Kept.refl s
    · exact (((Kept.restartScrubTimer s).trans (Kept.scrubExpiry _)).trans (Kept.scrubAdvance _)).trans (Kept.schedule _)
  | repairCopyEnd decay =>
    refine ⟨_, rfl, ?_⟩
    split
    · split
      · exact (((Kept.setMem s fun h => Memory.wf_decay h _).trans (Kept.endCopy _ _)).trans (Kept.schedule _)).trans
          (Kept.transmit _)
      · exact Kept.refl s
    · exact Kept.refl s
  | fuseVerify pass =>
    refine ⟨_, rfl, ?_⟩
    split
    · split
      · exact ((Kept.endProgramming s _ _ _).trans (Kept.schedule _)).trans (Kept.transmit _)
      · exact Kept.refl s
    · exact Kept.refl s
  | wakeComplete =>
    refine ⟨_, rfl, ?_⟩
    split
    · exact ((Kept.endWake s).trans (Kept.schedule _)).trans (Kept.transmit _)
    · exact ((Kept.enterReset s).trans (Kept.schedule _)).trans (Kept.transmit _)
    · exact Kept.refl s
  | characterArrival c => exact ⟨_, rfl, Kept.receive s _⟩

/-- A step passes every invariant on. -/
theorem step_kept {s t : State} (h : step s = .next t) : ∃ u : State, Kept u t ∧ u = { s with pending := u.pending } := by
  unfold step at h
  split at h
  · cases h
    exact ⟨_, Kept.refl s, rfl⟩
  · rename_i c rest _
    obtain ⟨t', he, hk⟩ := exec_kept c { s with pending := rest }
    rw [he] at h
    cases h
    exact ⟨_, hk, rfl⟩

/-- An invariant that does not speak of the queue of commands holds after a step if each command keeps it. -/
theorem step_keeps {P : State → Prop} (hkept : ∀ {u t : State}, Kept u t → P u → P t)
    (hqueue : ∀ (s : State) (q : List Instr), P s → P { s with pending := q }) {s t : State} (hs : P s) (h : step s = .next t) :
    P t := by
  obtain ⟨u, hk, hu⟩ := step_kept h
  exact hkept hk (hu ▸ hqueue s _ hs)

/-- Settles O2: every meaning is a next state, and no operation touches the queue of commands. -/
theorem everyCommandRunsToAnEnd : Obligations.EveryCommandRunsToAnEnd := by
  intro c s
  obtain ⟨t, he, hk⟩ := exec_kept c s
  exact ⟨t, he, hk.pending⟩

/-- Settles O55: what writes, copies, zeroes or decays the array keeps its form, and nothing else touches it. -/
theorem arrayStaysCanonical : Obligations.ArrayStaysCanonical :=
  fun _ _ hs h => step_keeps Kept.array (fun _ _ => id) hs h

/-- Settles O56: ticks and group refreshes move one group's debt and flag together. -/
theorem debtsStayBounded : Obligations.DebtsStayBounded :=
  fun _ _ hs h => step_keeps Kept.debts (fun _ _ => id) hs h

/-- Settles O57: NPEND is written with the outbox, and what enlarges the outbox or marks a notice SENT looks for room. -/
theorem outboxStaysBounded : Obligations.OutboxStaysBounded :=
  ⟨fun _ _ hs h => step_keeps Kept.npend (fun _ _ => id) hs h, fun _ _ hs h => step_keeps Kept.outbox (fun _ _ => id) hs h⟩

/-- Settles O58: a burst begins where none is in flight, and a lock's timer stops with the lock. -/
theorem schedulerStaysInOrder : Obligations.SchedulerStaysInOrder :=
  ⟨fun _ _ hs h => step_keeps Kept.oneBurst (fun _ _ => id) hs h, fun _ _ hs h => step_keeps Kept.timers (fun _ _ => id) hs h⟩

/-- Settles O59: what enlarges a table looks for room in it, and what moves an engine to IDLE or INERT sets SEL to 0. -/
theorem tablesStayBounded : Obligations.TablesStayBounded :=
  ⟨⟨fun _ _ hs h => step_keeps Kept.jobs (fun _ _ => id) hs h, fun _ _ hs h => step_keeps Kept.outputs (fun _ _ => id) hs h,
    fun _ _ hs h => step_keeps Kept.weak (fun _ _ => id) hs h⟩, fun _ _ hs h => step_keeps Kept.link (fun _ _ => id) hs h⟩

/-- Settles O1, by the two cases of the queue. -/
theorem stepRunsFrontCommand : Obligations.StepRunsFrontCommand := by
  refine ⟨fun c rest s h => ?_, fun s h => ?_⟩ <;> rw [step, h]

end Sys2Proof.Machine
end

