-- ==== Sys2Proof/Proofs/Frames.lean ====
section
/-! PROOF. Frames on LRX (R125 to R128): the receiver takes a frame's characters one by one, keeps them up to the last, and ends
the frame there as a good frame or as a frame error. -/

namespace Sys2Proof.Machine

open Sys2Proof.Safety

-- One thread: the whole text is checked under a memory limit that holds a bounded number of thread stacks.
set_option Elab.async false

/-! ### Multi-byte fields (R125) -/

@[simp] theorem natBytes_length (k n : Nat) : (natBytes k n).length = k := by
  induction k generalizing n with
  | zero => rfl
  | succ k ih => simp [natBytes, ih]

theorem natBytes_two (n : Nat) : natBytes 2 n = [BitVec.ofNat 8 (n / 256), BitVec.ofNat 8 n] := rfl

/-- What two bytes spell. -/
theorem field_natBytes_two {n : Nat} (h : n < 65536) (l : List Byte) : field (natBytes 2 n ++ l) 0 2 = n := by
  rw [natBytes_two]
  simp only [List.cons_append, List.nil_append, field_two, BitVec.toNat_ofNat]
  omega

theorem natBytes_two_inj {m n : Nat} (hm : m < 65536) (hn : n < 65536) : natBytes 2 m = natBytes 2 n ↔ m = n := by
  refine ⟨fun h => ?_, congrArg _⟩
  rw [← field_natBytes_two hm [], ← field_natBytes_two hn [], h]

/-- LEN is spelled by the first two bytes. -/
theorem field_getD {l : List Byte} (h : 2 ≤ l.length) : field l 0 2 = (l.getD 0 0).toNat * 256 + (l.getD 1 0).toNat := by
  match l, h with
  | b :: c :: l, _ => exact field_two b c l

/-- More bytes do not change LEN. -/
theorem field_append {l m : List Byte} (h : 2 ≤ l.length) : field (l ++ m) 0 2 = field l 0 2 := by
  match l, h with
  | b :: c :: l, _ => rw [List.cons_append, List.cons_append, field_two, field_two]

theorem errorRecord_getD (cause : FrameErrorCause) (l : List Byte) :
    errorRecord cause l = {
      cause := cause, kind := l.getD 2 0, seq := l.getD 3 0,
      len := if 2 ≤ l.length then (l.getD 0 0).toNat * 256 + (l.getD 1 0).toNat else 0 } := by
  unfold errorRecord
  by_cases h : 2 ≤ l.length
  · rw [if_pos h, if_pos h, field_getD h]
  · rw [if_neg h, if_neg h]

/-! ### One character at the receiver (R127) -/

namespace Receiver

/-- START, HUNTING. -/
theorem take_start : Receiver.hunting.take startByte = (.inFrame [], none) := rfl

theorem take_noise {c : Byte} (h : c ≠ 0xC3) : Receiver.hunting.take c = (.hunting, none) := if_neg h

/-- A byte that completes neither LEN nor the frame, or completes a LEN in range, is kept. -/
theorem take_kept {bytes : List Byte} {c : Byte}
    (hlen : bytes.length = 1 → Config.minLen ≤ field (bytes ++ [c]) 0 2 ∧ field (bytes ++ [c]) 0 2 ≤ Config.maxLen)
    (hend : 1 ≤ bytes.length → bytes.length + 1 ≠ field (bytes ++ [c]) 0 2 + 4) :
    (Receiver.inFrame bytes).take c = (.inFrame (bytes ++ [c]), none) := by
  unfold Receiver.take
  simp only [List.length_append, List.length_singleton]
  rw [if_neg, if_neg]
  · rintro ⟨h2, he⟩
    exact hend (by omega) he
  · rintro ⟨h2, hr⟩
    have := hlen (by omega)
    omega

/-- A byte that completes a LEN out of range. -/
theorem take_badLength {bytes : List Byte} {c : Byte} (h1 : bytes.length = 1)
    (h : field (bytes ++ [c]) 0 2 < Config.minLen ∨ Config.maxLen < field (bytes ++ [c]) 0 2) :
    (Receiver.inFrame bytes).take c = (.hunting, some (.error (errorRecord .length (bytes ++ [c])))) := by
  unfold Receiver.take
  dsimp only
  rw [if_pos ⟨by simp [h1], h⟩]

/-- The byte that completes the frame. -/
theorem take_end {bytes : List Byte} {c : Byte} (h : bytes.length + 1 = field (bytes ++ [c]) 0 2 + 4) :
    (Receiver.inFrame bytes).take c = (.hunting, some (frameEnd (bytes ++ [c]))) := by
  unfold Receiver.take
  simp only [List.length_append, List.length_singleton]
  rw [if_neg (by omega), if_pos ⟨by omega, h⟩]

end Receiver

/-! ### The end of a frame (R127) -/

section FrameEnd
variable {all body : List Byte} {len : Nat}

theorem frameEnd_check (hall : all.length = len + 4) (hbody : body = all.take (len + 2))
    (h : all.drop (len + 2) ≠ natBytes 2 (crc16 body).toNat) : frameEnd all = .error (errorRecord .check all) := by
  subst hbody
  unfold frameEnd
  rw [show all.length - 2 = len + 2 by omega, if_pos (Ne.symm h)]

theorem frameEnd_kind (hall : all.length = len + 4) (hbody : body = all.take (len + 2))
    (h : all.drop (len + 2) = natBytes 2 (crc16 body).toNat) (h1 : all.getD 2 0 ≠ 0x01) (h4 : all.getD 2 0 ≠ 0x04) :
    frameEnd all = .error (errorRecord .kind all) := by
  subst hbody
  unfold frameEnd
  rw [show all.length - 2 = len + 2 by omega, if_neg (not_not.2 h.symm), if_pos ⟨h1, h4⟩]

theorem frameEnd_good (hall : all.length = len + 4) (hbody : body = all.take (len + 2))
    (h : all.drop (len + 2) = natBytes 2 (crc16 body).toNat) (hk : all.getD 2 0 = 0x01 ∨ all.getD 2 0 = 0x04) :
    frameEnd all = .good { kind := all.getD 2 0, seq := all.getD 3 0, payload := body.drop 4 } := by
  subst hbody
  unfold frameEnd
  rw [show all.length - 2 = len + 2 by omega, if_neg (not_not.2 h.symm), if_neg]
  rintro ⟨h1, h4⟩
  exact hk.elim h1 h4

end FrameEnd

/-! ### A frame's characters, one after another -/

namespace State

/-- The receiver IN FRAME with these bytes. -/
def inFrame (s : State) (bytes : List Byte) : State := { s with link := { s.link with rx := .inFrame bytes } }

/-- Where the receiver is HUNTING, setting it so changes nothing. -/
theorem hunting_eq {s : State} (h : s.link.rx = .hunting) : ({ s with link := { s.link with rx := .hunting } } : State) = s := by
  rw [← h]

theorem receive_awake {s : State} (h : s.resetn = false) (chars : List Byte) : s.receive chars = chars.foldl receiveChar s := by
  simp [State.receive, h]

/-- Up to the last of its bytes a frame is kept as it comes. -/
theorem receive_inFrame {s : State} {all : List Byte} {len : Nat} (hfield : field all 0 2 = len)
    (hmin : 2 ≤ len) (hmax : len ≤ 1042) (k : Nat) (hk : k < len + 4) (hall : len + 4 ≤ all.length) :
    (all.take k).foldl receiveChar (s.inFrame []) = s.inFrame (all.take k) := by
  induction k with
  | zero => rfl
  | succ k ih =>
    have split : all.take (k + 1) = all.take k ++ [all[k]] := (List.take_append_getElem (by omega)).symm
    have len1 : (all.take k).length = k := by simp; omega
    have lenField (h : 1 ≤ k) : field (all.take k ++ [all[k]]) 0 2 = len := by
      rw [← split]
      have := field_append (l := all.take (k + 1)) (m := all.drop (k + 1)) (by simp; omega)
      rwa [List.take_append_drop, hfield, eq_comm] at this
    rw [split, List.foldl_append, ih (by omega), List.foldl_cons, List.foldl_nil]
    refine receiveChar_none (Receiver.take_kept (fun h => ?_) fun h => ?_)
    · rw [lenField (by omega)]
      exact ⟨hmin, hmax⟩
    · rw [lenField (by omega)]
      omega

/-- A whole frame of `len + 4` bytes after START comes to its end at the last. -/
theorem receive_frame {s : State} (hr : s.resetn = false) (hx : s.link.rx = .hunting) {bytes : List Byte} {c : Byte}
    (hmin : 2 ≤ field (bytes ++ [c]) 0 2) (hmax : field (bytes ++ [c]) 0 2 ≤ 1042)
    (hall : (bytes ++ [c]).length = field (bytes ++ [c]) 0 2 + 4) :
    s.receive (startByte :: (bytes ++ [c])) = (s.inFrame bytes).receiveChar c := by
  have hlen : (bytes ++ [c]).length = bytes.length + 1 := by simp
  have first : s.receiveChar startByte = s.inFrame [] := receiveChar_none (by rw [hx]; rfl)
  have kept := receive_inFrame (s := s) rfl hmin hmax bytes.length (by omega) (by omega)
  rw [List.take_left] at kept
  rw [receive_awake hr, List.foldl_cons, first, List.foldl_append, kept, List.foldl_cons, List.foldl_nil]

end State

/-! ### The characters of a frame (R125) -/

theorem Frame.body_length (f : Frame) : f.body.length = f.payload.length + 4 := by
  simp [Frame.body]
  omega

section Spelled
variable (f : Frame) (check : BitVec 16)

/-- LEN to CHECK of a frame with some CHECK. -/
def Frame.bytesWith : List Byte := f.body ++ natBytes 2 check.toNat

theorem charsWithCheck_eq : charsWithCheck f check = startByte :: f.bytesWith check := rfl

theorem Frame.chars_eq : f.chars = startByte :: f.bytesWith (crc16 f.body) := rfl

theorem Frame.bytesWith_length : (f.bytesWith check).length = f.payload.length + 2 + 4 := by
  simp [Frame.bytesWith, Frame.body_length]

theorem Frame.bytesWith_field (h : f.payload.length ≤ 1040) : field (f.bytesWith check) 0 2 = f.payload.length + 2 := by
  unfold Frame.bytesWith Frame.body
  simp only [List.append_assoc]
  exact field_natBytes_two (by omega) _

theorem Frame.bytesWith_take : (f.bytesWith check).take (f.payload.length + 2 + 2) = f.body := by
  rw [Frame.bytesWith, show f.payload.length + 2 + 2 = f.body.length by rw [Frame.body_length], List.take_left]

theorem Frame.bytesWith_drop : (f.bytesWith check).drop (f.payload.length + 2 + 2) = natBytes 2 check.toNat := by
  rw [Frame.bytesWith, show f.payload.length + 2 + 2 = f.body.length by rw [Frame.body_length], List.drop_left]

theorem Frame.bytesWith_kind : (f.bytesWith check).getD 2 0 = f.kind := rfl

theorem Frame.bytesWith_seq : (f.bytesWith check).getD 3 0 = f.seq := rfl

theorem Frame.body_payload : f.body.drop 4 = f.payload := rfl

end Spelled

namespace State
variable {s : State} {f : Frame}

/-- The characters of a frame are received up to the last, which ends it. -/
theorem receive_charsWithCheck (hr : s.resetn = false) (hx : s.link.rx = .hunting) (hp : f.payload.length ≤ 1040)
    (check : BitVec 16) : ∃ (bytes : List Byte) (c : Byte), bytes ++ [c] = f.bytesWith check ∧
      s.receive (charsWithCheck f check) = (s.inFrame bytes).receiveChar c ∧
      (s.inFrame bytes).link.rx.take c = (.hunting, some (frameEnd (f.bytesWith check))) := by
  have hne : f.bytesWith check ≠ [] := List.ne_nil_of_length_pos (by rw [Frame.bytesWith_length]; omega)
  have split := List.dropLast_append_getLast hne
  have hfield := f.bytesWith_field check hp
  have hlen := f.bytesWith_length check
  refine ⟨_, _, split, ?_, ?_⟩
  · have e := receive_frame hr hx (bytes := (f.bytesWith check).dropLast) (c := (f.bytesWith check).getLast hne)
    rw [split, hfield] at e
    exact e (by omega) (by omega) hlen
  · have : (f.bytesWith check).dropLast.length = f.payload.length + 5 := by rw [List.length_dropLast, hlen]; omega
    have e := Receiver.take_end (bytes := (f.bytesWith check).dropLast) (c := (f.bytesWith check).getLast hne)
      (by rw [split, hfield, this])
    rwa [split] at e

/-- A good frame is handed on. -/
theorem receive_chars (hr : s.resetn = false) (hx : s.link.rx = .hunting) (hp : f.payload.length ≤ 1040)
    (hk : f.kind = 0x01 ∨ f.kind = 0x04) : s.receive f.chars = (s.handOn f).transmit := by
  obtain ⟨bytes, c, -, hreceive, htake⟩ := receive_charsWithCheck hr hx hp (crc16 f.body)
  have hgood := frameEnd_good (f.bytesWith_length (crc16 f.body)) (f.bytesWith_take (crc16 f.body)).symm
    (f.bytesWith_drop (crc16 f.body)) hk
  rw [Frame.bytesWith_kind, Frame.bytesWith_seq, Frame.body_payload] at hgood
  rw [hgood] at htake
  have e : s.receive f.chars = _ := hreceive
  rw [e, receiveChar_good htake]
  exact congrArg (fun u : State => (u.handOn f).transmit) (hunting_eq hx)

/-- A frame that fails at its last character (R128). -/
theorem receive_failed (hr : s.resetn = false) (hx : s.link.rx = .hunting) (hp : f.payload.length ≤ 1040) {check : BitVec 16}
    {cause : FrameErrorCause} (h : frameEnd (f.bytesWith check) = .error (errorRecord cause (f.bytesWith check))) :
    s.receive (charsWithCheck f check) =
      (afterFrameError s { cause := cause, kind := f.kind, seq := f.seq, len := f.payload.length + 2 }).transmit := by
  obtain ⟨bytes, c, -, hreceive, htake⟩ := receive_charsWithCheck hr hx hp check
  rw [h] at htake
  have hrecord : errorRecord cause (f.bytesWith check) =
      { cause := cause, kind := f.kind, seq := f.seq, len := f.payload.length + 2 } := by
    unfold errorRecord
    rw [if_pos (by rw [Frame.bytesWith_length]; omega), Frame.bytesWith_field f check hp, Frame.bytesWith_kind,
      Frame.bytesWith_seq]
  rw [hreceive, receiveChar_error htake, hrecord]
  rfl

end State

/-- Settles O6: the frame's characters are spelled, kept up to the last, and the frame then judged good. -/
theorem frameCharactersAreHandedOn : Obligations.FrameCharactersAreHandedOn := by
  intro s f hr hx hp hk
  have received : s.receive f.chars = (s.handOn f).transmit := State.receive_chars hr hx hp hk
  refine ⟨congrArg _ received, congrArg _ received, fun lines => ?_⟩
  obtain ⟨-, same⟩ := sample_spec s lines
  have hr' : (s.sample lines).resetn = false := (congrArg State.resetn same).trans hr
  have hx' : (s.sample lines).link.rx = .hunting := (congrArg (fun u : State => u.link.rx) same).trans hx
  exact congrArg _ (State.receive_chars hr' hx' hp hk)

/-- Settles O8: CHECK and KIND fail at the frame's last character, LENGTH at its second, and a gap wherever it comes. -/
theorem frameErrorsAreLogged : Obligations.FrameErrorsAreLogged := by
  refine ⟨fun s hr hx => ⟨fun f check hp hc => ?_, fun f hp h1 h4 => ?_, fun n hn hrange => ?_⟩,
    fun s hr => ⟨fun hx => ?_, fun bytes hx => ?_⟩⟩
  · have hne : natBytes 2 check.toNat ≠ natBytes 2 (crc16 f.body).toNat := fun e =>
      hc (BitVec.eq_of_toNat_eq ((natBytes_two_inj check.isLt (crc16 f.body).isLt).1 e))
    exact congrArg _ (State.receive_failed hr hx hp (frameEnd_check (f.bytesWith_length check) (f.bytesWith_take check).symm
      (by rwa [f.bytesWith_drop check])))
  · exact congrArg _ (State.receive_failed hr hx hp (check := crc16 f.body)
      (frameEnd_kind (f.bytesWith_length _) (f.bytesWith_take _).symm (f.bytesWith_drop _) h1 h4))
  · have hfield : field [BitVec.ofNat 8 (n / 256), BitVec.ofNat 8 n] 0 2 = n := field_natBytes_two hn []
    have first : s.receiveChar startByte = s.inFrame [] := receiveChar_none (by rw [hx]; rfl)
    have second : (s.inFrame []).receiveChar (BitVec.ofNat 8 (n / 256)) = s.inFrame [BitVec.ofNat 8 (n / 256)] :=
      receiveChar_none (Receiver.take_kept (by simp) (by simp))
    have third : (s.inFrame [BitVec.ofNat 8 (n / 256)]).receiveChar (BitVec.ofNat 8 n) =
        (afterFrameError s { cause := .length, kind := 0, seq := 0, len := n }).transmit := by
      have htake := Receiver.take_badLength (bytes := [BitVec.ofNat 8 (n / 256)]) (c := BitVec.ofNat 8 n) rfl
        (by simpa [Config.minLen, Config.maxLen, hfield] using hrange)
      have hrecord : errorRecord .length ([BitVec.ofNat 8 (n / 256)] ++ [BitVec.ofNat 8 n]) =
          { cause := .length, kind := 0, seq := 0, len := n } := by
        simp [errorRecord, hfield]
      rw [hrecord] at htake
      exact receiveChar_error htake
    show Host.Outcome.next (s.receive [startByte, BitVec.ofNat 8 (n / 256), BitVec.ofNat 8 n]) = _
    rw [State.receive_awake hr, List.foldl_cons, first, List.foldl_cons, second, List.foldl_cons, third, List.foldl_nil]
  · simp [exec, execGapTimerExpiry, hr, hx]
  · rw [← errorRecord_getD, ← frameFailed_hunting]
    simp [exec, execGapTimerExpiry, hr, hx]

/-- Settles O9: the nine bytes are run through the CRC, and a frame's characters are laid out by definition. -/
theorem crcCheckValue : Obligations.CrcCheckValue := ⟨by decide +kernel, fun _ => rfl⟩

theorem exec_characterArrival {s : State} (h : s.resetn = false) (c : Byte) :
    exec (.characterArrival c) s = .next (s.receiveChar c) := congrArg _ (State.receive_awake h [c])

/-- Settles O7, by what one character does HUNTING, at LEN, within a frame and at its end. -/
theorem receiverTakesCharacters : Obligations.ReceiverTakesCharacters := by
  refine ⟨fun s c hr => ⟨fun hx hc => ?_, fun hx hc => ?_, fun bytes hx => ⟨fun h => ?_, fun len h1 hlen => ?_, ?_⟩⟩,
    fun s chars => ⟨?_, fun c t h => ?_, rfl, rfl, fun _ => rfl⟩⟩
  · rw [exec_characterArrival hr, receiveChar_none (by rw [hx]; exact Receiver.take_noise hc), State.hunting_eq hx]
  · rw [exec_characterArrival hr, receiveChar_none (rx := .inFrame []) (by rw [hx, hc]; rfl)]
  · have htake : (Receiver.inFrame bytes).take c = (.inFrame (bytes ++ [c]), none) := by
      refine Receiver.take_kept (by omega) fun h1 => ?_
      rcases h with h | ⟨h2, h⟩
      · omega
      · rwa [field_append h2, field_getD h2]
    rw [exec_characterArrival hr, receiveChar_none (hx ▸ htake)]
  · have hfield : field (bytes ++ [c]) 0 2 = len := by
      obtain ⟨b, rfl⟩ := List.length_eq_one_iff.1 h1
      rw [hlen]
      exact field_two b c []
    refine ⟨fun hmin hmax => ?_, fun hrange => ?_⟩
    · rw [exec_characterArrival hr, receiveChar_none (by
        rw [hx]
        exact Receiver.take_kept (fun _ => by rw [hfield]; exact ⟨hmin, hmax⟩) fun _ => by omega)]
    · have htake := Receiver.take_badLength h1 (c := c) (by rw [hfield]; exact hrange)
      have hrecord : errorRecord .length (bytes ++ [c]) = { cause := .length, kind := 0, seq := 0, len := len } := by
        obtain ⟨b, rfl⟩ := List.length_eq_one_iff.1 h1
        simpa [errorRecord] using hfield
      rw [hrecord, ← hx] at htake
      rw [exec_characterArrival hr, receiveChar_error htake]
  · intro all body len h2 hall hlen hlength hbody
    subst hall
    have hfield : field (bytes ++ [c]) 0 2 = len := by rw [field_append h2, field_getD h2, hlen]
    have htake := Receiver.take_end (c := c) (by rw [hfield, ← hlength]; simp)
    rw [← hx] at htake
    have hrecord (cause : FrameErrorCause) : errorRecord cause (bytes ++ [c]) =
        { cause := cause, kind := (bytes ++ [c]).getD 2 0, seq := (bytes ++ [c]).getD 3 0, len := len } := by
      unfold errorRecord
      rw [if_pos (by simp; omega), hfield]
    rw [exec_characterArrival hr]
    refine ⟨fun h => ?_, fun h => ⟨fun k1 k4 => ?_, fun hk => ?_⟩⟩
    · rw [frameEnd_check hlength hbody h, hrecord] at htake
      rw [receiveChar_error htake]
    · rw [frameEnd_kind hlength hbody h k1 k4, hrecord] at htake
      rw [receiveChar_error htake]
    · rw [frameEnd_good hlength hbody h hk] at htake
      rw [receiveChar_good htake]
  · have e : s.receive [] = s := by unfold State.receive; split <;> rfl
    exact congrArg _ e
  · have e : s.receive [c] = t := by
      have h : Host.Outcome.next (s.receive [c]) = .next t := h
      injection h
    exact congrArg _ ((receive_cons s c chars).trans (by rw [e]))

end Sys2Proof.Machine
end

