-- ==== Sys2Proof/Proofs/Arrival.lean ====
section
/-! PROOF. What a good frame does at its arrival (R130 to R133, R147 to R149): requests queued or answered, LINK OPEN, and NOTICE
ACK. -/

namespace Sys2Proof.Machine

open Sys2Proof.Safety

-- One thread: the whole text is checked under a memory limit that holds a bounded number of thread stacks.
set_option Elab.async false

namespace State

/-! ### The transmitter (R136) -/

theorem transmit_busy {s : State} {f : TxFrame} (h : s.link.tx = some f) : s.transmit = s := by
  simp only [State.transmit, h]

theorem transmit_openResponse {s : State} {r : Response} (h : s.link.tx = none) (ho : s.link.openResponse = some r) :
    s.transmit = { s with link := { s.link with tx := some { frame := r.frame, notice := none }, openResponse := none } } := by
  simp only [State.transmit, h, ho]

theorem transmit_linkError {s : State} {e : ErrorRecord} (h : s.link.tx = none) (ho : s.link.openResponse = none)
    (he : s.link.linkError = some e) :
    s.transmit = { s with link := { s.link with tx := some { frame := e.frame, notice := none }, linkError := none } } := by
  simp only [State.transmit, h, ho, he]

theorem transmit_response {s : State} {r : Response} {rest : List Response} (h : s.link.tx = none)
    (ho : s.link.openResponse = none) (he : s.link.linkError = none) (hq : s.link.queue = r :: rest) :
    s.transmit = State.releaseHeld
      { s with link := { s.link with tx := some { frame := r.frame, notice := none }, queue := rest } } := by
  simp only [State.transmit, h, ho, he, hq]

/-- With no frame but a notice to send, the notice the Notice Unit has ready begins, unless a request is due. -/
theorem transmit_notices {s : State} (h : s.link.tx = none) (ho : s.link.openResponse = none) (he : s.link.linkError = none)
    (hq : s.link.queue = []) :
    s.transmit = if s.link.isOpen && !s.requestDue then s.notices.ready.elim s s.beginNotice else s := by
  simp only [State.transmit, h, ho, he, hq]
  cases s.notices.ready <;> rfl

/-- The transmitter's turn leaves the link's other items, the request in execution and STALE. -/
theorem transmit_keeps (s : State) : LinkKept s s.transmit ∧ s.transmit.link.intake = s.link.intake ∧
    s.transmit.link.cache = s.link.cache ∧ s.transmit.proc.executing = s.proc.executing ∧
    s.transmit.notices.stale = s.notices.stale := by
  have all (t : State) (hl : ∃ tx op le q, t.link = { s.link with tx := tx, openResponse := op, linkError := le, queue := q })
      (hp : t.proc.executing = s.proc.executing) (hn : t.notices.stale = s.notices.stale) :
      LinkKept s t ∧ t.link.intake = s.link.intake ∧ t.link.cache = s.link.cache ∧ t.proc.executing = s.proc.executing ∧
        t.notices.stale = s.notices.stale := by
    obtain ⟨tx, op, le, q, e⟩ := hl
    refine ⟨?_, by rw [e], by rw [e], hp, hn⟩
    unfold LinkKept
    rw [e]
    exact ⟨rfl, rfl, rfl, rfl, rfl, rfl⟩
  unfold State.transmit
  split
  · exact all _ ⟨_, _, _, _, rfl⟩ rfl rfl
  split
  · exact all _ ⟨_, _, _, _, rfl⟩ rfl rfl
  split
  · exact all _ ⟨_, _, _, _, rfl⟩ rfl rfl
  split
  · rename_i r rest _
    rcases releaseHeld_cases { s with link := { s.link with tx := some { frame := r.frame, notice := none }, queue := rest } }
      with e | ⟨x, -, e⟩ <;> rw [e] <;> exact all _ ⟨_, _, _, _, rfl⟩ rfl rfl
  split
  · split
    · exact all _ ⟨_, _, _, _, rfl⟩ rfl rfl
    · exact all _ ⟨_, _, _, _, rfl⟩ rfl rfl
  · exact all _ ⟨_, _, _, _, rfl⟩ rfl rfl

/-- A request about to be executed lets no notice begin before it (log 33). -/
theorem transmit_requestDue {s : State} (ho : s.link.openResponse = none) (he : s.link.linkError = none) (hq : s.link.queue = [])
    (hx : s.proc.executing = none) (hh : s.proc.held = none) (hin : s.link.intake ≠ []) : s.transmit = s := by
  cases h : s.link.tx with
  | some f => exact transmit_busy h
  | none => simp [transmit_notices h ho he hq, State.requestDue, hx, hh, hin]

/-! ### STALE and its revival (R147, R148) -/

theorem unsendAll_eq (s : State) : s.unsendAll = { s with notices := { s.notices with
    outbox := s.notices.outbox.map unsent, npend := !s.notices.outbox.isEmpty } } := by
  simp only [State.unsendAll, State.setOutbox, List.isEmpty_map]
  rfl

theorem reviveStale_eq (s : State) : s.reviveStale = { s with notices := revivedNotices s } := by
  unfold State.reviveStale revivedNotices
  split
  · rw [unsendAll_eq]
  · rfl

theorem openNotices_eq (s : State) : s.openNotices = { s with notices := { s.notices with
    outbox := s.notices.outbox.map unsent, npend := !s.notices.outbox.isEmpty, stale := false } } := by
  unfold State.openNotices
  rw [unsendAll_eq]

@[simp] theorem revivedNotices_stale (s : State) : (revivedNotices s).stale = false := by
  unfold revivedNotices
  split
  · rfl
  · simpa using ‹¬s.notices.stale = true›

theorem revivedNotices_outbox (s : State) : (revivedNotices s).outbox = revivedOutbox s := by
  unfold revivedNotices revivedOutbox
  split <;> rfl

/-- Opening the link after a revival is opening it. -/
theorem revived_unsent (s : State) : { revivedNotices s with
    outbox := (revivedNotices s).outbox.map unsent, npend := !(revivedNotices s).outbox.isEmpty, stale := false } =
    { s.notices with outbox := s.notices.outbox.map unsent, npend := !s.notices.outbox.isEmpty, stale := false } := by
  unfold revivedNotices
  split
  · have twice : unsent ∘ unsent = unsent := rfl
    simp [twice]
  · rfl

/-- The state once STALE has been revived. -/
def revived (s : State) : State := { s with notices := revivedNotices s }

/-! ### Requests at arrival (R130 to R133) -/

theorem queueAtArrival_eq (s : State) (r : Response) : s.queueAtArrival r = { s with link := withQueued s.link r } := by
  unfold withQueued
  by_cases h : s.link.queue.length < 8
  · rw [if_pos h]
    exact if_pos h
  · rw [if_neg h]
    exact if_neg h

theorem requestArrived_closed {s : State} {r : Request} (hc : r.code ≠ 0x01) (ho : s.link.isOpen = false) :
    s.requestArrived r = { s with link := withQueued s.link { seq := r.seq, payload := [r.code, 0x14] } } := by
  unfold State.requestArrived
  rw [if_neg (show r.code ≠ codeLinkOpen from hc), if_pos (by simp [ho])]
  exact queueAtArrival_eq _ _

theorem requestArrived_new {s : State} {r : Request} (hc : r.code ≠ 0x01) (ho : s.link.isOpen = true)
    (hs : r.seq = s.link.expected) : s.requestArrived r = s.newRequest r := by
  unfold State.requestArrived
  rw [if_neg (show r.code ≠ codeLinkOpen from hc), if_neg (by simp [ho]), if_pos hs]

theorem requestArrived_other {s : State} {r : Request} (hc : r.code ≠ 0x01) (ho : s.link.isOpen = true)
    (hs : r.seq ≠ s.link.expected) : s.requestArrived r = s.otherRequest r := by
  unfold State.requestArrived
  rw [if_neg (show r.code ≠ codeLinkOpen from hc), if_neg (by simp [ho]), if_neg hs]

theorem newRequest_halted {s : State} {r : Request} (hh : s.link.halt = true) (hx : haltExempt r.code = false) :
    s.newRequest r = { s with link := { withQueued s.link { seq := r.seq, payload := [r.code, 0x0E] } with
      cache := withCached s.link.cache { seq := r.seq, payload := [r.code, 0x0E] }, expected := s.link.expected + 1 } } := by
  unfold State.newRequest
  rw [if_pos (by simp [hh, hx])]
  dsimp only
  rw [cacheResponse_eq, queueAtArrival_eq]
  unfold withQueued
  dsimp only
  split <;> rfl

/-- Nothing bars a request that HALT does not bar. -/
theorem not_barred {s : State} {r : Request} (h : s.link.halt = false ∨ haltExempt r.code = true) :
    ¬(s.link.halt && !haltExempt r.code) = true := by
  rcases h with h | h <;> simp [h]

theorem newRequest_full {s : State} {r : Request} (h : s.link.halt = false ∨ haltExempt r.code = true)
    (hfull : 8 ≤ s.link.intake.length) :
    s.newRequest r = { s with link := withQueued s.link { seq := r.seq, payload := [r.code, 0x04] } } := by
  unfold State.newRequest
  rw [if_neg (not_barred h), if_pos (show Config.intakeDepth ≤ _ from hfull)]
  exact queueAtArrival_eq _ _

theorem newRequest_queued {s : State} {r : Request} (h : s.link.halt = false ∨ haltExempt r.code = true)
    (hroom : s.link.intake.length < 8) :
    s.newRequest r = { s with link := { s.link with
      intake := s.link.intake ++ [r], expected := s.link.expected + 1 } } := by
  unfold State.newRequest
  rw [if_neg (not_barred h), if_neg (show ¬Config.intakeDepth ≤ _ from Nat.not_le.2 hroom)]

theorem inWindow_iff {s : State} {seq : Byte} : s.inWindow seq = true ↔ (s.link.expected - 1 - seq).toNat < 8 := by
  unfold State.inWindow
  rw [sub_right_comm, decide_eq_true_eq]

theorem otherRequest_cached {s : State} {r : Request} {resp : Response} (hw : (s.link.expected - 1 - r.seq).toNat < 8)
    (hc : (s.link.cache.find? fun x => decide (x.seq = r.seq)) = some resp) :
    s.otherRequest r = { s with link := withQueued s.link resp } := by
  unfold State.otherRequest
  rw [if_pos (inWindow_iff.2 hw), hc]
  exact queueAtArrival_eq _ _

theorem otherRequest_silent {s : State} {r : Request} (hw : (s.link.expected - 1 - r.seq).toNat < 8)
    (hc : ∀ x ∈ s.link.cache, x.seq ≠ r.seq) : s.otherRequest r = s := by
  unfold State.otherRequest
  rw [if_pos (inWindow_iff.2 hw), List.find?_eq_none.2 (by simpa using hc)]

theorem otherRequest_sequence {s : State} {r : Request} (hw : 8 ≤ (s.link.expected - 1 - r.seq).toNat) :
    s.otherRequest r = { s with link := withQueued s.link { seq := r.seq, payload := [r.code, 0x05] } } := by
  unfold State.otherRequest
  rw [if_neg (mt inWindow_iff.1 (not_lt.2 hw))]
  exact queueAtArrival_eq _ _

/-- A good REQUEST frame: STALE is revived, and the request arrives. -/
theorem handOn_request {s : State} {f : Frame} (h : f.kind = 0x01) :
    s.handOn f = s.revived.requestArrived { seq := f.seq, payload := f.payload } := by
  unfold State.handOn
  rw [if_pos (show f.kind = kindRequest from h), reviveStale_eq]
  rfl

end State

/-- A request's frame arrives. -/
theorem exec_requestFrame {s : State} {r : Request} (hr : s.resetn = false) (hx : s.link.rx = .hunting)
    (hp : r.payload.length ≤ 1040) :
    exec (.requestArrival (requestFrame r).chars) s = .next (s.revived.requestArrived r).transmit := by
  have e := State.receive_chars (f := requestFrame r) hr hx hp (.inl rfl)
  rw [State.handOn_request rfl] at e
  exact congrArg _ e

/-- Settles O10: the request finds room in the intake queue; what the transmitter then does leaves all that is said of it. -/
theorem newRequestJoinsIntake : Obligations.NewRequestJoinsIntake := by
  intro s r hr hx hp ho hc hs hh hroom
  have arrived : s.revived.requestArrived r = { s.revived with link := { s.link with
      intake := s.link.intake ++ [r], expected := s.link.expected + 1 } } :=
    (State.requestArrived_new (s := s.revived) hc ho hs).trans (State.newRequest_queued hh hroom)
  obtain ⟨⟨kopen, kexp, krx, klog, kover, khalt⟩, kin, kcache, kexec, kstale⟩ :=
    State.transmit_keeps { s.revived with link := { s.link with
      intake := s.link.intake ++ [r], expected := s.link.expected + 1 } }
  have krest := congrArg (fun u : State => { u with link := s.link, proc := s.proc, notices := s.notices })
    (Outward.transmit { s.revived with link := { s.link with
      intake := s.link.intake ++ [r], expected := s.link.expected + 1 } }).rest
  refine ⟨_, _, exec_requestFrame hr hx hp, rfl, ?_⟩
  rw [arrived]
  exact ⟨⟨rfl, rfl⟩, rfl, kin, kexp, kcache, kopen.trans ho, krx.trans hx, khalt, klog, kover, kexec,
    kstale.trans (State.revivedNotices_stale s), krest,
    fun h1 h2 h3 h4 h5 => State.transmit_requestDue h3 h4 h5 h1 h2 (by simp)⟩

/-- Settles O11, by the order of the checks at arrival: CLOSED, then a new request's HALTED and FULL, then an earlier one's cached
copy, silence or SEQUENCE. -/
theorem requestsAnsweredAtArrival : Obligations.RequestsAnsweredAtArrival := by
  intro s r hr hx hp hc
  have run {l : Link} (e : s.revived.requestArrived r = { s.revived with link := l }) :
      ∃ u : State, exec (.requestArrival (requestFrame r).chars) s = .next u.transmit ∧ Revived s u ∧ u.link = l :=
    ⟨{ s.revived with link := l }, by rw [exec_requestFrame hr hx hp, e], ⟨rfl, rfl⟩, rfl⟩
  refine ⟨fun ho => run (State.requestArrived_closed hc ho), fun ho hs hh he => run ?_, fun ho hs hh hfull => run ?_,
    fun ho hs hw => ⟨fun resp hresp => run ?_, fun hnone => run ?_⟩, fun ho hs hw => run ?_⟩
  · exact (State.requestArrived_new (s := s.revived) hc ho hs).trans (State.newRequest_halted hh he)
  · exact (State.requestArrived_new (s := s.revived) hc ho hs).trans (State.newRequest_full hh hfull)
  · exact (State.requestArrived_other (s := s.revived) hc ho hs).trans (State.otherRequest_cached hw hresp)
  · exact (State.requestArrived_other (s := s.revived) hc ho hs).trans (State.otherRequest_silent hw hnone)
  · exact (State.requestArrived_other (s := s.revived) hc ho hs).trans (State.otherRequest_sequence hw)

/-- Settles O12: opening is the first check at arrival, before the link's state and E are looked at. -/
theorem linkOpenStartsAfresh : Obligations.LinkOpenStartsAfresh := by
  intro s seq more hr hx hp
  have e := State.receive_chars (f := { kind := 0x01, seq := seq, payload := 0x01 :: more }) hr hx
    (by simp only [List.length_cons]; omega) (.inl rfl)
  rw [State.handOn_request rfl] at e
  have opened : s.revived.requestArrived { seq := seq, payload := 0x01 :: more } = s.revived.openLink seq := if_pos rfl
  rw [opened, State.openLink] at e
  dsimp only at e
  rw [State.openNotices_eq] at e
  have notices := State.revived_unsent s
  refine (congrArg Host.Outcome.next e).trans ?_
  dsimp only [State.revived]
  rw [notices]
  rfl

/-! ### NOTICE ACK (R149) -/

/-- The state a NOTICE ACK's number leaves: its notice is gone, and with a JOB END the slot of the job it reports. -/
def State.acked (s : State) (n : Notice) (number : Byte) : State :=
  { s with
    notices := { s.notices with
      outbox := s.notices.outbox.filter (fun x => decide (x.number ≠ number)),
      npend := !(s.notices.outbox.filter fun x => decide (x.number ≠ number)).isEmpty },
    jobs := if isJobEnd n.body then s.jobs.filter (fun j => !(decide (j.state = .reported) &&
      decide (j.noticeNumber = some number))) else s.jobs }

theorem State.ackNotice_some {s : State} {n : Notice} {number : Byte}
    (h : (s.notices.outbox.find? fun x => decide (x.number = number)) = some n) :
    s.ackNotice number = some (s.acked n number) := by
  unfold State.ackNotice State.acked
  rw [h]
  obtain ⟨_, body, _⟩ := n
  cases body <;> rfl

theorem State.ackNotice_none {s : State} {number : Byte} (h : ∀ x ∈ s.notices.outbox, x.number ≠ number) :
    s.ackNotice number = none := by
  unfold State.ackNotice
  rw [List.find?_eq_none.2 (by simpa using h)]

/-- A notice is found in the outbox as revived, with its number and body. -/
theorem revivedOutbox_find {s : State} {n : Notice} {number : Byte}
    (h : (s.notices.outbox.find? fun x => decide (x.number = number)) = some n) :
    ∃ m : Notice, ((revivedOutbox s).find? fun x => decide (x.number = number)) = some m ∧ m.body = n.body := by
  unfold revivedOutbox
  split
  · have e : (fun x => decide (x.number = number)) ∘ unsent = fun x : Notice => decide (x.number = number) := rfl
    refine ⟨unsent n, ?_, rfl⟩
    rw [List.find?_map, e, h]
    rfl
  · exact ⟨n, h, rfl⟩

theorem revivedOutbox_numbers {s : State} {number : Byte} (h : ∀ x ∈ s.notices.outbox, x.number ≠ number) :
    ∀ x ∈ revivedOutbox s, x.number ≠ number := by
  unfold revivedOutbox
  split
  · intro x hx
    obtain ⟨y, hy, rfl⟩ := List.mem_map.1 hx
    exact h y hy
  · exact h

theorem State.handOn_ack {s : State} {f : Frame} (h : f.kind = 0x04) (ho : s.link.isOpen = true) :
    s.handOn f = s.revived.noticeAcked f.seq := by
  unfold State.handOn
  rw [if_neg (show f.kind ≠ kindRequest by rw [h]; decide), if_pos ho, reviveStale_eq]
  rfl

theorem State.handOn_ack_closed {s : State} {f : Frame} (h : f.kind = 0x04) (ho : s.link.isOpen = false) : s.handOn f = s := by
  unfold State.handOn
  rw [if_neg (show f.kind ≠ kindRequest by rw [h]; decide), if_neg (by simp [ho])]

section Sampled
variable (s : State) (lines : PortLines)

/-- Sampling leaves everything but the pins. -/
theorem sample_eq : s.sample lines = { s with pins := (s.sample lines).pins } :=
  congrArg (fun u : State => { u with pins := (s.sample lines).pins }) (sample_spec s lines).2

theorem revivedNotices_sample : revivedNotices (s.sample lines) = revivedNotices s :=
  (congrArg revivedNotices (sample_spec s lines).2 :)

end Sampled

/-- A NOTICE ACK's frame arrives, once the lines have been sampled. -/
theorem exec_noticeAck {s : State} {lines : PortLines} {f : Frame} (hr : s.resetn = false) (hx : s.link.rx = .hunting)
    (hk : f.kind = 0x04) (hp : f.payload.length ≤ 1040) :
    exec (.noticeAck f.chars lines) s = .next ((s.sample lines).handOn f).transmit := by
  have hr' : (s.sample lines).resetn = false := by rw [sample_eq]; exact hr
  have hx' : (s.sample lines).link.rx = .hunting := by rw [sample_eq]; exact hx
  exact congrArg _ (State.receive_chars hr' hx' hp (.inr hk))

/-- Settles O13: the number's notice is looked for in the outbox as revived, and found or not; a CLOSED link disregards the
frame. -/
theorem noticeAckRemovesTheNotice : Obligations.NoticeAckRemovesTheNotice := by
  refine ⟨fun s lines f hr hx ho hk hp => ⟨fun n hn => ?_, fun hnone => ?_⟩, fun s => ⟨rfl, rfl, rfl⟩,
    fun s lines f hr hx ho hk hp => ?_⟩
  · obtain ⟨m, hm, hbody⟩ := revivedOutbox_find hn
    have hsame := revivedNotices_sample s lines
    have hfind : ((s.sample lines).revived.notices.outbox.find? fun x => decide (x.number = f.seq)) = some m := by
      show ((revivedNotices (s.sample lines)).outbox.find? _) = _
      rw [hsame, State.revivedNotices_outbox, hm]
    have acked : (s.sample lines).revived.noticeAcked f.seq = ((s.sample lines).revived.acked m f.seq).afterRemoval := by
      unfold State.noticeAcked
      rw [State.ackNotice_some hfind]
    refine ⟨(s.sample lines).revived.acked m f.seq, ?_, ?_, ?_, rfl, ?_, ?_⟩
    · rw [exec_noticeAck hr hx hk hp, State.handOn_ack hk (by rw [sample_eq]; exact ho), acked]
    · simp only [State.acked, State.revived, hsame, State.revivedNotices_outbox]
    · simp only [State.acked, State.revived, State.revivedNotices_stale]
    · simp only [State.acked, hbody]
      rw [show (s.sample lines).revived.jobs = s.jobs from (congrArg State.jobs (sample_spec s lines).2 :)]
    · exact congrArg (fun u : State => { u with notices := s.notices, jobs := s.jobs }) (sample_spec s lines).2
  · have hsame : (revivedNotices (s.sample lines)) = revivedNotices s := by rw [sample_eq]; rfl
    have kept : (s.sample lines).revived.noticeAcked f.seq = (s.sample lines).revived := by
      unfold State.noticeAcked
      rw [State.ackNotice_none]
      show ∀ x ∈ (revivedNotices (s.sample lines)).outbox, _
      rw [hsame, State.revivedNotices_outbox]
      exact revivedOutbox_numbers hnone
    refine ⟨(s.sample lines).revived, ?_, hsame, State.revivedNotices_stale _, rfl, ?_⟩
    · rw [exec_noticeAck hr hx hk hp, State.handOn_ack hk (by rw [sample_eq]; exact ho), kept]
    · exact congrArg (fun u : State => { u with notices := s.notices }) (sample_spec s lines).2
  · rw [exec_noticeAck hr hx hk hp, State.handOn_ack_closed hk (by rw [sample_eq]; exact ho)]

end Sys2Proof.Machine
end

