-- ==== Sys2Proof/Proofs/Notices.lean ====
section
/-! PROOF. The Notice Unit: admission (R142 to R144), the frames' end, the order of the transmitter and the resend timers (R136,
R145, R146). -/

namespace Sys2Proof.Machine

open Sys2Proof.Safety

-- One thread: the whole text is checked under a memory limit that holds a bounded number of thread stacks.
set_option Elab.async false

/-! ### Admission -/

theorem cls_ordinary_iff (body : NoticeBody) : body.cls = .ordinary ↔ isAlert body = false := by
  cases body <;> simp [NoticeBody.cls, isAlert]

/-- Every notice but the ALERTs counts as ORDINARY. -/
theorem State.ordinaryCount_eq (s : State) : s.ordinaryCount = (s.notices.outbox.filter fun n => !isAlert n.body).length := by
  unfold State.ordinaryCount
  congr 2
  funext n
  rw [Bool.eq_iff_iff]
  simp [cls_ordinary_iff]

theorem State.bodyOf_job {s : State} {p : Port} {t : Tag} {rest : List Tag} (h : s.queueOf p = t :: rest) :
    s.bodyOf (.job p) = (s.jobOf t).map fun j =>
      .jobEnd j.tag j.port j.mode j.outcome j.moved j.faultAddress j.holdBroken j.correctedSeen := by
  simp only [State.bodyOf, h]
  cases s.jobOf t <;> rfl

theorem State.bodyOf_idle {s : State} {p : Port} (h : s.queueOf p = []) : s.bodyOf (.job p) = none := by
  simp only [State.bodyOf, h]

theorem State.bodyOf_repair {s : State} {r : RepairRecord} (h : s.maint.op = .repair r) :
    s.bodyOf .repair = some (.repairEnd r.bank r.row r.kind r.outcome r.uncorrectable) := by
  simp only [State.bodyOf, h]

theorem State.bodyOf_noRepair {s : State} (h : ∀ r : RepairRecord, s.maint.op ≠ .repair r) : s.bodyOf .repair = none := by
  cases hop : s.maint.op with
  | repair r => exact absurd hop (h r)
  | _ => simp only [State.bodyOf, hop]

/-- Settles O14. -/
theorem noticesAreAdmittedOrWait : Obligations.NoticesAreAdmittedOrWait := by
  refine ⟨fun s => ⟨s.ordinaryCount_eq, freshNumber_eq _ _ _, fun p => ⟨State.bodyOf_idle, fun t rest hq => ⟨fun h => ?_,
      fun j h => ?_⟩, rfl⟩, rfl, fun _ => State.bodyOf_repair, State.bodyOf_noRepair, rfl⟩,
    ⟨fun s x => ⟨fun ho hc => ⟨State.offer_none ho hc, fun _ => State.offer_admitted ho hc⟩, State.offer_waits⟩,
      fun s body => ⟨State.offerAlert_admitted, State.offerAlert_lost⟩⟩,
    fun s h => State.admissionNumber_fresh h,
    fun n s => ⟨fun h => iterate_none (State.admitWaitingOne_none h) n, fun x rest hw ho hc => ?_⟩⟩
  · rw [State.bodyOf_job hq, h]
    rfl
  · rw [State.bodyOf_job hq, h]
    rfl
  · obtain ⟨u, step, none, some⟩ := State.admitWaitingOne_some hw ho hc
    exact ⟨u, by rw [iterate, step], none, some⟩

/-! ### The end of a frame -/

/-- Settles O15: the line is freed, then the frame's resend timer starts. -/
theorem frameEndFreesTheLine : Obligations.FrameEndFreesTheLine := by
  intro s f hr hf
  refine ⟨({ s with link := { s.link with tx := none } } : State).startResendTimer f.notice, ?_, ?_⟩
  · show execFrameTransmitEnd s = _
    simp only [execFrameTransmitEnd, hr, hf, Bool.false_eq_true, if_false]
  · unfold State.startResendTimer
    cases hn : f.notice with
    | none => exact ⟨rfl, rfl, rfl, rfl, rfl, by simp⟩
    | some k =>
      cases hs : s.notices.stale with
      | true => exact ⟨rfl, rfl, hs, rfl, rfl, rfl⟩
      | false =>
        refine ⟨rfl, rfl, hs, rfl, rfl, List.map_congr_left fun n _ => ?_⟩
        by_cases hk : n.number = k
        · subst hk
          cases hsent : n.sent <;> simp [hsent]
        · simp [hk, Ne.symm hk]

/-! ### The transmitter -/

namespace NoticeUnit

variable {u : NoticeUnit}

theorem ready_stale (h : u.stale = true) : u.ready = none := if_pos h

/-- No notice is due again: the oldest UNSENT is ready, while fewer than 4 are SENT. -/
theorem ready_unsent (hs : u.stale = false) (h : ∀ x ∈ u.outbox, ¬(x.sent = true ∧ x.resendDue = true)) :
    u.ready = if (u.outbox.filter Notice.sent).length < 4 then u.outbox.find? fun n => !n.sent else none := by
  unfold NoticeUnit.ready
  rw [if_neg (by simp [hs]), List.find?_eq_none.2 (by simpa using h)]
  rfl

theorem ready_none (h : ∀ x ∈ u.outbox, ¬(x.sent = true ∧ x.resendDue = true))
    (hw : 4 ≤ (u.outbox.filter Notice.sent).length ∨ ∀ x ∈ u.outbox, x.sent = true) : u.ready = none := by
  cases hs : u.stale with
  | true => exact ready_stale hs
  | false =>
    rw [ready_unsent hs h]
    rcases hw with full | none
    · exact if_neg (Nat.not_lt.2 full)
    · rw [List.find?_eq_none.2 (by simpa using none), ite_self]

/-- The oldest notice with resend due, otherwise the oldest UNSENT in the window. -/
theorem ready_some {n : Notice} {before after : List Notice} (hs : u.stale = false) (ho : u.outbox = before ++ n :: after)
    (h : (n.sent = true ∧ n.resendDue = true ∧ (∀ x ∈ before, ¬(x.sent = true ∧ x.resendDue = true))) ∨
      ((∀ x ∈ u.outbox, ¬(x.sent = true ∧ x.resendDue = true)) ∧
        (u.outbox.filter Notice.sent).length < 4 ∧ n.sent = false ∧ ∀ x ∈ before, x.sent = true)) : u.ready = some n := by
  rcases h with ⟨hsent, hdue, hbefore⟩ | ⟨hnone, hwindow, hunsent, hbefore⟩
  · have : (u.outbox.find? fun n => n.sent && n.resendDue) = some n := by
      rw [ho, List.find?_append, List.find?_eq_none.2 (by simpa using hbefore)]
      simp [hsent, hdue]
    unfold NoticeUnit.ready
    rw [if_neg (by simp [hs]), this]
  · rw [ready_unsent hs hnone, if_pos hwindow, ho, List.find?_append, List.find?_eq_none.2 (by simpa using hbefore)]
    simp [hunsent]

end NoticeUnit

namespace State

/-- A held response takes the room that a response's start leaves in the queue. -/
theorem releaseHeld_eq (s : State) : s.releaseHeld = s ∧ (s.proc.held = none ∨ 8 ≤ s.link.queue.length) ∨
    ∃ h : Response, s.proc.held = some h ∧ s.link.queue.length < 8 ∧
      s.releaseHeld = { s with link := { s.link with queue := s.link.queue ++ [h] }, proc := { s.proc with held := none } } := by
  unfold State.releaseHeld
  cases hh : s.proc.held with
  | none => exact .inl ⟨rfl, .inl rfl⟩
  | some h =>
    by_cases hq : s.link.queue.length < 8
    · exact .inr ⟨h, rfl, hq, if_pos hq⟩
    · exact .inl ⟨if_neg hq, .inr (Nat.not_lt.1 hq)⟩

/-- The notice the Notice Unit has ready begins, on an open line with no request due. -/
theorem transmit_ready {s : State} {n : Notice} (h : s.link.tx = none) (ho : s.link.openResponse = none)
    (he : s.link.linkError = none) (hq : s.link.queue = []) (hopen : s.link.isOpen = true)
    (hdue : s.proc.executing ≠ none ∨ s.proc.held ≠ none ∨ s.link.intake = []) (hn : s.notices.ready = some n) :
    s.transmit = s.beginNotice n := by
  have : s.requestDue = false := by
    unfold State.requestDue
    rcases hdue with hx | hx | hx
    · simp [hx]
    · simp [hx]
    · simp [hx]
  rw [transmit_notices h ho he hq, if_pos (by simp [hopen, this]), hn]
  rfl

end State

/-- Settles O16: the codes by evaluation, then the transmitter's order. -/
theorem transmitterOrder : Obligations.TransmitterOrder := by
  refine ⟨⟨fun n => ⟨rfl, ?_⟩, rfl, rfl, rfl, rfl, rfl, rfl, rfl, rfl, rfl⟩, fun _ _ _ _ _ _ _ _ => rfl, fun _ _ _ => rfl,
    fun _ => rfl, fun _ _ _ _ _ => rfl, rfl, fun _ _ _ _ => rfl, fun _ => rfl, fun _ => rfl, fun _ _ => rfl, fun s => ?_⟩
  · simp only [natBytes, List.nil_append, List.cons_append, Nat.div_div_eq_div_mul]
  · refine ⟨fun f => State.transmit_busy, fun r h ho => ?_, fun e h ho he => ?_, fun r rest h ho he hq => ?_, fun h ho he hq =>
      ⟨fun hopen => ?_, State.transmit_requestDue ho he hq, fun hstale => ?_, fun hnone hwindow => ?_,
        fun n before after hopen hdue hstale hout hready => ?_⟩⟩
    · rw [State.transmit_openResponse h ho]
    · rw [State.transmit_linkError h ho he]
      rfl
    · rw [State.transmit_response h ho he hq]
      rcases State.releaseHeld_eq { s with link := { s.link with tx := some { frame := r.frame, notice := none }, queue := rest } }
        with ⟨e, hcase⟩ | ⟨x, hx, hroom, e⟩
      · rw [e]
        exact ⟨rest, rfl, rfl, fun _ => ⟨rfl, rfl⟩, fun x hx hroom => by
          rcases hcase with hcase | hcase
          · cases hcase.symm.trans hx
          · exact absurd hroom (Nat.not_lt.2 hcase)⟩
      · rw [e]
        refine ⟨rest ++ [x], rfl, rfl, fun hcase => ?_, fun y hy _ => ?_⟩
        · rcases hcase with hcase | hcase
          · cases hcase.symm.trans hx
          · exact absurd hroom (Nat.not_lt.2 hcase)
        · obtain rfl := Option.some.inj (hx.symm.trans hy)
          exact ⟨rfl, rfl⟩
    · rw [State.transmit_notices h ho he hq, if_neg (by simp [hopen])]
    · rw [State.transmit_notices h ho he hq, NoticeUnit.ready_stale hstale]
      exact ite_self _
    · rw [State.transmit_notices h ho he hq, NoticeUnit.ready_none hnone hwindow]
      exact ite_self _
    · rw [State.transmit_ready h ho he hq hopen hdue (NoticeUnit.ready_some hstale hout hready)]
      exact ⟨rfl, rfl⟩

/-! ### The resend timers -/

/-- Below a send count of 4 the notice's timer is STOPPED and it is due again (R146). -/
theorem State.resendExpired_due {s : State} {n : Notice} (hn : n ∈ s.notices.outbox) (h : n.sendCount < 4) :
    s.resendExpired n = { s with notices := { s.notices with
      outbox := s.notices.outbox.map fun x => if x.number = n.number then { x with timer := none, resendDue := true } else x,
      npend := true } } := by
  have hne : s.notices.outbox.isEmpty = false := List.isEmpty_eq_false_iff.2 (List.ne_nil_of_mem hn)
  unfold State.resendExpired
  dsimp only
  rw [if_neg (show ¬Config.maxSends ≤ n.sendCount from Nat.not_le.2 h)]
  simp only [State.updateNotice, State.setOutbox, List.map_map, List.isEmpty_map, hne]
  congr 3
  funext x
  by_cases hx : x.number = n.number <;> simp [hx]

/-- At a send count of 4 STALE is set, every timer STOPPED and none due (R147). -/
theorem State.resendExpired_stale {s : State} {n : Notice} (hn : n ∈ s.notices.outbox) (h : 4 ≤ n.sendCount) :
    s.resendExpired n = { s with notices := { s.notices with
      outbox := s.notices.outbox.map fun x => { x with timer := none, resendDue := false }, npend := true,
      stale := true } } := by
  have hne : s.notices.outbox.isEmpty = false := List.isEmpty_eq_false_iff.2 (List.ne_nil_of_mem hn)
  unfold State.resendExpired
  dsimp only
  rw [if_pos (show Config.maxSends ≤ n.sendCount from h)]
  simp only [State.setStale, State.updateNotice, State.setOutbox, List.map_map, List.isEmpty_map, hne]
  congr 3
  funext x
  by_cases hx : x.number = n.number <;> simp [hx]

/-- Settles O17: the expiring notice is the one found by its number. -/
theorem resendExpiryMakesDueOrStale : Obligations.ResendExpiryMakesDueOrStale := by
  intro s n hr _ hn huniq hsent htimer
  have found : (s.notices.outbox.find? fun x => decide (x.number = n.number) && x.sent && x.timer.isSome) = some n := by
    obtain ⟨m, hm⟩ := Option.isSome_iff_exists.1 (List.find?_isSome.2 ⟨n, hn, by simp [hsent, htimer]⟩ :
      (s.notices.outbox.find? fun x => decide (x.number = n.number) && x.sent && x.timer.isSome).isSome = true)
    have hp := List.find?_some hm
    simp only [Bool.and_eq_true, decide_eq_true_eq] at hp
    rw [hm, huniq m (List.mem_of_find?_eq_some hm) hp.1.1]
  have run : exec (.noticeResendExpiry n.number) s = .next (s.resendExpired n).transmit := by
    show execNoticeResendExpiry n.number s = _
    unfold execNoticeResendExpiry
    rw [if_neg (by simp [hr]), found]
  refine ⟨fun hcount => ⟨_, run, ?_⟩, fun hcount => ⟨_, run, ?_⟩⟩
  · rw [State.resendExpired_due hn hcount]
    exact ⟨rfl, rfl, rfl⟩
  · rw [State.resendExpired_stale hn hcount]
    exact ⟨rfl, rfl, rfl⟩

end Sys2Proof.Machine
end

