-- ==== Sys2Proof/Proofs/Answers.lean ====
section
/-! PROOF. The rows of the Request Processor (R135): how each runs, the refusals common to them, and the rows that answer and do
nothing else: IDENTIFY, STATUS, JOB QUERY (R56, R153, R154). -/

namespace Sys2Proof.Machine

open Sys2Proof.Safety

-- One thread: the whole text is checked under a memory limit that holds a bounded number of thread stacks.
set_option Elab.async false

/-! ### Fields (R140) -/

theorem beNat_append (l : List Byte) (b : Byte) : beNat (l ++ [b]) = beNat l * 256 + b.toNat := by
  simp [beNat]

/-- What the bytes of a number spell. -/
theorem beNat_natBytes (k n : Nat) : beNat (natBytes k n) = n % 256 ^ k := by
  induction k generalizing n with
  | zero => simp [natBytes, beNat, Nat.mod_one]
  | succ k ih =>
    rw [natBytes, beNat_append, ih, BitVec.toNat_ofNat, Nat.pow_succ' (m := 256), Nat.mod_mul]
    norm_num
    omega

theorem field_cons (b : Byte) (l : List Byte) (off k : Nat) : field (b :: l) (off + 1) k = field l off k := rfl

/-- A field that begins past the bytes of a number. -/
theorem field_skip (m n off k : Nat) (l : List Byte) : field (natBytes m n ++ l) (m + off) k = field l off k := by
  have e : (natBytes m n ++ l).drop (m + off) = l.drop off := by
    simpa using List.drop_length_add_append (l₁ := natBytes m n) (l₂ := l) off
  unfold field
  rw [e]

/-- The field that holds a number's bytes. -/
theorem field_natBytes {k n : Nat} (h : n < 256 ^ k) (l : List Byte) : field (natBytes k n ++ l) 0 k = n := by
  have e : (natBytes k n ++ l).take k = natBytes k n := by
    simp
  rw [field, List.drop_zero, e, beNat_natBytes, Nat.mod_eq_of_lt h]

/-! ### Sampled lines and taken requests -/

/-- Sampling changes the pins alone. -/
theorem sample_eq_pins (s : State) (lines : PortLines) : ∃ pins, s.sample lines = { s with pins := pins } :=
  ⟨_, sample_eq s lines⟩

theorem atHead_sample {s : State} {r : Request} {rest : List Request} (h : AtHead s r rest) (lines : PortLines) :
    AtHead (s.sample lines) r rest := by
  obtain ⟨pins, e⟩ := sample_eq_pins s lines
  rw [e]
  exact h

theorem atHead_lookedAt {s : State} {r : Request} {rest : List Request} (h : AtHead s r rest) (lines : PortLines) (c : Instr) :
    AtHead (lookedAt lines s c) r rest := by
  unfold lookedAt
  split
  · exact atHead_sample h lines
  · exact atHead_sample h lines
  · exact atHead_sample h lines
  · exact h

theorem lookedAt_part (s : State) (lines : PortLines) (c : Instr) : (lookedAt lines s c).part = s.part := by
  obtain ⟨pins, e⟩ := sample_eq_pins s lines
  unfold lookedAt
  split <;> simp only [e]

/-! ### How the rows run -/

/-- Lines for the rows that sample none. -/
def anyLines : PortLines := Vector.replicate 4 { holdn := false, pstat := 0, d := 0 }

/-- The row takes a request with this code and executes it by `f`, once its sampled lines have been looked at. -/
def RunsAs (lines : PortLines) (c : Instr) (code : Byte) (f : Request → State → State) : Prop :=
  ∀ s : State, exec c s = .next ((lookedAt lines s c).runRequest (codeIs code) f)

/-- An answer given in a state whose link is that of `s` with the request taken is made, and the transmitter's turn after it
changes the link and the processor alone. -/
theorem answer_sent {s v : State} {rest : List Request} (r : Request) (st : Status) (fs : List Byte)
    (hl : v.link = { s.link with intake := rest }) (hp : v.proc.executing = none) :
    Made (v.answer r st fs).transmit { seq := r.seq, payload := r.code :: st.code :: fs } ∧
      (v.answer r st fs).transmit.link.intake = rest ∧ (v.answer r st fs).transmit.proc.executing = none ∧
      { (v.answer r st fs).transmit with link := v.link, proc := v.proc } = v ∧ LinkKept s (v.answer r st fs).transmit := by
  obtain ⟨⟨hmade, ⟨h1, h2, h3, h4, h5, h6⟩, hintake, -, -⟩, hrest⟩ := State.answer_spec (s := s) r st fs hl hp
  have hq := answer_queue_ne_nil v r st fs
  obtain ⟨tintake, texec, ⟨t1, t2, t3, t4, t5, t6⟩, trest⟩ := transmit_frame hq
  have back := congrArg (linkAndProcOf v) trest
  exact ⟨made_transmit hmade hq, tintake.trans hintake, texec.trans hmade.2.2, back.trans hrest,
    t1.trans h1, t2.trans h2, t3.trans h3, t4.trans h4, t5.trans h5, t6.trans h6⟩

/-- A command whose outcome is an answer and the transmitter's turn answers only. -/
theorem answersOnly_of_next {c : Instr} {s b : State} {r : Request} {rest : List Request} {st : Status} {fs : List Byte}
    (h : AtHead b r rest) (hc : exec c s = .next ((b.withIntake rest).answer r st fs).transmit) :
    AnswersOnly c s b rest { seq := r.seq, payload := r.code :: st.code :: fs } := by
  have ⟨_, hfree, _, _⟩ := h
  obtain ⟨hmade, hintake, hexec, hrest, hkept⟩ :=
    answer_sent (s := b) (v := b.withIntake rest) (rest := rest) r st fs rfl hfree
  have base := congrArg (linkAndProcOf b) hrest
  exact ⟨_, hc, hmade, hintake, hexec, base, hkept⟩

section Rows
variable {lines : PortLines} {c : Instr} {code : Byte} {f : Request → State → State} {s : State} {r : Request}
  {rest : List Request}

theorem codeIs_self (h : r.code = code) : codeIs code r.code = true := by simp [codeIs, h]

/-- A request of the right length is executed, and the transmitter goes on. -/
theorem RunsAs.run (run : RunsAs lines c code f) (h : AtHead s r rest) (hc : r.code = code) (hl : lengthOk r = true) :
    exec c s = .next (f r ((lookedAt lines s c).withIntake rest)).transmit := by
  rw [run, runRequest_of_atHead (atHead_lookedAt h lines c) (codeIs_self hc) hl]

/-- A row whose execution of the request is an answer and nothing else answers only. -/
theorem RunsAs.answers (run : RunsAs lines c code f) (h : AtHead s r rest) (hc : r.code = code) (hl : lengthOk r = true)
    {st : Status} {fs : List Byte}
    (hf : f r ((lookedAt lines s c).withIntake rest) = ((lookedAt lines s c).withIntake rest).answer r st fs) :
    AnswersOnly c s (lookedAt lines s c) rest { seq := r.seq, payload := code :: st.code :: fs } := by
  have key := answersOnly_of_next (atHead_lookedAt h lines c) ((run.run h hc hl).trans (by rw [hf]))
  rwa [hc] at key

/-- A request of the wrong length is answered LENGTH (R135). -/
theorem RunsAs.wrongLength (run : RunsAs lines c code f) (h : AtHead s r rest) (hc : r.code = code)
    (hl : lengthOk r = false) :
    AnswersOnly c s (lookedAt lines s c) rest { seq := r.seq, payload := [code, 0x07] } := by
  have hb := atHead_lookedAt h lines c
  have ⟨hresetn, _⟩ := hb
  have e : (lookedAt lines s c).runRequest (codeIs code) f =
      (((lookedAt lines s c).withIntake rest).answer r .length []).transmit := by
    simp [State.runRequest, takeRequest_of_atHead hb (codeIs_self hc), hl, hresetn]
  have key := answersOnly_of_next hb ((run s).trans (congrArg _ e))
  rwa [hc] at key

end Rows

theorem whenReady_ready {s : State} (h : s.part.state = .ready) (r : Request) (k : State) : s.whenReady r k = k := by
  simp [State.whenReady, PartState.refusal, h]

theorem whenReady_refused {s : State} {st : Status} (h : s.part.state.refusal = some st) (r : Request) (k : State) :
    s.whenReady r k = s.answer r st [] := by
  simp [State.whenReady, h]

/-- Every row with a code of its own runs by some execution, which in the part states other than READY is a refusal where the
request is executed in READY alone. -/
theorem runsAs_of_requestRows {lines : PortLines} {code : Byte} {c : Instr} (h : (code, c) ∈ requestRows lines) :
    ∃ f : Request → State → State, RunsAs lines c code f ∧
      (code ∈ ([0x10, 0x11, 0x12, 0x20, 0x21, 0x22, 0x23, 0x31, 0x32, 0x51] : List Byte) →
        ∀ (r : Request) (s : State) (st : Status), s.part.state.refusal = some st → f r s = s.answer r st []) := by
  simp only [requestRows, List.mem_cons, Prod.mk.injEq, List.not_mem_nil, or_false] at h
  rcases h with ⟨rfl, rfl⟩ | ⟨rfl, rfl⟩ | ⟨rfl, rfl⟩ | ⟨rfl, rfl⟩ | ⟨rfl, rfl⟩ | ⟨rfl, rfl⟩ | ⟨rfl, rfl⟩ | ⟨rfl, rfl⟩ |
    ⟨rfl, rfl⟩ | ⟨rfl, rfl⟩ | ⟨rfl, rfl⟩ | ⟨rfl, rfl⟩ | ⟨rfl, rfl⟩ | ⟨rfl, rfl⟩ | ⟨rfl, rfl⟩ | ⟨rfl, rfl⟩ | ⟨rfl, rfl⟩ |
    ⟨rfl, rfl⟩ | ⟨rfl, rfl⟩ | ⟨rfl, rfl⟩
  all_goals refine ⟨_, fun _ => rfl, fun hready r s st hst => ?_⟩
  all_goals first
    | exact absurd hready (by decide)
    | exact whenReady_refused hst r _

/-- The refusal's status byte in the part states other than READY (R40). -/
theorem refusal_code {x : PartState} {status : Byte} (h : (x = .starting ∧ status = 0x0C) ∨ (x = .sleeping ∧ status = 0x0D) ∨
    ((x = .waking ∨ x = .resetting) ∧ status = 0x02)) : ∃ st : Status, x.refusal = some st ∧ st.code = status := by
  rcases h with ⟨rfl, rfl⟩ | ⟨rfl, rfl⟩ | ⟨rfl | rfl, rfl⟩
  · exact ⟨.starting, rfl, rfl⟩
  · exact ⟨.asleep, rfl, rfl⟩
  · exact ⟨.busy, rfl, rfl⟩
  · exact ⟨.busy, rfl, rfl⟩

/-- No length is asked of a code that is not assigned. -/
theorem lengthOk_of_unassigned {r : Request} (h : ∀ c ∈ assignedCodes, r.code ≠ c) : lengthOk r = true := by
  have codes : ∀ c ∈ assignedCodes.map BitVec.toNat, r.code.toNat ≠ c := by
    intro c hc e
    obtain ⟨x, hx, rfl⟩ := List.mem_map.1 hc
    exact h x hx (BitVec.eq_of_toNat_eq e)
  rw [show assignedCodes.map BitVec.toNat = [0x01, 0x02, 0x03, 0x04, 0x05, 0x10, 0x11, 0x12, 0x20, 0x21, 0x22, 0x23, 0x30, 0x31,
    0x32, 0x33, 0x40, 0x41, 0x50, 0x51, 0x52] from rfl] at codes
  simp only [List.forall_mem_cons] at codes
  unfold lengthOk
  dsimp only
  split
  all_goals try omega
  rfl

/-- Settles O18: unknown codes, wrong lengths, and the part states in which a request is not executed. -/
theorem commonRefusals : Obligations.CommonRefusals := by
  refine ⟨⟨fun s r rest h hcode => ?_, fun lines code c s r rest hrow h hc hl => ?_⟩,
    fun lines code c s r rest status hrow hready h hc hl hstate => ?_⟩
  · have hunknown : codeUnknown r.code = true := by
      simpa [codeUnknown] using fun c hc e => hcode c hc e.symm
    exact answersOnly_of_answer (c := .unknownRequest) (f := fun r s => s.answer r .unknown []) h rfl hunknown
      (lengthOk_of_unassigned hcode) rfl
  · obtain ⟨f, run, -⟩ := runsAs_of_requestRows hrow
    exact run.wrongLength h hc hl
  · obtain ⟨f, run, refused⟩ := runsAs_of_requestRows hrow
    obtain ⟨st, hst, rfl⟩ := refusal_code hstate
    refine run.answers h hc hl (refused hready r _ st ?_)
    rw [State.withIntake_part, lookedAt_part, hst]

/-! ### IDENTIFY (R153) -/

/-- The fuse slots of the part, bank by bank, are the numbers below 64. -/
theorem freeFuseSlots_eq (s : State) : s.freeFuseSlots = ((List.range 64).filter fun k =>
    decide (s.fuseOf (Fin.ofNat 16 (k / 4)) (Fin.ofNat 4 k) = .free)).length := by
  have slots : List.range 64 = allBanks.flatMap fun b => ([0, 1, 2, 3] : List Slot).map fun i => 4 * b.val + i.val := by decide
  have bank (b : Bank) (i : Slot) : (Fin.ofNat 16 ((4 * b.val + i.val) / 4) : Bank) = b := by
    apply Fin.ext
    simp only [Fin.val_ofNat]
    omega
  have slot (b : Bank) (i : Slot) : (Fin.ofNat 4 (4 * b.val + i.val) : Slot) = i := by
    apply Fin.ext
    simp only [Fin.val_ofNat]
    omega
  rw [slots, List.filter_flatMap, List.length_flatMap]
  unfold State.freeFuseSlots
  congr 1
  refine List.map_congr_left fun b _ => ?_
  rw [List.filter_map, List.length_map]
  congr 2
  funext i
  simp only [Function.comp, bank, slot]

/-- Settles O19. -/
theorem identifyAnswers : Obligations.IdentifyAnswers := by
  intro s r rest h hr
  have hcode : r.code = 0x02 := by simp [Request.code, hr]
  have hlen : lengthOk r = true := by simp [lengthOk, hcode, hr]
  have run : RunsAs anyLines .identify 0x02 fun r s => s.answer r .ok s.identifyFields := fun _ => rfl
  have key := run.answers h hcode hlen rfl
  have fields : ((lookedAt anyLines s .identify).withIntake rest).identifyFields = s.identifyFields := rfl
  rw [fields, State.identifyFields, freeFuseSlots_eq] at key
  exact key

/-! ### STATUS (R154) -/

/-- Settles O20: the fields of STATUS, of which the sampled lines change the PSTATs alone. -/
theorem statusAnswers : Obligations.StatusAnswers := by
  intro s lines r rest h hr
  have hcode : r.code = 0x03 := by simp [Request.code, hr]
  have hlen : lengthOk r = true := by simp [lengthOk, hcode, hr]
  have run : RunsAs lines (.status lines) 0x03 fun r s => s.answer r .ok s.statusFields := fun _ => rfl
  have key := run.answers h hcode hlen rfl
  have pstat (p : Port) : ((s.sample lines).pin p).pstat = lines[p].pstat := by rw [(sample_spec s lines).1]
  have fields : ((lookedAt lines s (.status lines)).withIntake rest).statusFields = (s.sample lines).statusFields := rfl
  rw [fields, State.statusFields] at key
  obtain ⟨pins, e⟩ := sample_eq_pins s lines
  have ports : allPorts.flatMap (s.sample lines).statusPort = allPorts.flatMap fun p => [byteOf (s.engine p).state.code,
      byteOf (s.queueOf p).length, lines[p].pstat.setWidth 8, flagByte (s.engine p).attention.isSome] := by
    congr 1
    funext p
    rw [State.statusPort, pstat, e]
    rfl
  rw [ports] at key
  have look : lookedAt lines s (.status lines) = s.sample lines := rfl
  rw [look, e] at key
  rw [e]
  exact key

/-! ### JOB QUERY (R56) -/

/-- The tag a request names in its first two bytes. -/
theorem tag_of_field {r : Request} {code : Byte} {tag : Tag} (h : r.payload = code :: natBytes 2 tag.toNat) :
    BitVec.ofNat 16 (field r.payload 1 2) = tag := by
  have e := field_natBytes (k := 2) (n := tag.toNat) tag.isLt []
  rw [List.append_nil] at e
  rw [h, field_cons, e, BitVec.ofNat_toNat, BitVec.setWidth_eq]

theorem doJobQuery_ok {s : State} {r : Request} {tag : Tag} {j : Job} (hr : r.payload = 0x12 :: natBytes 2 tag.toNat)
    (h : s.part.state = .ready) (hj : s.jobOf tag = some j) : s.doJobQuery r = s.answer r .ok j.bytes := by
  rw [State.doJobQuery, whenReady_ready h, tag_of_field hr, hj]

theorem doJobQuery_noTag {s : State} {r : Request} {tag : Tag} (hr : r.payload = 0x12 :: natBytes 2 tag.toNat)
    (h : s.part.state = .ready) (hj : s.jobOf tag = none) : s.doJobQuery r = s.answer r .noTag [] := by
  rw [State.doJobQuery, whenReady_ready h, tag_of_field hr, hj]

/-- Settles O28, the record's bytes being Job.bytes written out. -/
theorem jobQueryAnswers : Obligations.JobQueryAnswers := by
  intro s r rest tag h hr hready
  have hcode : r.code = 0x12 := by simp [Request.code, hr]
  have hlen : lengthOk r = true := by simp [lengthOk, hcode, hr]
  have run : RunsAs anyLines .jobQuery 0x12 fun r s => s.doJobQuery r := fun _ => rfl
  refine ⟨fun j hj => run.answers (st := .ok) (fs := j.bytes) h hcode hlen ?_, fun hj => run.answers (st := .noTag) (fs := []) h hcode hlen ?_⟩
  · exact doJobQuery_ok (s := s.withIntake rest) hr hready hj
  · exact doJobQuery_noTag (s := s.withIntake rest) hr hready hj

end Sys2Proof.Machine
end

