-- ==== Sys2Proof/Proofs/Settings.lean ====
section
/-! PROOF. SET SETTING (R156 to R159): what a setting written changes, and the three checks. -/

namespace Sys2Proof.Machine

open Sys2Proof.Safety

-- One thread: the whole text is checked under a memory limit that holds a bounded number of thread stacks.
set_option Elab.async false

namespace State

/-! ### An engine at rest -/

@[simp] theorem restEngine_engine (s : State) (p : Port) (st : EngineState) :
    (s.restEngine p st).engine p = atRest (s.engine p) st := engine_self _ _ _

theorem restEngine_engine_other {s : State} {p q : Port} {st : EngineState} (h : q ≠ p) :
    (s.restEngine p st).engine q = s.engine q := engine_other _ _ _ q h

theorem restEngine_outp_other {s : State} {p q : Port} {st : EngineState} (h : q ≠ p) :
    (s.restEngine p st).outp q = s.outp q := outp_other _ _ _ q h

@[simp] theorem inertEngine_engine (s : State) (p : Port) : (s.inertEngine p).engine p = atRest (s.engine p) .inert :=
  engine_self _ _ _

theorem inertEngine_engine_other {s : State} {p q : Port} (h : q ≠ p) : (s.inertEngine p).engine q = s.engine q :=
  engine_other _ _ _ q h

theorem inertEngine_xack (s : State) (p : Port) : ((s.inertEngine p).outp p).xack = false := by
  simp [State.inertEngine]

theorem inertEngine_outp_other {s : State} {p q : Port} (h : q ≠ p) : (s.inertEngine p).outp q = s.outp q := by
  unfold State.inertEngine
  rw [outp_other _ _ _ q h, restEngine_outp_other h]

/-! ### ENABLE written (R59) -/

theorem setEnable_off (s : State) (p : Port) :
    s.setEnable p false = (s.setPortSettings p { s.portSettings p with enable := false }).inertEngine p := rfl

theorem setEnable_on {s : State} {p : Port} (hr : s.part.state = .ready) (hi : (s.engine p).state = .inert) :
    s.setEnable p true = (s.setPortSettings p { s.portSettings p with enable := true }).restEngine p .idle :=
  if_pos ⟨hr, hi⟩

theorem setEnable_stays {s : State} {p : Port} (h : s.part.state ≠ .ready ∨ (s.engine p).state ≠ .inert) :
    s.setEnable p true = s.setPortSettings p { s.portSettings p with enable := true } :=
  if_neg fun ⟨hr, hi⟩ => h.elim (fun k => k hr) fun k => k hi

/-- Writing ENABLE is one of three things. -/
theorem setEnable_cases (s : State) (p : Port) (b : Bool) :
    s.setEnable p b = s.setPortSettings p { s.portSettings p with enable := b } ∨
      s.setEnable p b = (s.setPortSettings p { s.portSettings p with enable := b }).restEngine p .idle ∨
      s.setEnable p b = (s.setPortSettings p { s.portSettings p with enable := b }).inertEngine p := by
  cases b with
  | false => exact .inr (.inr rfl)
  | true =>
    by_cases h : s.part.state = .ready ∧ (s.engine p).state = .inert
    · exact .inr (.inl (if_pos h))
    · exact .inl (if_neg h)

theorem setEnable_settings (s : State) (p : Port) (b : Bool) :
    (s.setEnable p b).settings = (s.setPortSettings p { s.portSettings p with enable := b }).settings := by
  rcases setEnable_cases s p b with e | e | e <;> rw [e] <;> rfl

theorem setEnable_other {s : State} {p q : Port} {b : Bool} (h : q ≠ p) :
    (s.setEnable p b).engine q = s.engine q ∧ (s.setEnable p b).outp q = s.outp q := by
  rcases setEnable_cases s p b with e | e | e <;> rw [e]
  · exact ⟨rfl, rfl⟩
  · exact ⟨restEngine_engine_other h, restEngine_outp_other h⟩
  · exact ⟨inertEngine_engine_other h, inertEngine_outp_other h⟩

/-! ### The scrub rate written (R108) -/

theorem changeScrubRate_cases (s : State) (v : Byte) :
    s.changeScrubRate v = { s with settings := { s.settings with scrubRate := v },
                                   maint := (s.changeScrubRate v).maint } ∧
      (s.changeScrubRate v).maint.op = s.maint.op := by
  unfold State.changeScrubRate
  dsimp only
  split
  · exact ⟨rfl, rfl⟩
  · split <;> exact ⟨rfl, rfl⟩

theorem changeScrubRate_zero (s : State) : (s.changeScrubRate 0).maint.scrub = { s.maint.scrub with
    timer := none, credit := false,
    resumeAtExpiry := s.maint.scrub.resumeAtExpiry || decide (s.maint.scrub.visit = .inRow) } := rfl

theorem changeScrubRate_started {s : State} {v : Byte} (h : s.settings.scrubRate = 0) (hv : v ≠ 0) :
    (s.changeScrubRate v).maint.scrub = { s.maint.scrub with timer := some v } := by
  unfold State.changeScrubRate
  dsimp only
  rw [if_neg hv, if_pos h]
  rfl

theorem changeScrubRate_changed {s : State} {v : Byte} (h : s.settings.scrubRate ≠ 0) (hv : v ≠ 0) :
    (s.changeScrubRate v).maint.scrub = s.maint.scrub := by
  unfold State.changeScrubRate
  dsimp only
  rw [if_neg hv, if_neg h]

/-! ### The settings after a write -/

/-- A port's settings after a write. -/
theorem applySetting_portSettings (s : State) (x : Param) (v : Byte) (q : Port) :
    (s.applySetting x v).portSettings q =
      { enable := if x = .enable q then decide (v ≠ 0) else (s.portSettings q).enable,
        width := if x = .width q then (if v = 16 then .w16 else .w8) else (s.portSettings q).width,
        attention := if x = .attention q then decide (v ≠ 0) else (s.portSettings q).attention } := by
  have enabled (p : Port) (b : Bool) : (s.setEnable p b).portSettings q =
      (s.setPortSettings p { s.portSettings p with enable := b }).portSettings q :=
    congrArg (fun c : Settings => c.ports[q]) (setEnable_settings s p b)
  cases x with
  | enable p =>
    rw [show s.applySetting (.enable p) v = s.setEnable p (decide (v ≠ 0)) from rfl, enabled]
    by_cases h : q = p
    · subst h
      simp
    · simp [portSettings_other _ _ _ q h, Ne.symm h]
  | width p =>
    unfold State.applySetting
    by_cases h : q = p
    · subst h
      simp
    · simp [portSettings_other _ _ _ q h, Ne.symm h]
  | attention p =>
    unfold State.applySetting
    by_cases h : q = p
    · subst h
      simp
    · simp [portSettings_other _ _ _ q h, Ne.symm h]
  | scrubRate =>
    rw [show s.applySetting .scrubRate v = s.changeScrubRate v from rfl, (changeScrubRate_cases s v).1]
    simp [State.portSettings]
  | _ => simp [State.applySetting, State.portSettings]

theorem flagByte_of_le_one {v : Byte} (h : v.toNat ≤ 1) : flagByte (decide (v ≠ 0)) = v := by
  have : v = 0 ∨ v = 1 := by bv_omega
  rcases this with rfl | rfl <;> rfl

/-- A setting written has the value, if it is one of its values (R158). -/
theorem applySetting_setting {s : State} {x : Param} {v : Byte} (h : x.valueOk v.toNat = true) :
    (s.applySetting x v).setting x = v := by
  cases x with
  | enable p =>
    rw [State.setting, applySetting_portSettings]
    simp only [if_true]
    exact flagByte_of_le_one (of_decide_eq_true h)
  | width p =>
    rw [State.setting, applySetting_portSettings]
    have : v = 8 ∨ v = 16 := by
      simp only [Param.valueOk, Bool.or_eq_true, decide_eq_true_eq] at h
      bv_omega
    rcases this with rfl | rfl <;> simp
  | attention p =>
    rw [State.setting, applySetting_portSettings]
    simp only [if_true]
    exact flagByte_of_le_one (of_decide_eq_true h)
  | refreshRange =>
    have hv : v.toNat ≤ 1 := of_decide_eq_true h
    have : v = 0 ∨ v = 1 := by bv_omega
    rcases this with rfl | rfl <;> rfl
  | scrubRate => 
    rw [show s.applySetting .scrubRate v = s.changeScrubRate v from rfl, (changeScrubRate_cases s v).1]
    rfl
  | frameErrorHalt => exact flagByte_of_le_one (of_decide_eq_true h)
  | wakeOnAttention => exact flagByte_of_le_one (of_decide_eq_true h)
  | holdLimit => rfl
  | noticeTimeout => rfl

/-- Every other setting keeps its value. -/
theorem applySetting_setting_other {s : State} {x y : Param} {v : Byte} (h : y ≠ x) :
    (s.applySetting x v).setting y = s.setting y := by
  cases y with
  | enable q => simp only [State.setting, applySetting_portSettings, if_neg h.symm]
  | width q => simp only [State.setting, applySetting_portSettings, if_neg h.symm]
  | attention q => simp only [State.setting, applySetting_portSettings, if_neg h.symm]
  | _ =>
    cases x with
    | enable p => simp only [State.setting, State.applySetting, setEnable_settings]; rfl
    | scrubRate =>
      rw [show s.applySetting .scrubRate v = s.changeScrubRate v from rfl, (changeScrubRate_cases s v).1]
      first | rfl | exact absurd rfl h
    | _ => first | rfl | exact absurd rfl h

/-- What a write may change beside the settings: the engines and outputs, and the scrub; with it, the maintenance operation
stands. -/
theorem applySetting_rest (s : State) (x : Param) (v : Byte) :
    { s.applySetting x v with settings := s.settings, engines := s.engines, outs := s.outs, maint := s.maint } = s ∧
      (s.applySetting x v).maint.op = s.maint.op ∧
      ((∀ p : Port, x ≠ .enable p) → (s.applySetting x v).engines = s.engines ∧ (s.applySetting x v).outs = s.outs) ∧
      (x ≠ .scrubRate → (s.applySetting x v).maint = s.maint) := by
  cases x with
  | enable p =>
    rw [show s.applySetting (.enable p) v = s.setEnable p (decide (v ≠ 0)) from rfl]
    refine ⟨?_, ?_, fun h => absurd rfl (h p), fun _ => ?_⟩
    all_goals rcases setEnable_cases s p (decide (v ≠ 0)) with e | e | e <;> rw [e] <;> rfl
  | scrubRate =>
    have hop := (changeScrubRate_cases s v).2
    rw [show s.applySetting .scrubRate v = s.changeScrubRate v from rfl, (changeScrubRate_cases s v).1]
    exact ⟨rfl, hop, fun _ => ⟨rfl, rfl⟩, fun h => absurd rfl h⟩
  | _ => exact ⟨rfl, rfl, fun _ => ⟨rfl, rfl⟩, fun _ => rfl⟩

end State

/-! ### The row -/

section Row
variable {s : State} {r : Request} {id v : Byte}

theorem field_one_two (code b c : Byte) (l : List Byte) : field (code :: b :: c :: l) 2 1 = c.toNat := field_one_one b c l

theorem doSetSetting_range (hr : r.payload = [0x05, id, v])
    (h : Param.ofId id.toNat = none ∨ ∃ x : Param, Param.ofId id.toNat = some x ∧ x.valueOk v.toNat = false) :
    s.doSetSetting r = s.answer r .range [] := by
  rcases h with h | ⟨x, h, hv⟩
  · simp [State.doSetSetting, hr, field_one_one, h]
  · simp [State.doSetSetting, hr, field_one_one, field_one_two, h, hv]

theorem doSetSetting_busy (hr : r.payload = [0x05, id, v]) {x : Param} (h : Param.ofId id.toNat = some x)
    (hv : x.valueOk v.toNat = true) (hb : s.mayChange x = false) : s.doSetSetting r = s.answer r .busy [] := by
  simp [State.doSetSetting, hr, field_one_one, field_one_two, h, hv, hb]

theorem doSetSetting_ok (hr : r.payload = [0x05, id, v]) {x : Param} (h : Param.ofId id.toNat = some x)
    (hv : x.valueOk v.toNat = true) (hb : s.mayChange x = true) :
    s.doSetSetting r = (s.applySetting x v).answer r .ok [id, v] := by
  simp [State.doSetSetting, hr, field_one_one, field_one_two, h, hv, hb, State.applySetting_setting hv]

/-- A port with an unfinished job has none of its settings changed (R156). -/
theorem mayChange_false {x : Param} {p : Port} (h : x = .enable p ∨ x = .width p ∨ x = .attention p) (hq : s.queueOf p ≠ []) :
    s.mayChange x = false := by
  rcases h with rfl | rfl | rfl <;> simp [State.mayChange, State.unfinished, hq]

theorem setSetting_runsAs : RunsAs anyLines .setSetting 0x05 fun r s => s.doSetSetting r := fun _ => rfl

theorem code_setSetting (hr : r.payload = [0x05, id, v]) : r.code = 0x05 ∧ lengthOk r = true := by
  have hcode : r.code = 0x05 := by simp [Request.code, hr]
  exact ⟨hcode, by simp [lengthOk, hcode, hr]⟩

end Row

/-- Settles O22: accepted, the state is the written one but for the answer; refused, the first check that fails answers alone. -/
theorem setSettingWritesOrRefuses : Obligations.SetSettingWritesOrRefuses := by
  refine ⟨fun s r rest id v x h hr hid hv hmay => ?_, fun s r rest id v h hr => ?_⟩
  · obtain ⟨hcode, hlen⟩ := code_setSetting hr
    have ⟨_, hfree, _, _⟩ := h
    obtain ⟨hrest, hop, hports, hmaint⟩ := State.applySetting_rest (s.withIntake rest) x v
    have hlink : ((s.withIntake rest).applySetting x v).link = { s.link with intake := rest } := (congrArg State.link hrest :)
    have hproc : ((s.withIntake rest).applySetting x v).proc = s.proc := (congrArg State.proc hrest :)
    have run := setSetting_runsAs.run h hcode hlen
    have done : (lookedAt anyLines s .setSetting).withIntake rest = s.withIntake rest := rfl
    have accepted : (s.withIntake rest).doSetSetting r = ((s.withIntake rest).applySetting x v).answer r .ok [id, v] :=
      doSetSetting_ok hr hid hv hmay
    rw [done, accepted] at run
    obtain ⟨hmade, hintake, -, hthen, hkept⟩ := answer_sent r .ok [id, v] hlink (hproc ▸ hfree)
    rw [hcode] at hmade
    generalize (((s.withIntake rest).applySetting x v).answer r .ok [id, v]).transmit = t at run hmade hintake hthen hkept
    have written : t = { (s.withIntake rest).applySetting x v with link := t.link, proc := t.proc } :=
      (congrArg (fun w : State => { w with link := t.link, proc := t.proc }) hthen :)
    have setting (y : Param) : t.setting y = ((s.withIntake rest).applySetting x v).setting y := by rw [written]; rfl
    have engine (p : Port) : t.engine p = ((s.withIntake rest).applySetting x v).engine p := by rw [written]; rfl
    have outp (p : Port) : t.outp p = ((s.withIntake rest).applySetting x v).outp p := by rw [written]; rfl
    have maint : t.maint = ((s.withIntake rest).applySetting x v).maint := by rw [written]
    have engines : t.engines = ((s.withIntake rest).applySetting x v).engines := by rw [written]
    have outs : t.outs = ((s.withIntake rest).applySetting x v).outs := by rw [written]
    have hkeep : { t with
        link := s.link, proc := s.proc, settings := s.settings, engines := s.engines, outs := s.outs, maint := s.maint } = s := by
      rw [written]
      exact (congrArg (fun w : State => { w with link := s.link, proc := s.proc }) hrest :)
    refine ⟨t, run, hmade, hintake, hkept, (setting x).trans (State.applySetting_setting hv),
      fun y hy => (setting y).trans (State.applySetting_setting_other hy), maint ▸ hop, hkeep, ?_, ?_,
      fun hx => ⟨engines.trans (hports hx).1, outs.trans (hports hx).2⟩, ?_, ?_, fun hx => maint.trans (hmaint hx),
      ?_, ?_, ?_⟩
    · rintro p rfl rfl
      rw [engine, outp]
      exact ⟨by rw [show (s.withIntake rest).applySetting (.enable p) 0 = (s.withIntake rest).setEnable p false from rfl,
        State.setEnable_off, State.inertEngine_engine]; rfl, State.inertEngine_xack _ p⟩
    · rintro p rfl rfl hready hinert
      rw [engine, show (s.withIntake rest).applySetting (.enable p) 1 = (s.withIntake rest).setEnable p true from rfl,
        State.setEnable_on (s := s.withIntake rest) hready hinert, State.restEngine_engine]
      rfl
    · rintro p q rfl hq
      rw [engine, outp]
      exact State.setEnable_other hq
    · rintro p rfl rfl hnot
      rw [engine, outp, show (s.withIntake rest).applySetting (.enable p) 1 = (s.withIntake rest).setEnable p true from rfl,
        State.setEnable_stays (s := s.withIntake rest) hnot]
      exact ⟨rfl, rfl⟩
    · rintro rfl hold hnew
      rw [maint]
      exact State.changeScrubRate_started (s := s.withIntake rest) hold hnew
    · rintro rfl hold hnew
      rw [maint]
      exact State.changeScrubRate_changed (s := s.withIntake rest) hold hnew
    · rintro rfl rfl
      rw [maint]
      exact State.changeScrubRate_zero (s.withIntake rest)
  · obtain ⟨hcode, hlen⟩ := code_setSetting hr
    refine ⟨fun hbad => setSetting_runsAs.answers h hcode hlen (doSetSetting_range hr hbad), fun x p hid hv hx hq =>
      setSetting_runsAs.answers h hcode hlen (doSetSetting_busy hr hid hv (mayChange_false hx hq))⟩

end Sys2Proof.Machine
end

