-- ==== Sys2Proof/Proofs/Jobs.lean ====
section
/-! PROOF. Jobs from their submission to their finish (R37 to R57): SUBMIT, the start of a job, CANCEL, and the finish. -/

namespace Sys2Proof.Machine

open Sys2Proof.Safety

-- One thread: the whole text is checked under a memory limit that holds a bounded number of thread stacks.
set_option Elab.async false

/-! ### SUBMIT's payload (R40, R140) -/

/-- A field that holds a number's bytes, with other bytes before and after. -/
theorem field_mid (before after : List Byte) {k n : Nat} (h : n < 256 ^ k) :
    field (before ++ (natBytes k n ++ after)) before.length k = n := by
  have e : (before ++ (natBytes k n ++ after)).drop before.length = natBytes k n ++ after := by simp
  have key := field_natBytes h after
  unfold field at key ⊢
  rw [e]
  exact key

/-- Settles O23: each field of the payload spells the number whose bytes stand there. -/
theorem submitFieldsAreRead : Obligations.SubmitFieldsAreRead := by
  intro seq tag port mode address length steer hold hport hmode hsteer hhold haddress hlength
  generalize hpl : (0x10 : Byte) :: (natBytes 2 tag.toNat ++ natBytes 1 port ++ natBytes 1 mode ++ natBytes 4 address ++
    natBytes 4 length ++ natBytes 1 steer ++ natBytes 1 hold) = pl
  have tagField : field pl 1 2 = tag.toNat := by
    simpa [← hpl] using field_mid [0x10] (natBytes 1 port ++ (natBytes 1 mode ++ (natBytes 4 address ++
      (natBytes 4 length ++ (natBytes 1 steer ++ natBytes 1 hold))))) (k := 2) tag.isLt
  have portField : field pl 3 1 = port := by
    simpa [← hpl] using field_mid (0x10 :: natBytes 2 tag.toNat) (natBytes 1 mode ++ (natBytes 4 address ++
      (natBytes 4 length ++ (natBytes 1 steer ++ natBytes 1 hold)))) (k := 1) hport
  have modeField : field pl 4 1 = mode := by
    simpa [← hpl] using field_mid (0x10 :: (natBytes 2 tag.toNat ++ natBytes 1 port)) (natBytes 4 address ++
      (natBytes 4 length ++ (natBytes 1 steer ++ natBytes 1 hold))) (k := 1) hmode
  have addressField : field pl 5 4 = address := by
    simpa [← hpl] using field_mid (0x10 :: (natBytes 2 tag.toNat ++ (natBytes 1 port ++ natBytes 1 mode)))
      (natBytes 4 length ++ (natBytes 1 steer ++ natBytes 1 hold)) (k := 4) haddress
  have lengthField : field pl 9 4 = length := by
    simpa [← hpl] using field_mid (0x10 :: (natBytes 2 tag.toNat ++ (natBytes 1 port ++ (natBytes 1 mode ++
      natBytes 4 address)))) (natBytes 1 steer ++ natBytes 1 hold) (k := 4) hlength
  have steerField : field pl 13 1 = steer := by
    simpa [← hpl] using field_mid (0x10 :: (natBytes 2 tag.toNat ++ (natBytes 1 port ++ (natBytes 1 mode ++
      (natBytes 4 address ++ natBytes 4 length))))) (natBytes 1 hold) (k := 1) hsteer
  have holdField : field pl 14 1 = hold := by
    simpa [← hpl] using field_mid (0x10 :: (natBytes 2 tag.toNat ++ (natBytes 1 port ++ (natBytes 1 mode ++
      (natBytes 4 address ++ (natBytes 4 length ++ natBytes 1 steer)))))) [] (k := 1) hhold
  have htag : BitVec.ofNat 16 tag.toNat = tag := BitVec.ofNat_toNat _ _ |>.trans (BitVec.setWidth_eq _)
  simp only [submitJob, tagField, portField, modeField, addressField, lengthField, steerField, holdField, htag]
  rfl

/-! ### SUBMIT's checks (R40) -/

section Submit
variable {s : State} {r : Request} {j : Job}

theorem doSubmit_range (h : s.part.state = .ready) (hj : submitJob r = none) : s.doSubmit r = s.answer r .range [] := by
  rw [State.doSubmit, whenReady_ready h, hj]

theorem doSubmit_portOff (h : s.part.state = .ready) (hj : submitJob r = some j)
    (he : (s.portSettings j.port).enable = false) : s.doSubmit r = s.answer r .portOff [] := by
  rw [State.doSubmit, whenReady_ready h, hj]
  simp [he]

theorem doSubmit_tagInUse (h : s.part.state = .ready) (hj : submitJob r = some j)
    (he : (s.portSettings j.port).enable = true) (ht : (s.jobOf j.tag).isSome = true) :
    s.doSubmit r = s.answer r .tagInUse [] := by
  rw [State.doSubmit, whenReady_ready h, hj]
  simp [he, ht]

theorem doSubmit_full (h : s.part.state = .ready) (hj : submitJob r = some j)
    (he : (s.portSettings j.port).enable = true) (ht : s.jobOf j.tag = none) (hq : 8 ≤ (s.queueOf j.port).length) :
    s.doSubmit r = s.answer r .full [] := by
  rw [State.doSubmit, whenReady_ready h, hj]
  simp [he, ht, Config.portJobs, State.unfinished, hq]

theorem doSubmit_noSlot (h : s.part.state = .ready) (hj : submitJob r = some j)
    (he : (s.portSettings j.port).enable = true) (ht : s.jobOf j.tag = none) (hq : (s.queueOf j.port).length < 8)
    (hs : 32 ≤ s.jobs.length) : s.doSubmit r = s.answer r .noSlot [] := by
  rw [State.doSubmit, whenReady_ready h, hj]
  simp [he, ht, Config.portJobs, Config.jobSlots, State.unfinished, Nat.not_le.2 hq, hs]

theorem doSubmit_accepted (h : s.part.state = .ready) (hj : submitJob r = some j)
    (he : (s.portSettings j.port).enable = true) (ht : s.jobOf j.tag = none) (hq : (s.queueOf j.port).length < 8)
    (hs : s.jobs.length < 32) : s.doSubmit r = ((s.acceptJob r j).portSettle j.port).schedule := by
  rw [State.doSubmit, whenReady_ready h, hj]
  simp [he, ht, Config.portJobs, Config.jobSlots, State.unfinished, Nat.not_le.2 hq, Nat.not_le.2 hs]

end Submit

theorem submit_runsAs (lines : PortLines) : RunsAs lines (.submit lines) 0x10 fun r s => s.doSubmit r := fun _ => rfl

/-- The state in which a request that looks at the sampled lines is executed: the request has left the intake queue. -/
def State.asked (s : State) (lines : PortLines) (rest : List Request) : State := (s.sample lines).withIntake rest

/-- It differs from the state at the request in the pins and the intake queue. -/
theorem asked_eq (s : State) (lines : PortLines) (rest : List Request) :
    ∃ pins, s.asked lines rest = { s with pins := pins, link := { s.link with intake := rest } } := by
  obtain ⟨pins, e⟩ := sample_eq_pins s lines
  exact ⟨pins, by rw [State.asked, e]; rfl⟩

theorem asked_pins (s : State) (lines : PortLines) (rest : List Request) :
    (s.asked lines rest).pins = (s.sample lines).pins := rfl

/-- Settles O24: the first check of R40 that fails. -/
theorem submitRefused : Obligations.SubmitRefused := by
  intro s lines r rest h hcode hlen hready
  obtain ⟨pins, e⟩ := asked_eq s lines rest
  have answers {st : Status} (hf : (s.asked lines rest).doSubmit r = (s.asked lines rest).answer r st []) :
      AnswersOnly (.submit lines) s (s.sample lines) rest { seq := r.seq, payload := [0x10, st.code] } :=
    (submit_runsAs lines).answers h hcode hlen hf
  rw [e] at answers
  refine ⟨fun hj => answers (doSubmit_range hready hj), fun j hj => ⟨fun he => answers (doSubmit_portOff hready hj he),
    fun he ht => answers (doSubmit_tagInUse hready hj he ht), fun he ht hq => answers (doSubmit_full hready hj he ht hq),
    fun he ht hq hs => answers (doSubmit_noSlot hready hj he ht hq hs)⟩⟩

/-! ### SUBMIT accepted (R41) -/

/-- An accepted SUBMIT: the slot, the queue and the answer, then the port's turns. -/
theorem exec_submit_accepted {s : State} {lines : PortLines} {r : Request} {rest : List Request} {j : Job}
    (h : AtHead s r rest) (hcode : r.code = 0x10) (hlen : lengthOk r = true) (hready : s.part.state = .ready)
    (hj : submitJob r = some j) (he : (s.portSettings j.port).enable = true) (ht : s.jobOf j.tag = none)
    (hq : (s.queueOf j.port).length < 8) (hs : s.jobs.length < 32) :
    exec (.submit lines) s = .next (((s.asked lines rest).acceptJob r j).portSettle j.port).schedule.transmit := by
  have run := (submit_runsAs lines).run h hcode hlen
  have asked : (lookedAt lines s (.submit lines)).withIntake rest = s.asked lines rest := rfl
  obtain ⟨pins, e⟩ := asked_eq s lines rest
  rw [run, asked, e]
  exact congrArg (fun u : State => Host.Outcome.next u.transmit) (doSubmit_accepted hready hj he ht hq hs)

/-- Of the state at the request, the pins as sampled and the intake queue alone are not kept. -/
theorem asked_kept (s : State) (lines : PortLines) (rest : List Request) :
    { s.asked lines rest with link := s.link, pins := s.pins } = s := by
  obtain ⟨pins, e⟩ := asked_eq s lines rest
  rw [e]

theorem asked_link (s : State) (lines : PortLines) (rest : List Request) :
    (s.asked lines rest).link = { s.link with intake := rest } := by
  obtain ⟨pins, e⟩ := asked_eq s lines rest
  rw [e]

theorem asked_proc (s : State) (lines : PortLines) (rest : List Request) : (s.asked lines rest).proc = s.proc :=
  (congrArg State.proc (asked_kept s lines rest) :)

/-- What an acceptance leaves: the job in a slot, its tag last in its port's queue, and the answer. -/
theorem acceptJob_spec {s b : State} {rest : List Request} (r : Request) (j : Job) (hl : b.link = { s.link with intake := rest })
    (hp : b.proc.executing = none) :
    (b.acceptJob r j).jobs = b.jobs ++ [j] ∧ (b.acceptJob r j).queueOf j.port = b.queueOf j.port ++ [j.tag] ∧
      (∀ p : Port, p ≠ j.port → (b.acceptJob r j).queueOf p = b.queueOf p) ∧
      AnsweredFrom s (b.acceptJob r j) rest { seq := r.seq, payload := [r.code, 0x00] } ∧
      { b.acceptJob r j with link := b.link, proc := b.proc, jobs := b.jobs, queues := b.queues } = b := by
  obtain ⟨hanswer, hrest⟩ := State.answer_spec (s := s) (rest := rest)
    (b := ({ b with jobs := b.jobs ++ [j] } : State).setQueue j.port (b.queueOf j.port ++ [j.tag])) r .ok [] hl hp
  exact ⟨(congrArg State.jobs hrest :), (congrArg (fun u : State => u.queueOf j.port) hrest).trans (State.queueOf_self _ _ _),
    fun p hp => (congrArg (fun u : State => u.queueOf p) hrest).trans (State.queueOf_other _ _ _ p hp), hanswer,
    (congrArg (fun u : State => { u with jobs := b.jobs, queues := b.queues }) hrest :)⟩

/-- The state of an accepted SUBMIT before the port's turns. -/
theorem submitted_spec {s : State} (lines : PortLines) {r : Request} {rest : List Request} (j : Job) (h : AtHead s r rest)
    (hcode : r.code = 0x10) :
    ((s.asked lines rest).acceptJob r j).jobs = s.jobs ++ [j] ∧
      ((s.asked lines rest).acceptJob r j).queueOf j.port = s.queueOf j.port ++ [j.tag] ∧
      (∀ p : Port, p ≠ j.port → ((s.asked lines rest).acceptJob r j).queueOf p = s.queueOf p) ∧
      AnsweredFrom s ((s.asked lines rest).acceptJob r j) rest { seq := r.seq, payload := [0x10, 0x00] } ∧
      ((s.asked lines rest).acceptJob r j).pins = (s.sample lines).pins ∧
      { (s.asked lines rest).acceptJob r j with
        link := s.link, proc := s.proc, jobs := s.jobs, queues := s.queues, pins := s.pins } = s := by
  have ⟨_, hfree, _, _⟩ := h
  have kept := asked_kept s lines rest
  have jobs : (s.asked lines rest).jobs = s.jobs := (congrArg State.jobs kept :)
  have queueOf (p : Port) : (s.asked lines rest).queueOf p = s.queueOf p := (congrArg (fun u : State => u.queueOf p) kept :)
  obtain ⟨hjobs, hqueue, hothers, hanswer, hrest⟩ := acceptJob_spec r j (asked_link s lines rest)
    ((congrArg Processor.executing (asked_proc s lines rest)).trans hfree)
  rw [hcode] at hanswer
  exact ⟨jobs ▸ hjobs, queueOf _ ▸ hqueue, fun p hp => (hothers p hp).trans (queueOf p), hanswer,
    (congrArg State.pins hrest :),
    (congrArg (fun u : State => { u with
      link := s.link, proc := s.proc, jobs := s.jobs, queues := s.queues, pins := s.pins }) hrest).trans
      (congrArg (fun u : State => { u with proc := s.proc, jobs := s.jobs, queues := s.queues }) kept)⟩

/-- Settles O25. -/
theorem submitAccepted : Obligations.SubmitAccepted := by
  intro s lines r rest j h hcode hlen hready hj he ht hq hs
  exact ⟨_, exec_submit_accepted h hcode hlen hready hj he ht hq hs, submitted_spec lines j h hcode⟩

/-! ### CANCEL (R52 to R55) -/

section Cancel
variable {s : State} {r : Request} {j : Job} {tag : Tag}

theorem doCancel_noTag (h : s.part.state = .ready) (hr : r.payload = 0x11 :: natBytes 2 tag.toNat) (hj : s.jobOf tag = none) :
    s.doCancel r = s.answer r .noTag [] := by
  rw [State.doCancel, whenReady_ready h, tag_of_field hr, hj]

theorem doCancel_tooLate (h : s.part.state = .ready) (hr : r.payload = 0x11 :: natBytes 2 tag.toNat) (hj : s.jobOf tag = some j)
    (hq : j.state ≠ .queued) (ha : j.state ≠ .active) : s.doCancel r = s.answer r .tooLate [byteOf j.state.code] := by
  rw [State.doCancel, whenReady_ready h, tag_of_field hr, hj]
  dsimp only
  split
  · exact absurd ‹_› hq
  · exact absurd ‹_› ha
  · rfl

theorem doCancel_queued (h : s.part.state = .ready) (hr : r.payload = 0x11 :: natBytes 2 tag.toNat) (hj : s.jobOf tag = some j)
    (hq : j.state = .queued) : s.doCancel r =
      (((s.updateJob j.tag fun x => { x with outcome := some .cancelled, moved := 0 }).answer r .ok [0x00]).portSettle
        j.port).schedule := by
  rw [State.doCancel, whenReady_ready h, tag_of_field hr, hj]
  dsimp only
  rw [hq]
  rfl

theorem doCancel_active (h : s.part.state = .ready) (hr : r.payload = 0x11 :: natBytes 2 tag.toNat) (hj : s.jobOf tag = some j)
    (ha : j.state = .active) : s.doCancel r =
      (((s.stopJob j.port j .cancelled none).answer r .ok [0x03]).portSettle j.port).schedule := by
  rw [State.doCancel, whenReady_ready h, tag_of_field hr, hj]
  dsimp only
  rw [ha]
  rfl

end Cancel

theorem cancel_runsAs (lines : PortLines) : RunsAs lines (.cancel lines) 0x11 fun r s => s.doCancel r := fun _ => rfl

theorem code_cancel {r : Request} {tag : Tag} (hr : r.payload = 0x11 :: natBytes 2 tag.toNat) :
    r.code = 0x11 ∧ lengthOk r = true := by
  have hcode : r.code = 0x11 := by simp [Request.code, hr]
  exact ⟨hcode, by simp [lengthOk, hcode, hr]⟩

/-- The record and the locks of a job that is stopped. -/
theorem stopJob_jobs (s : State) (p : Port) (j : Job) (o : JobOutcome) (f : Option Nat) :
    (s.stopJob p j o f).jobs = s.jobs.map (fun x => if x.tag = j.tag then
      { x with state := .stopping, outcome := some o, faultAddress := f } else x) ∧
    LocksReleased s (s.stopJob p j o f) j.tag := by
  let s0 := s.updateJob j.tag fun y => { y with state := .stopping, outcome := some o, faultAddress := f }
  obtain ⟨bk, e, -, -, -⟩ := State.releaseLocksOf_spec s0 j.tag
  have locks : LocksReleased s (s0.releaseLocksOf j.tag) j.tag := State.releaseLocksOf_locks s0 j.tag
  rw [e] at locks
  unfold State.stopJob
  rw [show (s.updateJob j.tag fun y => { y with state := .stopping, outcome := some o, faultAddress := f }) = s0 from rfl, e]
  exact ⟨rfl, locks⟩

/-- Settles O27: ACTIVE, QUEUED, the other states, and no such tag. -/
theorem cancelByJobState : Obligations.CancelByJobState := by
  refine ⟨fun s lines r rest j h hr hready hj => ?_, fun s lines r rest tag h hr hready => ?_⟩
  · obtain ⟨hcode, hlen⟩ := code_cancel hr
    have run := (cancel_runsAs lines).run h hcode hlen
    have asked : (lookedAt lines s (.cancel lines)).withIntake rest = s.asked lines rest := rfl
    have ⟨_, hfree, _, _⟩ := h
    obtain ⟨pins, e⟩ := asked_eq s lines rest
    have hpins : pins = (s.sample lines).pins := by rw [← asked_pins s lines rest, e]
    rw [asked, e] at run
    let b : State := { s with pins := pins, link := { s.link with intake := rest } }
    have found : b.jobOf j.tag = some j := hj
    refine ⟨fun ha => ?_, fun hq => ?_⟩
    · obtain ⟨hjobs, hlocks⟩ := stopJob_jobs b j.port j .cancelled none
      obtain ⟨-, hengine, hothers, -, hacc, jb, en, bk, ac, hstop⟩ :=
        State.stopJob_spec (p := j.port) (o := .cancelled) (f := none) found
      obtain ⟨hanswer, hrest⟩ := State.answer_spec (s := s) (rest := rest) (b := b.stopJob j.port j .cancelled none) r .ok [0x03]
        (by rw [hstop]) (by rw [hstop]; exact hfree)
      rw [hcode] at hanswer
      refine ⟨_, run.trans (congrArg (fun u : State => Host.Outcome.next u.transmit)
        (doCancel_active (s := b) hready hr found ha)), hanswer, ?_⟩
      generalize (b.stopJob j.port j .cancelled none).answer r .ok [0x03] = u at hrest
      generalize b.stopJob j.port j .cancelled none = v at *
      exact ⟨(congrArg State.jobs hrest).trans hjobs, (congrArg (fun w : State => w.engine j.port) hrest).trans hengine,
        (congrArg State.accesses hrest).trans hacc,
        fun p hp => (congrArg (fun w : State => w.engine p) hrest).trans (hothers p hp),
        fun c => (congrArg (fun w : State => w.bank c) hrest).trans (hlocks c),
        (congrArg State.pins hrest).trans ((congrArg State.pins hstop).trans hpins),
        (congrArg (fun w : State => { w with
          link := s.link, proc := s.proc, jobs := s.jobs, engines := s.engines, banks := s.banks, accesses := s.accesses,
          pins := s.pins }) hrest).trans (by rw [hstop])⟩
    · obtain ⟨hanswer, hrest⟩ := State.answer_spec (s := s) (rest := rest)
        (b := b.updateJob j.tag fun x => { x with outcome := some .cancelled, moved := 0 }) r .ok [0x00] rfl hfree
      rw [hcode] at hanswer
      refine ⟨_, run.trans (congrArg (fun u : State => Host.Outcome.next u.transmit)
        (doCancel_queued (s := b) hready hr found hq)), hanswer, ?_⟩
      generalize (b.updateJob j.tag fun x => { x with outcome := some .cancelled, moved := 0 }).answer r .ok [0x00] = u at hrest
      exact ⟨(congrArg State.pins hrest).trans hpins, (congrArg State.jobs hrest :),
        (congrArg (fun w : State => { w with link := s.link, proc := s.proc, jobs := s.jobs, pins := s.pins }) hrest :)⟩
  · obtain ⟨hcode, hlen⟩ := code_cancel hr
    obtain ⟨pins, e⟩ := asked_eq s lines rest
    have answers {st : Status} {fs : List Byte} (hf : (s.asked lines rest).doCancel r = (s.asked lines rest).answer r st fs) :
        AnswersOnly (.cancel lines) s (s.sample lines) rest { seq := r.seq, payload := 0x11 :: st.code :: fs } :=
      (cancel_runsAs lines).answers h hcode hlen hf
    rw [e] at answers
    exact ⟨fun j hj hq ha => answers (doCancel_tooLate hready hr hj hq ha), fun hj => answers (doCancel_noTag hready hr hj)⟩

end Sys2Proof.Machine
end

