-- ==== Sys2Proof/Proofs/JobTurns.lean ====
section
/-! PROOF. A job's turns at its port: its finish (R49, R53, R75) and its start (R42, R66, R69). -/

namespace Sys2Proof.Machine

open Sys2Proof.Safety

-- One thread: the whole text is checked under a memory limit that holds a bounded number of thread stacks.
set_option Elab.async false

/-! ### The finish (R49) -/

/-- Admission or hold, the finish of a port's job leaves the accesses, PCLR and the other ports. -/
theorem finishes_keeps {s t : State} {p : Port} {j : Job} {rest : List Tag} (h : Finishes s t p j rest) :
    t.accesses = s.accesses ∧ (t.outp p).pclrPulses = (s.outp p).pclrPulses ∧
      ∀ q : Port, q ≠ p → t.engine q = s.engine q ∧ t.outp q = s.outp q := by
  obtain ⟨-, -, admitted, held, refused⟩ := h
  have ofHeld (k : IsHeld s t p j) : t.accesses = s.accesses ∧ (t.outp p).pclrPulses = (s.outp p).pclrPulses ∧
      ∀ q : Port, q ≠ p → t.engine q = s.engine q ∧ t.outp q = s.outp q := by
    obtain ⟨-, -, hothers, -, hrest⟩ := k
    exact ⟨(congrArg State.accesses hrest :), (congrArg (fun u : State => (u.outp p).pclrPulses) hrest :),
      fun q hq => ⟨hothers q hq, (congrArg (fun u : State => u.outp q) hrest :)⟩⟩
  cases hh : (s.pin p).holdn with
  | true => exact ofHeld (held hh).2.1
  | false =>
    by_cases room : s.notices.outbox.length < 16 ∧ s.ordinaryCount < 12
    · obtain ⟨-, -, ⟨tag, tags, -, -, -, -, hout, hothers, -, hrest⟩, -⟩ := admitted hh room.1 room.2
      exact ⟨(congrArg State.accesses hrest :), by rw [hout], fun q hq => (hothers q hq).2⟩
    · exact ofHeld (refused hh (by omega)).2.1

/-- Settles O29: with nothing outstanding the port's turn is the finish, PCLR pulsed before it for a CANCELLED job; a job cancelled
in the queue finishes at its head. -/
theorem jobFinishes : Obligations.JobFinishes := by
  refine ⟨fun s p j rest hready hstate hactive hj hq hout hfilling => ?_, fun s p j rest o hready hidle hq hj hqueued ho => ?_⟩
  · let v : State := (if j.outcome = some .cancelled then s.pulsePclr p else s).setEngine p
      { s.engine p with faultMark := none, nextBurst := none }
    have pulsed : (if j.outcome = some .cancelled then s.pulsePclr p else s) =
        s.setOutp p (if j.outcome = some .cancelled then
          { s.outp p with pclrPulses := (s.outp p).pclrPulses + 1, pclrSel := (s.outp p).sel } else s.outp p) := by
      split
      · rfl
      · unfold State.setOutp State.outp
        simp
    have hv : v = (s.setOutp p (if j.outcome = some .cancelled then
          { s.outp p with pclrPulses := (s.outp p).pclrPulses + 1, pclrSel := (s.outp p).sel } else s.outp p)).setEngine p
            { s.engine p with faultMark := none, nextBurst := none } := congrArg (fun u : State => u.setEngine p _) pulsed
    have hfin := State.finishJob_finishes (s := v) (p := p) (j := j) (rest := rest) (by rw [hv]; exact hj) (by rw [hv]; exact hq)
    have hvout : v.outp p = if j.outcome = some .cancelled then
        { s.outp p with pclrPulses := (s.outp p).pclrPulses + 1, pclrSel := (s.outp p).sel } else s.outp p := by
      rw [hv]
      exact State.outp_self _ _ _
    refine ⟨v, v.finishJob p j, ?_, hfin, State.engine_self _ _ _, hvout, fun q hne => ?_, by rw [hv]; rfl, ?_⟩
    · have done : s.finishIfDone p = some (v.finishJob p j) := by
        have active : s.activeJob p = some j := by
          unfold State.activeJob
          rw [hactive]
          exact hj
        have none : (s.engine p).halves.any Half.isFilling = false := by simpa using hfilling
        have engine : (if j.outcome = some .cancelled then s.pulsePclr p else s).engine p = s.engine p := by
          rw [pulsed]
          rfl
        unfold State.finishIfDone
        rw [active]
        dsimp only
        rw [if_pos (by simp [hout, none]), engine]
      unfold State.portStep
      rw [if_pos hready]
      rcases hstate with e | e <;> rw [e] <;> exact done
    · rw [hv]
      exact ⟨State.engine_other _ _ _ q hne, State.outp_other _ _ _ q hne⟩
    · rw [(finishes_keeps hfin).2.1, hvout]
      split <;> rfl
  · have hfin := State.finishJob_finishes (s := s) (p := p) hj hq
    obtain ⟨hacc, hpclr, hothers⟩ := finishes_keeps hfin
    refine ⟨s.finishJob p j, ?_, hfin, hacc, hpclr, hothers⟩
    have head : s.headJob p = some j := by
      unfold State.headJob
      rw [hq]
      exact hj
    unfold State.portStep State.startHead
    rw [if_pos hready, hidle, head]
    simp [hqueued, ho]

/-! ### The start (R42) -/

theorem jobOf_updateJob_other {s : State} {t u : Tag} {f : Job → Job} (hf : ∀ x, (f x).tag = x.tag) (h : u ≠ t) :
    (s.updateJob t f).jobOf u = s.jobOf u := by
  simp only [State.jobOf, State.updateJob_jobs, List.find?_map]
  have same : (fun x : Job => decide (x.tag = u)) ∘ (fun x => if x.tag = t then f x else x) = fun x => decide (x.tag = u) := by
    funext x
    by_cases hx : x.tag = t <;> simp [hx, hf]
  rw [same]
  cases e : s.jobs.find? fun x => decide (x.tag = u) with
  | none => rfl
  | some x =>
    have hx : x.tag = u := by simpa using List.find?_some e
    simp [hx, h]

theorem State.prefetchOne_engine_other (s : State) {p q : Port} (j : Job) (h : q ≠ p) :
    (s.prefetchOne p j).engine q = s.engine q := by
  unfold State.prefetchOne
  split
  · rfl
  · split
    · exact State.engine_other _ _ _ q h
    · rfl

theorem State.prefetch_engine_other (s : State) {p q : Port} (j : Job) (h : q ≠ p) : (s.prefetch p j).engine q = s.engine q :=
  (State.prefetchOne_engine_other _ j h).trans (State.prefetchOne_engine_other s j h)

/-- A job's start. -/
theorem startJob_spec {s : State} {p : Port} {j : Job} (hj : s.jobOf j.tag = some j) (hp : j.port = p) :
    ∃ (halves : List Half) (next : Option Nat) (reads : List Access),
      TurnOf s (s.startJob p j) p j { j with state := .active, moved := 0 } ∧ (s.startJob p j).banks = s.banks ∧
      (s.startJob p j).outp p = { s.outp p with sel := j.steer } ∧
      (s.startJob p j).engine p = { s.engine p with
        state := .running, activeJob := some j.tag, nextAddress := j.address, halves := halves, nextBurst := next,
        faultMark := none } ∧
      (s.startJob p j).accesses = s.accesses ++ reads ∧
      Refilled p j [] (if j.mode = .out ∨ j.mode = .compare then j.address.map burstOfAddress else none) halves next reads := by
  let s1 := s.updateJob j.tag fun x => { x with state := .active, moved := 0 }
  let s2 := s1.setEngine p { s1.engine p with
    state := .running, activeJob := some j.tag, nextAddress := j.address, halves := [], faultMark := none,
    nextBurst := if j.mode = .out ∨ j.mode = .compare then j.address.map burstOfAddress else none }
  let s3 := s2.setOutp p { s2.outp p with sel := j.steer }
  have start : s.startJob p j = s3.prefetch p j := rfl
  obtain ⟨halves, next, reads, hrefilled, hengine, hacc, en, ac, hrest⟩ := State.prefetch_spec s3 hp
  have hengine3 : s3.engine p = { s.engine p with
      state := .running, activeJob := some j.tag, nextAddress := j.address, halves := [], faultMark := none,
      nextBurst := if j.mode = .out ∨ j.mode = .compare then j.address.map burstOfAddress else none } :=
    State.engine_self _ _ _
  rw [hengine3] at hrefilled hengine
  have hothers (q : Port) (hq : q ≠ p) : (s3.prefetch p j).engine q = s.engine q := by
    have := State.prefetch_engine_other s3 j hq
    exact this.trans (State.engine_other _ _ _ q hq)
  refine ⟨halves, next, reads, ⟨?_, fun t ht => ?_, fun q hq => ⟨?_, ?_⟩, fun b _ => ?_, ?_⟩, ?_, ?_, hengine, hacc, hrefilled⟩
  · rw [start, hrest]
    exact State.jobOf_updateJob (fun _ => rfl) hj
  · rw [start, hrest]
    exact jobOf_updateJob_other (fun _ => rfl) ht
  · exact hothers q hq
  · rw [start, hrest]
    exact State.outp_other _ _ _ q hq
  · rw [start, hrest]
    rfl
  · rw [start, hrest]
    rfl
  · rw [start, hrest]
    rfl
  · rw [start, hrest]
    exact State.outp_self _ _ _

/-- Without a burst to read nothing is read ahead. -/
theorem refilled_none {p : Port} {j : Job} {kept halves : List Half} {next : Option Nat} {reads : List Access}
    (h : Refilled p j kept none halves next reads) : halves = kept ∧ next = none ∧ reads = [] :=
  h.1 (.inr nofun)

/-- An IDLE engine with a QUEUED head starts it. -/
theorem portStep_start {s : State} {p : Port} {j : Job} {rest : List Tag} (hready : s.part.state = .ready)
    (hidle : (s.engine p).state = .idle) (hq : s.queueOf p = j.tag :: rest) (hj : s.jobOf j.tag = some j)
    (hstate : j.state = .queued) (hout : j.outcome = none) : State.portStep p s = some (s.startJob p j) := by
  have head : s.headJob p = some j := by
    unfold State.headJob
    rw [hq]
    exact hj
  unfold State.portStep State.startHead
  rw [if_pos hready, hidle, head]
  simp [hstate, hout]

/-- A RUNNING engine with no request on XREQ has nothing to do. -/
theorem portStep_waits {s : State} {p : Port} (hrun : (s.engine p).state = .running) (hx : (s.pin p).xreq = none) :
    State.portStep p s = none := by
  unfold State.portStep State.takeUnit
  rw [hrun, hx]
  split <;> rfl

/-- The start of a job on an engine with no request on XREQ is all that stands to be done there. -/
theorem portSettle_start {s : State} {p : Port} {j : Job} {rest : List Tag} (hready : s.part.state = .ready)
    (hidle : (s.engine p).state = .idle) (hq : s.queueOf p = j.tag :: rest) (hj : s.jobOf j.tag = some j)
    (hstate : j.state = .queued) (hout : j.outcome = none) (hp : j.port = p) (hx : (s.pin p).xreq = none) :
    s.portSettle p = s.startJob p j := by
  obtain ⟨_, _, _, ⟨-, -, -, -, hrest⟩, -, -, hengine, -⟩ := startJob_spec hj hp
  have waits : State.portStep p (s.startJob p j) = none :=
    portStep_waits (by rw [hengine]) ((congrArg (fun u : State => (u.pin p).xreq) hrest).trans hx)
  unfold State.portSettle
  rw [iterate, portStep_start hready hidle hq hj hstate hout]
  exact iterate_none waits 39

/-- A job as SUBMIT names it: QUEUED, with nothing moved and no outcome, and not empty. -/
theorem submitJob_fresh {r : Request} {j : Job} (h : submitJob r = some j) :
    j.state = .queued ∧ j.outcome = none ∧ j.moved = 0 ∧ 1 ≤ j.length := by
  unfold submitJob at h
  dsimp only at h
  split at h
  · split at h
    · cases h
    · split at h
      · rename_i fields
        obtain rfl := Option.some.inj h
        exact ⟨rfl, rfl, rfl, fields.2.2.1⟩
      · cases h
  · cases h

/-- A new job is found under its tag. -/
theorem jobOf_append {s u : State} {j : Job} (hj : s.jobOf j.tag = none) (h : u.jobs = s.jobs ++ [j]) :
    u.jobOf j.tag = some j := by
  have hnone : (s.jobs.find? fun x => decide (x.tag = j.tag)) = none := hj
  unfold State.jobOf
  rw [h, List.find?_append, hnone]
  simp

/-- The READ of a region's first burst, the region going on past it. -/
theorem partRead_first {p : Port} {j : Job} {a : Nat} (ha : j.address = some a) (h : 32 * (a / 32) + 32 < a + j.length) :
    partRead p j (a / 32) = wordsAccess (.port p j.tag) a (32 * (a / 32) + 32) .read := by
  unfold partRead
  rw [ha, Option.getD_some, max_eq_left (by omega), min_eq_right h.le]

/-- The READ of a region within one burst. -/
theorem partRead_only {p : Port} {j : Job} {a : Nat} (ha : j.address = some a) (h : a + j.length ≤ 32 * (a / 32) + 32) :
    partRead p j (a / 32) = wordsAccess (.port p j.tag) a (a + j.length) .read := by
  unfold partRead
  rw [ha, Option.getD_some, max_eq_left (by omega), min_eq_left h]

/-- The READ of a region's second burst. -/
theorem partRead_second {p : Port} {j : Job} {a : Nat} (ha : j.address = some a) : partRead p j (a / 32 + 1) =
    wordsAccess (.port p j.tag) (32 * (a / 32) + 32) (min (a + j.length) (32 * (a / 32) + 64)) .read := by
  unfold partRead
  rw [ha, Option.getD_some, max_eq_right (by omega)]
  rfl

/-- Settles O26: the start is one turn; after an accepted SUBMIT to an idle engine it is the only one, and neither the scheduler nor
the transmitter changes what is said of it. -/
theorem submitStartsTheJob : Obligations.SubmitStartsTheJob := by
  refine ⟨fun s p j rest hready hidle hq hj hstate hout hp => ?_,
    fun s lines r rest j h hcode hlen hready hj he ht hq hs hidle hx => ?_⟩
  · obtain ⟨halves, next, reads, hturn, hbanks, houtp, hengine, hacc, hrefilled⟩ := startJob_spec hj hp
    refine ⟨_, halves, next, reads, portStep_start hready hidle hq hj hstate hout, hturn, hbanks, houtp, hengine, hacc,
      fun hmode => ?_, fun hmode => ?_⟩
    · rw [if_neg (by rcases hmode with e | e <;> simp [e])] at hrefilled
      exact refilled_none hrefilled
    · rw [if_pos hmode] at hrefilled
      exact hrefilled
  · obtain ⟨hqueued, hout, hmoved, hlength⟩ := submitJob_fresh hj
    obtain ⟨hjobs, hqueue, -, ⟨⟨hcache, hwhere, hfree⟩, -⟩, hpins, hrest⟩ := submitted_spec lines j h hcode
    have hqueue : ((s.asked lines rest).acceptJob r j).queueOf j.port = [j.tag] := by rw [hqueue, hq]; rfl
    have hline : ((s.asked lines rest).acceptJob r j).link.queue ≠ [] := answer_queue_ne_nil _ r .ok []
    have run := exec_submit_accepted (lines := lines) h hcode hlen hready hj he ht (by rw [hq]; decide) hs
    generalize (s.asked lines rest).acceptJob r j = b at *
    have found : b.jobOf j.tag = some j := jobOf_append ht hjobs
    have hxreq : (b.pin j.port).xreq = none := by
      rw [State.pin, hpins]
      exact (congrArg Pins.xreq ((sample_spec s lines).1 j.port)).trans hx
    have hbready : b.part.state = .ready := (congrArg (fun u : State => u.part.state) hrest :).trans hready
    have hbidle : (b.engine j.port).state = .idle := (congrArg (fun u : State => (u.engine j.port).state) hrest :).trans hidle
    rw [portSettle_start hbready hbidle hqueue found hqueued hout rfl hxreq] at run
    obtain ⟨halves, next, reads, ⟨hjob, -, -, -, hturn⟩, -, houtp, hengine, hacc, hrefilled⟩ := startJob_spec found rfl
    generalize b.startJob j.port j = v at *
    have hvlink : v.link = b.link := (congrArg State.link hturn :)
    have hvproc : v.proc = b.proc := (congrArg State.proc hturn :)
    have hvqueue : v.queueOf j.port = [j.tag] := (congrArg (fun u : State => u.queueOf j.port) hturn :).trans hqueue
    have hvmem : v.mem = s.mem := (congrArg State.mem hturn :).trans (congrArg State.mem hrest :)
    have hbouts : b.outp j.port = s.outp j.port := (congrArg (fun u : State => u.outp j.port) hrest :)
    have hbacc : b.accesses = s.accesses := (congrArg State.accesses hrest :)
    obtain ⟨⟨ac, bk, op, fc, hframe⟩, hposted, -⟩ := Scheduled.schedule v
    obtain ⟨lk, pr, nt, hthen⟩ := Outward.transmit v.schedule
    have hmade : Made v.schedule.transmit { seq := r.seq, payload := [0x10, 0x00] } :=
      made_transmit (by rw [hframe]; exact ⟨hvlink ▸ hcache, hvlink ▸ hvproc ▸ hwhere, hvproc ▸ hfree⟩)
        (by rw [hframe]; exact hvlink ▸ hline)
    generalize v.schedule.transmit = t at *
    rw [hframe] at hthen hposted
    have tengine : t.engine j.port = v.engine j.port := by rw [hthen]; rfl
    have toutp : t.outp j.port = v.outp j.port := by rw [hthen]; rfl
    have tacc : t.accesses.map posted = s.accesses.map posted ++ reads.map posted := by
      rw [hthen, ← List.map_append, ← hbacc, ← hacc]
      exact hposted
    have tjob : t.jobOf j.tag = some { j with state := .active } := by
      rw [hthen]
      refine hjob.trans ?_
      rw [← hmoved]
    refine ⟨t, run, hmade, tjob, ?_, ?_, ?_, ?_, ?_, ?_, ?_, ?_, fun hmode => ?_, fun hmode a k ha hk => ?_⟩
    · rw [hthen]; exact hvqueue
    · rw [tengine, hengine]
    · rw [tengine, hengine]
    · rw [tengine, hengine]
    · rw [tengine, hengine]
    · rw [toutp, houtp]
    · rw [toutp, houtp, hbouts]
    · rw [hthen]; exact hvmem
    · rw [if_neg (by rcases hmode with e | e <;> simp [e])] at hrefilled
      obtain ⟨rfl, -, rfl⟩ := refilled_none hrefilled
      exact ⟨tacc.trans (by simp), by rw [tengine, hengine]⟩
    · subst hk
      rw [if_pos hmode, ha] at hrefilled
      obtain ⟨hone, htwo⟩ := hrefilled.2 (a / 32) rfl (by rw [ha, Option.getD_some]; omega)
      rw [ha, Option.getD_some] at hone htwo
      refine ⟨fun hbeyond => ?_, fun hwithin => ?_⟩
      · obtain ⟨rfl, -, rfl⟩ := htwo rfl (by omega)
        rw [partRead_first ha hbeyond, partRead_second ha] at tacc
        exact ⟨by rw [tengine, hengine], tacc⟩
      · obtain ⟨rfl, -, rfl⟩ := hone (.inr ⟨rfl, by omega⟩)
        rw [partRead_only ha hwithin] at tacc
        exact ⟨by rw [tengine, hengine]; rfl, tacc⟩

end Sys2Proof.Machine
end

