-- ==== Sys2Proof/Proofs/Host.lean ====
section
/-! PROOF. HOST READ and HOST WRITE (R160 to R163): the accesses they post, and what a burst's completion makes of them. -/

namespace Sys2Proof.Machine

open Sys2Proof.Safety

-- One thread: the whole text is checked under a memory limit that holds a bounded number of thread stacks.
set_option Elab.async false

/-! ### The requests (R160, R161) -/

/-- A request that holds the processor for its work and posts an access: the scheduler and the transmitter leave all but the
access's condition. -/
theorem holds_posted (b : State) (r : Request) (w : Work) (a : Access) :
    Holds ((b.beginExecution r w).post a).schedule.transmit r b.link.intake w ∧
      ((b.beginExecution r w).post a).schedule.transmit.mem = b.mem ∧
      ((b.beginExecution r w).post a).schedule.transmit.jobs = b.jobs ∧
      ((b.beginExecution r w).post a).schedule.transmit.accesses.map posted = b.accesses.map posted ++ [posted a] := by
  have hbegun : ((b.beginExecution r w).post a).proc.executing = some { seq := r.seq, code := r.code, work := w, discard := false } :=
    rfl
  have hlist : ((b.beginExecution r w).post a).accesses = b.accesses ++ [a] := rfl
  have hintake : ((b.beginExecution r w).post a).link.intake = b.link.intake := rfl
  have hmem : ((b.beginExecution r w).post a).mem = b.mem := rfl
  have hjobs : ((b.beginExecution r w).post a).jobs = b.jobs := rfl
  generalize (b.beginExecution r w).post a = v at *
  obtain ⟨⟨ac, bk, op, fc, hframe⟩, hposted, -⟩ := Scheduled.schedule v
  generalize v.schedule = u at *
  obtain ⟨-, tintake, -, texec, -⟩ := State.transmit_keeps u
  obtain ⟨lk, pr, nt, hthen⟩ := Outward.transmit u
  generalize u.transmit = t at *
  rw [hlist, List.map_append] at hposted
  exact ⟨⟨texec.trans ((congrArg (fun u : State => u.proc.executing) hframe).trans hbegun),
    tintake.trans ((congrArg (fun u : State => u.link.intake) hframe).trans hintake)⟩,
    (congrArg State.mem hthen).trans ((congrArg State.mem hframe).trans hmem),
    (congrArg State.jobs hthen).trans ((congrArg State.jobs hframe).trans hjobs),
    (congrArg (fun u : State => u.accesses.map posted) hthen).trans hposted⟩

theorem hostRead_runsAs : RunsAs anyLines .hostRead 0x21 fun r s => s.doHostRead r := fun _ => rfl
theorem hostWrite_runsAs : RunsAs anyLines .hostWrite 0x20 fun r s => s.doHostWrite r := fun _ => rfl

section Requests
variable {r : Request} {code : Byte} {a n : Nat} {data : List Byte}

/-- The address and the count of a HOST request's payload. -/
theorem host_fields (hr : r.payload = code :: (natBytes 4 a ++ natBytes 2 n ++ data)) (ha : a < 4294967296) (hn : n < 65536) :
    r.code = code ∧ field r.payload 1 4 = a ∧ field r.payload 5 2 = n ∧ r.payload.length = 7 + data.length ∧
      r.payload.drop 7 = data := by
  refine ⟨by simp [Request.code, hr], ?_, ?_, by simp [hr]; omega, ?_⟩
  · simpa [hr] using field_mid [code] (natBytes 2 n ++ data) (k := 4) ha
  · simpa [hr] using field_mid (code :: natBytes 4 a) data (k := 2) hn
  · rw [hr, List.drop_succ_cons]
    simpa using List.drop_left (l₁ := natBytes 4 a ++ natBytes 2 n) (l₂ := data)

theorem hostRange_iff (ha : field r.payload 1 4 = a) (hn : field r.payload 5 2 = n) :
    hostRangeOk r = true ↔ 1 ≤ n ∧ n ≤ 1024 ∧ a + n ≤ 268435456 := by
  simp [hostRangeOk, ha, hn, Config.maxHostCount, Config.arrayBytes, and_assoc]

variable {s : State}

theorem doHostRead_range (hready : s.part.state = .ready) (hbad : hostRangeOk r ≠ true) : s.doHostRead r = s.answer r .range [] := by
  rw [State.doHostRead, whenReady_ready hready, if_neg hbad]

theorem doHostWrite_range (hready : s.part.state = .ready) (hbad : hostRangeOk r ≠ true) :
    s.doHostWrite r = s.answer r .range [] := by
  rw [State.doHostWrite, whenReady_ready hready, if_neg hbad]

theorem doHostRead_ok (hready : s.part.state = .ready) (hok : hostRangeOk r = true) (ha : field r.payload 1 4 = a)
    (hn : field r.payload 5 2 = n) : s.doHostRead r =
      ((s.beginExecution r (.hostRead a n (a / 32) [])).post (State.hostReadAccess a n (a / 32))).schedule := by
  rw [State.doHostRead, whenReady_ready hready, if_pos hok]
  dsimp only
  rw [ha, hn]
  rfl

theorem doHostWrite_ok (hready : s.part.state = .ready) (hok : hostRangeOk r = true) (ha : field r.payload 1 4 = a)
    (hdata : r.payload.drop 7 = data) : s.doHostWrite r =
      ((s.beginExecution r (.hostWrite a data (a / 32))).post (State.hostWriteAccess a data (a / 32))).schedule := by
  rw [State.doHostWrite, whenReady_ready hready, if_pos hok]
  dsimp only
  rw [ha, hdata]
  rfl

end Requests

/-- A region's part in its first burst begins where the region does. -/
theorem partLow_first (a : Nat) : partLow a (a / 32) = a := max_eq_left (by omega)

theorem partHigh_first (a n : Nat) : partHigh (a + n) (a / 32) = min (a + n) (a / 32 * 32 + 32) := by
  rw [partHigh, Nat.mul_comm]

/-- Settles O30: in range, the request holds the processor and its first access is posted; out of range it answers only. -/
theorem hostAccessesPosted : Obligations.HostAccessesPosted := by
  refine ⟨fun s r rest a n h hready hlow hhigh htop => ⟨fun hr => ?_, fun data hdata hr => ?_⟩,
    fun s r rest a n h hready ha hn hbad => ⟨fun hr => ?_, fun data hdata hr => ?_⟩⟩
  · obtain ⟨hcode, haddr, hcount, hlen, -⟩ := host_fields (data := []) (by rw [List.append_nil]; exact hr) (by omega) (by omega)
    have hok := (hostRange_iff haddr hcount).2 ⟨hlow, hhigh, htop⟩
    have run := hostRead_runsAs.run h hcode (by simp [lengthOk, hcode, hlen])
    obtain ⟨hholds, hmem, hjobs, hacc⟩ := holds_posted (s.withIntake rest) r (.hostRead a n (a / 32) [])
      (State.hostReadAccess a n (a / 32))
    refine ⟨_, run.trans (congrArg (fun u : State => Host.Outcome.next u.transmit)
      (doHostRead_ok (s := s.withIntake rest) hready hok haddr hcount)), hholds, hmem, hjobs, ?_⟩
    rw [hacc, State.hostReadAccess, partLow_first, partHigh_first]
    rfl
  · subst hdata
    obtain ⟨hcode, haddr, hcount, hlen, hdata⟩ := host_fields hr (by omega) (by omega)
    have hok := (hostRange_iff haddr hcount).2 ⟨hlow, hhigh, htop⟩
    have run := hostWrite_runsAs.run h hcode (by simp [lengthOk, hcode, hlen, hcount])
    obtain ⟨hholds, hmem, hjobs, hacc⟩ := holds_posted (s.withIntake rest) r (.hostWrite a data (a / 32))
      (State.hostWriteAccess a data (a / 32))
    refine ⟨_, run.trans (congrArg (fun u : State => Host.Outcome.next u.transmit)
      (doHostWrite_ok (s := s.withIntake rest) hready hok haddr hdata)), hholds, hmem, hjobs, ?_⟩
    rw [hacc, State.hostWriteAccess, partLow_first, partHigh_first, Nat.sub_self, List.drop_zero]
    rfl
  · obtain ⟨hcode, haddr, hcount, hlen, -⟩ := host_fields (data := []) (by rw [List.append_nil]; exact hr) ha hn
    have hnot : hostRangeOk r ≠ true := fun hok => by have := (hostRange_iff haddr hcount).1 hok; omega
    exact hostRead_runsAs.answers h hcode (by simp [lengthOk, hcode, hlen])
      (doHostRead_range (s := s.withIntake rest) hready hnot)
  · subst hdata
    obtain ⟨hcode, haddr, hcount, hlen, -⟩ := host_fields hr ha hn
    have hnot : hostRangeOk r ≠ true := fun hok => by have := (hostRange_iff haddr hcount).1 hok; omega
    exact hostWrite_runsAs.answers h hcode (by simp [lengthOk, hcode, hlen, hcount])
      (doHostWrite_range (s := s.withIntake rest) hready hnot)

/-! ### The end of an execution (R131, R135) -/

section End
variable {s : State} {x : Execution} {st : Status} {fs : List Byte}

/-- A request that held the processor is answered as one executed at once is. -/
theorem endExecution_answer (h : s.proc.executing = some x) (hd : x.discard = false) : s.endExecution st fs =
    ({ s with proc := { s.proc with executing := none } } : State).answer { seq := x.seq, payload := [x.code] } st fs := by
  unfold State.endExecution
  rw [h]
  dsimp only
  rw [if_neg (by simp [hd])]
  rfl

/-- A request that LINK OPEN has condemned ends without an answer (R131). -/
theorem endExecution_discarded (h : s.proc.executing = some x) (hd : x.discard = true) :
    s.endExecution st fs = { s with proc := { s.proc with executing := none } } := by
  unfold State.endExecution
  rw [h]
  dsimp only
  rw [if_pos hd]

theorem endExecution_free (h : s.proc.executing = none) : s.endExecution st fs = s := by
  unfold State.endExecution
  rw [h]

theorem endExecution_answered (h : s.proc.executing = some x) (hd : x.discard = false) :
    Answered (s.endExecution st fs) { seq := x.seq, payload := x.code :: st.code :: fs } ∧
      (s.endExecution st fs).link.queue ≠ [] := by
  rw [endExecution_answer h hd]
  obtain ⟨⟨hmade, -⟩, -⟩ := State.answer_spec (s := s) (rest := s.link.intake)
    (b := { s with proc := { s.proc with executing := none } }) { seq := x.seq, payload := [x.code] } st fs rfl rfl
  exact ⟨hmade, answer_queue_ne_nil _ _ st fs⟩

end End

/-! ### A report (R97 to R100) -/

theorem offerAlert_rest (s : State) (body : NoticeBody) : { s.offerAlert body with notices := s.notices } = s := by
  by_cases h : s.notices.outbox.length < 16
  · rw [State.offerAlert_admitted h]
  · rw [State.offerAlert_lost (Nat.not_lt.1 h)]

/-- Only the Media Monitor and the Notice Unit may differ. -/
def Reporting (s t : State) : Prop := { t with media := s.media, notices := s.notices } = s

namespace Reporting
variable {s t u : State}

theorem refl (s : State) : Reporting s s := rfl

theorem trans (h : Reporting s t) (k : Reporting t u) : Reporting s u :=
  (congrArg (fun w : State => { w with media := s.media, notices := s.notices }) k :).trans h

theorem media (s : State) (m : Media) : Reporting s { s with media := m } := rfl

theorem offerAlert (s : State) (body : NoticeBody) : Reporting s (s.offerAlert body) :=
  (congrArg (fun w : State => { w with media := s.media }) (offerAlert_rest s body) :)

theorem record (s : State) (src : Source) (b : Bank) (row : Row) (c u : Nat) : Reporting s (s.record src b row c u) := by
  unfold State.record
  split
  · exact media s _
  split
  · exact media s _
  split
  · exact media s _
  · exact refl s

theorem alertUncorrectable (s : State) (src : Source) (b : Bank) (row : Row) (addr : Nat) :
    Reporting s (s.alertUncorrectable src b row addr) := by
  unfold State.alertUncorrectable
  split
  · split
    · exact refl s
    · exact (media s _).trans (offerAlert _ _)
  · exact offerAlert _ _

theorem alertListFull (s : State) (b : Bank) (row : Row) : Reporting s (s.alertListFull b row) := by
  unfold State.alertListFull
  split
  · exact refl s
  · exact (media s _).trans (offerAlert _ _)

theorem report (s : State) (a : Access) (rs : List WordResult) : Reporting s (s.report a rs) := by
  have alerted (v : State) : Reporting v (match firstFaulty rs with
      | some addr => v.alertUncorrectable a.client.source a.bank a.row addr
      | none => v) := by
    split
    · exact alertUncorrectable ..
    · exact refl v
  unfold State.report
  dsimp only
  split
  · exact ((record ..).trans (alerted _)).trans (alertListFull ..)
  · exact (record ..).trans (alerted _)

end Reporting

/-! ### A burst's completion (R25, R28) -/

section Burst
variable {s : State} {decay : List Decay} {lines : PortLines} {a : Access}

/-- The hit-run counter is its bank's. -/
theorem countHit_banks (s : State) (a : Access) : ∃ bk, s.countHit a = { s with banks := bk } := by
  unfold State.countHit
  split
  · exact ⟨_, rfl⟩
  · exact ⟨_, rfl⟩

theorem countHit_accesses (s : State) (a : Access) : (s.countHit a).accesses = s.accesses := by
  obtain ⟨bk, e⟩ := countHit_banks s a
  rw [e]

/-- The words of the burst in flight, as they stand after the decay. -/
theorem exec_burstComplete (h : s.flying = some a) : exec (.burstComplete decay lines) s = .next (afterResult
    ((atResult s decay lines a).deliver a (State.perform { s with mem := s.mem.decay decay } a).2)) := by
  obtain ⟨pins, e⟩ := sample_eq_pins s lines
  have hpins : (s.sample lines).pins = pins := by rw [e]
  show execBurstComplete decay lines s = _
  unfold execBurstComplete atResult
  rw [hpins]
  dsimp only
  rw [e]
  have hfly : State.flying { s with pins := pins } = some a := h
  rw [hfly]
  dsimp only
  unfold State.burstDoneAt afterResult
  dsimp only
  have hit : (State.countHit { s with pins := pins, mem := (State.perform { s with mem := s.mem.decay decay } a).1 } a) =
      { s.countHit a with pins := pins, mem := (State.perform { s with mem := s.mem.decay decay } a).1 } := by
    unfold State.countHit
    by_cases hc : !a.openedForIt ∧ s.missWaits a
    · rw [if_pos hc]
      exact if_pos hc
    · rw [if_neg hc]
      exact if_neg hc
  have hperform : State.perform { s with pins := pins, mem := s.mem.decay decay } a =
      State.perform { s with mem := s.mem.decay decay } a := rfl
  rw [hperform, hit]
  dsimp only
  rw [countHit_accesses]

/-- What the completion of a burst of a LINK access leaves before its result is returned. -/
theorem atResult_link (h : a.client = .link) :
    (atResult s decay lines a).link = s.link ∧ (atResult s decay lines a).proc = s.proc ∧
      (atResult s decay lines a).part = s.part ∧
      (atResult s decay lines a).accesses = dropFirst Access.isInFlight s.accesses := by
  unfold atResult
  rw [State.placeLock_none (.inr (.inl (by simp [h])))]
  obtain ⟨bk, e⟩ := countHit_banks s a
  rw [e]
  exact ⟨rfl, rfl, rfl, rfl⟩

end Burst

/-- Nothing a LINK access's result depends on differs. -/
def SameLink (s t : State) : Prop := t.link = s.link ∧ t.proc = s.proc ∧ t.part = s.part ∧ t.accesses = s.accesses

theorem SameLink.refl (s : State) : SameLink s s := ⟨rfl, rfl, rfl, rfl⟩

theorem sameLink_report (s : State) (a : Access) (rs : List WordResult) : SameLink s (s.report a rs) := by
  have h := Reporting.report s a rs
  exact ⟨(congrArg State.link h :), (congrArg State.proc h :), (congrArg State.part h :), (congrArg State.accesses h :)⟩

/-- Before the report or after it, a LINK access's result comes to the same link, processor and accesses. -/
theorem deliver_link (s : State) {a : Access} (h : a.client = .link) (rs : List WordResult) :
    ∃ v : State, SameLink s v ∧ SameLink (v.linkResult a rs) (s.deliver a rs) := by
  have client (v : State) : v.clientResult a rs = v.linkResult a rs := by
    unfold State.clientResult
    rw [h]
  have notScrub : a.client.isScrub = false := by rw [h]; rfl
  unfold State.deliver
  split
  · rw [if_neg (by simp [notScrub])]
    dsimp only
    split
    · rw [client]
      exact ⟨_, sameLink_report { s with freeCtr := s.freeCtr + 1 } a rs, SameLink.refl _⟩
    · rw [client]
      exact ⟨{ s with freeCtr := s.freeCtr + 1 }, SameLink.refl s, sameLink_report _ a rs⟩
  · rw [client]
    exact ⟨s, SameLink.refl s, SameLink.refl _⟩

/-- In READY no engine reset ends. -/
theorem endReset_ready {s : State} (h : s.part.state = .ready) : s.endReset = s := if_neg fun ⟨k, _⟩ => by simp [h] at k

theorem endSleepEntry_busy {s : State} (h : s.accesses ≠ []) : s.endSleepEntry = s :=
  if_neg fun k => h (State.sleepReady_iff.1 k).2.1

/-- With the processor free, the end of a sleep entry answers nothing. -/
theorem endSleepEntry_free {s : State} (h : s.proc.executing = none) :
    s.endSleepEntry.link = s.link ∧ s.endSleepEntry.proc = s.proc := by
  unfold State.endSleepEntry
  split
  · rw [endExecution_free (by exact h)]
    exact ⟨rfl, rfl⟩
  · exact ⟨rfl, rfl⟩

theorem transmit_proc {s : State} (h : s.proc.held = none) : s.transmit.proc = s.proc := by
  unfold State.transmit
  split
  · rfl
  split
  · rfl
  split
  · rfl
  split
  · rename_i r rest _
    rcases State.releaseHeld_eq { s with link := { s.link with tx := some { frame := r.frame, notice := none }, queue := rest } }
      with ⟨e, -⟩ | ⟨x, hx, -⟩
    · rw [e]
    · cases h.symm.trans hx
  split
  · split <;> rfl
  · rfl

section After
variable {v u : State}

/-- After the result, with the processor free and a response made: it stays made. -/
theorem afterResult_made {resp : Response} (h : SameLink v u) (hready : v.part.state = .ready) (ha : Answered v resp)
    (hq : v.link.queue ≠ []) : (afterResult u).proc.executing = none ∧ Made (afterResult u) resp := by
  obtain ⟨hlink, hproc, hpart, -⟩ := h
  obtain ⟨hcache, hwhere, hfree⟩ := ha
  obtain ⟨⟨ac, bk, op, fc, hframe⟩, -, -⟩ := Scheduled.schedule u
  have slink : u.schedule.link = v.link := (congrArg State.link hframe).trans hlink
  have sproc : u.schedule.proc = v.proc := (congrArg State.proc hframe).trans hproc
  obtain ⟨elink, eproc⟩ := endSleepEntry_free (s := u.schedule) (by rw [sproc, hfree])
  have made : Answered u.schedule.endSleepEntry resp := by
    unfold Answered
    rw [elink, eproc, slink, sproc]
    exact ⟨hcache, hwhere, hfree⟩
  have line : u.schedule.endSleepEntry.link.queue ≠ [] := by rw [elink, slink]; exact hq
  unfold afterResult
  rw [endReset_ready (by rw [hpart, hready])]
  exact ⟨(State.transmit_keeps _).2.2.2.1.trans made.2.2, made_transmit made line⟩

/-- After the result, with the processor free: only the transmitter's turn touches the link. -/
theorem afterResult_free (h : SameLink v u) (hready : v.part.state = .ready) (hfree : v.proc.executing = none) :
    ∃ w : State, afterResult u = w.transmit ∧ w.link = v.link ∧ w.proc = v.proc := by
  obtain ⟨hlink, hproc, hpart, -⟩ := h
  obtain ⟨⟨ac, bk, op, fc, hframe⟩, -, -⟩ := Scheduled.schedule u
  have slink : u.schedule.link = v.link := (congrArg State.link hframe).trans hlink
  have sproc : u.schedule.proc = v.proc := (congrArg State.proc hframe).trans hproc
  obtain ⟨elink, eproc⟩ := endSleepEntry_free (s := u.schedule) (by rw [sproc, hfree])
  refine ⟨u.schedule.endSleepEntry, ?_, elink.trans slink, eproc.trans sproc⟩
  unfold afterResult
  rw [endReset_ready (by rw [hpart, hready])]

/-- After the result, with the processor held and an access posted. -/
theorem afterResult_posted {x : Access} {l : List Access} (h : SameLink v u) (hready : v.part.state = .ready)
    (hheld : v.proc.held = none) (hacc : v.accesses = l ++ [x]) :
    (afterResult u).proc = v.proc ∧ (afterResult u).link.cache = v.link.cache ∧
      (afterResult u).accesses.map posted = l.map posted ++ [posted x] := by
  obtain ⟨hlink, hproc, hpart, hlist⟩ := h
  obtain ⟨⟨ac, bk, op, fc, hframe⟩, hposted, -⟩ := Scheduled.schedule u
  have slink : u.schedule.link = v.link := (congrArg State.link hframe).trans hlink
  have sproc : u.schedule.proc = v.proc := (congrArg State.proc hframe).trans hproc
  have sacc : u.schedule.accesses.map posted = l.map posted ++ [posted x] := by
    rw [hposted, hlist, hacc, List.map_append]
    rfl
  have busy : u.schedule.accesses ≠ [] := fun e => by simp [e] at sacc
  unfold afterResult
  rw [endReset_ready (by rw [hpart, hready]), endSleepEntry_busy busy]
  generalize u.schedule = w at *
  obtain ⟨lk, pr, nt, hthen⟩ := Outward.transmit w
  refine ⟨(transmit_proc (by rw [sproc, hheld])).trans sproc, ?_, ?_⟩
  · rw [(State.transmit_keeps _).2.2.1, slink]
  · exact (congrArg (fun w : State => w.accesses.map posted) hthen :).trans sacc

end After

/-! ### HOST READ and HOST WRITE bursts (R162, R163) -/

section Done
variable {s : State} {addr n burst w : Nat} {got data : List Byte} {a : Access} {rs : List WordResult}

theorem hostReadDone_faulty (h : firstFaulty rs = some w) :
    s.hostReadDone addr n burst got a rs = s.endExecution .media (natBytes 4 w) := by
  unfold State.hostReadDone
  rw [h]

theorem hostReadDone_last (h : firstFaulty rs = none) (hlast : addr + n ≤ 32 * (burst + 1)) :
    s.hostReadDone addr n burst got a rs = s.endExecution .ok (got ++ State.regionBytes (wordAddress a.bank a.row a.firstWord)
      (partLow addr burst) (partHigh (addr + n) burst) rs) := by
  unfold State.hostReadDone
  rw [h]
  exact if_neg (Nat.not_lt.2 hlast)

theorem hostReadDone_next (h : firstFaulty rs = none) (hnext : 32 * (burst + 1) < addr + n) :
    s.hostReadDone addr n burst got a rs = ({ s with proc := { s.proc with
      executing := s.proc.executing.map fun (x : Execution) => { x with
        work := .hostRead addr n (burst + 1) (got ++ State.regionBytes (wordAddress a.bank a.row a.firstWord)
          (partLow addr burst) (partHigh (addr + n) burst) rs) } } } : State).post (State.hostReadAccess addr n (burst + 1)) := by
  unfold State.hostReadDone
  rw [h]
  exact if_pos hnext

theorem hostWriteDone_unwritten (h : firstUnwritten rs = some w) :
    s.hostWriteDone addr data burst rs = s.endExecution .media (natBytes 2 (w - addr) ++ natBytes 4 w) := by
  unfold State.hostWriteDone
  rw [h]

theorem hostWriteDone_last (h : firstUnwritten rs = none) (hlast : addr + data.length ≤ 32 * (burst + 1)) :
    s.hostWriteDone addr data burst rs = s.endExecution .ok [] := by
  unfold State.hostWriteDone
  rw [h]
  exact if_neg (Nat.not_lt.2 hlast)

theorem hostWriteDone_next (h : firstUnwritten rs = none) (hnext : 32 * (burst + 1) < addr + data.length) :
    s.hostWriteDone addr data burst rs = ({ s with proc := { s.proc with
      executing := s.proc.executing.map fun (x : Execution) => { x with work := .hostWrite addr data (burst + 1) } } } :
        State).post (State.hostWriteAccess addr data (burst + 1)) := by
  unfold State.hostWriteDone
  rw [h]
  exact if_pos hnext

end Done

/-- Where a LINK burst's result is returned: the state `v` in which it is, the report before it or after it, and what follows. -/
theorem exec_burstComplete_link {s : State} {decay : List Decay} {lines : PortLines} {a : Access} (hready : s.part.state = .ready)
    (hfly : s.flying = some a) (hlink : a.client = .link) :
    ∃ v u : State, exec (.burstComplete decay lines) s = .next (afterResult u) ∧
      SameLink (v.linkResult a (State.perform { s with mem := s.mem.decay decay } a).2) u ∧
      v.link = s.link ∧ v.proc = s.proc ∧ v.part.state = .ready ∧
      v.accesses = dropFirst Access.isInFlight s.accesses := by
  obtain ⟨hl, hp, hpart, hacc⟩ := atResult_link (s := s) (decay := decay) (lines := lines) hlink
  obtain ⟨v, ⟨vl, vp, vpart, vacc⟩, hu⟩ := deliver_link (atResult s decay lines a) hlink
    (State.perform { s with mem := s.mem.decay decay } a).2
  exact ⟨v, _, exec_burstComplete hfly, hu, vl.trans hl, vp.trans hp, by rw [vpart, hpart, hready], vacc.trans hacc⟩

section Result
variable {v u : State} {x : Execution} {st : Status} {fs : List Byte}

/-- A LINK burst that ends the execution: answered, or condemned. -/
theorem afterResult_ended (h : SameLink (v.endExecution st fs) u) (hready : v.part.state = .ready)
    (hx : v.proc.executing = some x) :
    (x.discard = false → (afterResult u).proc.executing = none ∧
      Made (afterResult u) { seq := x.seq, payload := x.code :: st.code :: fs }) ∧
    (x.discard = true → ∃ w : State, afterResult u = w.transmit ∧ w.link = v.link ∧
      w.proc = { v.proc with executing := none }) := by
  refine ⟨fun hd => ?_, fun hd => ?_⟩
  · obtain ⟨hanswered, hq⟩ := endExecution_answered (st := st) (fs := fs) hx hd
    refine afterResult_made h ?_ hanswered hq
    obtain ⟨lk, pr, nt, e⟩ := Outward.endExecution v st fs
    rw [e]
    exact hready
  · rw [endExecution_discarded hx hd] at h
    exact afterResult_free h hready rfl

end Result

/-- Settles O31. -/
theorem hostReadBurstCompletes : Obligations.HostReadBurstCompletes := by
  intro s decay lines x a addr n burst got hready hfly hlink hx hwork hheld
  obtain ⟨v, u, run, hsame, vlink, vproc, vready, vacc⟩ := exec_burstComplete_link (decay := decay) (lines := lines) hready hfly
    hlink
  have hvx : v.proc.executing = some x := by rw [vproc, hx]
  have hvheld : v.proc.held = none := by rw [vproc, hheld]
  have work : v.linkResult a (State.perform { s with mem := s.mem.decay decay } a).2 =
      v.hostReadDone addr n burst got a (State.perform { s with mem := s.mem.decay decay } a).2 := by
    unfold State.linkResult State.work
    rw [hvx, Option.map_some, hwork]
  rw [work] at hsame
  generalize (State.perform { s with mem := s.mem.decay decay } a).2 = rs at *
  refine ⟨_, run, fun w hd hw => ?_, fun hd hnone hlast => ?_, fun hd hend => ?_, fun hnone hnext => ?_⟩
  · rw [hostReadDone_faulty hw] at hsame
    exact (afterResult_ended hsame vready hvx).1 hd
  · rw [hostReadDone_last hnone hlast] at hsame
    exact (afterResult_ended hsame vready hvx).1 hd
  · have freed : ({ v.proc with executing := none } : Processor) = { executing := none, held := none } := by rw [← hvheld]
    rw [← vlink, ← freed]
    cases hw : firstFaulty rs with
    | some w =>
      rw [hostReadDone_faulty hw] at hsame
      exact (afterResult_ended hsame vready hvx).2 hd
    | none =>
      rw [hostReadDone_last hw (hend.resolve_left fun k => k hw)] at hsame
      exact (afterResult_ended hsame vready hvx).2 hd
  · rw [hostReadDone_next hnone hnext] at hsame
    obtain ⟨hproc, hcache, hacc⟩ := afterResult_posted hsame vready hvheld rfl
    refine ⟨hproc.trans (congrArg₂ Processor.mk (congrArg (Option.map _) hvx) hvheld),
      hcache.trans (congrArg Link.cache vlink), hacc.trans ?_⟩
    rw [vacc]
    rfl

/-- Settles O32. -/
theorem hostWriteBurstCompletes : Obligations.HostWriteBurstCompletes := by
  intro s decay lines x a addr burst data hready hfly hlink hx hwork hheld
  obtain ⟨v, u, run, hsame, vlink, vproc, vready, vacc⟩ := exec_burstComplete_link (decay := decay) (lines := lines) hready hfly
    hlink
  have hvx : v.proc.executing = some x := by rw [vproc, hx]
  have hvheld : v.proc.held = none := by rw [vproc, hheld]
  have work : v.linkResult a (State.perform { s with mem := s.mem.decay decay } a).2 =
      v.hostWriteDone addr data burst (State.perform { s with mem := s.mem.decay decay } a).2 := by
    unfold State.linkResult State.work
    rw [hvx, Option.map_some, hwork]
  rw [work] at hsame
  generalize (State.perform { s with mem := s.mem.decay decay } a).2 = rs at *
  refine ⟨_, run, fun w hd hw => ?_, fun hd hnone hlast => ?_, fun hd hend => ?_, fun low high hlow hhigh hnone hnext => ?_⟩
  · rw [hostWriteDone_unwritten hw] at hsame
    exact (afterResult_ended hsame vready hvx).1 hd
  · rw [hostWriteDone_last hnone hlast] at hsame
    exact (afterResult_ended hsame vready hvx).1 hd
  · have freed : ({ v.proc with executing := none } : Processor) = { executing := none, held := none } := by rw [← hvheld]
    rw [← vlink, ← freed]
    cases hw : firstUnwritten rs with
    | some w =>
      rw [hostWriteDone_unwritten hw] at hsame
      exact (afterResult_ended hsame vready hvx).2 hd
    | none =>
      rw [hostWriteDone_last hw (hend.resolve_left fun k => k hw)] at hsame
      exact (afterResult_ended hsame vready hvx).2 hd
  · rw [hostWriteDone_next hnone hnext] at hsame
    obtain ⟨hproc, hcache, hacc⟩ := afterResult_posted hsame vready hvheld rfl
    subst hlow hhigh
    refine ⟨hproc.trans (congrArg₂ Processor.mk (congrArg (Option.map _) hvx) hvheld),
      hcache.trans (congrArg Link.cache vlink), hacc.trans ?_⟩
    rw [vacc]
    rfl

end Sys2Proof.Machine
end

