-- ==== Sys2Proof/Proofs/Strobes.lean ====
section
/-! PROOF. The control strobes PORT OUT and PORT IN (R80, R81): their beginning, their refusals, and their end. -/

namespace Sys2Proof.Machine

open Sys2Proof.Safety

-- One thread: the whole text is checked under a memory limit that holds a bounded number of thread stacks.
set_option Elab.async false

/-! ### The request -/

theorem portOut_runsAs : RunsAs anyLines .portOut 0x22 fun r s => s.strobeChecks r (s.beginPortOut r) := fun _ => rfl
theorem portIn_runsAs : RunsAs anyLines .portIn 0x23 fun r s => s.strobeChecks r (s.beginPortIn r) := fun _ => rfl

section Target
variable {r : Request} {code port steer : Byte} {more : List Byte}

theorem strobeTarget_none (hr : r.payload = code :: port :: steer :: more) (h : 4 ≤ port.toNat ∨ 16 ≤ steer.toNat) :
    strobeTarget r = none := by
  simp only [strobeTarget, hr, field_one_one, field_one_two]
  by_cases hp : port.toNat < 4
  · rw [dif_pos hp, if_neg (by omega)]
  · rw [dif_neg hp]

theorem strobeTarget_some (hr : r.payload = code :: port :: steer :: more) {p : Port} (hp : port.toNat = p.val)
    (h : steer.toNat < 16) : strobeTarget r = some (p, BitVec.ofNat 4 steer.toNat) := by
  simp only [strobeTarget, hr, field_one_one, field_one_two, hp]
  rw [dif_pos p.isLt, if_pos (Nat.lt_succ_iff.1 h)]

end Target

section Checks
variable {s : State} {r : Request} {k : Port → BitVec 4 → State} {p : Port} {steer : BitVec 4}

theorem strobeChecks_range (hready : s.part.state = .ready) (h : strobeTarget r = none) :
    s.strobeChecks r k = s.answer r .range [] := by
  rw [State.strobeChecks, whenReady_ready hready, h]

theorem strobeChecks_portOff (hready : s.part.state = .ready) (h : strobeTarget r = some (p, steer))
    (he : (s.portSettings p).enable = false) : s.strobeChecks r k = s.answer r .portOff [] := by
  rw [State.strobeChecks, whenReady_ready hready, h]
  simp [he]

theorem strobeChecks_busy (hready : s.part.state = .ready) (h : strobeTarget r = some (p, steer))
    (he : (s.portSettings p).enable = true) (hi : (s.engine p).state ≠ .idle) : s.strobeChecks r k = s.answer r .busy [] := by
  rw [State.strobeChecks, whenReady_ready hready, h]
  simp [he, hi]

theorem strobeChecks_ok (hready : s.part.state = .ready) (h : strobeTarget r = some (p, steer))
    (he : (s.portSettings p).enable = true) (hi : (s.engine p).state = .idle) : s.strobeChecks r k = k p steer := by
  rw [State.strobeChecks, whenReady_ready hready, h]
  simp [he, hi]

end Checks

/-- The byte of a PORT OUT on D (R80). -/
theorem driveOf_one (w : Width) (b : Byte) : driveOf w [b] = if w = .w8 then .low b else .full (b.setWidth 16) := by
  cases w with
  | w8 => rfl
  | w16 =>
    have : (0 : Byte) ++ b = b.setWidth 16 := by
      apply BitVec.eq_of_toNat_eq
      refine (BitVec.toNat_append (0 : Byte) b).trans ?_
      simp
      omega
    exact congrArg Drive.full this

/-- The port and the steer that a strobe's request spells. -/
theorem strobeTarget_of_bytes {r : Request} {code : Byte} {p : Port} {steer : BitVec 4} {more : List Byte}
    (hr : r.payload = code :: byteOf p.val :: steer.setWidth 8 :: more) : strobeTarget r = some (p, steer) := by
  have hp : (byteOf p.val).toNat = p.val := by
    simp only [byteOf, BitVec.toNat_ofNat]
    omega
  have hs : (steer.setWidth 8).toNat = steer.toNat := by
    rw [BitVec.toNat_setWidth]
    omega
  rw [strobeTarget_some hr hp (by rw [hs]; exact steer.isLt), hs, BitVec.ofNat_toNat, BitVec.setWidth_eq]

/-- Settles O33: a strobe that passes the checks begins at its port and holds the processor; the others are answered. -/
theorem strobesBeginOrAreRefused : Obligations.StrobesBeginOrAreRefused := by
  refine ⟨fun s r rest p steer b h hready he hi => ⟨fun hr => ?_, fun hr => ?_⟩,
    fun s r rest code port steer c more h hready hr hcase => ?_⟩
  · have hcode : r.code = 0x22 := by simp [Request.code, hr]
    have hlen : lengthOk r = true := by simp [lengthOk, hcode, hr]
    have hbyte : byteOf (field r.payload 3 1) = b := by
      rw [hr, show field [0x22, byteOf p.val, steer.setWidth 8, b] 3 1 = b.toNat from field_one_one (steer.setWidth 8) b [], byteOf_toNat]
    have begun : (s.withIntake rest).strobeChecks r ((s.withIntake rest).beginPortOut r) =
        (s.withIntake rest).beginPortOut r p steer :=
      strobeChecks_ok hready (strobeTarget_of_bytes hr) he hi
    refine ⟨(s.withIntake rest).beginPortOut r p steer, (portOut_runsAs.run h hcode hlen).trans
      (congrArg (fun u : State => Host.Outcome.next u.transmit) begun), ⟨rfl, rfl⟩, ?_, ?_, fun q hq =>
        ⟨State.engine_other _ _ _ q hq, State.outp_other _ _ _ q hq⟩, rfl⟩
    · rw [← hbyte]
      exact State.engine_self _ _ _
    · rw [← driveOf_one, ← hbyte]
      exact State.outp_self _ _ _
  · have hcode : r.code = 0x23 := by simp [Request.code, hr]
    have hlen : lengthOk r = true := by simp [lengthOk, hcode, hr]
    have begun : (s.withIntake rest).strobeChecks r ((s.withIntake rest).beginPortIn r) =
        (s.withIntake rest).beginPortIn r p steer :=
      strobeChecks_ok hready (strobeTarget_of_bytes hr) he hi
    exact ⟨(s.withIntake rest).beginPortIn r p steer, (portIn_runsAs.run h hcode hlen).trans
      (congrArg (fun u : State => Host.Outcome.next u.transmit) begun), ⟨rfl, rfl⟩, State.engine_self _ _ _,
      State.outp_self _ _ _, fun q hq => ⟨State.engine_other _ _ _ q hq, State.outp_other _ _ _ q hq⟩, rfl⟩
  · have hcode : r.code = code := by simp [Request.code, hr]
    have hr' : r.payload = code :: port :: steer :: more := hr
    have answers {st : Status} (hf : ∀ k, (s.withIntake rest).strobeChecks r k = (s.withIntake rest).answer r st []) :
        AnswersOnly c s s rest { seq := r.seq, payload := [code, st.code] } := by
      rcases hcase with ⟨rfl, rfl, hmore⟩ | ⟨rfl, rfl, hmore⟩
      · exact portOut_runsAs.answers h hcode (by simp [lengthOk, hcode, hr, hmore]) (hf _)
      · exact portIn_runsAs.answers h hcode (by simp [lengthOk, hcode, hr, hmore]) (hf _)
    refine ⟨fun hbad => answers fun k => strobeChecks_range hready (strobeTarget_none hr' hbad), fun p hp hs =>
      ⟨fun he => answers fun k => strobeChecks_portOff hready (strobeTarget_some hr' hp hs) he,
        fun he hi => answers fun k => strobeChecks_busy hready (strobeTarget_some hr' hp hs) he hi⟩⟩

/-! ### The end (R80, R81) -/

/-- A strobe's end at its port: the engine IDLE, the strobe's pins deasserted, the request answered. -/
theorem endStrobe_spec {s : State} (p : Port) {x : Execution} (fs : List Byte) (hx : s.proc.executing = some x) :
    (s.endStrobe p fs).engine p = atRest (s.engine p) .idle ∧
      (s.endStrobe p fs).outp p = { s.outp p with sel := 0, cout := false, cin := false } ∧
      (∀ q : Port, q ≠ p → (s.endStrobe p fs).engine q = s.engine q ∧ (s.endStrobe p fs).outp q = s.outp q) ∧
      (x.discard = false → Answered (s.endStrobe p fs) { seq := x.seq, payload := x.code :: 0x00 :: fs }) ∧
      (x.discard = true → (s.endStrobe p fs).link = s.link ∧ (s.endStrobe p fs).proc = { s.proc with executing := none }) ∧
      { s.endStrobe p fs with link := s.link, proc := s.proc, engines := s.engines, outs := s.outs } = s := by
  let v : State := (s.restEngine p .idle).setOutp p { (s.restEngine p .idle).outp p with cout := false, cin := false }
  have ended : s.endStrobe p fs = v.endExecution .ok fs := rfl
  have hvx : v.proc.executing = some x := hx
  have hvout : v.outp p = { s.outp p with sel := 0, cout := false, cin := false } := by
    refine (State.outp_self _ _ _).trans ?_
    rw [show (s.restEngine p .idle).outp p = { s.outp p with sel := 0 } from State.outp_self _ _ _]
  have hothers (q : Port) (hq : q ≠ p) : v.engine q = s.engine q ∧ v.outp q = s.outp q :=
    ⟨State.restEngine_engine_other hq, (State.outp_other _ _ _ q hq).trans (State.restEngine_outp_other hq)⟩
  have hvrest : { v with engines := s.engines, outs := s.outs } = s := rfl
  have hvengine : v.engine p = atRest (s.engine p) .idle := State.engine_self _ _ _
  have hvlink : v.link = s.link := rfl
  have hvproc : v.proc = s.proc := rfl
  rw [ended]
  generalize v = v at *
  have keeps : (v.endExecution .ok fs).engine p = v.engine p ∧ (v.endExecution .ok fs).outp p = v.outp p ∧
      (∀ q : Port, (v.endExecution .ok fs).engine q = v.engine q ∧ (v.endExecution .ok fs).outp q = v.outp q) ∧
      { v.endExecution .ok fs with link := s.link, proc := s.proc } = v := by
    have back : ({ v with link := s.link, proc := s.proc } : State) = v := by rw [← hvlink, ← hvproc]
    cases hd : x.discard with
    | true =>
      rw [endExecution_discarded hvx hd]
      exact ⟨rfl, rfl, fun _ => ⟨rfl, rfl⟩, back⟩
    | false =>
      rw [endExecution_answer hvx hd]
      obtain ⟨-, hrest⟩ := State.answer_spec (s := v) (rest := v.link.intake)
        (b := { v with proc := { v.proc with executing := none } }) { seq := x.seq, payload := [x.code] } .ok fs rfl rfl
      exact ⟨(congrArg (fun w : State => w.engine p) hrest :), (congrArg (fun w : State => w.outp p) hrest :),
        fun q => ⟨(congrArg (fun w : State => w.engine q) hrest :), (congrArg (fun w : State => w.outp q) hrest :)⟩,
        (congrArg (fun w : State => { w with link := s.link, proc := s.proc }) hrest).trans back⟩
  obtain ⟨hengine, hout, hall, hkeep⟩ := keeps
  refine ⟨hengine.trans hvengine, hout.trans hvout, fun q hq => ⟨(hall q).1.trans (hothers q hq).1,
    (hall q).2.trans (hothers q hq).2⟩, fun hd => (endExecution_answered hvx hd).1, fun hd => ?_,
    (congrArg (fun w : State => { w with engines := s.engines, outs := s.outs }) hkeep).trans hvrest⟩
  rw [endExecution_discarded hvx hd]
  exact ⟨hvlink, by rw [hvproc]⟩

/-- Settles O34: the sampling; then the work of the request in execution says what ends. -/
theorem strobeEnds : Obligations.StrobeEnds := by
  refine ⟨sample_spec, fun s lines hwork => ?_, fun s lines p x hx => ⟨fun hw => ?_, fun hw => ?_⟩⟩
  · obtain ⟨pins, e⟩ := sample_eq_pins s lines
    have work : (s.sample lines).work = s.work := by rw [e]; rfl
    show execStrobeEnd lines s = _
    unfold execStrobeEnd
    dsimp only
    rw [work]
    split
    · exact absurd ‹_› (hwork _).1
    · exact absurd ‹_› (hwork _).2
    · rfl
  · obtain ⟨pins, e⟩ := sample_eq_pins s lines
    have hpins : (s.sample lines).pins = pins := by rw [e]
    have work : (s.sample lines).work = some (.portOut p) := by
      rw [e]
      exact (congrArg (Option.map Execution.work) hx).trans (congrArg some hw)
    have run : exec (.strobeEnd lines) s = .next (State.portGoesOn (((s.sample lines).releaseD p).endStrobe p []) p) := by
      show execStrobeEnd lines s = _
      unfold execStrobeEnd
      dsimp only
      rw [work]
    rw [hpins]
    rw [e] at run
    let b : State := State.releaseD { s with pins := pins } p
    have hbx : b.proc.executing = some x := hx
    obtain ⟨hengine, hout, hothers, hanswered, hcondemned, hrest⟩ := endStrobe_spec (s := b) p [] hbx
    refine ⟨b.endStrobe p [], run, hengine, ?_, fun q hq => ⟨(hothers q hq).1, (hothers q hq).2.trans
      (State.outp_other _ _ _ q hq)⟩, (congrArg State.pins hrest :), fun hd _ => hanswered hd, hcondemned,
      (congrArg (fun w : State => { w with outs := s.outs, pins := s.pins }) hrest :)⟩
    rw [hout, show b.outp p = { s.outp p with d := .off } from State.outp_self _ _ _]
  · obtain ⟨pins, e⟩ := sample_eq_pins s lines
    have hpins : (s.sample lines).pins = pins := by rw [e]
    have work : (s.sample lines).work = some (.portIn p) := by
      rw [e]
      exact (congrArg (Option.map Execution.work) hx).trans (congrArg some hw)
    have hd : ((s.sample lines).pin p).d = lines[p].d := by rw [(sample_spec s lines).1 p]
    have run : exec (.strobeEnd lines) s =
        .next (State.portGoesOn ((s.sample lines).endStrobe p [lines[p].d.extractLsb' 0 8]) p) := by
      show execStrobeEnd lines s = _
      unfold execStrobeEnd
      dsimp only
      rw [work, ← hd]
    rw [hpins]
    rw [e] at run
    let b : State := { s with pins := pins }
    have hbx : b.proc.executing = some x := hx
    obtain ⟨hengine, hout, hothers, hanswered, hcondemned, hrest⟩ :=
      endStrobe_spec (s := b) p [lines[p].d.extractLsb' 0 8] hbx
    exact ⟨b.endStrobe p [lines[p].d.extractLsb' 0 8], run, hengine, hout, hothers, (congrArg State.pins hrest :),
      fun hd _ => hanswered hd, hcondemned, (congrArg (fun w : State => { w with pins := s.pins }) hrest :)⟩

end Sys2Proof.Machine
end

