-- ==== Sys2Proof/Proofs/Weak.lean ====
section
/-! PROOF. The weak-row list (R96 to R103): its reading, the clearing of an entry, and reports with their alerts. -/

namespace Sys2Proof.Machine

open Sys2Proof.Safety

-- One thread: the whole text is checked under a memory limit that holds a bounded number of thread stacks.
set_option Elab.async false

/-! ### Entries of a row -/

/-- The first element that passes is taken out. -/
theorem dropFirst_append {α : Type} {p : α → Bool} {before after : List α} {x : α} (hb : ∀ y ∈ before, p y = false)
    (hx : p x = true) : dropFirst p (before ++ x :: after) = before ++ after := by
  induction before with
  | nil => simp [dropFirst, hx]
  | cons y l ih =>
    have hy := hb y (List.mem_cons_self ..)
    have hl := ih fun z hz => hb z (List.mem_cons_of_mem _ hz)
    simp [dropFirst, hy, hl]

theorem isOf_iff {b : Bank} {row : Row} {e : WeakEntry} : e.isOf b row = true ↔ e.bank = b ∧ e.row = row := by
  simp [WeakEntry.isOf]

theorem isOf_false {b : Bank} {row : Row} {e : WeakEntry} : e.isOf b row = false ↔ ¬(e.bank = b ∧ e.row = row) := by
  rw [← isOf_iff, Bool.not_eq_true]

/-- An entry of the row is listed. -/
theorem any_isOf {b : Bank} {row : Row} {l before after : List WeakEntry} {e : WeakEntry} (hl : l = before ++ e :: after)
    (hb : e.bank = b) (hr : e.row = row) : l.any (WeakEntry.isOf b row) = true := by
  rw [hl]
  simp [isOf_iff.2 ⟨hb, hr⟩]

theorem any_isOf_false {b : Bank} {row : Row} {l : List WeakEntry} (h : ∀ x ∈ l, ¬(x.bank = b ∧ x.row = row)) :
    l.any (WeakEntry.isOf b row) = false :=
  List.any_eq_false.2 fun x hx => by rw [isOf_iff]; exact h x hx

/-- The row's entry leaves the list (R101, R102). -/
theorem removeWeak_listed {s : State} {before after : List WeakEntry} {e : WeakEntry} (hl : s.media.list = before ++ e :: after)
    (hb : ∀ x ∈ before, ¬(x.bank = e.bank ∧ x.row = e.row)) :
    s.removeWeak e.bank e.row = { s with media := { s.media with list := before ++ after, listFull := false } } := by
  unfold State.removeWeak
  rw [if_pos (any_isOf hl rfl rfl), hl, dropFirst_append (fun y hy => isOf_false.2 (hb y hy)) (isOf_iff.2 ⟨rfl, rfl⟩)]

/-! ### READ WEAK LIST and CLEAR WEAK ENTRY -/

theorem readWeakList_runsAs : RunsAs anyLines .readWeakList 0x30 fun r s => s.doReadWeakList r := fun _ => rfl
theorem clearWeakEntry_runsAs : RunsAs anyLines .clearWeakEntry 0x31 fun r s => s.doClearWeakEntry r := fun _ => rfl

/-- The bank and the row that a request's first three bytes after the code spell. -/
theorem bankRow_fields {r : Request} {code : Byte} {bank row : Nat} {more : List Byte} (hb : bank < 256) (hw : row < 65536)
    (hr : r.payload = code :: (natBytes 1 bank ++ natBytes 2 row ++ more)) :
    field r.payload 1 1 = bank ∧ field r.payload 2 2 = row := by
  refine ⟨?_, ?_⟩
  · simpa [hr] using field_mid [code] (natBytes 2 row ++ more) (k := 1) hb
  · simpa [hr] using field_mid (code :: natBytes 1 bank) more (k := 2) hw

theorem bankRow_none {r : Request} {bank row : Nat} (hb : field r.payload 1 1 = bank) (hw : field r.payload 2 2 = row)
    (h : 16 ≤ bank ∨ 8192 ≤ row) : bankRow r = none := by
  simp only [bankRow, hb, hw]
  by_cases hlow : bank < 16
  · rw [dif_pos hlow, dif_neg (by omega)]
  · rw [dif_neg hlow]

theorem bankRow_some {r : Request} {b : Bank} {w : Row} (hb : field r.payload 1 1 = b.val) (hw : field r.payload 2 2 = w.val) :
    bankRow r = some (b, w) := by
  simp only [bankRow, hb, hw]
  rw [dif_pos b.isLt, dif_pos w.isLt]

section Clear
variable {s : State} {r : Request} {b : Bank} {w : Row}

theorem doClearWeakEntry_range (hready : s.part.state = .ready) (h : bankRow r = none) :
    s.doClearWeakEntry r = s.answer r .range [] := by
  rw [State.doClearWeakEntry, whenReady_ready hready, h]

theorem doClearWeakEntry_notListed (hready : s.part.state = .ready) (h : bankRow r = some (b, w))
    (hl : ∀ e ∈ s.media.list, ¬(e.bank = b ∧ e.row = w)) : s.doClearWeakEntry r = s.answer r .notListed [] := by
  rw [State.doClearWeakEntry, whenReady_ready hready, h]
  simp [any_isOf_false hl]

theorem doClearWeakEntry_ok (hready : s.part.state = .ready) (h : bankRow r = some (b, w))
    (hl : s.media.list.any (WeakEntry.isOf b w) = true) : s.doClearWeakEntry r = (s.removeWeak b w).answer r .ok [] := by
  rw [State.doClearWeakEntry, whenReady_ready hready, h]
  simp [hl]

end Clear

/-! ### A report (R97, R98) -/

section Record
variable {s : State} {src : Source} {b : Bank} {row : Row} {c u : Nat}

/-- The entry of a listed row is updated in its place. -/
theorem record_listed {before after : List WeakEntry} {e : WeakEntry} (hl : s.media.list = before ++ e :: after)
    (hb : e.bank = b) (hr : e.row = row) (hone : ∀ x ∈ before ++ after, ¬(x.bank = b ∧ x.row = row)) :
    s.record src b row c u = { s with media := { s.media with
      list := before ++ { e with
        correctedCount := min 255 (e.correctedCount + c), uncorrectable := e.uncorrectable || decide (1 ≤ u),
        remapped := (s.remapOf b).any fun x => decide (x.row = row) } :: after } } := by
  let f (e : WeakEntry) : WeakEntry :=
    if e.isOf b row then
      { e with correctedCount := min 255 (e.correctedCount + c), uncorrectable := e.uncorrectable || decide (1 ≤ u),
               remapped := s.remapped b row }
    else e
  have others (l : List WeakEntry) (h : ∀ x ∈ l, ¬(x.bank = b ∧ x.row = row)) : l.map f = l :=
    (List.map_congr_left fun x hx => if_neg (mt isOf_iff.1 (h x hx))).trans (List.map_id _)
  have updated : s.media.list.map f = before ++ f e :: after := by
    rw [hl, List.map_append, List.map_cons, others before fun x hx => hone x (List.mem_append_left _ hx),
      others after fun x hx => hone x (List.mem_append_right _ hx)]
  have here : f e = { e with
      correctedCount := min 255 (e.correctedCount + c), uncorrectable := e.uncorrectable || decide (1 ≤ u),
      remapped := (s.remapOf b).any fun x => decide (x.row = row) } := if_pos (isOf_iff.2 ⟨hb, hr⟩)
  unfold State.record
  rw [if_pos (any_isOf hl hb hr), ← here, ← updated]
  rfl

theorem record_appended (hnew : ∀ x ∈ s.media.list, ¬(x.bank = b ∧ x.row = row)) (hroom : s.media.list.length < 32) :
    s.record src b row c u = { s with media := { s.media with list := s.media.list ++ [s.newWeak src b row c u] } } := by
  unfold State.record
  rw [if_neg (by simp [any_isOf_false hnew]), if_pos (show _ < Config.weakEntries from hroom)]
  rfl

theorem record_evicting (hnew : ∀ x ∈ s.media.list, ¬(x.bank = b ∧ x.row = row)) (hfull : 32 ≤ s.media.list.length)
    {before after : List WeakEntry} {e : WeakEntry} (hl : s.media.list = before ++ e :: after) (he : e.uncorrectable = false)
    (hb : ∀ x ∈ before, x.uncorrectable = true) :
    s.record src b row c u =
      { s with media := { s.media with list := before ++ after ++ [s.newWeak src b row c u] } } := by
  have some : (s.media.list.any fun e => !e.uncorrectable) = true := by
    rw [hl]
    simp [he]
  unfold State.record
  rw [if_neg (by simp [any_isOf_false hnew]), if_neg (show ¬_ < Config.weakEntries from Nat.not_lt.2 hfull), if_pos some,
    hl, dropFirst_append (fun y hy => by simp [hb y hy]) (by simp [he])]
  rfl

theorem record_lost (hnew : ∀ x ∈ s.media.list, ¬(x.bank = b ∧ x.row = row)) (hfull : 32 ≤ s.media.list.length)
    (hall : ∀ x ∈ s.media.list, x.uncorrectable = true) : s.record src b row c u = s := by
  unfold State.record
  rw [if_neg (by simp [any_isOf_false hnew]), if_neg (show ¬_ < Config.weakEntries from Nat.not_lt.2 hfull),
    if_neg (by simpa using hall)]

end Record

/-! ### The alerts of a report (R98, R100) -/

/-- A report after its record: the UNCORRECTABLE alert. -/
def State.uncorrectableAlerted (s : State) (a : Access) (rs : List WordResult) : State :=
  match firstFaulty rs with
  | some addr => s.alertUncorrectable a.client.source a.bank a.row addr
  | none => s

theorem report_eq (s : State) (a : Access) (rs : List WordResult) : s.report a rs =
    if s.unrecorded a.bank a.row then
      ((s.record a.client.source a.bank a.row (correctedWords rs) (uncorrectableWords rs)).uncorrectableAlerted a
        rs).alertListFull a.bank a.row
    else (s.record a.client.source a.bank a.row (correctedWords rs) (uncorrectableWords rs)).uncorrectableAlerted a rs := rfl

theorem firstFaulty_some {rs before after : List WordResult} {x : WordResult} (hrs : rs = before ++ x :: after)
    (hx : x.outcome = some .uncorrectable) (hb : ∀ y ∈ before, y.outcome ≠ some .uncorrectable) :
    firstFaulty rs = some x.address := by
  have none : before.find? WordResult.isUncorrectable = none := List.find?_eq_none.2 fun y hy => by
    simpa [WordResult.isUncorrectable] using hb y hy
  have found : rs.find? WordResult.isUncorrectable = some x := by
    rw [hrs, List.find?_append, none]
    simp [WordResult.isUncorrectable, hx]
  rw [firstFaulty, found]
  rfl

/-- Settles O35. -/
theorem weakListIsReadAndCleared : Obligations.WeakListIsReadAndCleared := by
  refine ⟨⟨fun s r rest h hr => ?_, fun s r rest bank row h hb hw hr hready => ?_⟩, fun s src b row c u =>
    ⟨fun before after e => record_listed, fun new hnew hout => ?_⟩, fun s a rs => ?_⟩
  · have hcode : r.code = 0x30 := by simp [Request.code, hr]
    have hlen : lengthOk r = true := by simp [lengthOk, hcode, hr]
    refine ⟨fun hpart => readWeakList_runsAs.answers h hcode hlen (st := .ok) (whenReadable_run (s := s.withIntake rest) hpart r _),
      fun hpart => ?_, fun hpart => ?_⟩
    · exact readWeakList_runsAs.answers h hcode hlen (st := .starting) (fs := [])
        (whenReadable_refused (s := s.withIntake rest) (by simp [hpart, PartState.readRefusal]) r _)
    · exact readWeakList_runsAs.answers h hcode hlen (st := .busy) (fs := [])
        (whenReadable_refused (s := s.withIntake rest) (by rcases hpart with e | e <;> simp [e, PartState.readRefusal]) r _)
  · have hcode : r.code = 0x31 := by simp [Request.code, hr]
    have hlen : lengthOk r = true := by simp [lengthOk, hcode, hr]
    obtain ⟨hbank, hrow⟩ := bankRow_fields (more := []) hb hw (by rw [List.append_nil]; exact hr)
    refine ⟨fun hbad => clearWeakEntry_runsAs.answers h hcode hlen
      (doClearWeakEntry_range (s := s.withIntake rest) hready (bankRow_none hbank hrow hbad)), fun hb16 hw13 hnot => ?_,
      fun before after e hl heb hew hbefore => ?_⟩
    · refine clearWeakEntry_runsAs.answers h hcode hlen (doClearWeakEntry_notListed (s := s.withIntake rest) hready
        (bankRow_some (b := ⟨bank, hb16⟩) (w := ⟨row, hw13⟩) hbank hrow) fun e he ⟨k, k'⟩ => hnot e he ⟨?_, ?_⟩)
      · rw [k]
      · rw [k']
    · have hnamed : bankRow r = some (e.bank, e.row) := bankRow_some (hbank.trans heb.symm) (hrow.trans hew.symm)
      have cleared := doClearWeakEntry_ok (s := s.withIntake rest) hready hnamed (any_isOf hl rfl rfl)
      have ⟨_, hfree, _, _⟩ := h
      have removed := removeWeak_listed (s := s.withIntake rest) hl hbefore
      rw [removed] at cleared
      have run := (clearWeakEntry_runsAs.run h hcode hlen).trans (congrArg (fun u : State => Host.Outcome.next u.transmit) cleared)
      obtain ⟨hmade, hintake, -, hthen, hkept⟩ := answer_sent (s := s) (rest := rest)
        (v := { s.withIntake rest with media := { s.media with list := before ++ after, listFull := false } }) r .ok [] rfl hfree
      rw [hcode] at hmade
      exact ⟨_, run, hmade, hintake, hkept, (congrArg State.media hthen :),
        (congrArg (fun w : State => { w with link := s.link, proc := s.proc, media := s.media }) hthen :)⟩
  · subst hnew
    exact ⟨record_appended hout, fun before after e hfull hl he hb => record_evicting hout hfull hl he hb, record_lost hout⟩
  · refine ⟨_, (s.record a.client.source a.bank a.row (correctedWords rs) (uncorrectableWords rs)).uncorrectableAlerted a rs, rfl,
      fun hnone => ?_, fun before after x hrs hx hb => ⟨fun hsrc => ?_, fun hsrc hmark => ?_, fun hsrc hmark => ?_⟩,
      fun hrec => ?_, fun hrec hfull => ?_, fun hrec hfull => ?_⟩
    · rw [State.uncorrectableAlerted, firstFaulty_none.2 hnone]
      rfl
    · rw [State.uncorrectableAlerted, firstFaulty_some hrs hx hb]
      exact if_neg hsrc
    · rw [State.uncorrectableAlerted, firstFaulty_some hrs hx hb]
      exact (if_pos hsrc).trans (if_pos hmark)
    · rw [State.uncorrectableAlerted, firstFaulty_some hrs hx hb]
      refine (if_pos hsrc).trans ((if_neg hmark).trans ?_)
      rw [hsrc]
      rfl
    · rw [report_eq, if_neg (mt State.unrecorded_iff.1 hrec)]
    · rw [report_eq, if_pos (State.unrecorded_iff.2 hrec)]
      exact if_pos hfull
    · rw [report_eq, if_pos (State.unrecorded_iff.2 hrec)]
      exact if_neg (by simp [hfull])

end Sys2Proof.Machine
end

