-- ==== Sys2Proof/Proofs/Scheduler.lean ====
section
/-! PROOF. The scheduler, stage by stage (R9 to R13, R21 to R27, R33, R86, R88): what each stage makes of a bank. -/

namespace Sys2Proof.Machine

open Sys2Proof.Safety

-- One thread: the whole text is checked under a memory limit that holds a bounded number of thread stacks.
set_option Elab.async false

/-! ### One bank after another -/

theorem mem_allBanks (b : Bank) : b ∈ allBanks := by
  revert b
  decide

theorem allBanks_nodup : allBanks.Nodup := by decide

theorem mem_allGroups (g : Group) : g ∈ allGroups := by
  revert g
  decide

theorem allGroups_nodup : allGroups.Nodup := by decide

@[simp] theorem setBank_bank (s : State) (b : Bank) : s.setBank b (s.bank b) = s := by
  unfold State.setBank State.bank
  simp

/-- Banks written one after another, each with what its own record makes of it: every bank of the list is written once. -/
theorem foldl_setBank {h : State → Bank → BankRecord}
    (hloc : ∀ (t : State) (b c : Bank), c ≠ b → h (t.setBank c (h t c)) b = h t b) (l : List Bank) (hl : l.Nodup) (s : State) :
    (∀ b : Bank, (l.foldl (fun s b => s.setBank b (h s b)) s).bank b = if b ∈ l then h s b else s.bank b) ∧
      { l.foldl (fun s b => s.setBank b (h s b)) s with banks := s.banks } = s := by
  induction l generalizing s with
  | nil => exact ⟨fun _ => rfl, rfl⟩
  | cons c l ih =>
    obtain ⟨hc, hl⟩ := List.nodup_cons.1 hl
    obtain ⟨hbank, hrest⟩ := ih hl (s.setBank c (h s c))
    refine ⟨fun b => ?_, (congrArg (fun t : State => { t with banks := s.banks }) hrest :)⟩
    rw [List.foldl_cons, hbank]
    by_cases hb : b = c
    · subst hb
      rw [if_neg hc, if_pos (List.mem_cons_self ..), State.bank_self]
    · rw [hloc s b c (Ne.symm hb), State.bank_other _ _ _ b hb]
      simp [hb]

/-- The states agree but for the banks, and in the record of this bank. -/
def SameAt (s t : State) (b : Bank) : Prop := { t with banks := s.banks } = s ∧ t.bank b = s.bank b

theorem sameAt_setBank (s : State) {b c : Bank} (x : BankRecord) (h : c ≠ b) : SameAt s (s.setBank c x) b :=
  ⟨rfl, State.bank_other _ _ _ b (Ne.symm h)⟩

section SameAt
variable {s t : State} {b : Bank}

/-- Another state with the same record of the bank makes the same choices there. -/
theorem SameAt.banks (h : SameAt s t b) : ∃ bk, t = { s with banks := bk } ∧ bk[b] = s.banks[b] :=
  ⟨t.banks, (congrArg (fun u : State => { u with banks := t.banks }) h.1 :), h.2⟩

theorem SameAt.servable (h : SameAt s t b) {a : Access} (ha : a.bank = b) : Servable t a ↔ Servable s a := by
  obtain ⟨bk, rfl, e⟩ := h.banks
  subst ha
  have hb : State.bank { s with banks := bk } a.bank = s.bank a.bank := e
  have claims : Claims { s with banks := bk } a.bank ↔ Claims s a.bank := by
    unfold Claims
    rw [hb]
  have allows : LockAllows { s with banks := bk } a ↔ LockAllows s a := by
    unfold LockAllows OfLockHolder
    rw [hb]
  unfold Servable
  rw [claims, allows, hb]
  exact Iff.rfl

theorem SameAt.closesOtherwise (h : SameAt s t b) (w : OpenRow) : ClosesOtherwise t b w ↔ ClosesOtherwise s b w := by
  obtain ⟨bk, rfl, e⟩ := h.banks
  have hb : State.bank { s with banks := bk } b = s.bank b := e
  unfold ClosesOtherwise Claims
  rw [hb]
  exact Iff.rfl

theorem SameAt.closesForMiss (h : SameAt s t b) (w : OpenRow) : ClosesForMiss t b w ↔ ClosesForMiss s b w := by
  have hs {a : Access} (ha : a.bank = b) : Servable t a ↔ Servable s a := h.servable ha
  obtain ⟨bk, rfl, e⟩ := h.banks
  have hb : State.bank { s with banks := bk } b = s.bank b := e
  have miss : (∃ a ∈ s.accesses, a.bank = b ∧ a.row ≠ w.logical ∧ Servable { s with banks := bk } a) ↔
      ∃ a ∈ s.accesses, a.bank = b ∧ a.row ≠ w.logical ∧ Servable s a :=
    exists_congr fun a => and_congr_right fun _ => and_congr_right fun ha => and_congr_right fun _ => hs ha
  have hit : (∀ a ∈ s.accesses, a.bank = b → a.row = w.logical → ¬Servable { s with banks := bk } a) ↔
      ∀ a ∈ s.accesses, a.bank = b → a.row = w.logical → ¬Servable s a :=
    forall₂_congr fun a _ => forall_congr' fun ha => forall_congr' fun _ => not_congr (hs ha)
  unfold ClosesForMiss
  rw [hb]
  exact and_congr_right fun _ => and_congr_right fun _ => and_congr miss (or_congr hit Iff.rfl)

theorem SameAt.lockWaited (h : SameAt s t b) : LockWaited t b ↔ LockWaited s b := by
  obtain ⟨bk, rfl, e⟩ := h.banks
  have hb : State.bank { s with banks := bk } b = s.bank b := e
  have allows (a : Access) (ha : a.bank = b) : LockAllows { s with banks := bk } a ↔ LockAllows s a := by
    subst ha
    unfold LockAllows OfLockHolder
    rw [hb]
  have party : (∃ a ∈ s.accesses, a.bank = b ∧ a.condition = .waiting ∧ ¬LockAllows { s with banks := bk } a ∧
      a.client ≠ .maint .scrub) ↔
      ∃ a ∈ s.accesses, a.bank = b ∧ a.condition = .waiting ∧ ¬LockAllows s a ∧ a.client ≠ .maint .scrub :=
    exists_congr fun a => and_congr_right fun _ => and_congr_right fun ha => and_congr_right fun _ =>
      and_congr_left fun _ => not_congr (allows a ha)
  have claims : Claims { s with banks := bk } b ↔ Claims s b := by
    unfold Claims
    rw [hb]
  exact or_congr party claims

end SameAt

/-! ### The closes (R11, R26) -/

/-- A bank that is OPEN goes to CLOSING. -/
def closingOf (x : BankRecord) : BankRecord :=
  match x.state with
  | .opened w => { x with state := .closing w }
  | _ => x

theorem closeBank_eq (s : State) (b : Bank) : s.closeBank b = s.setBank b (closingOf (s.bank b)) := by
  unfold State.closeBank closingOf
  cases (s.bank b).state with
  | opened w => rfl
  | _ => exact (setBank_bank s b).symm

theorem closingOf_opened {x : BankRecord} {w : OpenRow} (h : x.state = .opened w) :
    closingOf x = { x with state := .closing w } := by
  unfold closingOf
  rw [h]

/-- Banks closed one after another by a test that looks at the bank alone. -/
theorem foldl_closeBank {p : State → Bank → Bool} (hp : ∀ (s t : State) (b : Bank), SameAt s t b → p t b = p s b) (s : State) :
    (∀ b : Bank, (allBanks.foldl (fun s b => if p s b then s.closeBank b else s) s).bank b =
        if p s b then closingOf (s.bank b) else s.bank b) ∧
      { allBanks.foldl (fun s b => if p s b then s.closeBank b else s) s with banks := s.banks } = s := by
  let h (s : State) (b : Bank) : BankRecord := if p s b then closingOf (s.bank b) else s.bank b
  have each : (fun (s : State) (b : Bank) => if p s b then s.closeBank b else s) = fun s b => s.setBank b (h s b) := by
    funext s b
    dsimp only [h]
    split
    · exact closeBank_eq s b
    · exact (setBank_bank s b).symm
  have hloc (t : State) (b c : Bank) (hne : c ≠ b) : h (t.setBank c (h t c)) b = h t b := by
    have same := sameAt_setBank t (h t c) hne
    dsimp only [h] at same ⊢
    rw [hp _ _ b same, same.2]
  rw [each]
  obtain ⟨hbank, hrest⟩ := foldl_setBank hloc allBanks allBanks_nodup s
  exact ⟨fun b => (hbank b).trans (if_pos (mem_allBanks b)), hrest⟩

/-- The closes of R11 that no access asks for. -/
theorem closeBanks_spec (s : State) :
    (∀ (b : Bank) (w : OpenRow), ClosesOtherwise s b w → s.closeBanks.bank b = { s.bank b with state := .closing w }) ∧
      (∀ b : Bank, (∀ w : OpenRow, ¬ClosesOtherwise s b w) → s.closeBanks.bank b = s.bank b) ∧
      { s.closeBanks with banks := s.banks } = s := by
  obtain ⟨hbank, hrest⟩ := foldl_closeBank (p := State.mustClose) (fun s t b h => by
    rw [Bool.eq_iff_iff, State.mustClose_iff, State.mustClose_iff]
    exact exists_congr fun w => h.closesOtherwise w) s
  refine ⟨fun b w h => ?_, fun b h => ?_, hrest⟩
  · exact (hbank b).trans ((if_pos (State.mustClose_iff.2 ⟨w, h⟩)).trans (closingOf_opened h.1))
  · exact (hbank b).trans (if_neg fun k => (State.mustClose_iff.1 k).elim h)

/-- Close-then-open (R26). -/
theorem closeForMisses_spec (s : State) :
    (∀ (b : Bank) (w : OpenRow), ClosesForMiss s b w → s.closeForMisses.bank b = { s.bank b with state := .closing w }) ∧
      (∀ b : Bank, (∀ w : OpenRow, ¬ClosesForMiss s b w) → s.closeForMisses.bank b = s.bank b) ∧
      { s.closeForMisses with banks := s.banks } = s := by
  obtain ⟨hbank, hrest⟩ := foldl_closeBank (p := State.closesForMiss) (fun s t b h => by
    rw [Bool.eq_iff_iff, State.closesForMiss_iff, State.closesForMiss_iff]
    exact exists_congr fun w => h.closesForMiss w) s
  refine ⟨fun b w h => ?_, fun b h => ?_, hrest⟩
  · exact (hbank b).trans ((if_pos (State.closesForMiss_iff.2 ⟨w, h⟩)).trans (closingOf_opened h.1))
  · exact (hbank b).trans (if_neg fun k => (State.closesForMiss_iff.1 k).elim h)

/-! ### Lock wait timers (R33) -/

theorem lockTimers_spec (s : State) :
    (∀ b : Bank, s.lockTimers.bank b = { s.bank b with lockTimer := s.lockTimerOf b }) ∧
      { s.lockTimers with banks := s.banks } = s := by
  let h (s : State) (b : Bank) : BankRecord := { s.bank b with lockTimer := s.lockTimerOf b }
  have hloc (t : State) (b c : Bank) (hne : c ≠ b) : h (t.setBank c (h t c)) b = h t b := by
    have same := sameAt_setBank t (h t c) hne
    have waited : (t.setBank c (h t c)).lockWaited b = t.lockWaited b := by
      rw [Bool.eq_iff_iff, State.lockWaited_iff, State.lockWaited_iff]
      exact same.lockWaited
    have timer : (t.setBank c (h t c)).lockTimerOf b = t.lockTimerOf b := by
      unfold State.lockTimerOf
      rw [waited, same.2]
      rfl
    show ({ (t.setBank c (h t c)).bank b with lockTimer := (t.setBank c (h t c)).lockTimerOf b } : BankRecord) = _
    rw [timer, same.2]
  obtain ⟨hbank, hrest⟩ := foldl_setBank hloc allBanks allBanks_nodup s
  exact ⟨fun b => (hbank b).trans (if_pos (mem_allBanks b)), hrest⟩

theorem lockTimerOf_runs {s : State} {b : Bank} (hl : (s.bank b).lockHolder ≠ none) (hw : LockWaited s b) :
    s.lockTimerOf b = some ((s.bank b).lockTimer.getD s.settings.holdLimit) := by
  unfold State.lockTimerOf
  rw [if_pos (by simp [State.lockWaited_iff.2 hw, Option.isSome_iff_ne_none, hl])]
  cases (s.bank b).lockTimer <;> rfl

theorem lockTimerOf_stopped {s : State} {b : Bank} (h : (s.bank b).lockHolder = none ∨ ¬LockWaited s b) :
    s.lockTimerOf b = none := by
  unfold State.lockTimerOf
  refine if_neg fun k => ?_
  rw [Bool.and_eq_true, State.lockWaited_iff] at k
  rcases h with h | h
  · simp [h] at k
  · exact h k.2

/-! ### Group refreshes (R12, R86, R88) -/

theorem banksOf_nodup (g : Group) : (banksOf g).Nodup := by
  revert g
  decide

theorem beginRefresh_spec (s : State) (g : Group) :
    (∀ b : Bank, (s.beginRefresh g).bank b = if groupOf b = g then { s.bank b with state := .refreshing } else s.bank b) ∧
      { s.beginRefresh g with banks := s.banks } = s := by
  obtain ⟨hbank, hrest⟩ := foldl_setBank (h := fun s b => { s.bank b with state := .refreshing })
    (fun t b c hne => by rw [(sameAt_setBank t _ hne).2]) (banksOf g) (banksOf_nodup g) s
  exact ⟨fun b => (hbank b).trans (if_congr mem_banksOf rfl rfl), hrest⟩

/-- A claim looks at the banks of its group alone. -/
theorem refreshDue_congr {s t : State} {g : Group} (hrest : { t with banks := s.banks } = s)
    (hbank : ∀ b : Bank, groupOf b = g → t.bank b = s.bank b) : RefreshDue t g ↔ RefreshDue s g := by
  have e : t = { s with banks := t.banks } := (congrArg (fun u : State => { u with banks := t.banks }) hrest :)
  have hgroup : t.group g = s.group g := by rw [e]; rfl
  have hacc : t.accesses = s.accesses := by rw [e]
  unfold RefreshDue
  rw [hgroup, hacc]
  have closed : (∀ b : Bank, groupOf b = g → (t.bank b).state = .closed) ↔ ∀ b : Bank, groupOf b = g → (s.bank b).state = .closed :=
    forall₂_congr fun b hb => by rw [hbank b hb]
  rw [closed]

theorem foldl_takeRefresh (l : List Group) (hl : l.Nodup) (s : State) :
    (∀ b : Bank,
      (groupOf b ∈ l → RefreshDue s (groupOf b) →
        (l.foldl (fun s g => if s.refreshReady g then s.beginRefresh g else s) s).bank b =
          { s.bank b with state := .refreshing }) ∧
      ((groupOf b ∉ l ∨ ¬RefreshDue s (groupOf b)) →
        (l.foldl (fun s g => if s.refreshReady g then s.beginRefresh g else s) s).bank b = s.bank b)) ∧
      { l.foldl (fun s g => if s.refreshReady g then s.beginRefresh g else s) s with banks := s.banks } = s := by
  induction l generalizing s with
  | nil => exact ⟨fun b => ⟨fun h => absurd h (List.not_mem_nil), fun _ => rfl⟩, rfl⟩
  | cons g l ih =>
    obtain ⟨hg, hl⟩ := List.nodup_cons.1 hl
    let u : State := if s.refreshReady g then s.beginRefresh g else s
    have hu : { u with banks := s.banks } = s := by
      dsimp only [u]
      split
      · exact (beginRefresh_spec s g).2
      · rfl
    have hother (b : Bank) (hb : groupOf b ≠ g) : u.bank b = s.bank b := by
      dsimp only [u]
      split
      · rw [(beginRefresh_spec s g).1, if_neg hb]
      · rfl
    have hdue (h : RefreshDue s g) (b : Bank) (hb : groupOf b = g) : u.bank b = { s.bank b with state := .refreshing } := by
      dsimp only [u]
      rw [if_pos (State.refreshReady_iff.2 h), (beginRefresh_spec s g).1, if_pos hb]
    have hnot (h : ¬RefreshDue s g) : u = s := if_neg fun k => h (State.refreshReady_iff.1 k)
    obtain ⟨hbank, hrest⟩ := ih hl u
    refine ⟨fun b => ?_, (congrArg (fun t : State => { t with banks := s.banks }) hrest).trans hu⟩
    by_cases hb : groupOf b = g
    · have stays := (hbank b).2 (.inl (by rw [hb]; exact hg))
      refine ⟨fun _ hd => stays.trans (hdue (hb ▸ hd) b hb), fun k => stays.trans ?_⟩
      rcases k with k | k
      · exact absurd (hb ▸ List.mem_cons_self ..) k
      · rw [hnot (hb ▸ k)]
    · have same : RefreshDue u (groupOf b) ↔ RefreshDue s (groupOf b) :=
        refreshDue_congr hu fun c hc => hother c (hc ▸ hb)
      refine ⟨fun hmem hd => ?_, fun k => ?_⟩
      · rw [List.foldl_cons, (hbank b).1 ((List.mem_cons.1 hmem).resolve_left hb) (same.2 hd), hother b hb]
      · rw [List.foldl_cons, (hbank b).2 (k.imp (fun h m => h (List.mem_cons_of_mem _ m)) (mt same.1)), hother b hb]

/-- The refresh claims that are due are taken, each for its four banks. -/
theorem takeRefreshClaims_spec (s : State) :
    (∀ b : Bank,
      (RefreshDue s (groupOf b) → s.takeRefreshClaims.bank b = { s.bank b with state := .refreshing }) ∧
      (¬RefreshDue s (groupOf b) → s.takeRefreshClaims.bank b = s.bank b)) ∧
      { s.takeRefreshClaims with banks := s.banks } = s := by
  obtain ⟨hbank, hrest⟩ := foldl_takeRefresh allGroups allGroups_nodup s
  exact ⟨fun b => ⟨(hbank b).1 (mem_allGroups _), fun h => (hbank b).2 (.inr h)⟩, hrest⟩

/-! ### The claim of a repair, or of the spare step (R13, R117, R168) -/

theorem repairDue_unique {s : State} {b c : Bank} (h : RepairDue s b) (k : RepairDue s c) : b = c :=
  Option.some.inj ((State.claimBank_iff.2 h.1).symm.trans (State.claimBank_iff.2 k.1))

theorem takeRepairIfFirst_none {s : State} (h : ∀ b : Bank, ¬RepairDue s b) : s.takeRepairIfFirst = s := by
  unfold State.takeRepairIfFirst
  split
  · rfl
  · exact if_neg fun k => h _ (State.repairReady_iff.1 k)

theorem takeRepairIfFirst_claim {s : State} {b : Bank} (h : RepairDue s b) : s.takeRepairIfFirst =
    if s.refreshReady (groupOf b) then
      if Config.freeChoice s.freeCtr then claimTaken { s with freeCtr := s.freeCtr + 1 } b
      else { s with freeCtr := s.freeCtr + 1 }
    else claimTaken s b := by
  unfold State.takeRepairIfFirst
  rw [State.claimBank_iff.2 h.1]
  dsimp only
  rw [if_pos (State.repairReady_iff.2 h), State.takeRepairClaim_eq, State.takeRepairClaim_eq]

/-! ### Grants (R24) -/

/-- The first element that passes takes the condition. -/
theorem markFirst_append {p : Access → Bool} {c : Condition} {before after : List Access} {a : Access}
    (hb : ∀ x ∈ before, p x = false) (ha : p a = true) :
    markFirst p c (before ++ a :: after) = before ++ { a with condition := c } :: after := by
  induction before with
  | nil => simp [markFirst, ha]
  | cons x l ih =>
    have hx := hb x (List.mem_cons_self ..)
    have hl := ih fun z hz => hb z (List.mem_cons_of_mem _ hz)
    simp [markFirst, hx, hl]

theorem find_append {p : Access → Bool} {before after : List Access} {a : Access} (hb : ∀ x ∈ before, p x = false)
    (ha : p a = true) : (before ++ a :: after).find? p = some a := by
  rw [List.find?_append, List.find?_eq_none.2 (by simpa using hb)]
  simp [ha]

theorem grant_none {s : State} {b : Bank} (h : ∀ a ∈ s.accesses, ¬MayOpen s b a) : s.grant b = s := by
  unfold State.grant
  rw [List.find?_eq_none.2 fun a ha => mt State.eligibleToOpen_iff.1 (h a ha)]

/-- The earliest access that may open the bank is GRANTED, and the bank opens for it. -/
theorem grant_first {s : State} {b : Bank} {before after : List Access} {a : Access} (hacc : s.accesses = before ++ a :: after)
    (ha : MayOpen s b a) (hb : ∀ x ∈ before, ¬MayOpen s b x) :
    s.grant b = ({ s with accesses := before ++ { a with condition := .granted } :: after } : State).setBank b
      { s.bank b with state := .opening { logical := a.row, physical := s.resolve b a.row } } := by
  have none (x : Access) (hx : x ∈ before) : (decide (x.bank = b) && s.eligibleToOpen x) = false :=
    Bool.eq_false_iff.2 (mt State.eligibleToOpen_iff.1 (hb x hx))
  unfold State.grant
  rw [hacc, find_append none (State.eligibleToOpen_iff.2 ha)]
  dsimp only
  rw [markFirst_append none (State.eligibleToOpen_iff.2 ha)]

/-- A grant takes place or it does not. -/
theorem grant_cases (s : State) (b : Bank) : s.grant b = s ∨ ∃ (a : Access) (l : List Access) (v : OpenRow), a ∈ s.accesses ∧
    MayOpen s b a ∧ s.grant b = ({ s with accesses := l } : State).setBank b { s.bank b with state := .opening v } := by
  unfold State.grant
  cases h : s.accesses.find? fun a => decide (a.bank = b) && s.eligibleToOpen a with
  | none => exact .inl rfl
  | some a =>
    exact .inr ⟨a, _, _, List.mem_of_find?_eq_some h, State.eligibleToOpen_iff.1 (by simpa using List.find?_some h), rfl⟩

/-! ### How a bank moves in one turn of the scheduler -/

/-- From one bank state to another: it stands, an OPEN bank closes, and a CLOSED one is taken by a claim, by its group's refresh
that is owed, or opens for an access that asks for it. -/
def Moves (claimed owed asked : Prop) (x y : BankState) : Prop :=
  y = x ∨ (∃ w : OpenRow, x = .opened w ∧ y = .closing w) ∨
    (x = .closed ∧ ((y = .repairing ∧ claimed) ∨ (y = .refreshing ∧ owed) ∨ ∃ w : OpenRow, y = .opening w ∧ asked))

namespace Moves
variable {c d a c' d' a' : Prop} {x y z : BankState}

theorem refl (x : BankState) : Moves c d a x x := .inl rfl

theorem mono (h : Moves c d a x y) (hc : c → c') (hd : d → d') (ha : a → a') : Moves c' d' a' x y :=
  h.imp_right (Or.imp_right fun ⟨e, k⟩ => ⟨e, k.imp (And.imp_right hc) (Or.imp (And.imp_right hd) fun ⟨w, e, k⟩ => ⟨w, e, ha k⟩)⟩)

theorem trans (h : Moves c d a x y) (k : Moves c d a y z) : Moves c d a x z := by
  rcases h with rfl | ⟨w, rfl, rfl⟩ | ⟨rfl, h⟩
  · exact k
  · rcases k with rfl | ⟨_, k, -⟩ | ⟨k, -⟩
    · exact .inr (.inl ⟨w, rfl, rfl⟩)
    · cases k
    · cases k
  · rcases h with ⟨rfl, hc⟩ | ⟨rfl, hd⟩ | ⟨w, rfl, ha⟩ <;> rcases k with rfl | ⟨_, k, -⟩ | ⟨k, -⟩ <;> try cases k
    · exact .inr (.inr ⟨rfl, .inl ⟨rfl, hc⟩⟩)
    · exact .inr (.inr ⟨rfl, .inr (.inl ⟨rfl, hd⟩)⟩)
    · exact .inr (.inr ⟨rfl, .inr (.inr ⟨w, rfl, ha⟩)⟩)

/-- A bank neither OPEN nor CLOSED stands. -/
theorem of_busy (h : Moves c d a x y) (ho : ∀ w : OpenRow, x ≠ .opened w) (hc : x ≠ .closed) : y = x := by
  rcases h with rfl | ⟨w, rfl, -⟩ | ⟨rfl, -⟩
  · rfl
  · exact absurd rfl (ho w)
  · exact absurd rfl hc

/-- An OPEN bank is not CLOSED in one turn. -/
theorem of_opened {w : OpenRow} (h : Moves c d a (.opened w) y) : y = .opened w ∨ y = .closing w := by
  rcases h with rfl | ⟨v, e, rfl⟩ | ⟨e, -⟩
  · exact .inl rfl
  · cases e
    exact .inr rfl
  · cases e

/-- Without a claim on it no bank comes to be REPAIRING. -/
theorem not_repairing (h : Moves c d a x y) (hx : x ≠ .repairing) (hc : ¬c) : y ≠ .repairing := by
  rcases h with rfl | ⟨w, rfl, rfl⟩ | ⟨rfl, ⟨-, k⟩ | ⟨rfl, -⟩ | ⟨w, rfl, -⟩⟩
  · exact hx
  · exact nofun
  · exact absurd k hc
  · exact nofun
  · exact nofun

/-- A CLOSED bank that nothing asks for stays CLOSED. -/
theorem closed (h : Moves c d a .closed y) (hc : ¬c) (hd : ¬d) (ha : ¬a) : y = .closed := by
  rcases h with rfl | ⟨w, k, -⟩ | ⟨-, ⟨-, k⟩ | ⟨-, k⟩ | ⟨w, -, k⟩⟩
  · rfl
  · cases k
  · exact absurd k hc
  · exact absurd k hd
  · exact absurd k ha

end Moves

/-- The bank of an access in the list. -/
def Asked (s : State) (b : Bank) : Prop := b ∈ s.accesses.map Access.bank

theorem Scheduled.asked {s t : State} (h : Scheduled s t) (b : Bank) : Asked t b ↔ Asked s b := by
  have e : t.accesses.map Access.bank = s.accesses.map Access.bank := by
    have := congrArg (List.map Access.bank) h.accesses
    rw [List.map_map, List.map_map] at this
    exact this
  unfold Asked
  rw [e]

theorem closeBanks_moves (s : State) (b : Bank) : Moves False False False (s.bank b).state (s.closeBanks.bank b).state := by
  obtain ⟨hclose, hstay, -⟩ := closeBanks_spec s
  by_cases h : ∃ w : OpenRow, ClosesOtherwise s b w
  · obtain ⟨w, h⟩ := h
    exact .inr (.inl ⟨w, h.1, by rw [hclose b w h]⟩)
  · exact .inl (by rw [hstay b fun w k => h ⟨w, k⟩])

theorem closeForMisses_moves (s : State) (b : Bank) :
    Moves False False False (s.bank b).state (s.closeForMisses.bank b).state := by
  obtain ⟨hclose, hstay, -⟩ := closeForMisses_spec s
  by_cases h : ∃ w : OpenRow, ClosesForMiss s b w
  · obtain ⟨w, h⟩ := h
    exact .inr (.inl ⟨w, h.1, by rw [hclose b w h]⟩)
  · exact .inl (by rw [hstay b fun w k => h ⟨w, k⟩])

theorem claimTaken_bank (s : State) (b c : Bank) : (claimTaken s b).bank c =
    if c = b then { s.bank b with state := .repairing } else s.bank c := by
  by_cases h : c = b
  · subst h
    rw [if_pos rfl]
    exact State.bank_self _ _ _
  · rw [if_neg h]
    exact State.bank_other _ _ _ c h

theorem claimTaken_moves {s : State} {b : Bank} (hc : RepairDue s b) (c : Bank) :
    Moves (Claims s c) False False (s.bank c).state ((claimTaken s b).bank c).state := by
  rw [claimTaken_bank]
  by_cases h : c = b
  · subst h
    exact .inr (.inr ⟨hc.2.1, .inl ⟨by rw [if_pos rfl], hc.1⟩⟩)
  · rw [if_neg h]
    exact Moves.refl _

theorem takeRepairIfFirst_moves (s : State) (c : Bank) :
    Moves (Claims s c) False False (s.bank c).state (s.takeRepairIfFirst.bank c).state := by
  by_cases h : ∃ b : Bank, RepairDue s b
  · obtain ⟨b, h⟩ := h
    rw [takeRepairIfFirst_claim h]
    split
    · split
      · exact claimTaken_moves (s := { s with freeCtr := s.freeCtr + 1 }) h c
      · exact Moves.refl _
    · exact claimTaken_moves h c
  · rw [takeRepairIfFirst_none fun b k => h ⟨b, k⟩]
    exact Moves.refl _

theorem takeRefreshClaims_moves (s : State) (b : Bank) :
    Moves False (1 ≤ (s.group (groupOf b)).debt) False (s.bank b).state (s.takeRefreshClaims.bank b).state := by
  by_cases h : RefreshDue s (groupOf b)
  · rw [((takeRefreshClaims_spec s).1 b).1 h]
    exact .inr (.inr ⟨h.2.1 b rfl, .inr (.inl ⟨rfl, h.1⟩)⟩)
  · rw [((takeRefreshClaims_spec s).1 b).2 h]
    exact Moves.refl _

theorem grant_moves (s : State) (c b : Bank) :
    Moves False False (Asked s b) (s.bank b).state ((s.grant c).bank b).state := by
  rcases grant_cases s c with e | ⟨a, l, v, hmem, hopen, e⟩
  · rw [e]
    exact Moves.refl _
  · rw [e]
    by_cases h : b = c
    · subst h
      rw [State.bank_self]
      exact .inr (.inr ⟨hopen.2.1, .inr (.inr ⟨v, rfl, List.mem_map.2 ⟨a, hmem, hopen.1⟩⟩)⟩)
    · rw [State.bank_other _ _ _ b h]
      exact Moves.refl _

theorem grants_moves (l : List Bank) (s : State) (b : Bank) :
    Moves False False (Asked s b) (s.bank b).state ((l.foldl State.grant s).bank b).state := by
  induction l generalizing s with
  | nil => exact Moves.refl _
  | cons c l ih =>
    exact (grant_moves s c b).trans ((ih (s.grant c)).mono id id ((Scheduled.grant s c).asked b).1)

theorem startBurst_banks (s : State) : s.startBurst.banks = s.banks := by
  unfold State.startBurst
  split
  · rfl
  · split
    · rfl
    · split <;> rfl

/-- A state that differs in its banks alone has the same maintenance operation. -/
theorem maint_of_banks {s t : State} (h : { t with banks := s.banks } = s) : t.maint = s.maint :=
  (congrArg State.maint h :)

theorem lockTimers_state (s : State) (b : Bank) : (s.lockTimers.bank b).state = (s.bank b).state := by
  rw [(lockTimers_spec s).1]

/-- What follows the claims. -/
def State.afterClaims (s : State) : State := s.grantAll.closeForMisses.startBurst.lockTimers

theorem afterClaims_moves (s : State) (b : Bank) :
    Moves False False (Asked s b) (s.bank b).state (s.afterClaims.bank b).state := by
  have last : (s.afterClaims.bank b).state = (s.grantAll.closeForMisses.bank b).state := by
    unfold State.afterClaims
    rw [lockTimers_state]
    exact congrArg (fun bk : Vector BankRecord 16 => bk[b].state) (startBurst_banks _)
  rw [last]
  exact (grants_moves allBanks s b).trans ((closeForMisses_moves _ b).mono id id False.elim)

/-- Of a claim on a bank, what the closes leave. -/
theorem claims_closeBanks {s : State} {b : Bank} (h : Claims s.closeBanks b) : Claims s b := by
  have hmaint : s.closeBanks.maint = s.maint := maint_of_banks (closeBanks_spec s).2.2
  rcases h with ⟨hop, hb⟩ | ⟨r, hop, hr⟩
  · refine .inl ⟨hmaint ▸ hop, fun e => hb ?_⟩
    have := closeBanks_moves s b
    rw [e] at this
    exact this.of_busy nofun nofun
  · exact .inr ⟨r, hmaint ▸ hop, hr⟩

/-- A bank in one turn of the scheduler. -/
theorem schedule_moves (s : State) (b : Bank) : Moves (Claims s b) (1 ≤ (s.group (groupOf b)).debt) (Asked s b)
    (s.bank b).state (s.schedule.bank b).state := by
  have hA := Scheduled.closeBanks s
  have hB := Scheduled.takeRepairIfFirst s.closeBanks
  have hC := Scheduled.takeClaims s.closeBanks
  have debt : s.closeBanks.takeRepairIfFirst.group (groupOf b) = s.group (groupOf b) := by
    obtain ⟨_, _, _, _, e⟩ := (hA.trans hB).frame
    rw [e]
    rfl
  exact ((closeBanks_moves s b).mono False.elim False.elim False.elim).trans
    (((takeRepairIfFirst_moves s.closeBanks b).mono claims_closeBanks False.elim False.elim).trans
      (((takeRefreshClaims_moves s.closeBanks.takeRepairIfFirst b).mono False.elim (fun h => debt ▸ h) False.elim).trans
        ((afterClaims_moves s.closeBanks.takeClaims b).mono False.elim False.elim ((hA.trans hC).asked b).1)))

/-- A bank REPAIRING, REFRESHING or moving stands in one turn of the scheduler. -/
theorem schedule_busy {s : State} {b : Bank} (ho : ∀ w : OpenRow, (s.bank b).state ≠ .opened w)
    (hc : (s.bank b).state ≠ .closed) : (s.schedule.bank b).state = (s.bank b).state := (schedule_moves s b).of_busy ho hc

/-! ### The maintenance operation in one turn of the scheduler -/

theorem claimTaken_op (s : State) (b : Bank) : (claimTaken s b).maint.op =
    match s.maint.op with
    | .repair r => .repair { r with phase := .copying }
    | op => op := rfl

/-- The scheduler changes the maintenance operation in one way: a repair's claim is taken, and its bank is REPAIRING. -/
theorem takeRepairIfFirst_op (s : State) : s.takeRepairIfFirst.maint.op = s.maint.op ∨
    ∃ r : RepairRecord, s.maint.op = .repair r ∧ r.phase = .claiming ∧
      s.takeRepairIfFirst.maint.op = .repair { r with phase := .copying } ∧
      (s.takeRepairIfFirst.bank r.bank).state = .repairing := by
  by_cases h : ∃ b : Bank, RepairDue s b
  · obtain ⟨b, h⟩ := h
    have taken (u : State) (hu : u.maint = s.maint) : (claimTaken u b).maint.op = s.maint.op ∨
        ∃ r : RepairRecord, s.maint.op = .repair r ∧ r.phase = .claiming ∧
          (claimTaken u b).maint.op = .repair { r with phase := .copying } ∧
          ((claimTaken u b).bank r.bank).state = .repairing := by
      rcases h.1 with ⟨hop, -⟩ | ⟨r, hop, hr, rfl⟩
      · exact .inl (by rw [claimTaken_op, hu, hop])
      · exact .inr ⟨r, hop, hr, by rw [claimTaken_op, hu, hop], by rw [claimTaken_bank, if_pos rfl]⟩
    rw [takeRepairIfFirst_claim h]
    split
    · split
      · exact taken _ rfl
      · exact .inl rfl
    · exact taken s rfl
  · rw [takeRepairIfFirst_none fun b k => h ⟨b, k⟩]
    exact .inl rfl

theorem startBurst_maint (s : State) : s.startBurst.maint = s.maint := by
  unfold State.startBurst
  split
  · rfl
  · split
    · rfl
    · split <;> rfl

theorem grants_maint (l : List Bank) (s : State) : (l.foldl State.grant s).maint = s.maint := by
  induction l generalizing s with
  | nil => rfl
  | cons c l ih =>
    refine (ih (s.grant c)).trans ?_
    rcases grant_cases s c with e | ⟨a, l, v, -, -, e⟩ <;> rw [e]
    rfl

theorem afterClaims_maint (s : State) : s.afterClaims.maint = s.maint :=
  (maint_of_banks (lockTimers_spec s.grantAll.closeForMisses.startBurst).2).trans ((startBurst_maint _).trans
    ((maint_of_banks (closeForMisses_spec s.grantAll).2.2).trans (grants_maint allBanks s)))

theorem schedule_op (s : State) : s.schedule.maint.op = s.maint.op ∨
    ∃ r : RepairRecord, s.maint.op = .repair r ∧ r.phase = .claiming ∧
      s.schedule.maint.op = .repair { r with phase := .copying } ∧ (s.schedule.bank r.bank).state = .repairing := by
  have hclose : s.closeBanks.maint = s.maint := maint_of_banks (closeBanks_spec s).2.2
  have hlast : s.schedule.maint = s.closeBanks.takeRepairIfFirst.maint :=
    (afterClaims_maint s.closeBanks.takeClaims).trans
      (maint_of_banks (takeRefreshClaims_spec s.closeBanks.takeRepairIfFirst).2)
  have stays (b : Bank) (h : (s.closeBanks.takeRepairIfFirst.bank b).state = .repairing) :
      (s.schedule.bank b).state = .repairing := by
    have refreshed := takeRefreshClaims_moves s.closeBanks.takeRepairIfFirst b
    rw [h] at refreshed
    have e := refreshed.of_busy nofun nofun
    have moved := afterClaims_moves s.closeBanks.takeClaims b
    rw [show (s.closeBanks.takeClaims.bank b).state = .repairing from e] at moved
    exact moved.of_busy nofun nofun
  rw [hlast]
  rcases takeRepairIfFirst_op s.closeBanks with e | ⟨r, hop, hr, hop', hb⟩
  · exact .inl (e.trans (by rw [hclose]))
  · exact .inr ⟨r, hclose ▸ hop, hr, hop', stays _ hb⟩

end Sys2Proof.Machine
end

