-- ==== Sys2Proof/Proofs/Banks.lean ====
section
/-! PROOF. Banks, bursts and locks (R9, R11, R23 to R37), and the die temperature (R92). -/

namespace Sys2Proof.Machine

open Sys2Proof.Safety

-- One thread: the whole text is checked under a memory limit that holds a bounded number of thread stacks.
set_option Elab.async false

/-! ### The spare of a row (R4, R112) -/

theorem resolve_spare {s : State} {b : Bank} {row : Row} {e : RemapEntry} (he : e ∈ s.remapOf b) (hr : e.row = row)
    (hu : ∀ e' ∈ s.remapOf b, e'.row = row → e' = e) : s.resolve b row = .spare e.spare := by
  unfold State.resolve
  cases h : (s.remapOf b).find? fun e => decide (e.row = row) with
  | none => exact absurd hr (by simpa using List.find?_eq_none.1 h e he)
  | some e' => rw [hu e' (List.mem_of_find?_eq_some h) (by simpa using List.find?_some h)]

theorem resolve_native {s : State} {b : Bank} {row : Row} (h : ∀ e ∈ s.remapOf b, e.row ≠ row) :
    s.resolve b row = .native := by
  unfold State.resolve
  rw [List.find?_eq_none.2 fun e he => by simpa using h e he]

/-! ### The next burst (R23, R25) -/

theorem burstInFlight_iff {s : State} : s.burstInFlight = true ↔ ∃ a ∈ s.accesses, a.isInFlight = true := List.any_eq_true

theorem holderCandidate_iff {s : State} {a : Access} :
    (s.burstCandidate a && s.ofLockHolder a) = true ↔ Candidate s a ∧ OfLockHolder s a := by
  rw [Bool.and_eq_true, State.burstCandidate_iff, State.ofLockHolder_iff]

theorem startBurst_inFlight {s : State} (h : ∃ a ∈ s.accesses, a.isInFlight = true) : s.startBurst = s :=
  if_pos (burstInFlight_iff.2 h)

theorem startBurst_none {s : State} (h : ∀ a ∈ s.accesses, ¬Candidate s a) : s.startBurst = s := by
  have first : s.accesses.find? (fun a => s.burstCandidate a && s.ofLockHolder a) = none :=
    List.find?_eq_none.2 fun a ha k => h a ha (holderCandidate_iff.1 k).1
  have second : s.accesses.find? s.burstCandidate = none :=
    List.find?_eq_none.2 fun a ha k => h a ha (State.burstCandidate_iff.1 k)
  unfold State.startBurst
  rw [first, second]
  exact ite_self s

theorem startBurst_first {s : State} {before after : List Access} {a : Access}
    (hfree : ∀ x ∈ s.accesses, x.isInFlight = false) (hacc : s.accesses = before ++ a :: after) (ha : Candidate s a)
    (hfirst : (OfLockHolder s a ∧ ∀ x ∈ before, ¬(Candidate s x ∧ OfLockHolder s x)) ∨
      ((∀ x ∈ s.accesses, ¬(Candidate s x ∧ OfLockHolder s x)) ∧ ∀ x ∈ before, ¬Candidate s x)) :
    s.startBurst = { s with
      accesses := before ++ { a with condition := .inFlight (decide (a.condition = .granted)) } :: after } := by
  have free : ¬s.burstInFlight = true := fun h => by
    obtain ⟨x, hx, hf⟩ := burstInFlight_iff.1 h
    rw [hfree x hx] at hf
    cases hf
  unfold State.startBurst
  rw [if_neg free]
  rcases hfirst with ⟨hl, hb⟩ | ⟨hn, hb⟩
  · have none (x : Access) (hx : x ∈ before) : (s.burstCandidate x && s.ofLockHolder x) = false :=
      Bool.eq_false_iff.2 (mt holderCandidate_iff.1 (hb x hx))
    rw [hacc, find_append none (holderCandidate_iff.2 ⟨ha, hl⟩)]
    dsimp only
    rw [markFirst_append none (holderCandidate_iff.2 ⟨ha, hl⟩)]
    rfl
  · have none (x : Access) (hx : x ∈ before) : s.burstCandidate x = false :=
      Bool.eq_false_iff.2 (mt State.burstCandidate_iff.1 (hb x hx))
    rw [List.find?_eq_none.2 fun x hx => mt holderCandidate_iff.1 (hn x hx), hacc,
      find_append none (State.burstCandidate_iff.2 ha)]
    dsimp only
    rw [markFirst_append none (State.burstCandidate_iff.2 ha)]
    rfl

/-! ### The hit-run counter (R27) -/

theorem openedForIt_iff {a : Access} : a.openedForIt = true ↔ a.condition = .inFlight true := by
  unfold Access.openedForIt
  cases a.condition <;> simp

theorem countHit_stands {s : State} {a : Access} (h : a.condition = .inFlight true ∨ ¬MissWaits s a) : s.countHit a = s := by
  unfold State.countHit
  refine if_neg fun ⟨ho, hm⟩ => ?_
  rcases h with h | h
  · rw [openedForIt_iff.2 h] at ho
    cases ho
  · exact h (State.missWaits_iff.1 hm)

theorem countHit_counts {s : State} {a : Access} (h : a.condition ≠ .inFlight true) (hm : MissWaits s a) :
    s.countHit a = s.setBank a.bank { s.bank a.bank with hitRun := min 16 ((s.bank a.bank).hitRun + 1) } := by
  have hn : a.openedForIt = false := Bool.eq_false_iff.2 (mt openedForIt_iff.1 h)
  exact if_pos ⟨by rw [hn]; rfl, State.missWaits_iff.2 hm⟩

/-! ### A bank with an access granted stays open through the scheduler -/

/-- An access to the bank is not WAITING. -/
def Served (s : State) (b : Bank) : Prop := ∃ x ∈ s.accesses, x.bank = b ∧ x.condition ≠ .waiting

theorem markFirst_served {p : Access → Bool} {c : Condition} (hc : c ≠ .waiting) {b : Bank} {l : List Access}
    (h : ∃ x ∈ l, x.bank = b ∧ x.condition ≠ .waiting) : ∃ x ∈ markFirst p c l, x.bank = b ∧ x.condition ≠ .waiting := by
  induction l with
  | nil =>
    obtain ⟨x, hx, -⟩ := h
    cases hx
  | cons y l ih =>
    obtain ⟨x, hx, hb, hx'⟩ := h
    unfold markFirst
    split
    · rcases List.mem_cons.1 hx with rfl | hx
      · exact ⟨_, List.mem_cons_self .., hb, hc⟩
      · exact ⟨x, List.mem_cons_of_mem _ hx, hb, hx'⟩
    · rcases List.mem_cons.1 hx with rfl | hx
      · exact ⟨_, List.mem_cons_self .., hb, hx'⟩
      · obtain ⟨z, hz, k⟩ := ih ⟨x, hx, hb, hx'⟩
        exact ⟨z, List.mem_cons_of_mem _ hz, k⟩

theorem grant_served {s : State} {b : Bank} (c : Bank) (h : Served s b) : Served (s.grant c) b := by
  unfold State.grant
  split
  · exact h
  · exact markFirst_served (c := .granted) nofun h

theorem grants_served {b : Bank} (l : List Bank) {s : State} (h : Served s b) : Served (l.foldl State.grant s) b := by
  induction l generalizing s with
  | nil => exact h
  | cons c l ih => exact ih (grant_served c h)

theorem served_of_accesses {s t : State} {b : Bank} (e : t.accesses = s.accesses) (h : Served s b) : Served t b := by
  unfold Served
  rw [e]
  exact h

theorem accesses_of_banks {s t : State} (h : { t with banks := s.banks } = s) : t.accesses = s.accesses :=
  (congrArg State.accesses h :)

theorem takeRepairIfFirst_accesses (s : State) : s.takeRepairIfFirst.accesses = s.accesses := by
  by_cases h : ∃ b : Bank, RepairDue s b
  · obtain ⟨b, h⟩ := h
    rw [takeRepairIfFirst_claim h]
    split
    · split <;> rfl
    · rfl
  · rw [takeRepairIfFirst_none fun b k => h ⟨b, k⟩]

theorem served_closeBanks {s : State} {b : Bank} (h : Served s b) :
    s.closeBanks.bank b = s.bank b ∧ Served s.closeBanks b := by
  obtain ⟨-, hstay, hrest⟩ := closeBanks_spec s
  obtain ⟨x, hx, hb, hn⟩ := h
  exact ⟨hstay b fun w k => hn (k.2.1 x hx hb), served_of_accesses (accesses_of_banks hrest) ⟨x, hx, hb, hn⟩⟩

theorem served_closeForMisses {s : State} {b : Bank} (h : Served s b) : s.closeForMisses.bank b = s.bank b := by
  obtain ⟨-, hstay, -⟩ := closeForMisses_spec s
  obtain ⟨x, hx, hb, hn⟩ := h
  exact hstay b fun w k => hn (k.2.1 x hx hb)

theorem served_takeClaims {s : State} {b : Bank} (h : Served s b) : Served s.takeClaims b :=
  served_of_accesses
    ((accesses_of_banks (takeRefreshClaims_spec s.takeRepairIfFirst).2).trans (takeRepairIfFirst_accesses s)) h

/-- A bank that the Maintenance Engine's claim takes was CLOSED. -/
theorem takeRepairIfFirst_bank (s : State) (b : Bank) :
    s.takeRepairIfFirst.bank b = s.bank b ∨ (s.bank b).state = .closed := by
  by_cases h : ∃ c : Bank, RepairDue s c
  · obtain ⟨c, h⟩ := h
    have taken (u : State) (hu : u.banks = s.banks) : (claimTaken u c).bank b = s.bank b ∨ (s.bank b).state = .closed := by
      have e (c : Bank) : u.bank c = s.bank c := congrArg (fun bk : Vector BankRecord 16 => bk[c]) hu
      rw [claimTaken_bank]
      by_cases hb : b = c
      · exact .inr (hb ▸ h.2.1)
      · exact .inl (by rw [if_neg hb, e])
    rw [takeRepairIfFirst_claim h]
    split
    · split
      · exact taken _ rfl
      · exact .inl rfl
    · exact taken s rfl
  · rw [takeRepairIfFirst_none fun c k => h ⟨c, k⟩]
    exact .inl rfl

theorem takeClaims_opened {s : State} {b : Bank} {w : OpenRow} (h : (s.bank b).state = .opened w) :
    s.takeClaims.bank b = s.bank b := by
  have repair : s.takeRepairIfFirst.bank b = s.bank b :=
    (takeRepairIfFirst_bank s b).resolve_right fun e => nomatch h.symm.trans e
  have refresh : ¬RefreshDue s.takeRepairIfFirst (groupOf b) := fun k => by
    have closed := k.2.1 b rfl
    rw [repair, h] at closed
    cases closed
  exact (((takeRefreshClaims_spec s.takeRepairIfFirst).1 b).2 refresh).trans repair

theorem grant_opened {s : State} {b c : Bank} {w : OpenRow} (h : (s.bank b).state = .opened w) :
    (s.grant c).bank b = s.bank b := by
  rcases grant_cases s c with e | ⟨a, l, v, -, hopen, e⟩
  · rw [e]
  · by_cases hb : b = c
    · subst hb
      exact nomatch h.symm.trans hopen.2.1
    · rw [e, State.bank_other _ _ _ b hb]
      rfl

theorem grants_opened {b : Bank} {w : OpenRow} (l : List Bank) {s : State} (h : (s.bank b).state = .opened w) :
    (l.foldl State.grant s).bank b = s.bank b := by
  induction l generalizing s with
  | nil => rfl
  | cons c l ih =>
    have e := grant_opened (c := c) h
    exact (ih (by rw [e, h])).trans e

/-- With an access to it GRANTED or IN FLIGHT, an OPEN bank stays OPEN (R11, R26). -/
theorem schedule_opened {s : State} {b : Bank} {w : OpenRow} (h : (s.bank b).state = .opened w) (hs : Served s b) :
    (s.schedule.bank b).state = .opened w := by
  obtain ⟨closes, hs⟩ := served_closeBanks hs
  rw [← closes] at h
  have claims := takeClaims_opened h
  replace hs := served_takeClaims hs
  rw [← claims] at h
  have grants := grants_opened allBanks h
  replace hs := grants_served allBanks hs
  rw [← grants] at h
  have misses := served_closeForMisses hs
  rw [← misses] at h
  show (State.lockTimers _ |>.bank b).state = _
  rw [lockTimers_state]
  exact (congrArg (fun bk : Vector BankRecord 16 => bk[b].state) (startBurst_banks _)).trans h

/-! ### The completions of an open and of a close -/

theorem exec_bankOpenComplete {s : State} {b : Bank} {w : OpenRow} (h : (s.bank b).state = .opening w) :
    exec (.bankOpenComplete b) s = .next (s.setBank b { s.bank b with state := .opened w }).schedule := by
  show execBankOpenComplete b s = _
  unfold execBankOpenComplete
  rw [h]

theorem exec_bankOpenComplete_stands {s : State} {b : Bank} (h : ∀ w : OpenRow, (s.bank b).state ≠ .opening w) :
    exec (.bankOpenComplete b) s = .next s := by
  show execBankOpenComplete b s = _
  unfold execBankOpenComplete
  cases e : (s.bank b).state with
  | opening w => exact absurd e (h w)
  | _ => rfl

theorem exec_bankCloseComplete {s : State} {b : Bank} {w : OpenRow} (h : (s.bank b).state = .closing w) :
    exec (.bankCloseComplete b) s =
      .next (s.setBank b { s.bank b with state := .closed, hitRun := 0 }).schedule.endSleepEntry.transmit := by
  show execBankCloseComplete b s = _
  unfold execBankCloseComplete
  rw [h]

theorem exec_bankCloseComplete_stands {s : State} {b : Bank} (h : ∀ w : OpenRow, (s.bank b).state ≠ .closing w) :
    exec (.bankCloseComplete b) s = .next s := by
  show execBankCloseComplete b s = _
  unfold execBankCloseComplete
  cases e : (s.bank b).state with
  | closing w => exact absurd e (h w)
  | _ => rfl

theorem served_of_granted {s : State} {b : Bank} (h : s.grantedOn b = true) : Served s b := by
  by_contra k
  have none := State.grantedOn_eq_false.2 (fun x hx hb hg => k ⟨x, hx, hb, by rw [hg]; nofun⟩)
  rw [h] at none
  cases none

/-- Settles O44: each choice of the scheduler by the equation of its stage. -/
theorem banksOpenAndClose : Obligations.BanksOpenAndClose := by
  unfold Obligations.BanksOpenAndClose
  refine ⟨fun s => ⟨rfl, rfl⟩, fun s b => ?_, fun s b => ⟨grant_none, fun before after a hacc ha hb => ?_⟩,
    fun s => ⟨startBurst_inFlight, startBurst_none, fun before after a hfree hacc ha hfirst =>
      startBurst_first hfree hacc ha hfirst⟩,
    fun s a => ⟨countHit_stands, countHit_counts⟩,
    fun s b => ⟨fun w hw => ⟨exec_bankOpenComplete hw, fun hg => ⟨_, exec_bankOpenComplete hw, ?_⟩⟩,
      fun w hw => exec_bankCloseComplete hw, exec_bankOpenComplete_stands, exec_bankCloseComplete_stands⟩⟩
  · obtain ⟨closes, stays, rest⟩ := closeBanks_spec s
    obtain ⟨closes', stays', rest'⟩ := closeForMisses_spec s
    exact ⟨closes b, stays b, rest, closes' b, stays' b, rest'⟩
  · rw [grant_first hacc ha hb]
    refine ⟨rfl, fun e he hr hu => ?_, fun hn => ?_, fun b' hne => State.bank_other _ _ _ b' hne, rfl⟩
    · rw [State.bank_self, resolve_spare he hr hu]
    · rw [State.bank_self, resolve_native hn]
  · generalize hu : s.setBank b { s.bank b with state := .opened w } = u
    have open_ : (u.bank b).state = .opened w := by rw [← hu, State.bank_self]
    have served : Served u b := by
      rw [← hu]
      exact served_of_granted (s := s) hg
    refine ⟨schedule_opened open_ served, ?_, ?_⟩
    · rw [(Scheduled.schedule u).lockHolder b, ← hu, State.bank_self]
    · obtain ⟨_, _, _, _, e⟩ := (Scheduled.schedule u).frame
      rw [e, ← hu]
      rfl

end Sys2Proof.Machine
end

