-- ==== Sys2Proof/Proofs/Locks.lean ====
section
/-! PROOF. Locks (R31 to R35), refresh ticks and group refreshes (R85 to R88), and the die temperature (R92). -/

namespace Sys2Proof.Machine

open Sys2Proof.Safety

-- One thread: the whole text is checked under a memory limit that holds a bounded number of thread stacks.
set_option Elab.async false

/-! ### Locks placed (R31, R35, R37) -/

theorem holdInForce_iff (j : Job) : State.holdInForce j = true ↔
    j.hold = true ∧ j.holdBroken = false ∧ (j.state = .active ∨ j.state = .draining) := by
  unfold State.holdInForce
  simp [and_assoc]

theorem breakLock_held {s : State} {b : Bank} {t : Tag} (h : (s.bank b).lockHolder = some t) :
    s.breakLock b = (s.updateJob t fun j => { j with holdBroken := true }).unlock b := by
  unfold State.breakLock
  rw [h]

/-- The completion of a burst of a job whose hold is in force. -/
theorem placeLock_held {s : State} {a : Access} {p : Port} {j : Job} (hc : a.client = .port p j.tag)
    (hj : s.jobOf j.tag = some j) (hh : State.holdInForce j = true) (hr : s.part.state ≠ .resetting) :
    (s.urgentBank a.bank = false → s.placeLock a = s.lockBank a.bank j.tag) ∧
      (s.urgentBank a.bank = true → s.placeLock a = (s.lockBank a.bank j.tag).breakLock a.bank) := by
  obtain ⟨bk, e⟩ := (State.lockBank_spec s a.bank j.tag).1
  have urgent : (s.lockBank a.bank j.tag).urgentBank a.bank = s.urgentBank a.bank := by
    rw [e]
    rfl
  have tag : a.client.tag? = some j.tag := by rw [hc]; rfl
  have placed : s.placeLock a = if s.urgentBank a.bank then (s.lockBank a.bank j.tag).breakLock a.bank
      else s.lockBank a.bank j.tag := by
    unfold State.placeLock
    rw [tag]
    dsimp only
    rw [hj]
    dsimp only
    rw [if_pos ⟨hh, hr⟩, urgent]
  rw [placed]
  exact ⟨fun h => by rw [h]; rfl, fun h => by rw [h]; rfl⟩

/-- What the lock of a completion does to the other banks, broken at once or not. -/
theorem lockBank_others (s : State) (b : Bank) (t : Tag) : ∀ c : Bank, c ≠ b →
    ((s.bank c).lockHolder = some t → (s.bank b).lockHolder ≠ some t →
      (s.lockBank b t).bank c = { s.bank c with lockHolder := none, lockTimer := none }) ∧
    ((s.bank c).lockHolder ≠ some t → (s.lockBank b t).bank c = s.bank c) := by
  obtain ⟨-, -, -, hnew, hother⟩ := State.lockBank_spec s b t
  exact fun c hc => ⟨fun h hb => (hnew hb).2 c hc h, hother c hc⟩

/-- Of the locks placed, what O47 says of an URGENT group: the bank is locked and its lock broken at once. -/
theorem placeLock_urgent {s : State} {a : Access} {p : Port} {j : Job} (hc : a.client = .port p j.tag)
    (hj : s.jobOf j.tag = some j) (hh : State.holdInForce j = true) (hr : s.part.state ≠ .resetting)
    (hu : s.urgentBank a.bank = true) :
    (s.placeLock a).bank a.bank = { s.bank a.bank with lockHolder := none, lockTimer := none } ∧
      (s.placeLock a).jobs = s.jobs.map (fun x => if x.tag = j.tag then { x with holdBroken := true } else x) ∧
      (∀ b : Bank, b ≠ a.bank → (s.placeLock a).bank b = (s.lockBank a.bank j.tag).bank b) ∧
      { s.placeLock a with banks := s.banks, jobs := s.jobs } = s := by
  obtain ⟨⟨bk, e⟩, hlock, hsame, hnew, -⟩ := State.lockBank_spec s a.bank j.tag
  rw [(placeLock_held hc hj hh hr).2 hu, breakLock_held hlock]
  refine ⟨?_, ?_, fun b hb => State.bank_other _ _ _ b hb, ?_⟩
  · refine (State.bank_self _ _ _).trans ?_
    show ({ (s.lockBank a.bank j.tag).bank a.bank with lockHolder := none, lockTimer := none } : BankRecord) = _
    by_cases h : (s.bank a.bank).lockHolder = some j.tag
    · rw [hsame h]
    · rw [(hnew h).1]
  · show (s.lockBank a.bank j.tag).jobs.map _ = _
    rw [e]
  · rw [e]
    rfl

theorem placeLock_calm {s : State} {a : Access} {p : Port} {j : Job} (hc : a.client = .port p j.tag)
    (hj : s.jobOf j.tag = some j) (hh : State.holdInForce j = true) (hr : s.part.state ≠ .resetting)
    (hu : s.urgentBank a.bank = false) :
    ((s.placeLock a).bank a.bank).lockHolder = some j.tag ∧
      ((s.bank a.bank).lockHolder = some j.tag → s.placeLock a = s) ∧
      ((s.bank a.bank).lockHolder ≠ some j.tag →
        (s.placeLock a).bank a.bank = { s.bank a.bank with lockHolder := some j.tag, lockTimer := none } ∧
        ∀ b : Bank, b ≠ a.bank → ((s.placeLock a).bank b).lockHolder ≠ some j.tag) ∧
      (s.placeLock a).jobs = s.jobs ∧ { s.placeLock a with banks := s.banks, jobs := s.jobs } = s := by
  obtain ⟨⟨bk, e⟩, hlock, hsame, hnew, hother⟩ := State.lockBank_spec s a.bank j.tag
  rw [(placeLock_held hc hj hh hr).1 hu]
  refine ⟨hlock, hsame, fun h => ⟨(hnew h).1, fun b hb => ?_⟩, by rw [e], by rw [e]⟩
  by_cases k : (s.bank b).lockHolder = some j.tag
  · rw [(hnew h).2 b hb k]
    nofun
  · rw [hother b hb k]
    exact k

/-! ### The end of a lock's wait (R34) -/

theorem exec_lockWaitExpiry {s : State} {b : Bank} (h : (s.bank b).lockTimer.isSome = true) :
    exec (.lockWaitExpiry b) s = .next (s.breakLock b).schedule := by
  show execLockWaitExpiry b s = _
  unfold execLockWaitExpiry
  rw [if_pos h]

theorem exec_lockWaitExpiry_stopped {s : State} {b : Bank} (h : (s.bank b).lockTimer = none) :
    exec (.lockWaitExpiry b) s = .next s := by
  show execLockWaitExpiry b s = _
  unfold execLockWaitExpiry
  rw [h]
  rfl

/-- Settles O47: the equations of a lock placed in a group that is URGENT and in one that is not, of the timers, and of a break. -/
theorem locksArePlacedAndBroken : Obligations.LocksArePlacedAndBroken := by
  unfold Obligations.LocksArePlacedAndBroken
  refine ⟨fun s a p j hc hj hh hr => ?_, holdInForce_iff, fun s a => State.placeLock_none, fun s b => ?_,
    fun s b => exec_lockWaitExpiry_stopped, fun s b tag ht hl => ?_⟩
  · have calm (hu : s.urgentBank a.bank = false) := placeLock_calm hc hj hh hr hu
    have urgent (hu : s.urgentBank a.bank = true) := placeLock_urgent hc hj hh hr hu
    have others (b : Bank) (hb : b ≠ a.bank) : (s.placeLock a).bank b = (s.lockBank a.bank j.tag).bank b := by
      cases hu : s.urgentBank a.bank with
      | false => rw [(placeLock_held hc hj hh hr).1 hu]
      | true => exact (urgent hu).2.2.1 b hb
    have rest : { s.placeLock a with banks := s.banks, jobs := s.jobs } = s := by
      cases hu : s.urgentBank a.bank with
      | false => exact (calm hu).2.2.2.2
      | true => exact (urgent hu).2.2.2
    refine ⟨fun hu => ⟨(calm hu).1, fun h => ((calm hu).2.2.1 h).2⟩, fun hu => ⟨by rw [(urgent hu).1], ?_⟩,
      fun hu => (calm hu).2.1, fun hu => ⟨(calm hu).2.2.2.1, fun h => ((calm hu).2.2.1 h).1⟩,
      fun hu => ⟨(urgent hu).1, (urgent hu).2.1⟩, fun b hb => ?_, rest⟩
    · exact State.jobOf_map (f := fun x => { x with holdBroken := true }) hj (fun _ => rfl) (urgent hu).2.1
    · rw [others b hb]
      exact lockBank_others s a.bank j.tag b hb
  · obtain ⟨hbank, hrest⟩ := lockTimers_spec s
    refine ⟨fun hl hw => ?_, fun h => ?_, hrest⟩
    · rw [hbank, lockTimerOf_runs hl hw]
    · rw [hbank, lockTimerOf_stopped h]
  · refine ⟨_, exec_lockWaitExpiry ht, ?_⟩
    rw [breakLock_held hl]
    exact ⟨State.bank_self _ _ _, fun b' hb => State.bank_other _ _ _ b' hb, rfl, rfl⟩

/-! ### A refresh tick (R35, R85, R88) -/

/-- A group after a tick. -/
def ticked (x : GroupRefresh) : GroupRefresh :=
  if x.debt < 7 then { x with debt := x.debt + 1 }
  else if x.debt = 7 then { x with debt := 8, urgent := true }
  else x

/-- A bank whose lock is broken, if it has one. -/
def lockBroken (x : BankRecord) : BankRecord :=
  { x with lockHolder := none, lockTimer := if x.lockHolder.isSome then none else x.lockTimer }

theorem breakLock_bank (s : State) (b : Bank) :
    (s.breakLock b).bank b = lockBroken (s.bank b) ∧ ∀ c : Bank, c ≠ b → (s.breakLock b).bank c = s.bank c := by
  cases h : (s.bank b).lockHolder with
  | none =>
    have e : s.breakLock b = s := by
      unfold State.breakLock
      rw [h]
    rw [e]
    refine ⟨?_, fun _ _ => rfl⟩
    generalize s.bank b = x at h
    cases x
    cases h
    rfl
  | some t =>
    rw [breakLock_held h]
    refine ⟨(State.bank_self _ _ _).trans ?_, fun c hc => State.bank_other _ _ _ c hc⟩
    unfold lockBroken
    rw [h]
    rfl

theorem breakLocks_bank {l : List Bank} (hl : l.Nodup) {b : Bank} (hb : b ∈ l) (s : State) :
    (l.foldl State.breakLock s).bank b = lockBroken (s.bank b) := by
  induction l generalizing s with
  | nil => cases hb
  | cons c l ih =>
    obtain ⟨hc, hl'⟩ := List.nodup_cons.1 hl
    rw [List.foldl_cons]
    rcases List.mem_cons.1 hb with rfl | hb
    · rw [(breakLocks_spec l hl' _).2.1 b hc, (breakLock_bank s b).1]
    · have hne : b ≠ c := fun e => hc (e ▸ hb)
      rw [ih hl' hb, (breakLock_bank s c).2 b hne]

/-- What a tick does at one group. -/
theorem tickGroup_eq (s : State) (g : Group) :
    (s.tickGroup g).group g = ticked (s.group g) ∧
      (∀ b : Bank, groupOf b = g → (s.tickGroup g).bank b =
        if (s.group g).debt = 7 then lockBroken (s.bank b) else s.bank b) ∧
      { s.tickGroup g with refresh := s.refresh, banks := s.banks, jobs := s.jobs, notices := s.notices } = s ∧
      (s.tickGroup g).refresh.tick = s.refresh.tick := by
  unfold State.tickGroup ticked
  rw [show Config.urgentDebt = 8 from rfl]
  by_cases low : (s.group g).debt < 7
  · rw [if_pos (by omega), if_pos low]
    exact ⟨State.group_self _ _ _, fun b _ => (if_neg (by omega)).symm, rfl, rfl⟩
  · rw [if_neg (by omega), if_neg low]
    by_cases seven : (s.group g).debt = 7
    · rw [if_pos (by omega), if_pos seven]
      unfold State.becomeUrgent
      generalize hu : s.setGroup g { s.group g with debt := Config.urgentDebt, urgent := true } = u
      obtain ⟨-, -, jb, bk, e⟩ := breakLocks_spec (banksOf g) (banksOf_nodup g) u
      refine ⟨?_, fun b hb => ?_, ?_, ?_⟩
      · rw [e, ← hu]
        exact State.group_self _ _ _
      · rw [breakLocks_bank (banksOf_nodup g) (mem_banksOf.2 hb), if_pos seven, ← hu]
        rfl
      · rw [e, ← hu]
        rfl
      · rw [e, ← hu]
        rfl
    · rw [if_neg (by omega), if_neg seven]
      obtain ⟨nt, e⟩ : ∃ nt, s.offerAlert (.refreshOverrun g) = { s with notices := nt } := by
        by_cases hl : s.notices.outbox.length < 16
        · exact ⟨_, State.offerAlert_admitted hl⟩
        · exact ⟨_, State.offerAlert_lost (Nat.not_lt.1 hl)⟩
      rw [e]
      exact ⟨rfl, fun b _ => (if_neg seven).symm, rfl, rfl⟩

theorem tickGroups_eq {l : List Group} (hl : l.Nodup) (s : State) :
    (∀ g : Group, (l.foldl State.tickGroup s).group g = if g ∈ l then ticked (s.group g) else s.group g) ∧
      (∀ b : Bank, (l.foldl State.tickGroup s).bank b =
        if groupOf b ∈ l ∧ (s.group (groupOf b)).debt = 7 then lockBroken (s.bank b) else s.bank b) ∧
      { l.foldl State.tickGroup s with refresh := s.refresh, banks := s.banks, jobs := s.jobs, notices := s.notices } = s ∧
      (l.foldl State.tickGroup s).refresh.tick = s.refresh.tick := by
  induction l generalizing s with
  | nil => exact ⟨fun g => rfl, fun b => (if_neg fun h => nomatch h.1).symm, rfl, rfl⟩
  | cons c l ih =>
    obtain ⟨hc, hl⟩ := List.nodup_cons.1 hl
    obtain ⟨cgroup, cbank, crest, ctick⟩ := tickGroup_eq s c
    obtain ⟨-, obank, ogroup, -⟩ := tickGroup_spec s c
    obtain ⟨hgroup, hbank, hrest, htick⟩ := ih hl (s.tickGroup c)
    rw [List.foldl_cons]
    refine ⟨fun g => ?_, fun b => ?_, ?_, htick.trans ctick⟩
    · rw [hgroup]
      by_cases h : g = c
      · subst h
        rw [if_neg hc, cgroup, if_pos (List.mem_cons_self ..)]
      · rw [ogroup g h]
        simp [h]
    · rw [hbank]
      by_cases h : groupOf b = c
      · rw [if_neg fun k => hc (h ▸ k.1), cbank b h, ← h]
        simp
      · rw [ogroup _ h, obank b h]
        simp [h]
    · exact (congrArg (fun t : State => { t with refresh := s.refresh, banks := s.banks, jobs := s.jobs, notices := s.notices })
        hrest :).trans crest

/-- A tick but for what it tells the jobs and the Notice Unit. -/
theorem tick_eq (s : State) :
    (∀ g : Group, s.tick.group g = ticked (s.group g)) ∧
      (∀ b : Bank, s.tick.bank b = if (s.group (groupOf b)).debt = 7 then lockBroken (s.bank b) else s.bank b) ∧
      { s.tick with refresh := s.refresh, banks := s.banks, jobs := s.jobs, notices := s.notices } = s ∧
      s.tick.refresh.tick = some s.effectiveRange := by
  unfold State.tick
  generalize hu : ({ s with refresh := { s.refresh with tick := some s.effectiveRange } } : State) = u
  obtain ⟨hgroup, hbank, hrest, htick⟩ := tickGroups_eq allGroups_nodup u
  generalize allGroups.foldl State.tickGroup u = t at hgroup hbank hrest htick ⊢
  subst hu
  refine ⟨fun g => (hgroup g).trans (if_pos (mem_allGroups g)), fun b => (hbank b).trans ?_,
    (congrArg (fun t : State => { t with refresh := s.refresh }) hrest :), htick⟩
  exact if_congr (and_iff_right (mem_allGroups _)) rfl rfl

/-- A fold in which one element alone acts. -/
theorem foldl_once {α β : Type} {p : α → Prop} [DecidablePred p] {f : β → α → β} {l : List α} (hl : l.Nodup) {x : α} (hx : x ∈ l)
    (hp : p x) (hn : ∀ y : α, y ≠ x → ¬p y) (v : β) : l.foldl (fun v y => if p y then f v y else v) v = f v x := by
  have stands (l : List α) (h : x ∉ l) (v : β) : l.foldl (fun v y => if p y then f v y else v) v = v := by
    induction l with
    | nil => rfl
    | cons y l ih =>
      rw [List.foldl_cons, if_neg (hn y fun e => h (e ▸ List.mem_cons_self ..))]
      exact ih fun k => h (List.mem_cons_of_mem _ k)
  induction l generalizing v with
  | nil => cases hx
  | cons y l ih =>
    obtain ⟨hy, hl⟩ := List.nodup_cons.1 hl
    rw [List.foldl_cons]
    by_cases e : y = x
    · subst e
      rw [if_pos hp, stands l hy]
    · rw [if_neg (hn y e)]
      exact ih hl ((List.mem_cons.1 hx).resolve_left (Ne.symm e)) v

theorem overrunsOffered_none {s : State} (h : ∀ g : Group, (s.group g).debt < 8) : overrunsOffered s = s := by
  have stands (l : List Group) : l.foldl
      (fun v g => if 8 ≤ (s.group g).debt then v.offerAlert (.refreshOverrun g) else v) s = s := by
    induction l with
    | nil => rfl
    | cons g l ih =>
      rw [List.foldl_cons, if_neg (Nat.not_le.2 (h g))]
      exact ih
  exact stands _

theorem overrunsOffered_one {s : State} {g : Group} (h : 8 ≤ (s.group g).debt)
    (hn : ∀ g' : Group, g' ≠ g → (s.group g').debt < 8) : overrunsOffered s = s.offerAlert (.refreshOverrun g) :=
  foldl_once (p := fun g => 8 ≤ (s.group g).debt) (f := fun (v : State) (g : Group) => v.offerAlert (.refreshOverrun g))
    allGroups_nodup (mem_allGroups g) h (fun g' k => Nat.not_le.2 (hn g' k)) s

theorem exec_refreshTick {s : State} (h : s.refresh.tick.isSome = true) :
    exec .refreshTick s = .next s.tick.schedule.transmit := by
  show execRefreshTick s = _
  unfold execRefreshTick
  cases e : s.refresh.tick with
  | none =>
    rw [e] at h
    cases h
  | some x => rfl

/-! ### The end of a group refresh (R87) -/

theorem refreshing_iff {s : State} {g : Group} :
    s.refreshing g = true ↔ ∀ b : Bank, groupOf b = g → (s.bank b).state = .refreshing := by
  have one (x : BankState) : x.isRefreshing = true ↔ x = .refreshing := by cases x <;> simp [BankState.isRefreshing]
  unfold State.refreshing
  simp only [List.all_eq_true, mem_banksOf, one]

theorem endRefresh_spec (s : State) (g : Group) :
    { s.endRefresh g with refresh := s.refresh, banks := s.banks } = s ∧
      (s.endRefresh g).refresh.tick = s.refresh.tick ∧
      (s.endRefresh g).group g = { debt := (s.group g).debt - 1,
                                   urgent := (s.group g).urgent && !decide ((s.group g).debt - 1 = 4),
                                   rotation := ((s.group g).rotation + 1) % 8200 } ∧
      (∀ g' : Group, g' ≠ g → (s.endRefresh g).group g' = s.group g') ∧
      ∀ b : Bank, (s.endRefresh g).bank b = if groupOf b = g then { s.bank b with state := .closed } else s.bank b := by
  obtain ⟨hbank, hrest⟩ := foldl_setBank (h := fun s b => { s.bank b with state := .closed })
    (fun t b c hne => by rw [(sameAt_setBank t _ hne).2]) (banksOf g) (banksOf_nodup g) s
  unfold State.endRefresh
  generalize (banksOf g).foldl (fun s b => s.setBank b { s.bank b with state := .closed }) s = u at hbank hrest ⊢
  obtain ⟨bk, rfl⟩ : ∃ bk, u = { s with banks := bk } :=
    ⟨u.banks, (congrArg (fun t : State => { t with banks := u.banks }) hrest :)⟩
  exact ⟨rfl, rfl, State.group_self _ _ _, fun g' h => State.group_other _ _ _ g' h,
    fun b => (hbank b).trans (if_congr mem_banksOf rfl rfl)⟩

theorem exec_groupRefreshComplete {s : State} {g : Group} (h : ∀ b : Bank, groupOf b = g → (s.bank b).state = .refreshing) :
    exec (.groupRefreshComplete g) s = .next (s.endRefresh g).schedule.endSleepEntry.transmit := by
  show execGroupRefreshComplete g s = _
  unfold execGroupRefreshComplete
  rw [if_pos (refreshing_iff.2 h)]

/-- Settles O42: a tick group by group, the claims taken, and the end of a refresh. -/
theorem refreshKeepsItsDebts : Obligations.RefreshKeepsItsDebts := by
  unfold Obligations.RefreshKeepsItsDebts
  refine ⟨fun s => ?_, fun s => ⟨takeRepairIfFirst_none, fun b hb => ⟨fun hn => ?_, fun hd s1 hs1 => ?_⟩⟩, fun s ht => ?_,
    fun s g h => ?_⟩
  · obtain ⟨hbank, hrest⟩ := takeRefreshClaims_spec s
    exact ⟨rfl, hrest, fun g b hg => hg ▸ hbank b⟩
  · rw [takeRepairIfFirst_claim hb, if_neg fun k => hn (State.refreshReady_iff.1 k)]
  · rw [takeRepairIfFirst_claim hb, if_pos (State.refreshReady_iff.2 hd), ← hs1]
    split
    · exact .inl rfl
    · exact .inr rfl
  · obtain ⟨hgroup, hbank, hrest, htick⟩ := tick_eq s
    obtain ⟨hjobs, hnotices⟩ := tick_spec s
    refine ⟨s.tick, exec_refreshTick ht, hrest, htick, fun g => ⟨fun h => ?_, fun h => ?_, fun h => ?_⟩,
      fun b => ⟨fun h => (hbank b).trans (if_pos h), fun h => (hbank b).trans (if_neg h)⟩, hjobs, hnotices, fun h => ?_,
      fun g hg hn => ⟨fun hl => ?_, fun hl => ?_⟩⟩
    · rw [hgroup, ticked, if_pos h]
    · rw [hgroup, ticked, if_neg (by omega), if_pos h]
    · rw [hgroup, ticked, if_neg (by omega), if_neg (by omega)]
    · rw [hnotices, overrunsOffered_none h]
    · rw [hnotices, overrunsOffered_one hg hn, State.offerAlert_admitted hl]
    · rw [hnotices, overrunsOffered_one hg hn, State.offerAlert_lost hl]
  · obtain ⟨hrest, htick, hgroup, hother, hbank⟩ := endRefresh_spec s g
    refine ⟨s.endRefresh g, exec_groupRefreshComplete h, hrest, htick, by rw [hgroup], by rw [hgroup], by rw [hgroup], hother,
      fun b => ⟨fun hb => (hbank b).trans (if_pos hb), fun hb => (hbank b).trans (if_neg hb)⟩⟩

/-! ### The die temperature (R92) -/

theorem nextRange_stands {r : TempRange} {temp : Int} (h : (r = .normal ∧ temp ≤ 85000) ∨ (r = .hot ∧ 80000 ≤ temp)) :
    State.nextRange r temp = r := by
  rcases h with ⟨rfl, h⟩ | ⟨rfl, h⟩
  · exact if_neg (Int.not_lt.2 h)
  · exact if_neg (Int.not_lt.2 h)

theorem nextRange_moves {r new : TempRange} {temp : Int}
    (h : (r = .normal ∧ 85000 < temp ∧ new = .hot) ∨ (r = .hot ∧ temp < 80000 ∧ new = .normal)) :
    State.nextRange r temp = new ∧ new ≠ r := by
  rcases h with ⟨rfl, h, rfl⟩ | ⟨rfl, h, rfl⟩
  · exact ⟨if_pos h, nofun⟩
  · exact ⟨if_pos h, nofun⟩

/-- Settles O43, by the next range at the temperature; a change is told by an alert. -/
theorem temperatureMovesTheRange : Obligations.TemperatureMovesTheRange := by
  unfold Obligations.TemperatureMovesTheRange
  refine fun s temp hr => ⟨fun h => ?_, fun new h => ?_⟩
  · show execTemperatureChange temp s = _
    unfold execTemperatureChange
    rw [nextRange_stands h]
    simp
  · obtain ⟨hnew, hne⟩ := nextRange_moves h
    refine ⟨({ s with range := new } : State).offerAlert (.temperature new), ?_, ?_⟩
    · show execTemperatureChange temp s = _
      unfold execTemperatureChange
      rw [hnew, hr]
      simp [hne]
    · by_cases hl : s.notices.outbox.length < 16
      · rw [State.offerAlert_admitted (s := { s with range := new }) hl]
        exact ⟨rfl, rfl, fun _ => rfl, fun k => absurd hl (Nat.not_lt.2 k)⟩
      · rw [State.offerAlert_lost (s := { s with range := new }) (Nat.not_lt.1 hl)]
        exact ⟨rfl, rfl, fun k => absurd k hl, fun _ => rfl⟩

end Sys2Proof.Machine
end

