-- ==== Sys2Proof/Proofs/Repairs.lean ====
section
/-! PROOF. Row repair as the host asks for it: REPAIR ROW's checks in order and its acceptance (R115, R116). -/

namespace Sys2Proof.Machine

open Sys2Proof.Safety

-- One thread: the whole text is checked under a memory limit that holds a bounded number of thread stacks.
set_option Elab.async false

theorem repairRow_runsAs : RunsAs anyLines .repairRow 0x32 fun r s => s.doRepairRow r := fun _ => rfl

theorem remapped_iff {s : State} {b : Bank} {w : Row} : s.remapped b w = true ↔ ∃ e ∈ s.remapOf b, e.row = w := by
  unfold State.remapped
  simp

theorem spareInUse_iff {s : State} {b : Bank} {i : Spare} : s.spareInUse b i = true ↔ ∃ e ∈ s.remapOf b, e.spare = i := by
  unfold State.spareInUse
  simp

theorem freeSpare_none {s : State} {b : Bank} (h : ∀ i : Spare, ∃ e ∈ s.remapOf b, e.spare = i) : s.freeSpare b = none :=
  List.find?_eq_none.2 fun i _ => by simp [spareInUse_iff.2 (h i)]

/-- The lowest spare that no entry names. -/
theorem freeSpare_some {s : State} {b : Bank} {i : Spare} (h : ∀ e ∈ s.remapOf b, e.spare ≠ i)
    (hlow : ∀ i' : Spare, i' < i → ∃ e ∈ s.remapOf b, e.spare = i') : s.freeSpare b = some i := by
  have free : s.spareInUse b i = false := Bool.eq_false_iff.2 fun k => by
    obtain ⟨e, he, hi⟩ := spareInUse_iff.1 k
    exact h e he hi
  have split : ∀ i : Spare, ∃ before after : List Spare,
      ([0, 1, 2, 3, 4, 5, 6, 7] : List Spare) = before ++ i :: after ∧ ∀ x ∈ before, x < i := fun i =>
    ⟨(List.finRange 8).take i.val, (List.finRange 8).drop (i.val + 1), by revert i; decide⟩
  obtain ⟨before, after, e, hbefore⟩ := split i
  unfold State.freeSpare
  rw [e, List.find?_append, List.find?_eq_none.2 fun x hx => by simp [spareInUse_iff.2 (hlow x (hbefore x hx))]]
  simp [free]

theorem freeSlot_none {s : State} {b : Bank} (h : ∀ m : Slot, s.fuseOf b m ≠ .free) : s.freeSlot b = none :=
  List.find?_eq_none.2 fun m _ => by simp [h m]

theorem freeSlot_isSome {s : State} {b : Bank} {m : Slot} (h : s.fuseOf b m = .free) : (s.freeSlot b).isNone = false := by
  have mem : ∀ m : Slot, m ∈ ([0, 1, 2, 3] : List Slot) := by decide
  unfold State.freeSlot
  rw [Option.isNone_eq_false_iff, List.find?_isSome]
  exact ⟨m, mem m, decide_eq_true h⟩

theorem repairKind_code (k : RepairKind) : RepairKind.ofCode k.code = some k := by cases k <;> rfl

theorem repairKind_none {n : Nat} (h : 2 ≤ n) : RepairKind.ofCode n = none := by
  unfold RepairKind.ofCode
  split
  · omega
  · omega
  · rfl

/-- The record of a repair just accepted (R116). -/
def repairClaim (b : Bank) (w : Row) (k : RepairKind) (i : Spare) (phase : RepairPhase) : RepairRecord :=
  { bank := b, row := w, kind := k, target := i, phase := phase, fuseSlot := none, uncorrectable := 0, outcome := none }

section Checks
variable {s : State} {r : Request} {b : Bank} {w : Row} {k : RepairKind} {i : Spare}

theorem doRepairRow_range (hready : s.part.state = .ready)
    (h : bankRow r = none ∨ RepairKind.ofCode (field r.payload 4 1) = none) : s.doRepairRow r = s.answer r .range [] := by
  rw [State.doRepairRow, whenReady_ready hready]
  rcases h with h | h
  · rw [h]
  · rw [h]
    cases bankRow r <;> rfl

theorem doRepairRow_named (hready : s.part.state = .ready) (hrow : bankRow r = some (b, w))
    (hkind : RepairKind.ofCode (field r.payload 4 1) = some k) : s.doRepairRow r =
      if s.remapped b w then s.answer r .already []
      else match s.freeSpare b with
        | none => s.answer r .noSpare []
        | some target =>
          if k = .hard ∧ (s.freeSlot b).isNone then s.answer r .noFuse []
          else if s.maint.op ≠ .none then s.answer r .busy []
          else s.acceptRepair r b w k target := by
  rw [State.doRepairRow, whenReady_ready hready, hrow, hkind] <;> rfl

theorem doRepairRow_spare (hready : s.part.state = .ready) (hrow : bankRow r = some (b, w))
    (hkind : RepairKind.ofCode (field r.payload 4 1) = some k) (hnew : ∀ e ∈ s.remapOf b, e.row ≠ w)
    (hi : s.freeSpare b = some i) : s.doRepairRow r =
      if k = .hard ∧ (s.freeSlot b).isNone then s.answer r .noFuse []
      else if s.maint.op ≠ .none then s.answer r .busy []
      else s.acceptRepair r b w k i := by
  have not_remapped : ¬s.remapped b w = true := fun h => by
    obtain ⟨e, he, k⟩ := remapped_iff.1 h
    exact hnew e he k
  rw [doRepairRow_named hready hrow hkind, if_neg not_remapped, hi]

end Checks

/-- An answer that a turn of the scheduler and the transmitter's turn follow. -/
theorem answer_scheduled_sent {s v : State} {rest : List Request} (r : Request) (st : Status) (fs : List Byte)
    (hl : v.link = { s.link with intake := rest }) (hp : v.proc.executing = none) :
    Made (v.answer r st fs).schedule.transmit { seq := r.seq, payload := r.code :: st.code :: fs } ∧
      (v.answer r st fs).schedule.transmit.link.intake = rest ∧
      { (v.answer r st fs).schedule.transmit with link := v.link, proc := v.proc } =
        { (v.answer r st fs).schedule with link := v.link, proc := v.proc } := by
  obtain ⟨⟨⟨hcache, hwhere, hfree⟩, -, hintake, -, -⟩, -⟩ := State.answer_spec (s := s) r st fs hl hp
  have hq := answer_queue_ne_nil v r st fs
  obtain ⟨⟨ac, bk, op, fc, e⟩, -, -⟩ := Scheduled.schedule (v.answer r st fs)
  generalize v.answer r st fs = u at *
  have hlink : u.schedule.link = u.link := by rw [e]
  have hproc : u.schedule.proc = u.proc := by rw [e]
  generalize u.schedule = t at *
  rw [← hlink, ← hproc] at hwhere
  rw [← hlink] at hcache hintake hq
  rw [← hproc] at hfree
  obtain ⟨tintake, -, -, trest⟩ := transmit_frame hq
  exact ⟨made_transmit ⟨hcache, hwhere, hfree⟩ hq, tintake.trans hintake, (congrArg (linkAndProcOf v) trest :)⟩

/-- A repair accepted: ACCEPTED is made, the claim waits or is taken, and nothing of the array or its tables changes (R116). -/
theorem acceptRepair_spec {s v : State} {r : Request} {rest : List Request} {b : Bank} {w : Row} {k : RepairKind} {i : Spare}
    (hv : v = s.withIntake rest) (hfree : s.proc.executing = none) :
    ∃ t : State, (v.acceptRepair r b w k i).transmit = t ∧ Made t { seq := r.seq, payload := [r.code, 0x01] } ∧
      t.link.intake = rest ∧ t.mem = s.mem ∧ t.remap = s.remap ∧ t.fuses = s.fuses ∧ t.jobs = s.jobs ∧
      t.accesses.map posted = s.accesses.map posted ∧
      ∃ phase : RepairPhase, t.maint.op = .repair (repairClaim b w k i phase) ∧
        (phase = .claiming ∨ (phase = .copying ∧ (t.bank b).state = .repairing)) := by
  generalize hu : v.setOp (.repair (repairClaim b w k i .claiming)) = u
  have hl : u.link = { s.link with intake := rest } := by rw [← hu, hv]; rfl
  have hp : u.proc.executing = none := by rw [← hu, hv]; exact hfree
  obtain ⟨hmade, hintake, hrest⟩ := answer_scheduled_sent (s := s) r .accepted [] hl hp
  have answered := (State.answer_spec (s := s) r .accepted [] hl hp).2
  refine ⟨_, rfl, ?_⟩
  have start : v.acceptRepair r b w k i = (u.answer r .accepted []).schedule := by rw [← hu]; rfl
  rw [start]
  generalize u.answer r .accepted [] = x at *
  obtain ⟨⟨ac, bk, op, fc, e⟩, hacc, -⟩ := Scheduled.schedule x
  have hop := schedule_op x
  generalize x.schedule = y at *
  generalize y.transmit = t at *
  have kept {α : Type} (f : State → α) (hf : ∀ (z : State) (l : Link) (p : Processor), f { z with link := l, proc := p } = f z) :
      f t = f y := ((hf t u.link u.proc).symm.trans (congrArg f hrest)).trans (hf y u.link u.proc)
  have before {α : Type} (f : State → α) (hf : ∀ (z : State) (l : Link) (p : Processor), f { z with link := l, proc := p } = f z) :
      f x = f u := (hf x u.link u.proc).symm.trans (congrArg f answered)
  have base {α : Type} (f : State → α)
      (hf : ∀ (z : State) (l : Link) (m : Maint), f { z with link := l, maint := m } = f z) : f u = f s := by
    rw [← hu, hv]
    exact hf s _ _
  have xop : x.maint.op = .repair (repairClaim b w k i .claiming) := by
    refine (before (fun z => z.maint.op) fun _ _ _ => rfl).trans ?_
    rw [← hu]
    rfl
  refine ⟨hmade, hintake, ?_, ?_, ?_, ?_, ?_, ?_⟩
  · rw [kept State.mem fun _ _ _ => rfl, e]
    exact (before State.mem fun _ _ _ => rfl).trans (base State.mem fun _ _ _ => rfl)
  · rw [kept State.remap fun _ _ _ => rfl, e]
    exact (before State.remap fun _ _ _ => rfl).trans (base State.remap fun _ _ _ => rfl)
  · rw [kept State.fuses fun _ _ _ => rfl, e]
    exact (before State.fuses fun _ _ _ => rfl).trans (base State.fuses fun _ _ _ => rfl)
  · rw [kept State.jobs fun _ _ _ => rfl, e]
    exact (before State.jobs fun _ _ _ => rfl).trans (base State.jobs fun _ _ _ => rfl)
  · rw [kept State.accesses fun _ _ _ => rfl, hacc]
    exact congrArg _ ((before State.accesses fun _ _ _ => rfl).trans (base State.accesses fun _ _ _ => rfl))
  · have top : t.maint.op = y.maint.op := kept (fun z => z.maint.op) fun _ _ _ => rfl
    rcases hop with hop | ⟨q, hq, -, hop, hbank⟩
    · exact ⟨.claiming, by rw [top, hop, xop], .inl rfl⟩
    · obtain rfl := MaintOp.repair.inj (xop.symm.trans hq)
      refine ⟨.copying, top.trans hop, .inr ⟨rfl, ?_⟩⟩
      rw [kept (fun z => (z.bank b).state) fun _ _ _ => rfl]
      exact hbank

/-- Settles O36: the checks in their order, each by its equation, and the acceptance. -/
theorem repairRowIsJudged : Obligations.RepairRowIsJudged := by
  unfold Obligations.RepairRowIsJudged
  intro s r rest bank row kind h hb hw hk hr hready
  have hcode : r.code = 0x32 := by simp [Request.code, hr]
  have hlen : lengthOk r = true := by simp [lengthOk, hcode, hr]
  obtain ⟨hbank, hrow⟩ := bankRow_fields (more := natBytes 1 kind) hb hw (by simpa using hr)
  have hkind : field r.payload 4 1 = kind := by
    simpa [hr] using field_mid (0x32 :: (natBytes 1 bank ++ natBytes 2 row)) [] (k := 1) hk
  have ready : (s.withIntake rest).part.state = .ready := hready
  refine ⟨fun hbad => repairRow_runsAs.answers h hcode hlen (doRepairRow_range ready ?_), fun b w k hb' hw' hk' => ?_⟩
  · rcases hbad with h | h | h
    · exact .inl (bankRow_none hbank hrow (.inl h))
    · exact .inl (bankRow_none hbank hrow (.inr h))
    · exact .inr (by rw [hkind, repairKind_none h])
  · have named : bankRow r = some (b, w) := bankRow_some (hbank.trans hb'.symm) (hrow.trans hw'.symm)
    have code : RepairKind.ofCode (field r.payload 4 1) = some k := by rw [hkind, ← hk', repairKind_code]
    refine ⟨fun hmapped => repairRow_runsAs.answers h hcode hlen (st := .already) (fs := []) ?_, fun hnew =>
      ⟨fun hfull => repairRow_runsAs.answers h hcode hlen (st := .noSpare) (fs := []) ?_, fun i hi hlow => ?_⟩⟩
    · exact (doRepairRow_named ready named code).trans (if_pos (remapped_iff.2 hmapped))
    · refine (doRepairRow_named ready named code).trans ((if_neg fun hm => ?_).trans ?_)
      · obtain ⟨e, he, hew⟩ := remapped_iff.1 hm
        exact hnew e he hew
      · rw [freeSpare_none (s := s.withIntake rest) hfull]
        rfl
    · have judged := doRepairRow_spare (s := s.withIntake rest) ready named code hnew (freeSpare_some hi hlow)
      have slot (hs : k = .soft ∨ ∃ m : Slot, s.fuseOf b m = .free) :
          ¬(k = .hard ∧ ((s.withIntake rest).freeSlot b).isNone = true) := by
        rintro ⟨rfl, hn⟩
        obtain ⟨m, hm⟩ := hs.resolve_left nofun
        rw [freeSlot_isSome (s := s.withIntake rest) hm] at hn
        cases hn
      refine ⟨fun hhard hnone => repairRow_runsAs.answers h hcode hlen (st := .noFuse) (fs := []) ?_,
        fun hs hop => repairRow_runsAs.answers h hcode hlen (st := .busy) (fs := []) ?_, fun hs hop => ?_⟩
      · refine judged.trans (if_pos ⟨hhard, ?_⟩)
        rw [freeSlot_none (s := s.withIntake rest) hnone]
        rfl
      · exact judged.trans ((if_neg (slot hs)).trans (if_pos hop))
      · have accepted := judged.trans ((if_neg (slot hs)).trans (if_neg fun hn => hn hop))
        have ⟨_, hfree, _, _⟩ := h
        obtain ⟨t, ht, hmade, hfacts⟩ := acceptRepair_spec (s := s) (r := r) (b := b) (w := w) (k := k) (i := i) rfl hfree
        rw [hcode] at hmade
        exact ⟨t, (repairRow_runsAs.run h hcode hlen).trans (congrArg Host.Outcome.next ((congrArg State.transmit accepted).trans ht)),
          hmade, hfacts⟩

end Sys2Proof.Machine
end

