-- ==== Sys2Proof/Proofs/Parts.lean ====
section
/-! PROOF. What the part's changes of state share: ports changed one after another, the notices that waited, the scrub going on,
an answer after which the scheduler and the transmitter go on. -/

namespace Sys2Proof.Machine

open Sys2Proof.Safety

-- One thread: the whole text is checked under a memory limit that holds a bounded number of thread stacks.
set_option Elab.async false

/-! ### One port after another -/

theorem mem_allPorts (p : Port) : p ∈ allPorts := by
  revert p
  decide

theorem allPorts_nodup : allPorts.Nodup := by decide

/-- The states agree but for the engines and the ports' outputs, and at this port in these too. -/
def SamePort (s t : State) (p : Port) : Prop :=
  { t with engines := s.engines, outs := s.outs } = s ∧ t.engine p = s.engine p ∧ t.outp p = s.outp p

/-- An operation changes one port's engine to `e` and its outputs to `o`, and nothing else. -/
def ChangesPort (f : State → Port → State) (e : State → Port → Engine) (o : State → Port → Outs) : Prop :=
  ∀ (s : State) (p : Port), (f s p).engine p = e s p ∧ (f s p).outp p = o s p ∧
    (∀ q : Port, q ≠ p → (f s p).engine q = s.engine q ∧ (f s p).outp q = s.outp q) ∧
    { f s p with engines := s.engines, outs := s.outs } = s

section Ports
variable {f : State → Port → State} {e : State → Port → Engine} {o : State → Port → Outs}

theorem foldl_ports_of_nodup (hf : ChangesPort f e o)
    (hloc : ∀ (s t : State) (p : Port), SamePort s t p → e t p = e s p ∧ o t p = o s p) {l : List Port} (hl : l.Nodup) (s : State) :
    (∀ p : Port, (l.foldl f s).engine p = (if p ∈ l then e s p else s.engine p) ∧
      (l.foldl f s).outp p = if p ∈ l then o s p else s.outp p) ∧
      { l.foldl f s with engines := s.engines, outs := s.outs } = s := by
  induction l generalizing s with
  | nil => exact ⟨fun p => ⟨rfl, rfl⟩, rfl⟩
  | cons c l ih =>
    obtain ⟨hc, hl⟩ := List.nodup_cons.1 hl
    obtain ⟨hengine, houtp, hother, hrest⟩ := hf s c
    obtain ⟨hport, hfold⟩ := ih hl (f s c)
    rw [List.foldl_cons]
    refine ⟨fun p => ?_, (congrArg (fun t : State => { t with engines := s.engines, outs := s.outs }) hfold).trans hrest⟩
    rw [(hport p).1, (hport p).2]
    by_cases h : p = c
    · subst h
      simp [hc, hengine, houtp]
    · obtain ⟨he, ho⟩ := hother p h
      obtain ⟨le, lo⟩ := hloc s (f s c) p ⟨hrest, he, ho⟩
      simp [h, he, ho, le, lo]

/-- Ports changed one after another, each by what its own engine and outputs, and the rest of the state, say. -/
theorem foldl_ports (hf : ChangesPort f e o)
    (hloc : ∀ (s t : State) (p : Port), SamePort s t p → e t p = e s p ∧ o t p = o s p) (s : State) :
    (∀ p : Port, (allPorts.foldl f s).engine p = e s p ∧ (allPorts.foldl f s).outp p = o s p) ∧
      { allPorts.foldl f s with engines := s.engines, outs := s.outs } = s := by
  obtain ⟨hport, hrest⟩ := foldl_ports_of_nodup hf hloc allPorts_nodup s
  exact ⟨fun p => ⟨(hport p).1.trans (if_pos (mem_allPorts p)), (hport p).2.trans (if_pos (mem_allPorts p))⟩, hrest⟩

end Ports

theorem onlyAwaiting_eq (l : List Half) : (l.filter fun h => !h.isLoaded && !h.isFilling) = onlyAwaiting l :=
  List.filter_congr fun _ _ => Bool.and_comm _ _

theorem mem_onlyAwaiting {l : List Half} {h : Half} (k : h ∈ onlyAwaiting l) : ∃ n : Nat, h = .awaiting n := by
  obtain ⟨-, k⟩ := List.mem_filter.1 k
  cases h with
  | awaiting n => exact ⟨n, rfl⟩
  | _ => cases k

theorem beginStop_busy {s : State} {p : Port} (h : s.outstanding p ≠ 0) : s.beginStop p = s.setEngine p { s.engine p with
    halves := onlyAwaiting (s.engine p).halves, nextBurst := none, faultMark := none, attention := none } := by
  unfold State.beginStop
  dsimp only
  rw [onlyAwaiting_eq]
  exact if_neg h

theorem beginStop_idle {s : State} {p : Port} (h : s.outstanding p = 0) :
    (s.beginStop p).engine p = { atRest (s.engine p) .inert with attention := none } ∧
      (s.beginStop p).outp p = stoppedOuts (s.outp p) ∧
      (∀ q : Port, q ≠ p → (s.beginStop p).engine q = s.engine q ∧ (s.beginStop p).outp q = s.outp q) ∧
      { s.beginStop p with engines := s.engines, outs := s.outs } = s := by
  generalize hu : s.setEngine p { s.engine p with
    halves := onlyAwaiting (s.engine p).halves, nextBurst := none, faultMark := none, attention := none } = u
  have e : s.beginStop p = u.stopPort p := by
    unfold State.beginStop
    dsimp only
    rw [onlyAwaiting_eq, ← hu]
    exact if_pos h
  obtain ⟨hengine, houtp, hother, hrest⟩ := stopPort_spec u p
  rw [e]
  refine ⟨?_, ?_, fun q hq => ?_, ?_⟩
  · rw [hengine, ← hu, State.engine_self]
    rfl
  · rw [houtp, ← hu]
    rfl
  · obtain ⟨k, l⟩ := hother q hq
    rw [k, l, ← hu]
    exact ⟨State.engine_other _ _ _ q hq, rfl⟩
  · rw [← hu] at hrest ⊢
    exact (congrArg (fun t : State => { t with engines := s.engines }) hrest :)

/-- An engine once it has begun to stop (R82). -/
def stopping (s : State) (p : Port) : Engine :=
  if s.outstanding p = 0 then { atRest (s.engine p) .inert with attention := none }
  else { s.engine p with
    halves := onlyAwaiting (s.engine p).halves, nextBurst := none, faultMark := none, attention := none }

/-- Its port's outputs then. -/
def stoppingOuts (s : State) (p : Port) : Outs := if s.outstanding p = 0 then stoppedOuts (s.outp p) else s.outp p

theorem beginStop_changes : ChangesPort State.beginStop stopping stoppingOuts := by
  intro s p
  unfold stopping stoppingOuts
  by_cases h : s.outstanding p = 0
  · rw [if_pos h, if_pos h]
    exact beginStop_idle h
  · rw [if_neg h, if_neg h, beginStop_busy h]
    exact ⟨State.engine_self _ _ _, rfl, fun q hq => ⟨State.engine_other _ _ _ q hq, rfl⟩, rfl⟩

theorem beginStops_spec (s : State) :
    (∀ p : Port, (allPorts.foldl State.beginStop s).engine p = stopping s p ∧
      (allPorts.foldl State.beginStop s).outp p = stoppingOuts s p) ∧
      { allPorts.foldl State.beginStop s with engines := s.engines, outs := s.outs } = s := by
  refine foldl_ports beginStop_changes (fun s t p ⟨hrest, he, ho⟩ => ?_) s
  have hout : t.outstanding p = s.outstanding p := (congrArg (fun u : State => u.outstanding p) hrest :)
  unfold stopping stoppingOuts
  rw [hout, he, ho]
  exact ⟨rfl, rfl⟩

/-- The outputs of a port whose engine enters INERT (R61, R62). -/
def inertOuts (o : Outs) : Outs := { o with sel := 0, xack := false, d := .off, cout := false, cin := false }

theorem inertEngine_changes :
    ChangesPort State.inertEngine (fun s p => atRest (s.engine p) .inert) (fun s p => inertOuts (s.outp p)) := by
  refine fun s p => ⟨State.inertEngine_engine s p, ?_,
    fun q hq => ⟨State.inertEngine_engine_other hq, State.inertEngine_outp_other hq⟩, rfl⟩
  unfold State.inertEngine
  rw [State.outp_self]
  unfold State.restEngine inertOuts
  rw [State.outp_self]

theorem inertEngines_spec (s : State) :
    (∀ p : Port, (allPorts.foldl State.inertEngine s).engine p = atRest (s.engine p) .inert ∧
      (allPorts.foldl State.inertEngine s).outp p = inertOuts (s.outp p)) ∧
      { allPorts.foldl State.inertEngine s with engines := s.engines, outs := s.outs } = s :=
  foldl_ports inertEngine_changes (fun s t p ⟨_, he, ho⟩ => by rw [he, ho]; exact ⟨rfl, rfl⟩) s

/-! ### The scrub goes on -/

/-- What the scrub's going on can change. -/
theorem scrubAdvance_eq (s : State) : ∃ ac sc mk, s.scrubAdvance = { s with
    accesses := ac, maint := { s.maint with scrub := sc }, media := { s.media with scrubMark := mk } } := by
  have begun (u : State) (hu : u = s ∨ u = s.beginRow) : ∃ ac sc mk,
      (if u.maint.scrub.visit = .inRow ∧ !u.maint.scrub.resumeAtExpiry ∧ !u.maintPosted then u.postScrubRead else u) = { s with
        accesses := ac, maint := { s.maint with scrub := sc }, media := { s.media with scrubMark := mk } } := by
    rcases hu with rfl | rfl <;> split <;> exact ⟨_, _, _, rfl⟩
  unfold State.scrubAdvance
  split
  · refine begun _ ?_
    split
    · exact .inr rfl
    · exact .inl rfl
  · exact ⟨_, _, _, rfl⟩

/-! ### The request in execution is answered, and the transmitter goes on -/

theorem endExecution_rest (s : State) (st : Status) (fs : List Byte) :
    { s.endExecution st fs with link := s.link, proc := s.proc } = s := by
  unfold State.endExecution
  split
  · rfl
  · dsimp only
    split
    · rfl
    · unfold State.queueOrHold
      split <;> rfl

/-- A response that is made is sent or waits once the transmitter has had its turn; what came between left the link alone. -/
theorem answered_sent {s t : State} {resp : Response} (h : Answered s resp) (hq : s.link.queue ≠ []) (hl : t.link = s.link)
    (hp : t.proc = s.proc) : Made t.transmit resp ∧ t.transmit.proc.executing = none ∧ t.transmit.link.intake = s.link.intake ∧
      { t.transmit with link := t.link, proc := t.proc } = t := by
  obtain ⟨hcache, hwhere, hfree⟩ := h
  rw [← hl] at hcache hwhere hq
  rw [← hp] at hwhere hfree
  obtain ⟨hintake, hexec, -, hrest⟩ := transmit_frame hq
  exact ⟨made_transmit ⟨hcache, hwhere, hfree⟩ hq, hexec.trans hfree, hintake.trans (by rw [hl]), hrest⟩

theorem releaseHeld_notices (s : State) : s.releaseHeld.notices = s.notices := by
  unfold State.releaseHeld
  split
  · rfl
  · split <;> rfl

/-- The transmitter takes no notice out of the outbox and adds none. -/
theorem transmit_bodies (s : State) : s.transmit.notices.outbox.map Notice.body = s.notices.outbox.map Notice.body := by
  unfold State.transmit
  split
  · rfl
  · split
    · rfl
    · split
      · rfl
      · split
        · rw [releaseHeld_notices]
        · split
          · split
            · show (s.notices.outbox.map _).map Notice.body = _
              rw [List.map_map]
              refine List.map_congr_left fun n _ => ?_
              simp only [Function.comp]
              split <;> rfl
            · rfl
          · rfl

/-- No notice of the outbox is a JOB END. -/
def NoJobEnds (s : State) : Prop := ∀ n ∈ s.notices.outbox, isJobEnd n.body = false

theorem noJobEnds_of_bodies {s t : State} (h : t.notices.outbox.map Notice.body = s.notices.outbox.map Notice.body)
    (k : NoJobEnds s) : NoJobEnds t := by
  intro n hn
  have mem : n.body ∈ s.notices.outbox.map Notice.body := h ▸ List.mem_map_of_mem hn
  obtain ⟨m, hm, e⟩ := List.mem_map.1 mem
  exact e ▸ k m hm

/-! ### The notices that waited, when no port has a job -/

/-- What the waiting producers' turn can change when no port has a job: the Notice Unit, the Maintenance Engine, and attentions
that are told. -/
structure Admits (s t : State) : Prop where
  rest : { t with notices := s.notices, maint := s.maint, engines := s.engines } = s
  engine : ∀ p : Port, ∃ x, t.engine p = { s.engine p with attention := x } ∧ (x = (s.engine p).attention ∨ x = none)
  noJobEnds : NoJobEnds s → NoJobEnds t

namespace Admits
variable {s t u : State}

theorem refl (s : State) : Admits s s := ⟨rfl, fun _ => ⟨_, rfl, .inl rfl⟩, id⟩

theorem trans (h : Admits s t) (k : Admits t u) : Admits s u := by
  refine ⟨?_, fun p => ?_, k.noJobEnds ∘ h.noJobEnds⟩
  · exact (congrArg (fun v : State => { v with notices := s.notices, maint := s.maint, engines := s.engines }) k.rest).trans h.rest
  · obtain ⟨x, ht, hx⟩ := h.engine p
    obtain ⟨y, hu, hy⟩ := k.engine p
    refine ⟨y, by rw [hu, ht], ?_⟩
    rcases hy with rfl | rfl
    · rw [ht]
      exact hx
    · exact .inr rfl

theorem noJobs (h : Admits s t) (hq : ∀ p : Port, s.queueOf p = []) (p : Port) : t.queueOf p = [] :=
  ((congrArg (fun v : State => v.queueOf p) h.rest :) : t.queueOf p = s.queueOf p).trans (hq p)

theorem one (hq : ∀ p : Port, s.queueOf p = []) (h : s.admitWaitingOne = some t) : Admits s t := by
  by_cases room : s.notices.waiting ≠ [] ∧ s.notices.outbox.length < 16 ∧ s.ordinaryCount < 12
  · obtain ⟨hw, ho, hc⟩ := room
    obtain ⟨x, rest, e⟩ := List.exists_cons_of_ne_nil hw
    obtain ⟨u, hu, hnone, hsome⟩ := State.admitWaitingOne_some e ho hc
    obtain rfl := Option.some.inj (h.symm.trans hu)
    have silent (k : s.bodyOf x = none) : Admits s t := by
      rw [hnone k]
      exact ⟨rfl, fun p => ⟨_, rfl, .inl rfl⟩, id⟩
    have told (body : NoticeBody) (hb : s.bodyOf x = some body) (hj : isJobEnd body = false) (k : NoJobEnds s) : NoJobEnds t := by
      intro n hn
      rw [(hsome body hb).2] at hn
      rcases List.mem_append.1 (show n ∈ s.notices.outbox ++ [freshNotice s.admissionNumber body] from hn) with hn | hn
      · exact k n hn
      · rw [List.mem_singleton.1 hn]
        exact hj
    cases hb : s.bodyOf x with
    | none => exact silent hb
    | some body =>
      have ⟨htold, _⟩ := hsome body hb
      cases x with
      | job p =>
        rw [State.bodyOf_idle (hq p)] at hb
        cases hb
      | attention p =>
        obtain ⟨hself, hother, hrest⟩ := htold
        refine ⟨(congrArg (fun v : State => { v with maint := s.maint }) hrest :), fun q => ?_, told body hb ?_⟩
        · by_cases hp : q = p
          · subst hp
            exact ⟨none, hself, .inr rfl⟩
          · exact ⟨_, hother q hp, .inl rfl⟩
        · obtain ⟨y, -, rfl⟩ := Option.map_eq_some_iff.1 hb
          rfl
      | scrub =>
        obtain ⟨-, hrest⟩ := htold
        refine ⟨(congrArg (fun v : State => { v with engines := s.engines }) hrest :), fun q => ⟨_, ?_, .inl rfl⟩, told body hb ?_⟩
        · exact (congrArg (fun v : State => v.engine q) hrest :)
        · obtain ⟨y, -, rfl⟩ := Option.map_eq_some_iff.1 hb
          rfl
      | repair =>
        obtain ⟨-, hrest⟩ := htold
        refine ⟨(congrArg (fun v : State => { v with engines := s.engines }) hrest :), fun q => ⟨_, ?_, .inl rfl⟩, told body hb ?_⟩
        · exact (congrArg (fun v : State => v.engine q) hrest :)
        · by_cases hr : ∃ r : RepairRecord, s.maint.op = .repair r
          · obtain ⟨r, hr⟩ := hr
            rw [State.bodyOf_repair hr] at hb
            obtain rfl := Option.some.inj hb
            rfl
          · rw [State.bodyOf_noRepair fun r k => hr ⟨r, k⟩] at hb
            cases hb
      | partControl =>
        refine ⟨(congrArg (fun v : State => { v with maint := s.maint, engines := s.engines }) htold :), fun q =>
          ⟨_, ?_, .inl rfl⟩, told body hb ?_⟩
        · exact (congrArg (fun v : State => v.engine q) htold :)
        · obtain rfl := Option.some.inj hb
          rfl
  · have none : s.admitWaitingOne = none := State.admitWaitingOne_none (by
      by_cases hw : s.notices.waiting = []
      · exact .inl hw
      · by_contra k
        rw [not_or, not_or] at k
        exact room ⟨hw, Nat.not_le.1 k.2.1, Nat.not_le.1 k.2.2⟩)
    rw [h] at none
    cases none

theorem iterate (n : Nat) {s : State} (hq : ∀ p : Port, s.queueOf p = []) : Admits s (iterate State.admitWaitingOne n s) := by
  induction n generalizing s with
  | zero => exact refl s
  | succ n ih =>
    rw [Machine.iterate]
    split
    · rename_i t ht
      have h := one hq ht
      exact h.trans (ih (h.noJobs hq))
    · exact refl s

theorem admitWaiting {s : State} (hq : ∀ p : Port, s.queueOf p = []) : Admits s s.admitWaiting := iterate 11 hq

end Admits

end Sys2Proof.Machine
end

