-- ==== Sys2Proof/Proofs/Reset.lean ====
section
/-! PROOF. Engine reset: the entry into RESETTING, the engines' stopping, and the end (R57, R82, R110, R122, R151, R172, R173). -/

namespace Sys2Proof.Machine

open Sys2Proof.Safety

-- One thread: the whole text is checked under a memory limit that holds a bounded number of thread stacks.
set_option Elab.async false

/-! ### The entry -/

/-- The state in which the engines begin to stop. -/
def resetEntry (s : State) : State :=
  let s1 := ({ s with part := { s.part with state := .resetting, wakeTarget := none } } : State)
  let s2 := s1.withdrawPorts.releaseAllLocks.resetRepair.resetScrub
  { s2 with media := { s2.media with scrubMark := none } }

theorem enterReset_eq (s : State) : s.enterReset = (allPorts.foldl State.beginStop (resetEntry s)).endReset := rfl

theorem resetEntry_spec (s : State) : ∃ bk op m c,
    resetEntry s = { s with
      part := { s.part with state := .resetting, wakeTarget := none },
      notices := { s.notices with waiting := s.notices.waiting.filter fun x => !ofPort x },
      media := { s.media with scrubMark := none }, maint := { op := op, scrub := scrubRestarted s }, banks := bk, mem := m,
      freeCtr := c } ∧
    (∀ r : RepairRecord, s.maint.op = .repair r → (r.phase = .claiming ∨ r.phase = .copying) → op = .none) ∧
    ((∀ r : RepairRecord, s.maint.op = .repair r → r.phase ≠ .claiming ∧ r.phase ≠ .copying) → op = s.maint.op) ∧
    (∀ r : RepairRecord, s.maint.op = .repair r → r.phase = .copying →
      (∃ n : Nat, n ≤ 512 ∧ CopiedInto s.mem m r.bank r.row r.target n) ∧
      bk[r.bank] = { s.bank r.bank with state := .closed, lockHolder := none, lockTimer := none } ∧
      ∀ b : Bank, b ≠ r.bank → bk[b] = { s.bank b with lockHolder := none, lockTimer := none }) ∧
    ((∀ r : RepairRecord, s.maint.op = .repair r → r.phase ≠ .copying) →
      m = s.mem ∧ c = s.freeCtr ∧ ∀ b : Bank, bk[b] = { s.bank b with lockHolder := none, lockTimer := none }) := by
  generalize hu : ({ s with
    part := { s.part with state := .resetting, wakeTarget := none },
    notices := { s.notices with waiting := s.notices.waiting.filter fun x => !ofPort x } } : State) = u
  obtain ⟨⟨bk, hbk⟩, hbank⟩ := releaseAllLocks_spec u
  obtain ⟨bk', op, m, c, heq, hgone, hstays, hcopy, hquiet⟩ := resetRepair_spec u.releaseAllLocks
  have entered : resetEntry s = { u.releaseAllLocks.resetRepair.resetScrub with
      media := { u.releaseAllLocks.resetRepair.resetScrub.media with scrubMark := none } } := by
    unfold resetEntry
    dsimp only
    rw [withdrawPorts_eq, ← hu]
  have bank (b : Bank) : u.releaseAllLocks.bank b = { s.bank b with lockHolder := none, lockTimer := none } := by
    rw [hbank, ← hu]
    rfl
  have hop : u.releaseAllLocks.maint.op = s.maint.op := by rw [hbk, ← hu]
  have hmem : u.releaseAllLocks.mem = s.mem := by rw [hbk, ← hu]
  have hctr : u.releaseAllLocks.freeCtr = s.freeCtr := by rw [hbk, ← hu]
  rw [hop] at hgone hstays hcopy hquiet
  refine ⟨bk', op, m, c, ?_, hgone, hstays, fun r hr hp => ?_, fun h => ?_⟩
  · rw [entered, heq, hbk, ← hu]
    rfl
  · obtain ⟨hcopied, hself, hother⟩ := hcopy r hr hp
    rw [hmem] at hcopied
    refine ⟨hcopied, by rw [hself, bank], fun b hb => by rw [hother b hb, bank]⟩
  · obtain ⟨hm, hc, hb⟩ := hquiet h
    refine ⟨hm.trans hmem, hc.trans hctr, fun b => ?_⟩
    rw [hb]
    exact bank b

theorem resetEntry_locks (s : State) (b : Bank) : ((resetEntry s).bank b).lockHolder = none := by
  obtain ⟨bk, op, m, c, e, -, -, hcopy, hquiet⟩ := resetEntry_spec s
  have bank : (resetEntry s).bank b = bk[b] := by rw [e]; rfl
  rw [bank]
  by_cases h : ∃ r : RepairRecord, s.maint.op = .repair r ∧ r.phase = .copying
  · obtain ⟨r, hr, hp⟩ := h
    obtain ⟨-, hself, hother⟩ := hcopy r hr hp
    by_cases hb : b = r.bank
    · rw [hb, hself]
    · rw [hother b hb]
  · rw [(hquiet fun r hr hp => h ⟨r, hr, hp⟩).2.2 b]

/-! ### The end -/

theorem allStopped_iff {s : State} : s.allStopped = true ↔ ∀ p : Port, (s.engine p).state = .inert := by
  unfold State.allStopped
  simp [mem_allPorts]

theorem endReset_stands {s : State} (h : s.part.state ≠ .resetting ∨ ∃ p : Port, (s.engine p).state ≠ .inert) :
    s.endReset = s := by
  unfold State.endReset
  refine if_neg fun ⟨hr, hi⟩ => ?_
  rcases h with h | ⟨p, h⟩
  · exact h hr
  · exact h (allStopped_iff.1 hi p)

/-- The state in which the waiting producers get their room at the end of a reset (R57, R151). -/
def jobsDropped (s : State) : State :=
  { s with
    jobs := [], queues := Vector.replicate 4 [],
    notices := { s.notices with
      outbox := s.notices.outbox.filter fun n => !isJobEnd n.body,
      npend := !(s.notices.outbox.filter fun n => !isJobEnd n.body).isEmpty } }

theorem endReset_ends {s : State} (hr : s.part.state = .resetting) (hi : ∀ p : Port, (s.engine p).state = .inert) :
    s.endReset = (({ (jobsDropped s).admitWaiting with
      part := { (jobsDropped s).admitWaiting.part with state := .ready } } : State).readyEngines.scrubAdvance).endExecution .ok [] := by
  have dropped : ({ s with jobs := [], queues := Vector.replicate 4 [] } : State).dropJobEnds = jobsDropped s := by
    have e : (fun n : Notice => match n.body with
        | .jobEnd _ _ _ _ _ _ _ _ => false
        | _ => true) = fun n => !isJobEnd n.body := by
      funext n
      cases n.body <;> rfl
    exact congrArg (fun keep : Notice → Bool =>
      ({ s with jobs := [], queues := Vector.replicate 4 [] } : State).setOutbox (s.notices.outbox.filter keep)) e
  unfold State.endReset
  rw [if_pos ⟨hr, allStopped_iff.2 hi⟩, ← dropped]

theorem jobsDropped_queues (s : State) (p : Port) : (jobsDropped s).queueOf p = [] := by
  show (Vector.replicate 4 ([] : List Tag))[p] = []
  simp

/-- The state of the part once a reset has ended, its request yet to be answered. -/
structure ResetDone (s w : State) : Prop where
  rest : ∃ ac mt mk nt en ou, w = { s with
    part := { s.part with state := .ready }, jobs := [], queues := Vector.replicate 4 [], accesses := ac, maint := mt,
    media := { s.media with scrubMark := mk }, notices := nt, engines := en, outs := ou }
  engine : ∀ p : Port, ∃ x, (x = (s.engine p).attention ∨ x = none) ∧
    w.engine p = if (s.portSettings p).enable then { atRest (s.engine p) .idle with attention := x }
      else { s.engine p with attention := x }
  outp : ∀ p : Port, w.outp p = if (s.portSettings p).enable then { s.outp p with sel := 0 } else s.outp p
  noJobEnds : NoJobEnds w

theorem endReset_done {s : State} (hr : s.part.state = .resetting) (hi : ∀ p : Port, (s.engine p).state = .inert) :
    ∃ w : State, s.endReset = w.endExecution .ok [] ∧ ResetDone s w := by
  have admits := Admits.admitWaiting (jobsDropped_queues s)
  have none : NoJobEnds (jobsDropped s).admitWaiting := admits.noJobEnds fun n hn => by
    have := (List.mem_filter.1 (show n ∈ s.notices.outbox.filter fun n => !isJobEnd n.body from hn)).2
    simpa using this
  obtain ⟨nt, mt, en, e⟩ : ∃ nt mt en, (jobsDropped s).admitWaiting =
      { s with jobs := [], queues := Vector.replicate 4 [], notices := nt, maint := mt, engines := en } := by
    refine ⟨(jobsDropped s).admitWaiting.notices, (jobsDropped s).admitWaiting.maint,
      (jobsDropped s).admitWaiting.engines, ?_⟩
    have h := admits.rest
    generalize (jobsDropped s).admitWaiting = v at h ⊢
    exact (congrArg (fun t : State => { t with notices := v.notices, maint := v.maint, engines := v.engines }) h :)
  have hengine := admits.engine
  have hend := endReset_ends hr hi
  generalize (jobsDropped s).admitWaiting = v at none e hengine hend
  generalize hz : ({ v with part := { v.part with state := .ready } } : State) = z at hend
  obtain ⟨hon, hoff, en', ou, hready⟩ := readyEngines_spec z
  generalize z.readyEngines = y at hon hoff hready hend
  obtain ⟨ac, sc, mk, hscrub⟩ := scrubAdvance_eq y
  have engine (p : Port) : y.scrubAdvance.engine p = y.engine p := by rw [hscrub]; rfl
  have outp (p : Port) : y.scrubAdvance.outp p = y.outp p := by rw [hscrub]; rfl
  have settings (p : Port) : z.portSettings p = s.portSettings p := by rw [← hz, e]; rfl
  have zoutp (p : Port) : z.outp p = s.outp p := by rw [← hz, e]; rfl
  refine ⟨y.scrubAdvance, hend, ⟨?_, fun p => ?_, fun p => ?_, ?_⟩⟩
  · rw [hscrub, hready, ← hz, e]
    exact ⟨_, _, _, _, _, _, rfl⟩
  · obtain ⟨x, hx, hor⟩ := hengine p
    refine ⟨x, hor, ?_⟩
    have zengine : z.engine p = { s.engine p with attention := x } := by
      rw [← hz]
      exact hx
    rw [engine]
    cases he : (s.portSettings p).enable with
    | true => rw [(hon p (settings p ▸ he)).1, zengine]; rfl
    | false => rw [(hoff p (settings p ▸ he)).1, zengine]; rfl
  · rw [outp]
    cases he : (s.portSettings p).enable with
    | true => rw [(hon p (settings p ▸ he)).2, zoutp]; rfl
    | false => rw [(hoff p (settings p ▸ he)).2, zoutp]; rfl
  · intro n hn
    refine none n ?_
    have notices : y.scrubAdvance.notices = v.notices := by rw [hscrub, hready, ← hz]
    rw [← notices]
    exact hn

/-- The request that held the processor, answered or its response discarded (R131, R135). -/
theorem endExecution_ok (s : State) :
    (s.proc.executing = none → s.endExecution .ok [] = s) ∧
     ∀ (x : Execution) (resp : Response), s.proc.executing = some x → resp = { seq := x.seq, payload := [x.code, 0x00] } →
       (x.discard = true → s.endExecution .ok [] = { s with proc := { s.proc with executing := none } }) ∧
       (x.discard = false →
         (s.link.queue.length < 8 → s.endExecution .ok [] = { s with
           proc := { s.proc with executing := none },
           link := { s.link with cache := withCached s.link.cache resp, queue := s.link.queue ++ [resp] } }) ∧
         (8 ≤ s.link.queue.length → s.endExecution .ok [] = { s with
           proc := { executing := none, held := some resp },
           link := { s.link with cache := withCached s.link.cache resp } })) := by
  refine ⟨endExecution_free, fun x resp hx hresp => ⟨endExecution_discarded hx, fun hd => ?_⟩⟩
  have answered : s.endExecution .ok [] =
      ({ s with proc := { s.proc with executing := none }, link := { s.link with cache := withCached s.link.cache resp } } :
        State).queueOrHold resp := by
    rw [endExecution_answer hx hd, State.answer, State.cacheResponse_eq, hresp]
    rfl
  refine ⟨fun hl => answered.trans (if_pos hl), fun hl => answered.trans (if_neg (Nat.not_lt.2 hl))⟩

/-- What a reset has done once it has ended and the scheduler and the transmitter have gone on. -/
structure ResetEnds (u t : State) : Prop where
  part : t.part = { u.part with state := .ready }
  jobs : t.jobs = []
  queue : ∀ p : Port, t.queueOf p = []
  engine : ∀ p : Port, ∃ x, (x = (u.engine p).attention ∨ x = none) ∧
    t.engine p = if (u.portSettings p).enable then { atRest (u.engine p) .idle with attention := x }
      else { u.engine p with attention := x }
  outp : ∀ p : Port, t.outp p = if (u.portSettings p).enable then { u.outp p with sel := 0 } else u.outp p
  noJobEnds : NoJobEnds t
  locks : ∀ b : Bank, (t.bank b).lockHolder = (u.bank b).lockHolder
  settings : t.settings = u.settings
  tables : t.remap = u.remap ∧ t.fuses = u.fuses ∧ t.media.list = u.media.list ∧ t.mem = u.mem
  answered : ∀ x : Execution, u.proc.executing = some x → t.proc.executing = none ∧
    (x.discard = false → Made t { seq := x.seq, payload := [x.code, 0x00] }) ∧ (x.discard = true → t.link.cache = u.link.cache)

theorem resetEnds {u : State} (hr : u.part.state = .resetting) (hi : ∀ p : Port, (u.engine p).state = .inert) :
    ResetEnds u u.endReset.schedule.transmit := by
  obtain ⟨w, hw, done⟩ := endReset_done hr hi
  obtain ⟨ac, mt, mk, nt, en, ou, e⟩ := done.rest
  have engines := done.engine
  have outs := done.outp
  have bodies := done.noJobEnds
  have hwproc : w.proc = u.proc := by rw [e]
  have hwlink : w.link = u.link := by rw [e]
  have ended := endExecution_rest w .ok []
  rw [hw]
  generalize hx : w.endExecution .ok [] = x at ended
  obtain ⟨lk, pr, hxw⟩ : ∃ lk pr, x = { w with link := lk, proc := pr } :=
    ⟨x.link, x.proc, (congrArg (fun v : State => { v with link := x.link, proc := x.proc }) ended :)⟩
  obtain ⟨⟨ac', bk, op, fc, hsched⟩, -, hlocks⟩ := Scheduled.schedule x
  generalize hy : x.schedule = y at hsched hlocks
  obtain ⟨lk', pr', nt', ht⟩ := Outward.transmit y
  have hbodies := transmit_bodies y
  have hkeeps := State.transmit_keeps y
  have sent : ∀ z : Execution, u.proc.executing = some z → y.transmit.proc.executing = none ∧
      (z.discard = false → Made y.transmit { seq := z.seq, payload := [z.code, 0x00] }) ∧
      (z.discard = true → y.transmit.link.cache = u.link.cache) := by
    intro z hz
    rw [← hwproc] at hz
    cases hd : z.discard with
    | false =>
      obtain ⟨ha, hq⟩ := endExecution_answered (st := .ok) (fs := []) hz hd
      rw [hx] at ha hq
      obtain ⟨hmade, hfree, -⟩ := answered_sent (t := y) ha hq (by rw [hsched]) (by rw [hsched])
      exact ⟨hfree, fun _ => hmade, fun h => nomatch h⟩
    | true =>
      have discarded := (endExecution_discarded (st := .ok) (fs := []) hz hd).symm.trans hx
      obtain ⟨-, -, hcache, hexec, -⟩ := hkeeps
      refine ⟨?_, fun h => (nomatch h), fun _ => ?_⟩
      · rw [hexec, hsched, ← discarded]
      · rw [hcache, hsched, ← discarded]
        exact congrArg Link.cache hwlink
  refine ⟨?_, ?_, fun p => ?_, fun p => ?_, fun p => ?_, noJobEnds_of_bodies hbodies fun n hn => bodies n ?_, fun b => ?_, ?_,
    ⟨?_, ?_, ?_, ?_⟩, sent⟩
  · rw [ht, hsched, hxw, e]
  · rw [ht, hsched, hxw, e]
  · have empty : y.transmit.queueOf p = (Vector.replicate 4 ([] : List Tag))[p] := by rw [ht, hsched, hxw, e]; rfl
    rw [empty]
    simp
  · obtain ⟨z, hor, hz⟩ := engines p
    refine ⟨z, hor, ?_⟩
    rw [← hz, ht, hsched, hxw]
    rfl
  · rw [← outs p, ht, hsched, hxw]
    rfl
  · have notices : y.notices = w.notices := by rw [hsched, hxw]
    rw [← notices]
    exact hn
  · have bank : y.transmit.bank b = y.bank b := by rw [ht]; rfl
    rw [bank, hlocks, hxw, e]
    rfl
  · rw [ht, hsched, hxw, e]
  · rw [ht, hsched, hxw, e]
  · rw [ht, hsched, hxw, e]
  · rw [ht, hsched, hxw, e]
  · rw [ht, hsched, hxw, e]

end Sys2Proof.Machine
end

