-- ==== Sys2Proof/Proofs/EngineReset.lean ====
section
/-! PROOF. ENGINE RESET by part state, the end of the last burst in RESETTING, and WAKE with its end (R91, R171 to R173). -/

namespace Sys2Proof.Machine

open Sys2Proof.Safety

-- One thread: the whole text is checked under a memory limit that holds a bounded number of thread stacks.
set_option Elab.async false

theorem engineReset_runsAs : RunsAs anyLines .engineReset 0x50 fun r s => s.doEngineReset r := fun _ => rfl
theorem wake_runsAs : RunsAs anyLines .wake 0x52 fun r s => s.doWake r := fun _ => rfl

theorem transmit_bank (s : State) (b : Bank) : s.transmit.bank b = s.bank b := by
  obtain ⟨_, _, _, e⟩ := Outward.transmit s
  rw [e]
  rfl

/-! ### What the entry leaves of the state -/

/-- The state after the engines have begun to stop, none of the accesses yet at its end. -/
def stopsBegun (s : State) : State := allPorts.foldl State.beginStop (resetEntry s)

/-- What the entry into RESETTING has done before its end is looked at. -/
structure Entered (s u : State) : Prop where
  part : u.part = { s.part with state := .resetting, wakeTarget := none }
  link : u.link = s.link
  proc : u.proc = s.proc
  accesses : u.accesses = s.accesses
  jobs : u.jobs = s.jobs
  settings : u.settings = s.settings
  tables : u.remap = s.remap ∧ u.fuses = s.fuses ∧ u.media.list = s.media.list
  mem : (∀ r : RepairRecord, s.maint.op = .repair r → r.phase ≠ .copying) → u.mem = s.mem
  locks : ∀ b : Bank, (u.bank b).lockHolder = none
  port : ∀ p : Port, u.engine p = stopping s p ∧ u.outp p = stoppingOuts s p

theorem entered (s : State) : Entered s (stopsBegun s) := by
  obtain ⟨bk, op, m, c, e, -, -, -, hquiet⟩ := resetEntry_spec s
  have hlocks := resetEntry_locks s
  unfold stopsBegun
  generalize resetEntry s = v at e hlocks
  obtain ⟨hport, hrest⟩ := beginStops_spec v
  generalize allPorts.foldl State.beginStop v = u at hport hrest
  obtain ⟨en, ou, rfl⟩ : ∃ en ou, u = { v with engines := en, outs := ou } :=
    ⟨u.engines, u.outs, (congrArg (fun t : State => { t with engines := u.engines, outs := u.outs }) hrest :)⟩
  subst e
  exact ⟨rfl, rfl, rfl, rfl, rfl, rfl, ⟨rfl, rfl, rfl⟩, fun h => (hquiet h).1, hlocks, hport⟩

theorem entered_inert {s : State} (h : ∀ p : Port, s.outstanding p = 0) (p : Port) :
    (stopsBegun s).engine p = { atRest (s.engine p) .inert with attention := none } ∧
      (stopsBegun s).outp p = stoppedOuts (s.outp p) := by
  obtain ⟨he, ho⟩ := (entered s).port p
  exact ⟨he.trans (if_pos (h p)), ho.trans (if_pos (h p))⟩

/-- With nothing outstanding a reset ends in its own step. -/
theorem enterReset_ends {s : State} (h : ∀ p : Port, s.outstanding p = 0) :
    ResetEnds (stopsBegun s) s.enterReset.schedule.transmit :=
  resetEnds (by rw [(entered s).part]) fun p => by rw [(entered_inert h p).1]; rfl

/-! ### A burst's end in RESETTING (R82, R173) -/

/-- What the result of a port's burst does in RESETTING: the half is free, and the engine stops with its last access. -/
structure Discarded (s t : State) (p : Port) : Prop where
  rest : { t with engines := s.engines, outs := s.outs } = s
  stopped : s.outstanding p = 0 → (t.engine p).state = .inert ∧ t.outp p = stoppedOuts (s.outp p)
  stands : s.outstanding p ≠ 0 → (t.engine p).state = (s.engine p).state ∧ t.outp p = s.outp p
  other : ∀ q : Port, q ≠ p → t.engine q = s.engine q ∧ t.outp q = s.outp q

theorem portResult_discarded {s : State} (hr : s.part.state = .resetting) (p : Port) (tag : Tag) (a : Access)
    (rs : List WordResult) : Discarded s (s.portResult p tag a rs) p := by
  obtain ⟨hl, e⟩ : ∃ hl, s.freeHalf p a.burst = s.setEngine p { s.engine p with halves := hl } := ⟨_, rfl⟩
  have result : s.portResult p tag a rs =
      if s.outstanding p = 0 then (s.setEngine p { s.engine p with halves := hl }).stopPort p
      else s.setEngine p { s.engine p with halves := hl } := by
    rw [← e]
    exact if_pos hr
  rw [result]
  generalize hu : s.setEngine p { s.engine p with halves := hl } = u
  have engine : u.engine p = { s.engine p with halves := hl } := by rw [← hu, State.engine_self]
  have other (q : Port) (hq : q ≠ p) : u.engine q = s.engine q ∧ u.outp q = s.outp q := by
    rw [← hu]
    exact ⟨State.engine_other _ _ _ q hq, rfl⟩
  by_cases h : s.outstanding p = 0
  · rw [if_pos h]
    obtain ⟨se, so, sother, srest⟩ := stopPort_spec u p
    refine ⟨?_, fun _ => ⟨by rw [se]; rfl, ?_⟩, fun k => absurd h k, fun q hq => ?_⟩
    · rw [← hu] at srest ⊢
      exact (congrArg (fun t : State => { t with engines := s.engines }) srest :)
    · rw [so, ← hu]
      rfl
    · obtain ⟨k, l⟩ := sother q hq
      rw [k, l]
      exact other q hq
  · rw [if_neg h]
    refine ⟨by rw [← hu]; rfl, fun k => absurd k h, fun _ => ⟨by rw [engine], by rw [← hu]; rfl⟩, other⟩

/-- A state with another Media Monitor, Notice Unit and free counter. -/
def reporting (s : State) (md : Media) (nt : NoticeUnit) (fc : Nat) : State :=
  { s with media := md, notices := nt, freeCtr := fc }

theorem portResult_reporting {s : State} (hr : s.part.state = .resetting) (p : Port) (tag : Tag) (a : Access)
    (rs : List WordResult) (md : Media) (nt : NoticeUnit) (fc : Nat) :
    (reporting s md nt fc).portResult p tag a rs = reporting (s.portResult p tag a rs) md nt fc := by
  have one (u : State) (hu : u.part.state = .resetting) : u.portResult p tag a rs =
      if u.outstanding p = 0 then (u.freeHalf p a.burst).stopPort p else u.freeHalf p a.burst := if_pos hu
  rw [one (reporting s md nt fc) hr, one s hr]
  by_cases h : s.outstanding p = 0
  · rw [if_pos h]
    exact if_pos h
  · rw [if_neg h]
    exact if_neg h

/-- In RESETTING the result of a port's burst is discarded, whatever its report. -/
theorem deliver_discarded {s : State} (hr : s.part.state = .resetting) {p : Port} {tag : Tag} {a : Access}
    (hc : a.client = .port p tag) (rs : List WordResult) :
    ∃ md nt fc, s.deliver a rs = reporting (s.portResult p tag a rs) md nt fc := by
  have client (u : State) : u.clientResult a rs = u.portResult p tag a rs := by
    unfold State.clientResult
    rw [hc]
  have scrub : a.client.isScrub = false := by rw [hc]; rfl
  have report (u : State) : ∃ md nt, u.report a rs = reporting u md nt u.freeCtr :=
    ⟨(u.report a rs).media, (u.report a rs).notices,
      (congrArg (fun t : State => { t with media := (u.report a rs).media, notices := (u.report a rs).notices })
        (Reporting.report u a rs) :)⟩
  unfold State.deliver
  rw [scrub]
  split
  · rw [if_neg (by decide)]
    dsimp only
    split
    · obtain ⟨md, nt, e⟩ := report { s with freeCtr := s.freeCtr + 1 }
      rw [e, client]
      exact ⟨md, nt, s.freeCtr + 1, portResult_reporting hr p tag a rs md nt (s.freeCtr + 1)⟩
    · rw [client]
      have counted := portResult_reporting hr p tag a rs s.media s.notices (s.freeCtr + 1)
      obtain ⟨md, nt, e⟩ := report ((reporting s s.media s.notices (s.freeCtr + 1)).portResult p tag a rs)
      refine ⟨md, nt, s.freeCtr + 1, e.trans ?_⟩
      rw [counted]
      rfl
  · rw [client]
    exact ⟨s.media, s.notices, s.freeCtr, portResult_reporting hr p tag a rs s.media s.notices s.freeCtr⟩

theorem flying_split {s : State} {a : Access} (h : s.flying = some a) : ∃ before after : List Access,
    s.accesses = before ++ a :: after ∧ dropFirst Access.isInFlight s.accesses = before ++ after := by
  obtain ⟨ha, before, after, e, hb⟩ := List.find?_eq_some_iff_append.1 h
  refine ⟨before, after, e, ?_⟩
  rw [e]
  exact dropFirst_append (fun x hx => by simpa using hb x hx) ha

/-- At the result of a port's burst in RESETTING: its access has left the list, and no lock is placed. -/
theorem atResult_resetting {s : State} (hr : s.part.state = .resetting) {a : Access} (hf : s.flying = some a) {p : Port} {tag : Tag}
    (hc : a.client = .port p tag) (decay : List Decay) (lines : PortLines) :
    (∃ bk m pins ac, atResult s decay lines a = { s with banks := bk, mem := m, pins := pins, accesses := ac }) ∧
      (atResult s decay lines a).outstanding p + 1 = s.outstanding p := by
  obtain ⟨bk, e⟩ := countHit_banks s a
  have placed : atResult s decay lines a = { s.countHit a with
      mem := (State.perform { s with mem := s.mem.decay decay } a).1, pins := (s.sample lines).pins,
      accesses := dropFirst Access.isInFlight s.accesses } := by
    refine State.placeLock_none (.inl ?_)
    rw [e]
    exact hr
  rw [placed, e]
  refine ⟨⟨_, _, _, _, rfl⟩, ?_⟩
  obtain ⟨before, after, hacc, hdrop⟩ := flying_split hf
  have port : a.client.isPort p = true := by rw [hc]; simp [Client.isPort]
  have count : s.outstanding p = ((before ++ a :: after).filter fun x => x.client.isPort p).length := by rw [← hacc]; rfl
  rw [count, hdrop]
  show ((before ++ after).filter fun x => x.client.isPort p).length + 1 = _
  simp [port]
  omega

/-- The end of a burst of a port in RESETTING, up to the end of the reset. -/
theorem burst_discarded {s : State} (hr : s.part.state = .resetting) {a : Access} (hf : s.flying = some a) {p : Port} {tag : Tag}
    (hc : a.client = .port p tag) (decay : List Decay) (lines : PortLines) :
    ∃ u : State, exec (.burstComplete decay lines) s = .next (afterResult u) ∧
      u.part = s.part ∧ u.jobs = s.jobs ∧ u.queues = s.queues ∧ u.proc = s.proc ∧ u.link = s.link ∧
      u.settings = s.settings ∧ u.remap = s.remap ∧ u.fuses = s.fuses ∧
      (s.outstanding p = 1 → (u.engine p).state = .inert ∧ u.outp p = stoppedOuts (s.outp p)) ∧
      (2 ≤ s.outstanding p → (u.engine p).state = (s.engine p).state) ∧
      ∀ q : Port, q ≠ p → u.engine q = s.engine q ∧ u.outp q = s.outp q := by
  obtain ⟨⟨bk, m, pins, ac, e⟩, hcount⟩ := atResult_resetting hr hf hc decay lines
  have run := exec_burstComplete (decay := decay) (lines := lines) hf
  generalize (State.perform { s with mem := s.mem.decay decay } a).2 = rs at run
  generalize atResult s decay lines a = v at e hcount run
  have hv : v.part.state = .resetting := by rw [e]; exact hr
  obtain ⟨md, nt, fc, hdeliver⟩ := deliver_discarded hv hc rs
  have discarded := portResult_discarded hv p tag a rs
  rw [hdeliver] at run
  refine ⟨_, run, ?_⟩
  generalize v.portResult p tag a rs = w at discarded
  obtain ⟨hrest, hstop, hstand, hother⟩ := discarded
  obtain ⟨en, ou, rfl⟩ : ∃ en ou, w = { v with engines := en, outs := ou } :=
    ⟨w.engines, w.outs, (congrArg (fun t : State => { t with engines := w.engines, outs := w.outs }) hrest :)⟩
  have before (q : Port) : v.engine q = s.engine q ∧ v.outp q = s.outp q := by
    rw [e]
    exact ⟨rfl, rfl⟩
  rw [(before p).1, (before p).2] at hstand
  rw [(before p).2] at hstop
  subst e
  refine ⟨rfl, rfl, rfl, rfl, rfl, rfl, rfl, rfl, fun h => hstop (by omega), fun h => (hstand (by omega)).1, fun q hq => ?_⟩
  exact hother q hq

theorem sleepEntry_off {s : State} (h : s.part.sleepEntry = false) : s.endSleepEntry = s := by
  unfold State.endSleepEntry State.sleepReady
  rw [h]
  rfl

theorem afterResult_awake {u : State} (h : u.endReset.schedule.part.sleepEntry = false) :
    afterResult u = u.endReset.schedule.transmit := by
  unfold afterResult
  rw [sleepEntry_off h]

/-! ### The entry and the end, stage by stage -/

theorem enterReset_stages (s : State) : s.enterReset =
    (((((resetEntry s).beginStop 0).beginStop 1).beginStop 2).beginStop 3).endReset := by
  rw [enterReset_eq]
  generalize resetEntry s = v
  rfl

theorem endReset_stages {s : State} (hr : s.part.state = .resetting) (hi : ∀ p : Port, (s.engine p).state = .inert) :
    ∃ w : State, w.part = { (jobsDropped s).admitWaiting.part with state := .ready } ∧
      (∀ p : Port, (s.portSettings p).enable = true →
        w.engine p = atRest ((jobsDropped s).admitWaiting.engine p) .idle ∧
          w.outp p = { (jobsDropped s).admitWaiting.outp p with sel := 0 }) ∧
      (∀ p : Port, (s.portSettings p).enable = false →
        w.engine p = (jobsDropped s).admitWaiting.engine p ∧ w.outp p = (jobsDropped s).admitWaiting.outp p) ∧
      { w with part := (jobsDropped s).admitWaiting.part, engines := (jobsDropped s).admitWaiting.engines,
               outs := (jobsDropped s).admitWaiting.outs } = (jobsDropped s).admitWaiting ∧
      s.endReset = w.scrubAdvance.endExecution .ok [] := by
  have rest := (Admits.admitWaiting (jobsDropped_queues s)).rest
  have ends := endReset_ends hr hi
  generalize (jobsDropped s).admitWaiting = v at rest ends ⊢
  have settings (p : Port) : v.portSettings p = s.portSettings p :=
    (congrArg (fun t : State => t.portSettings p) rest :)
  generalize hz : ({ v with part := { v.part with state := .ready } } : State) = z at ends
  obtain ⟨hon, hoff, en, ou, hready⟩ := readyEngines_spec z
  have zsettings (p : Port) : z.portSettings p = s.portSettings p := by
    rw [← hz]
    exact settings p
  refine ⟨z.readyEngines, ?_, fun p hp => ?_, fun p hp => ?_, ?_, ends⟩
  · rw [hready, ← hz]
  · rw [← zsettings] at hp
    rw [(hon p hp).1, (hon p hp).2, ← hz]
    exact ⟨rfl, rfl⟩
  · rw [← zsettings] at hp
    rw [(hoff p hp).1, (hoff p hp).2, ← hz]
    exact ⟨rfl, rfl⟩
  · rw [hready, ← hz]

/-! ### The rows -/

/-- The request as it begins to hold the processor. -/
def begun (s : State) (r : Request) (rest : List Request) (w : Work) : State := (s.withIntake rest).beginExecution r w

section EngineReset
variable {s : State} {r : Request} {rest : List Request}

theorem exec_engineReset (h : AtHead s r rest) (hp : r.payload = [0x50]) :
    exec .engineReset s = .next ((s.withIntake rest).doEngineReset r).transmit :=
  engineReset_runsAs.run h (by simp [Request.code, hp]) (by simp [lengthOk, Request.code, hp])

theorem exec_engineReset_ready (h : AtHead s r rest) (hp : r.payload = [0x50]) (hs : s.part.state = .ready) :
    exec .engineReset s = .next (begun s r rest .engineReset).enterReset.schedule.transmit := by
  have run : (s.withIntake rest).doEngineReset r = (begun s r rest .engineReset).enterReset.schedule := by
    unfold State.doEngineReset
    rw [show (s.withIntake rest).part.state = .ready from hs]
    rfl
  rw [exec_engineReset h hp, run]

/-- With nothing outstanding the reset ends in the request's own step. -/
theorem engineReset_quiet (h : AtHead s r rest) (hp : r.payload = [0x50]) (hs : s.part.state = .ready)
    (hq : ∀ p : Port, s.outstanding p = 0) : ∃ t : State, exec .engineReset s = .next t ∧ t.part.state = .ready ∧ t.jobs = [] ∧
      (∀ p : Port, t.queueOf p = [] ∧ (t.engine p).halves = [] ∧ (t.engine p).activeJob = none ∧
        (t.engine p).attention = none ∧ (t.engine p).faultMark = none ∧
        (t.engine p).state = (if (s.portSettings p).enable then .idle else .inert) ∧
        (t.outp p).xack = false ∧ (t.outp p).sel = 0 ∧ (t.outp p).d = .off ∧
        (t.outp p).pclrPulses = (s.outp p).pclrPulses + 1 ∧ (t.outp p).pclrSel = 0) ∧
      (∀ b : Bank, (t.bank b).lockHolder = none) ∧ (∀ n ∈ t.notices.outbox, isJobEnd n.body = false) ∧
      Made t { seq := r.seq, payload := [0x50, 0x00] } ∧ t.settings = s.settings ∧ t.remap = s.remap ∧
      t.fuses = s.fuses ∧ t.media.list = s.media.list ∧
      ((∀ x : RepairRecord, s.maint.op = .repair x → x.phase ≠ .copying) → t.mem = s.mem) := by
  have ends := enterReset_ends (s := begun s r rest .engineReset) hq
  have start := entered (begun s r rest .engineReset)
  have inert := entered_inert (s := begun s r rest .engineReset) hq
  refine ⟨_, exec_engineReset_ready h hp hs, ?_⟩
  generalize (begun s r rest .engineReset).enterReset.schedule.transmit = t at ends
  generalize stopsBegun (begun s r rest .engineReset) = u at ends start inert
  obtain ⟨hpart, hjobs, hqueue, hengine, houtp, hbodies, hlocks, hsettings, ⟨hremap, hfuses, hlist, hmem⟩, hanswer⟩ := ends
  obtain ⟨-, -, uproc, -, -, usettings, ⟨uremap, ufuses, ulist⟩, umem, ulocks, -⟩ := start
  have settings (p : Port) : u.portSettings p = s.portSettings p := by
    unfold State.portSettings
    rw [usettings]
    rfl
  refine ⟨by rw [hpart], hjobs, fun p => ?_, fun b => (hlocks b).trans (ulocks b), hbodies, ?_, hsettings.trans usettings,
    hremap.trans uremap, hfuses.trans ufuses, hlist.trans ulist, fun hn => hmem.trans (umem hn)⟩
  · obtain ⟨x, hor, ht⟩ := hengine p
    obtain ⟨ie, io⟩ := inert p
    have none : x = none := by
      rcases hor with rfl | rfl
      · rw [ie]
      · rfl
    have ho := houtp p
    rw [settings, ie, none] at ht
    rw [settings, io] at ho
    rw [ht, ho]
    refine ⟨hqueue p, ?_⟩
    split <;> exact ⟨rfl, rfl, rfl, rfl, rfl, rfl, rfl, rfl, rfl, rfl⟩
  · have hcode : r.code = 0x50 := by simp [Request.code, hp]
    have made := (hanswer { seq := r.seq, code := r.code, work := .engineReset, discard := false } (by rw [uproc]; rfl)).2.1 rfl
    rw [hcode] at made
    exact made

/-- An engine with accesses outstanding keeps the part RESETTING. -/
theorem engineReset_waits (h : AtHead s r rest) (hp : r.payload = [0x50]) (hs : s.part.state = .ready) {p : Port}
    (ho : 0 < s.outstanding p) (hi : (s.engine p).state ≠ .inert) : ∃ t : State, exec .engineReset s = .next t ∧
      t.part.state = .resetting ∧ Holds t r rest .engineReset ∧
      (t.engine p).state = (s.engine p).state ∧ (∀ h ∈ (t.engine p).halves, ∃ k, h = .awaiting k) ∧
      (t.engine p).attention = none ∧ t.accesses.map posted = s.accesses.map posted ∧
      (∀ b : Bank, (t.bank b).lockHolder = none) ∧ t.jobs = s.jobs := by
  have start := entered (begun s r rest .engineReset)
  have engine : (stopsBegun (begun s r rest .engineReset)).engine p = { s.engine p with
      halves := onlyAwaiting (s.engine p).halves, nextBurst := none, faultMark := none, attention := none } :=
    (start.port p).1.trans (if_neg (Nat.ne_of_gt ho))
  have stands : (begun s r rest .engineReset).enterReset = stopsBegun (begun s r rest .engineReset) :=
    (enterReset_eq _).trans (endReset_stands (s := stopsBegun _) (.inr ⟨p, by rw [engine]; exact hi⟩))
  refine ⟨_, exec_engineReset_ready h hp hs, ?_⟩
  rw [stands]
  generalize stopsBegun (begun s r rest .engineReset) = u at start engine
  obtain ⟨⟨ac, bk, op, fc, e⟩, hacc, hlocks⟩ := Scheduled.schedule u
  obtain ⟨lk, pr, nt, ht⟩ := Outward.transmit u.schedule
  obtain ⟨-, hintake, -, hexec, -⟩ := State.transmit_keeps u.schedule
  have tengine : u.schedule.transmit.engine p = u.engine p := by rw [ht, e]; rfl
  rw [tengine, engine]
  refine ⟨?_, ⟨hexec.trans ?_, hintake.trans ?_⟩, rfl, fun h hh => mem_onlyAwaiting hh, rfl, ?_, fun b => ?_, ?_⟩
  · rw [ht, e, start.part]
  · rw [e, start.proc]
    rfl
  · rw [e, start.link]
    rfl
  · have hac : u.schedule.transmit.accesses = u.schedule.accesses := by rw [ht]
    rw [hac, hacc, start.accesses]
    rfl
  · rw [transmit_bank, hlocks, start.locks]
  · rw [ht, e, start.jobs]
    rfl

end EngineReset

/-- The end of a burst of a port in RESETTING (R82, R173). -/
theorem burst_resetting {s : State} {decay : List Decay} {lines : PortLines} {a : Access} {p : Port} {tag : Tag}
    (hr : s.part.state = .resetting) (hsleep : s.part.sleepEntry = false) (hf : s.flying = some a)
    (hc : a.client = .port p tag) : ∃ t : State, exec (.burstComplete decay lines) s = .next t ∧
      (((2 ≤ s.outstanding p ∧ (s.engine p).state ≠ .inert) ∨ ∃ q : Port, q ≠ p ∧ (s.engine q).state ≠ .inert) →
        t.part = s.part ∧ t.jobs = s.jobs ∧ t.queues = s.queues ∧ t.proc.executing = s.proc.executing ∧
        t.link.cache = s.link.cache) ∧
      ∀ x : Execution, s.outstanding p = 1 → (∀ q : Port, q ≠ p → (s.engine q).state = .inert) →
        s.proc.executing = some x → s.proc.held = none →
        t.part = { s.part with state := .ready } ∧ t.jobs = [] ∧
        (∀ q : Port, t.queueOf q = [] ∧ (t.outp q).sel = (if q = p ∨ (s.portSettings q).enable then 0 else (s.outp q).sel) ∧
          (t.engine q).state = (if (s.portSettings q).enable then .idle else .inert)) ∧
        (t.outp p).pclrPulses = (s.outp p).pclrPulses + 1 ∧ (t.outp p).xack = false ∧
        (∀ n ∈ t.notices.outbox, isJobEnd n.body = false) ∧ t.proc.executing = none ∧
        (x.discard = false → Made t { seq := x.seq, payload := [x.code, 0x00] }) ∧
        (x.discard = true → t.link.cache = s.link.cache) ∧
        t.settings = s.settings ∧ t.remap = s.remap ∧ t.fuses = s.fuses := by
  obtain ⟨u, run, upart, ujobs, uqueues, uproc, ulink, usettings, uremap, ufuses, ulast, ustands, uother⟩ :=
    burst_discarded hr hf hc decay lines
  refine ⟨_, run, fun hbusy => ?_, fun x hone hinert hx _ => ?_⟩
  · have stands : u.endReset = u := by
      refine endReset_stands (.inr ?_)
      rcases hbusy with ⟨htwo, hp⟩ | ⟨q, hq, hn⟩
      · exact ⟨p, by rw [ustands htwo]; exact hp⟩
      · exact ⟨q, by rw [(uother q hq).1]; exact hn⟩
    obtain ⟨⟨ac, bk, op, fc, e⟩, -, -⟩ := Scheduled.schedule u
    have awake : u.endReset.schedule.part.sleepEntry = false := by rw [stands, e, upart]; exact hsleep
    rw [afterResult_awake awake, stands]
    obtain ⟨lk, pr, nt, ht⟩ := Outward.transmit u.schedule
    obtain ⟨-, -, hcache, hexec, -⟩ := State.transmit_keeps u.schedule
    refine ⟨?_, ?_, ?_, hexec.trans ?_, hcache.trans ?_⟩
    · rw [ht, e, upart]
    · rw [ht, e, ujobs]
    · rw [ht, e, uqueues]
    · rw [e, uproc]
    · rw [e, ulink]
  · obtain ⟨lastEngine, lastOutp⟩ := ulast hone
    have inert (q : Port) : (u.engine q).state = .inert := by
      by_cases hq : q = p
      · rw [hq]
        exact lastEngine
      · rw [(uother q hq).1]
        exact hinert q hq
    have ends := resetEnds (by rw [upart]; exact hr) inert
    obtain ⟨hpart, hjobs, hqueue, hengine, houtp, hbodies, -, hsettings, ⟨hremap, hfuses, -, -⟩, hanswer⟩ := ends
    have tpart : u.endReset.schedule.part = u.endReset.schedule.transmit.part := by
      obtain ⟨lk, pr, nt, ht⟩ := Outward.transmit u.endReset.schedule
      rw [ht]
    have awake : u.endReset.schedule.part.sleepEntry = false := by rw [tpart, hpart, upart]; exact hsleep
    rw [afterResult_awake awake]
    generalize u.endReset.schedule.transmit = t at *
    have settings (q : Port) : u.portSettings q = s.portSettings q := by
      unfold State.portSettings
      rw [usettings]
    obtain ⟨hfree, hmade, hcache⟩ := hanswer x (by rw [uproc]; exact hx)
    refine ⟨by rw [hpart, upart], hjobs, fun q => ⟨hqueue q, ?_, ?_⟩, ?_, ?_, hbodies, hfree, hmade,
      fun hd => (hcache hd).trans (by rw [ulink]), hsettings.trans usettings, hremap.trans uremap, hfuses.trans ufuses⟩
    · rw [houtp, settings]
      by_cases hq : q = p
      · refine Eq.trans ?_ (if_pos (.inl hq)).symm
        rw [hq, lastOutp]
        split <;> rfl
      · rw [(uother q hq).2]
        simp only [hq, false_or]
        split <;> rfl
    · obtain ⟨y, -, ht⟩ := hengine q
      rw [ht, settings]
      split
      · rfl
      · exact inert q
    · rw [houtp, lastOutp]
      split <;> rfl
    · rw [houtp, lastOutp]
      split <;> rfl

/-- Settles O39: the entry, the stopping of the engines and the end by their equations; a request and a burst's end by what the end
does. -/
theorem engineResetByPartState : Obligations.EngineResetByPartState := by
  unfold Obligations.EngineResetByPartState
  refine ⟨⟨fun s => ?_, fun s p => ⟨beginStop_busy, beginStop_idle⟩, fun s => ⟨endReset_stands, fun hr hi => ?_⟩, endExecution_ok,
    fun s hs ht => ?_, fun s v r rest h hp hs hv => ?_⟩, fun s r rest h hp => ⟨fun hs => ?_, fun hs => ?_, fun hs => ?_,
      engineReset_quiet h hp, fun hs p => engineReset_waits h hp hs⟩,
    fun s decay lines a p tag => burst_resetting⟩
  · obtain ⟨bk, op, m, c, e, hgone, hstays, hcopy, hquiet⟩ := resetEntry_spec s
    refine ⟨resetEntry s, enterReset_stages s, ?_⟩
    generalize resetEntry s = v at e ⊢
    subst e
    exact ⟨rfl, rfl, rfl, rfl, hgone, hstays, hcopy, hquiet, rfl⟩
  · obtain ⟨w, hstages⟩ := endReset_stages hr hi
    exact ⟨(jobsDropped s).admitWaiting, w, rfl, hstages⟩
  · show execWakeComplete s = _
    unfold execWakeComplete
    rw [hs, ht]
  · rw [exec_engineReset_ready h hp hs, hv]
    rfl
  · have hcode : r.code = 0x50 := by simp [Request.code, hp]
    refine engineReset_runsAs.answers h hcode (by simp [lengthOk, hcode, hp]) (st := .starting) (fs := []) ?_
    show (s.withIntake rest).doEngineReset r = _
    unfold State.doEngineReset
    rw [show (s.withIntake rest).part.state = .starting from hs]
    rfl
  · refine ⟨(begun s r rest .engineReset).startWake .resetting, ?_, ⟨rfl, rfl⟩, rfl, rfl, rfl⟩
    rw [exec_engineReset h hp]
    unfold State.doEngineReset
    rw [show (s.withIntake rest).part.state = .sleeping from hs]
    rfl
  · refine ⟨{ begun s r rest .engineReset with part := { s.part with wakeTarget := some .resetting } }, ?_, ⟨rfl, rfl⟩, rfl, rfl⟩
    rw [exec_engineReset h hp]
    unfold State.doEngineReset
    rw [show (s.withIntake rest).part.state = .waking from hs]
    rfl

end Sys2Proof.Machine
end

