-- ==== Sys2Proof/Proofs/Wake.lean ====
section
/-! PROOF. WAKE by part state, and the end of a wake (R91, R171, R172). -/

namespace Sys2Proof.Machine

open Sys2Proof.Safety

-- One thread: the whole text is checked under a memory limit that holds a bounded number of thread stacks.
set_option Elab.async false

section Wake
variable {s : State} {r : Request} {rest : List Request}

theorem exec_wake (h : AtHead s r rest) (hp : r.payload = [0x52]) :
    exec .wake s = .next ((s.withIntake rest).doWake r).transmit :=
  wake_runsAs.run h (by simp [Request.code, hp]) (by simp [lengthOk, Request.code, hp])

theorem wake_answers {st : Status} (h : AtHead s r rest) (hp : r.payload = [0x52])
    (hst : (s.withIntake rest).doWake r = (s.withIntake rest).answer r st []) :
    AnswersOnly .wake s s rest { seq := r.seq, payload := [0x52, st.code] } :=
  wake_runsAs.answers h (by simp [Request.code, hp]) (by simp [lengthOk, Request.code, hp]) hst

end Wake

/-- The state at the end of a wake, a request that waits for it yet to be answered. -/
def woken (s : State) : State :=
  (({ s with part := { s.part with state := .ready, wakeTarget := none, wakeWaiting := false } } : State).readyEngines).scrubAdvance

theorem endWake_eq (s : State) : s.endWake = if s.part.wakeWaiting then (woken s).endExecution .ok [] else woken s := rfl

theorem woken_spec (s : State) :
    (∃ ac mt md en ou, woken s = { s with
      part := { s.part with state := .ready, wakeTarget := none, wakeWaiting := false }, accesses := ac, maint := mt,
      media := md, engines := en, outs := ou }) ∧
    (∀ p : Port, (s.portSettings p).enable = true → ((woken s).engine p).state = .idle ∧ ((woken s).outp p).sel = 0) ∧
    ∀ p : Port, (s.portSettings p).enable = false → (woken s).engine p = s.engine p ∧ (woken s).outp p = s.outp p := by
  unfold woken
  generalize hu : ({ s with part := { s.part with state := .ready, wakeTarget := none, wakeWaiting := false } } : State) = u
  obtain ⟨hon, hoff, en, ou, hready⟩ := readyEngines_spec u
  generalize u.readyEngines = y at hon hoff hready
  obtain ⟨ac, sc, mk, hscrub⟩ := scrubAdvance_eq y
  have port (p : Port) : y.scrubAdvance.engine p = y.engine p ∧ y.scrubAdvance.outp p = y.outp p := by
    rw [hscrub]
    exact ⟨rfl, rfl⟩
  have settings (p : Port) : u.portSettings p = s.portSettings p := by
    rw [← hu]
    rfl
  refine ⟨?_, fun p hp => ?_, fun p hp => ?_⟩
  · rw [hscrub, hready, ← hu]
    exact ⟨_, _, _, _, _, rfl⟩
  · rw [← settings] at hp
    rw [(port p).1, (port p).2, (hon p hp).1, (hon p hp).2]
    exact ⟨rfl, rfl⟩
  · rw [← settings] at hp
    rw [(port p).1, (port p).2, (hoff p hp).1, (hoff p hp).2, ← hu]
    exact ⟨rfl, rfl⟩

theorem endWake_rest (s : State) : { s.endWake with link := s.link, proc := s.proc } =
    { woken s with link := s.link, proc := s.proc } := by
  rw [endWake_eq]
  split
  · exact congrArg (fun t : State => { t with link := s.link, proc := s.proc }) (endExecution_rest (woken s) .ok [])
  · rfl

/-- A wake ends with target READY. -/
theorem wakeComplete_ready {s : State} (hs : s.part.state = .waking) (ht : s.part.wakeTarget = some .ready) :
    ∃ t : State, exec .wakeComplete s = .next t ∧
      t.part = { s.part with state := .ready, wakeTarget := none, wakeWaiting := false } ∧
      (∀ p : Port, (s.portSettings p).enable = true → (t.engine p).state = .idle ∧ (t.outp p).sel = 0) ∧
      (∀ p : Port, (s.portSettings p).enable = false → t.engine p = s.engine p ∧ t.outp p = s.outp p) ∧
      t.mem = s.mem ∧ t.jobs = s.jobs ∧ t.settings = s.settings ∧
      ∀ x : Execution, s.part.wakeWaiting = true → s.proc.executing = some x → x.discard = false → s.proc.held = none →
        t.proc.executing = none ∧ Made t { seq := x.seq, payload := [x.code, 0x00] } := by
  have run : exec .wakeComplete s = .next s.endWake.schedule.transmit := by
    show execWakeComplete s = _
    unfold execWakeComplete
    rw [hs, ht]
  refine ⟨_, run, ?_⟩
  have ended := endWake_eq s
  have rest := endWake_rest s
  obtain ⟨⟨ac, mt, md, en, ou, e⟩, hon, hoff⟩ := woken_spec s
  generalize s.endWake = v at ended rest
  generalize woken s = w at ended rest e hon hoff
  obtain ⟨lk, pr, hv⟩ : ∃ lk pr, v = { w with link := lk, proc := pr } :=
    ⟨v.link, v.proc, (congrArg (fun t : State => { t with link := v.link, proc := v.proc }) rest :)⟩
  obtain ⟨⟨ac', bk, op, fc, hsched⟩, -, -⟩ := Scheduled.schedule v
  generalize v.schedule = y at hsched
  obtain ⟨lk', pr', nt', hy⟩ := Outward.transmit y
  have engine (p : Port) : y.transmit.engine p = w.engine p ∧ y.transmit.outp p = w.outp p := by
    rw [hy, hsched, hv]
    exact ⟨rfl, rfl⟩
  refine ⟨?_, fun p hp => ?_, fun p hp => ?_, ?_, ?_, ?_, fun x hwait hx hd _ => ?_⟩
  · rw [hy, hsched, hv, e]
  · rw [(engine p).1, (engine p).2]
    exact hon p hp
  · rw [(engine p).1, (engine p).2]
    exact hoff p hp
  · rw [hy, hsched, hv, e]
  · rw [hy, hsched, hv, e]
  · rw [hy, hsched, hv, e]
  · rw [if_pos hwait] at ended
    have hwx : w.proc.executing = some x := by rw [e]; exact hx
    obtain ⟨ha, hq⟩ := endExecution_answered (st := .ok) (fs := []) hwx hd
    rw [← ended] at ha hq
    obtain ⟨hmade, hfree, -⟩ := answered_sent (t := y) ha hq (by rw [hsched]) (by rw [hsched])
    exact ⟨hfree, hmade⟩

/-- A wake ends with target RESETTING, nothing outstanding. -/
theorem wakeComplete_resetting {s : State} (hs : s.part.state = .waking) (ht : s.part.wakeTarget = some .resetting)
    (hq : ∀ p : Port, s.outstanding p = 0) : ∃ t : State, exec .wakeComplete s = .next t ∧ t.part.state = .ready ∧
      t.part.wakeTarget = none ∧ t.jobs = [] ∧ (∀ n ∈ t.notices.outbox, isJobEnd n.body = false) ∧
      ∀ x : Execution, s.proc.executing = some x → x.discard = false → s.proc.held = none →
        t.proc.executing = none ∧ Made t { seq := x.seq, payload := [x.code, 0x00] } := by
  have run : exec .wakeComplete s = .next s.enterReset.schedule.transmit := by
    show execWakeComplete s = _
    unfold execWakeComplete
    rw [hs, ht]
  refine ⟨_, run, ?_⟩
  have ends := enterReset_ends hq
  have start := entered s
  generalize stopsBegun s = u at ends start
  refine ⟨by rw [ends.part], by rw [ends.part, start.part], ends.jobs, ends.noJobEnds, fun x hx hd _ => ?_⟩
  obtain ⟨hfree, hmade, -⟩ := ends.answered x (by rw [start.proc]; exact hx)
  exact ⟨hfree, hmade hd⟩

/-- Settles O41: the request by the part's state, and the two ends of a wake. -/
theorem wakeByPartState : Obligations.WakeByPartState := by
  unfold Obligations.WakeByPartState
  refine ⟨fun s r rest h hp => ⟨fun hs => ?_, fun hs => ?_, fun hs => ?_, fun hs => ?_, fun hs => ?_⟩,
    fun s hs => ⟨wakeComplete_ready hs, wakeComplete_resetting hs⟩⟩
  · refine ⟨{ (begun s r rest .wake).startWake .ready with
      part := { s.part with state := .waking, wakeTarget := some .ready, wakeWaiting := true } }, ?_, ⟨rfl, rfl⟩, rfl, rfl, rfl⟩
    rw [exec_wake h hp]
    unfold State.doWake
    rw [show (s.withIntake rest).part.state = .sleeping from hs]
    rfl
  · refine ⟨{ begun s r rest .wake with part := { s.part with wakeWaiting := true } }, ?_, ⟨rfl, rfl⟩, rfl, rfl⟩
    rw [exec_wake h hp]
    unfold State.doWake
    rw [show (s.withIntake rest).part.state = .waking from hs]
    rfl
  · refine wake_answers (st := .ok) h hp ?_
    unfold State.doWake
    rw [show (s.withIntake rest).part.state = .ready from hs]
  · refine wake_answers (st := .starting) h hp ?_
    unfold State.doWake
    rw [show (s.withIntake rest).part.state = .starting from hs]
  · refine wake_answers (st := .busy) h hp ?_
    unfold State.doWake
    rw [show (s.withIntake rest).part.state = .resetting from hs]

end Sys2Proof.Machine
end

