-- ==== Sys2Proof/Proofs/Steady.lean ====
section
/-! PROOF. Of what a burst's result does, nothing moves a bank: the states of the banks stand through a port's turns, a lock, a
report and the result's handling (R28 to R37). -/

namespace Sys2Proof.Machine

open Sys2Proof.Safety

-- One thread: the whole text is checked under a memory limit that holds a bounded number of thread stacks.
set_option Elab.async false

/-- Every bank is in the state in which it was, whatever became of its lock. -/
def BanksStand (s t : State) : Prop := ∀ b : Bank, (t.bank b).state = (s.bank b).state

namespace BanksStand
variable {s t u : State}

theorem refl (s : State) : BanksStand s s := fun _ => rfl

theorem trans (h : BanksStand s t) (k : BanksStand t u) : BanksStand s u := fun b => (k b).trans (h b)

theorem of_banks (h : t.banks = s.banks) : BanksStand s t := fun b =>
  congrArg (fun bk : Vector BankRecord 16 => bk[b].state) h

theorem iterate {f : State → Option State} (h : ∀ s t, f s = some t → BanksStand s t) (n : Nat) (s : State) :
    BanksStand s (iterate f n s) := by
  induction n generalizing s with
  | zero => exact refl s
  | succ n ih =>
    rw [Machine.iterate]
    split
    · rename_i t ht
      exact (h s t ht).trans (ih t)
    · exact refl s

/-! ### Updates that touch no bank -/

theorem setEngine (s : State) (p : Port) (x : Engine) : BanksStand s (s.setEngine p x) := of_banks rfl
theorem setOutp (s : State) (p : Port) (x : Outs) : BanksStand s (s.setOutp p x) := of_banks rfl
theorem setQueue (s : State) (p : Port) (x : List Tag) : BanksStand s (s.setQueue p x) := of_banks rfl
theorem setHalves (s : State) (p : Port) (x : List Half) : BanksStand s (s.setHalves p x) := of_banks rfl
theorem setScrub (s : State) (x : Scrub) : BanksStand s (s.setScrub x) := of_banks rfl
theorem setOp (s : State) (x : MaintOp) : BanksStand s (s.setOp x) := of_banks rfl
theorem updateJob (s : State) (t : Tag) (f : Job → Job) : BanksStand s (s.updateJob t f) := of_banks rfl
theorem post (s : State) (x : Access) : BanksStand s (s.post x) := of_banks rfl
theorem postAll (s : State) (x : List Access) : BanksStand s (s.postAll x) := of_banks rfl
theorem restEngine (s : State) (p : Port) (x : EngineState) : BanksStand s (s.restEngine p x) := of_banks rfl
theorem notices (s : State) (x : NoticeUnit) : BanksStand s { s with notices := x } := of_banks rfl

/-! ### Locks -/

theorem unlock (s : State) (b : Bank) : BanksStand s (s.unlock b) := by
  intro c
  by_cases h : c = b
  · rw [h, State.unlock, State.bank_self]
  · rw [State.unlock, State.bank_other _ _ _ c h]

theorem releaseLocksOf (s : State) (t : Tag) : BanksStand s (s.releaseLocksOf t) := by
  intro b
  rw [State.releaseLocksOf_locks s t b]
  split <;> rfl

theorem breakLock (s : State) (b : Bank) : BanksStand s (s.breakLock b) := by
  intro c
  obtain ⟨hself, hother⟩ := breakLock_bank s b
  by_cases h : c = b
  · rw [h, hself]
    rfl
  · rw [hother c h]

theorem lockBank (s : State) (b : Bank) (t : Tag) : BanksStand s (s.lockBank b t) := by
  intro c
  obtain ⟨-, -, hsame, hnew, hother⟩ := State.lockBank_spec s b t
  by_cases hb : (s.bank b).lockHolder = some t
  · rw [hsame hb]
  · by_cases hc : c = b
    · rw [hc, (hnew hb).1]
    · by_cases k : (s.bank c).lockHolder = some t
      · rw [(hnew hb).2 c hc k]
      · rw [hother c hc k]

theorem placeLock (s : State) (a : Access) : BanksStand s (s.placeLock a) := by
  unfold State.placeLock
  split
  · exact refl s
  · split
    · exact refl s
    · split
      · dsimp only
        split
        · exact (lockBank s _ _).trans (breakLock _ _)
        · exact lockBank s _ _
      · exact refl s

/-! ### Notices -/

theorem reportJob (s : State) (p : Port) (n : Byte) : BanksStand s (s.reportJob p n) := by
  unfold State.reportJob
  split
  · exact refl s
  · exact (((updateJob _ _ _).trans (setQueue _ _ _)).trans (releaseLocksOf _ _)).trans (restEngine _ _ _)

theorem admitFrom (s : State) (x : Producer) : BanksStand s (s.admitFrom x) := by
  unfold State.admitFrom
  split
  · exact refl s
  · cases x with
    | job p => exact (of_banks rfl : BanksStand s (s.admitNotice _)).trans (reportJob (s.admitNotice _) p _)
    | attention p => exact (of_banks rfl : BanksStand s (s.admitNotice _)).trans (setEngine _ _ _)
    | scrub => exact (of_banks rfl : BanksStand s (s.admitNotice _)).trans (setScrub _ _)
    | repair => exact (of_banks rfl : BanksStand s (s.admitNotice _)).trans (setOp _ _)
    | partControl => exact of_banks rfl

theorem offer (s : State) (x : Producer) : BanksStand s (s.offer x) := by
  unfold State.offer
  split
  · exact admitFrom s x
  · exact notices s _

/-! ### A port's turns -/

theorem prefetch (s : State) (p : Port) (j : Job) : BanksStand s (s.prefetch p j) := by
  have one (s : State) : (s.prefetchOne p j).banks = s.banks := by
    unfold State.prefetchOne
    split
    · rfl
    · split <;> rfl
  exact of_banks ((one _).trans (one s))

theorem stopJob (s : State) (p : Port) (j : Job) (o : JobOutcome) (f : Option Nat) :
    BanksStand s (s.stopJob p j o f) := by
  unfold State.stopJob
  exact (((updateJob _ _ _).trans (releaseLocksOf _ _)).trans (setEngine _ _ _)).trans (postAll _ _)

theorem drainJob (s : State) (p : Port) (j : Job) (o : JobOutcome) : BanksStand s (s.drainJob p j o) := by
  unfold State.drainJob
  exact ((updateJob _ _ _).trans (setEngine _ _ _)).trans (postAll _ _)

theorem acknowledge (s : State) (p : Port) (j : Job) (n : Nat) : BanksStand s (s.acknowledge p j n) := by
  unfold State.acknowledge
  exact ((setOutp _ _ _).trans (setEngine _ _ _)).trans (updateJob _ _ _)

theorem checkMark (s : State) (p : Port) (j : Job) : BanksStand s (s.checkMark p j) := by
  unfold State.checkMark
  dsimp only
  split
  · exact stopJob s p j _ _
  · exact refl s

theorem afterUnit (s : State) (p : Port) (j : Job) (n : Nat) (x : Bool) : BanksStand s (s.afterUnit p j n x) := by
  unfold State.afterUnit
  split
  · exact drainJob s p j _
  · dsimp only
    exact ((setHalves _ _ _).trans (prefetch _ _ _)).trans (checkMark _ _ _)

theorem unitIn {p : Port} {j : Job} {r : UnitRequest} {n : Nat} (h : s.unitIn p j r n = some t) : BanksStand s t := by
  unfold State.unitIn at h
  dsimp only at h
  split at h
  · cases h
  · rename_i hs posted _
    have staged : BanksStand s (((s.acknowledge p j n).setHalves p hs).postAll posted) :=
      ((acknowledge _ _ _ _).trans (setHalves _ _ _)).trans (postAll _ _)
    split at h <;> obtain rfl := Option.some.inj h
    · exact staged.trans (drainJob _ _ _ _)
    · exact staged

theorem unitOut {p : Port} {j : Job} {r : UnitRequest} {n : Nat} (h : s.unitOut p j r n = some t) : BanksStand s t := by
  unfold State.unitOut at h
  split at h
  · cases h
  · obtain rfl := Option.some.inj h
    exact ((acknowledge _ _ _ _).trans (setOutp _ _ _)).trans (afterUnit _ _ _ _ _)

theorem unitCompare {p : Port} {j : Job} {r : UnitRequest} {n : Nat} (h : s.unitCompare p j r n = some t) :
    BanksStand s t := by
  unfold State.unitCompare at h
  split at h
  · cases h
  · dsimp only at h
    split at h <;> obtain rfl := Option.some.inj h
    · exact (acknowledge _ _ _ _).trans (afterUnit _ _ _ _ _)
    · exact ((acknowledge _ _ _ _).trans (updateJob _ _ _)).trans (stopJob _ _ _ _ _)

theorem unitCount {p : Port} {j : Job} {r : UnitRequest} {n : Nat} (h : s.unitCount p j r n = some t) : BanksStand s t := by
  unfold State.unitCount at h
  dsimp only at h
  split at h <;> obtain rfl := Option.some.inj h
  · exact (acknowledge _ _ _ _).trans (drainJob _ _ _ _)
  · exact acknowledge _ _ _ _

theorem takeUnit {p : Port} (h : s.takeUnit p = some t) : BanksStand s t := by
  unfold State.takeUnit at h
  split at h
  · split at h
    · cases h
    · split at h
      · obtain rfl := Option.some.inj h
        exact stopJob s p _ _ _
      · dsimp only at h
        split at h
        · exact unitIn h
        · exact unitOut h
        · exact unitCompare h
        · exact unitCount h
  · cases h

theorem holdJob (s : State) (p : Port) (j : Job) : BanksStand s (s.holdJob p j) := by
  unfold State.holdJob
  exact ((updateJob _ _ _).trans (releaseLocksOf _ _)).trans (setEngine _ _ _)

theorem finishJob (s : State) (p : Port) (j : Job) : BanksStand s (s.finishJob p j) := by
  unfold State.finishJob
  split
  · exact holdJob s p j
  · split
    · exact offer s _
    · exact (offer s _).trans (holdJob _ p j)

theorem finishIfDone {p : Port} (h : s.finishIfDone p = some t) : BanksStand s t := by
  unfold State.finishIfDone at h
  split at h
  · cases h
  · split at h
    · obtain rfl := Option.some.inj h
      refine trans ?_ (finishJob _ _ _)
      refine trans ?_ (setEngine _ _ _)
      split
      · exact setOutp _ _ _
      · exact refl s
    · cases h

theorem startHead {p : Port} (h : s.startHead p = some t) : BanksStand s t := by
  unfold State.startHead at h
  split at h
  · cases h
  · split at h
    · split at h <;> obtain rfl := Option.some.inj h
      · unfold State.startJob
        exact (((updateJob _ _ _).trans (setEngine _ _ _)).trans (setOutp _ _ _)).trans (prefetch _ _ _)
      · exact finishJob s p _
    · cases h

theorem portStep {p : Port} (h : State.portStep p s = some t) : BanksStand s t := by
  unfold State.portStep at h
  split at h
  · split at h
    · exact startHead h
    · exact takeUnit h
    · exact finishIfDone h
    · exact finishIfDone h
    · unfold State.offerHeld at h
      split at h
      · cases h
      · obtain rfl := Option.some.inj h
        exact offer s _
    · cases h
    · cases h
  · cases h

theorem portSettle (s : State) (p : Port) : BanksStand s (s.portSettle p) := iterate (fun _ _ => portStep) _ s

theorem markCorrected_banks (s : State) (t : Tag) (rs : List WordResult) : (s.markCorrected t rs).banks = s.banks := by
  unfold State.markCorrected
  split <;> rfl

theorem portRead (s : State) (p : Port) (j : Job) (a : Access) (rs : List WordResult) : BanksStand s (s.portRead p j a rs) := by
  have marked : BanksStand s (s.markCorrected j.tag rs) := of_banks (markCorrected_banks s _ rs)
  unfold State.portRead
  dsimp only
  split
  · exact (marked.trans (setEngine _ _ _)).trans (checkMark _ p j)
  · exact marked.trans (setHalves _ _ _)

theorem portWrite (s : State) (p : Port) (j : Job) (a : Access) (rs : List WordResult) : BanksStand s (s.portWrite p j a rs) := by
  have freed : BanksStand s ((s.markCorrected j.tag rs).freeHalf p a.burst) :=
    trans (of_banks (markCorrected_banks s _ rs)) (setHalves _ _ _)
  unfold State.portWrite
  dsimp only
  split
  · exact freed
  · split
    · exact freed.trans (stopJob _ p j _ _)
    · exact freed

theorem portResult {s : State} (hr : s.part.state = .ready) (p : Port) (tag : Tag) (a : Access) (rs : List WordResult) :
    BanksStand s (s.portResult p tag a rs) := by
  unfold State.portResult
  rw [if_neg (by rw [hr]; nofun)]
  split
  · exact setHalves _ _ _
  · split
    · exact (portRead s p _ a rs).trans (portSettle _ p)
    · exact (portWrite s p _ a rs).trans (portSettle _ p)

end BanksStand

/-! ### The result's handling in READY -/

/-- Of part control, the refresh unit and the banks' states, nothing is changed. -/
structure Steady (s t : State) : Prop where
  part : t.part = s.part
  refresh : t.refresh = s.refresh
  banks : BanksStand s t

namespace Steady
variable {s t u : State}

theorem refl (s : State) : Steady s s := ⟨rfl, rfl, BanksStand.refl s⟩

theorem trans (h : Steady s t) (k : Steady t u) : Steady s u :=
  ⟨k.part.trans h.part, k.refresh.trans h.refresh, h.banks.trans k.banks⟩

theorem setScrub (s : State) (x : Scrub) : Steady s (s.setScrub x) := ⟨rfl, rfl, BanksStand.setScrub s x⟩

theorem scrubAdvance (s : State) : Steady s s.scrubAdvance := by
  obtain ⟨_, _, _, e⟩ := scrubAdvance_eq s
  rw [e]
  exact ⟨rfl, rfl, .of_banks rfl⟩

theorem offer (s : State) (x : Producer) : Steady s (s.offer x) :=
  ⟨(Internal.offer s x).part, (Internal.offer s x).refresh, BanksStand.offer s x⟩

theorem endExecution (s : State) (st : Status) (fs : List Byte) : Steady s (s.endExecution st fs) := by
  have rest := endExecution_rest s st fs
  generalize s.endExecution st fs = t at rest
  obtain ⟨lk, pr, rfl⟩ : ∃ lk pr, t = { s with link := lk, proc := pr } :=
    ⟨t.link, t.proc, (congrArg (fun v : State => { v with link := t.link, proc := t.proc }) rest :)⟩
  exact ⟨rfl, rfl, .of_banks rfl⟩

theorem report (s : State) (a : Access) (rs : List WordResult) : Steady s (s.report a rs) := by
  have rest := Reporting.report s a rs
  generalize s.report a rs = t at rest
  obtain ⟨md, nt, rfl⟩ : ∃ md nt, t = { s with media := md, notices := nt } :=
    ⟨t.media, t.notices, (congrArg (fun v : State => { v with media := t.media, notices := t.notices }) rest :)⟩
  exact ⟨rfl, rfl, .of_banks rfl⟩

theorem linkResult (s : State) (a : Access) (rs : List WordResult) : Steady s (s.linkResult a rs) := by
  unfold State.linkResult
  split
  · unfold State.hostReadDone
    split
    · exact endExecution s _ _
    · dsimp only
      split
      · exact ⟨rfl, rfl, .of_banks rfl⟩
      · exact endExecution s _ _
  · unfold State.hostWriteDone
    split
    · exact endExecution s _ _
    · split
      · exact ⟨rfl, rfl, .of_banks rfl⟩
      · exact endExecution s _ _
  · exact refl s

theorem readyEngines (s : State) : Steady s s.readyEngines := by
  obtain ⟨-, -, en, ou, e⟩ := readyEngines_spec s
  rw [e]
  exact ⟨rfl, rfl, .of_banks rfl⟩

theorem endClear {s : State} (hr : s.part.state = .ready) : Steady s s.endClear := by
  have part : { s.part with state := .ready } = s.part := by rw [← hr]
  unfold State.endClear
  dsimp only
  generalize hu : ({ s.setOp .none with part := { s.part with state := .ready } } : State) = u
  have opened : Steady s u := by
    rw [← hu]
    exact ⟨part, rfl, .of_banks rfl⟩
  exact ((opened.trans (readyEngines u)).trans (offer _ _)).trans (scrubAdvance _)

theorem clearResult {s : State} (hr : s.part.state = .ready) : Steady s s.clearResult := by
  unfold State.clearResult
  split
  · split
    · exact ⟨rfl, rfl, .of_banks rfl⟩
    · split
      · exact ⟨rfl, rfl, .of_banks rfl⟩
      · exact endClear hr
  · exact refl s

theorem burstDone (s : State) : Steady s s.burstDone := by
  unfold State.burstDone
  dsimp only
  split
  · exact setScrub s _
  · split
    · exact setScrub s _
    · unfold State.endPass
      exact (setScrub _ _).trans (offer _ _)

theorem scrubResult (s : State) (a : Access) (rs : List WordResult) : Steady s (s.scrubResult a rs) := by
  unfold State.scrubResult
  split
  · exact (setScrub s _).trans (scrubAdvance _)
  · split
    · unfold State.scrubRead
      dsimp only
      split
      · exact ((setScrub s _).trans (burstDone _)).trans (scrubAdvance _)
      · exact ⟨rfl, rfl, .of_banks rfl⟩
    · exact (burstDone s).trans (scrubAdvance _)

theorem portResult {s : State} (hr : s.part.state = .ready) (p : Port) (tag : Tag) (a : Access) (rs : List WordResult) :
    Steady s (s.portResult p tag a rs) := by
  have inside : Internal s (s.portResult p tag a rs) := by
    have marked (j : Job) : Internal s (s.markCorrected j.tag rs) := by
      unfold State.markCorrected
      split
      · exact Internal.updateJob s _ _
      · exact Internal.refl s
    unfold State.portResult
    rw [if_neg (by rw [hr]; nofun)]
    split
    · exact Internal.setEngine s p _
    · rename_i j _
      split
      · refine Internal.trans ?_ (Internal.portSettle _ p)
        unfold State.portRead
        dsimp only
        split
        · exact ((marked j).trans (Internal.setEngine _ p _)).trans (Internal.checkMark _ p j)
        · exact (marked j).trans (Internal.setEngine _ p _)
      · refine Internal.trans ?_ (Internal.portSettle _ p)
        have freed : Internal s ((s.markCorrected j.tag rs).freeHalf p a.burst) := (marked j).trans (Internal.setEngine _ p _)
        unfold State.portWrite
        dsimp only
        split
        · exact freed
        · split
          · exact freed.trans (Internal.stopJob _ p j _ _)
          · exact freed
  exact ⟨inside.part, inside.refresh, BanksStand.portResult hr p tag a rs⟩

theorem clientResult {s : State} (hr : s.part.state = .ready) (a : Access) (rs : List WordResult) :
    Steady s (s.clientResult a rs) := by
  unfold State.clientResult
  split
  · exact portResult hr _ _ a rs
  · exact linkResult s a rs
  · exact clearResult hr
  · exact scrubResult s a rs

theorem deliver {s : State} (hr : s.part.state = .ready) (a : Access) (rs : List WordResult) : Steady s (s.deliver a rs) := by
  have counted : Steady s { s with freeCtr := s.freeCtr + 1 } := ⟨rfl, rfl, .of_banks rfl⟩
  have reported (u : State) (hu : Steady s u) : Steady s ((u.report a rs).clientResult a rs) := by
    have h := hu.trans (report u a rs)
    exact h.trans (clientResult (by rw [h.part, hr]) a rs)
  unfold State.deliver
  split
  · split
    · exact reported s (refl s)
    · dsimp only
      split
      · exact reported _ counted
      · exact (counted.trans (clientResult (s := { s with freeCtr := s.freeCtr + 1 }) hr a rs)).trans (report _ a rs)
  · exact clientResult hr a rs

theorem atResult (s : State) (decay : List Decay) (lines : PortLines) (a : Access) : Steady s (atResult s decay lines a) := by
  have count : BanksStand s (s.countHit a) := by
    unfold State.countHit
    split
    · intro b
      by_cases h : b = a.bank
      · rw [h, State.bank_self]
      · rw [State.bank_other _ _ _ b h]
    · exact BanksStand.refl s
  obtain ⟨bk, e⟩ := countHit_banks s a
  unfold Safety.atResult
  generalize hu : ({ s.countHit a with
    mem := (State.perform { s with mem := s.mem.decay decay } a).1, pins := (s.sample lines).pins,
    accesses := dropFirst Access.isInFlight s.accesses } : State) = u
  have before : Steady s u := by
    rw [← hu]
    exact ⟨by rw [e], by rw [e], count.trans (.of_banks rfl)⟩
  have placed : (u.placeLock a).part = u.part ∧ (u.placeLock a).refresh = u.refresh := by
    have inside : Internal u (u.placeLock a) := by
      unfold State.placeLock
      split
      · exact Internal.refl u
      · rename_i t _
        split
        · exact Internal.refl u
        · split
          · obtain ⟨bk, e⟩ := (State.lockBank_spec u a.bank t).1
            have locked : Internal u (u.lockBank a.bank t) := by
              rw [e]
              exact ⟨_, _, _, _, _, _, _, _, _, _, rfl⟩
            dsimp only
            split
            · exact locked.trans (Internal.breakLock _ _)
            · exact locked
          · exact Internal.refl u
    exact ⟨inside.part, inside.refresh⟩
  exact before.trans ⟨placed.1, placed.2, BanksStand.placeLock u a⟩

end Steady

end Sys2Proof.Machine
end

