-- ==== Sys2Proof/Proofs/Sleep.lean ====
section
/-! PROOF. Sleep entry and its end (R91, R169, R170). -/

namespace Sys2Proof.Machine

open Sys2Proof.Safety

-- One thread: the whole text is checked under a memory limit that holds a bounded number of thread stacks.
set_option Elab.async false

theorem sleep_runsAs : RunsAs anyLines .sleep 0x51 fun r s => s.doSleep r := fun _ => rfl

/-! ### The end of sleep entry -/

theorem endSleepEntry_awake {s : State} (h : ¬MaySleep s) : s.endSleepEntry = s := if_neg (mt State.sleepReady_iff.1 h)

/-- The part asleep, its request yet to be answered. -/
def asleep (s : State) : State :=
  { s with refresh := { s.refresh with tick := none }, part := { s.part with state := .sleeping, sleepEntry := false } }

theorem endSleepEntry_asleep {s : State} (h : MaySleep s) : s.endSleepEntry = (asleep s).endExecution .ok [] :=
  if_pos (State.sleepReady_iff.2 h)

theorem endSleepEntry_rest (s : State) :
    { s.endSleepEntry with part := s.part, refresh := s.refresh, link := s.link, proc := s.proc } = s := by
  by_cases h : MaySleep s
  · rw [endSleepEntry_asleep h]
    exact congrArg (fun t : State => { t with part := s.part, refresh := s.refresh }) (endExecution_rest (asleep s) .ok [])
  · rw [endSleepEntry_awake h]

theorem endSleepEntry_steps {s : State} (h : MaySleep s) : s.endSleepEntry.part = (asleep s).part ∧
    s.endSleepEntry.refresh = (asleep s).refresh := by
  have rest := endExecution_rest (asleep s) .ok []
  rw [endSleepEntry_asleep h]
  generalize asleep s = u at rest ⊢
  exact ⟨(congrArg State.part rest :), (congrArg State.refresh rest :)⟩

/-! ### One turn of the scheduler during sleep entry -/

theorem maySleep_of_schedule {s : State} (h : MaySleep s.schedule) : MaySleep s := by
  obtain ⟨hentry, hacc, hbanks, hdebts⟩ := h
  have moves (b : Bank) := schedule_moves s b
  obtain ⟨⟨ac, bk, op, fc, e⟩, hposted, -⟩ := Scheduled.schedule s
  generalize s.schedule = t at *
  have entry : t.part = s.part := by rw [e]
  have group (g : Group) : t.group g = s.group g := by rw [e]; rfl
  refine ⟨entry ▸ hentry, ?_, fun b => ?_, fun g => (group g) ▸ hdebts g⟩
  · rw [hacc] at hposted
    simpa using hposted.symm
  · have h := moves b
    rw [hbanks b] at h
    rcases h with h | ⟨w, -, h⟩ | ⟨h, -⟩
    · exact h.symm
    · cases h
    · exact h

/-- With no maintenance operation nothing asks for a bank of a part that may sleep. -/
theorem maySleep_schedule {s : State} (hop : s.maint.op = .none) (h : MaySleep s) : MaySleep s.schedule := by
  obtain ⟨hentry, hacc, hbanks, hdebts⟩ := h
  have moves (b : Bank) := schedule_moves s b
  obtain ⟨⟨ac, bk, op, fc, e⟩, hposted, -⟩ := Scheduled.schedule s
  generalize s.schedule = t at *
  have entry : t.part = s.part := by rw [e]
  have group (g : Group) : t.group g = s.group g := by rw [e]; rfl
  refine ⟨by rw [entry]; exact hentry, ?_, fun b => ?_, fun g => by rw [group]; exact hdebts g⟩
  · rw [hacc] at hposted
    simpa using hposted
  · have h := moves b
    rw [hbanks b] at h
    refine h.closed (fun k => ?_) (by rw [hdebts]; decide) fun k => ?_
    · rcases k with ⟨k, -⟩ | ⟨r, k, -⟩ <;> rw [hop] at k <;> cases k
    · unfold Asked at k
      rw [hacc] at k
      cases k

/-- What follows a change in the array that may have ended sleep entry. -/
def afterArray (s : State) : State := s.schedule.endSleepEntry.transmit

theorem afterArray_frame (s : State) : (∃ ac bk op fc lk pr nt pt rf, afterArray s = { s with
    accesses := ac, banks := bk, maint := { s.maint with op := op }, freeCtr := fc, link := lk, proc := pr, notices := nt,
    part := pt, refresh := rf }) ∧ (afterArray s).accesses.map posted = s.accesses.map posted := by
  obtain ⟨⟨ac, bk, op, fc, e⟩, hposted, -⟩ := Scheduled.schedule s
  unfold afterArray
  generalize s.schedule = t at *
  have rest := endSleepEntry_rest t
  generalize t.endSleepEntry = u at *
  obtain ⟨pt, rf, lk, pr, hu⟩ : ∃ pt rf lk pr, u = { t with part := pt, refresh := rf, link := lk, proc := pr } :=
    ⟨u.part, u.refresh, u.link, u.proc,
      (congrArg (fun v : State => { v with part := u.part, refresh := u.refresh, link := u.link, proc := u.proc }) rest :)⟩
  obtain ⟨lk', pr', nt', hv⟩ := Outward.transmit u
  refine ⟨⟨ac, bk, op, fc, lk', pr', nt', pt, rf, ?_⟩, ?_⟩
  · rw [hv, hu, e]
  · rw [hv, hu]
    exact hposted

/-- The part falls asleep where it may. -/
theorem afterArray_asleep {s : State} {x : Execution} (hop : s.maint.op = .none) (h : MaySleep s) (hx : s.proc.executing = some x)
    (hd : x.discard = false) : FellAsleep s (afterArray s) x := by
  have may := maySleep_schedule hop h
  obtain ⟨⟨_, _, _, _, _, _, _, _, _, hframe⟩, -⟩ := afterArray_frame s
  have hmem : (afterArray s).mem = s.mem := by rw [hframe]
  obtain ⟨⟨ac, bk, op, fc, e⟩, -, -⟩ := Scheduled.schedule s
  unfold afterArray at hmem ⊢
  generalize s.schedule = t at *
  obtain ⟨hpart, hrefresh⟩ := endSleepEntry_steps may
  have executing : (asleep t).proc.executing = some x := by rw [e]; exact hx
  obtain ⟨ha, hq⟩ := endExecution_answered (st := .ok) (fs := []) executing hd
  rw [← endSleepEntry_asleep may] at ha hq
  generalize t.endSleepEntry = u at *
  obtain ⟨hmade, hfree, -⟩ := answered_sent ha hq rfl rfl
  obtain ⟨lk, pr, nt, hv⟩ := Outward.transmit u
  have part : u.transmit.part = u.part := by rw [hv]
  have refresh : u.transmit.refresh = u.refresh := by rw [hv]
  refine ⟨?_, ?_, hfree, hmem, hmade⟩
  · rw [part, hpart, e]
    rfl
  · rw [refresh, hrefresh]
    rfl

/-- The part stays awake where it may not sleep. -/
theorem afterArray_awake {s : State} (h : ¬MaySleep s) : (afterArray s).part = s.part ∧ (afterArray s).refresh = s.refresh ∧
    (afterArray s).proc.executing = s.proc.executing ∧ (afterArray s).link.intake = s.link.intake ∧
    ∀ b : Bank, (afterArray s).bank b = s.schedule.bank b := by
  have awake := mt maySleep_of_schedule h
  obtain ⟨⟨ac, bk, op, fc, e⟩, -, -⟩ := Scheduled.schedule s
  unfold afterArray
  rw [endSleepEntry_awake awake]
  generalize s.schedule = t at *
  obtain ⟨lk, pr, nt, hv⟩ := Outward.transmit t
  obtain ⟨-, hintake, -, hexec, -⟩ := State.transmit_keeps t
  refine ⟨?_, ?_, hexec.trans (by rw [e]), hintake.trans (by rw [e]), transmit_bank t⟩
  · rw [hv, e]
  · rw [hv, e]

/-! ### SLEEP -/

section Request
variable {s : State} {r : Request} {rest : List Request}

theorem sleep_busy (h : AtHead s r rest) (hp : r.payload = [0x51]) (hs : s.part.state = .ready)
    (hbusy : (∃ p : Port, s.queueOf p ≠ []) ∨ s.maint.op ≠ .none) :
    AnswersOnly .sleep s s rest { seq := r.seq, payload := [0x51, 0x02] } := by
  refine sleep_runsAs.answers h (by simp [Request.code, hp]) (by simp [lengthOk, Request.code, hp]) (st := .busy) (fs := []) ?_
  show (s.withIntake rest).doSleep r = (s.withIntake rest).answer r .busy []
  rw [State.doSleep, whenReady_ready (s := s.withIntake rest) hs]
  rcases hbusy with ⟨p, hp⟩ | hop
  · refine if_pos (List.any_eq_true.2 ⟨p, mem_allPorts p, ?_⟩)
    show (!(s.queueOf p).isEmpty) = true
    simpa using hp
  · split
    · rfl
    · exact if_pos hop

theorem anyUnfinished_false (h : ∀ p : Port, s.queueOf p = []) : s.anyUnfinished = false := by
  unfold State.anyUnfinished
  rw [List.any_eq_false]
  intro p _
  rw [h p]
  decide

/-- A SLEEP accepted: every engine goes to INERT, and the entry goes on from there. -/
theorem exec_sleep (h : AtHead s r rest) (hp : r.payload = [0x51]) (hs : s.part.state = .ready)
    (hq : ∀ p : Port, s.queueOf p = []) (hop : s.maint.op = .none) :
    exec .sleep s = .next (afterArray (begun s r rest .sleep).beginSleep) := by
  have run := sleep_runsAs.run h (by simp [Request.code, hp]) (by simp [lengthOk, Request.code, hp])
  rw [run]
  show Host.Outcome.next ((s.withIntake rest).doSleep r).transmit = _
  have accepted : (s.withIntake rest).doSleep r = (begun s r rest .sleep).beginSleep.schedule.endSleepEntry := by
    rw [State.doSleep, whenReady_ready (s := s.withIntake rest) hs]
    refine (if_neg ?_).trans (if_neg fun k => k hop)
    rw [anyUnfinished_false (s := s.withIntake rest) hq]
    decide
  rw [accepted]
  rfl

theorem sleep_accepted (h : AtHead s r rest) (hp : r.payload = [0x51]) (hs : s.part.state = .ready)
    (hq : ∀ p : Port, s.queueOf p = []) (hop : s.maint.op = .none) :
    ∃ t : State, exec .sleep s = .next t ∧
      (∀ p : Port, (t.engine p).state = .inert ∧ (t.outp p).xack = false ∧ (t.outp p).sel = 0 ∧ (t.outp p).d = .off ∧
        (t.engine p).attention = (s.engine p).attention) ∧
      t.mem = s.mem ∧ t.settings = s.settings ∧ t.jobs = s.jobs ∧ t.accesses.map posted = s.accesses.map posted ∧
      ((s.accesses = [] ∧ (∀ b : Bank, (s.bank b).state = .closed) ∧ ∀ g : Group, (s.group g).debt = 0) →
        t.part.state = .sleeping ∧ t.part.sleepEntry = false ∧ t.refresh.tick = none ∧ t.proc.executing = none ∧
        Made t { seq := r.seq, payload := [0x51, 0x00] }) ∧
      ((s.accesses ≠ [] ∨ (∃ b : Bank, (s.bank b).state ≠ .closed) ∨ ∃ g : Group, (s.group g).debt ≠ 0) →
        t.part.state = .ready ∧ t.part.sleepEntry = true ∧ t.refresh.tick = s.refresh.tick ∧ Holds t r rest .sleep) := by
  refine ⟨_, exec_sleep h hp hs hq hop, ?_⟩
  generalize hv : ({ begun s r rest .sleep with part := { s.part with sleepEntry := true } } : State) = v
  obtain ⟨hports, hinert⟩ := inertEngines_spec v
  have enters : (begun s r rest .sleep).beginSleep = allPorts.foldl State.inertEngine v := by
    rw [← hv]
    rfl
  rw [enters]
  generalize allPorts.foldl State.inertEngine v = u at hports hinert
  obtain ⟨en, ou, hu⟩ : ∃ en ou, u = { v with engines := en, outs := ou } :=
    ⟨u.engines, u.outs, (congrArg (fun t : State => { t with engines := u.engines, outs := u.outs }) hinert :)⟩
  have uproc : u.proc.executing = some { seq := r.seq, code := r.code, work := .sleep, discard := false } := by
    rw [hu, ← hv]
    rfl
  have uintake : u.link.intake = rest := by
    rw [hu, ← hv]
    rfl
  have upart : u.part = { s.part with sleepEntry := true } := by
    rw [hu, ← hv]
  have ubank (b : Bank) : u.bank b = s.bank b := by
    rw [hu, ← hv]
    rfl
  have ugroup (g : Group) : u.group g = s.group g := by
    rw [hu, ← hv]
    rfl
  have uacc : u.accesses = s.accesses := by
    rw [hu, ← hv]
    rfl
  obtain ⟨⟨ac, bk, op, fc, lk, pr, nt, pt, rf, e⟩, hposted⟩ := afterArray_frame u
  have port (p : Port) : (afterArray u).engine p = atRest (s.engine p) .inert ∧
      (afterArray u).outp p = inertOuts (s.outp p) := by
    have here : (afterArray u).engine p = u.engine p ∧ (afterArray u).outp p = u.outp p := by
      rw [e]
      exact ⟨rfl, rfl⟩
    rw [here.1, here.2, (hports p).1, (hports p).2, ← hv]
    exact ⟨rfl, rfl⟩
  have may : MaySleep u ↔ s.accesses = [] ∧ (∀ b : Bank, (s.bank b).state = .closed) ∧ ∀ g : Group, (s.group g).debt = 0 := by
    unfold MaySleep
    simp only [upart, uacc, ubank, ugroup, true_and]
  refine ⟨fun p => ?_, ?_, ?_, ?_, hposted.trans (by rw [uacc]), fun hquiet => ?_, fun hbusy => ?_⟩
  · rw [(port p).1, (port p).2]
    exact ⟨rfl, rfl, rfl, rfl, rfl⟩
  · rw [e, hu, ← hv]
    rfl
  · rw [e, hu, ← hv]
    rfl
  · rw [e, hu, ← hv]
    rfl
  · have uop : u.maint.op = .none := by
      rw [hu, ← hv]
      exact hop
    obtain ⟨hpart, htick, hfree, -, hmade⟩ := afterArray_asleep uop (may.2 hquiet) uproc rfl
    have hcode : r.code = 0x51 := by simp [Request.code, hp]
    rw [hcode] at hmade
    exact ⟨by rw [hpart], by rw [hpart], htick, hfree, hmade⟩
  · have awake : ¬MaySleep u := fun k => by
      obtain ⟨hacc, hbanks, hdebts⟩ := may.1 k
      rcases hbusy with k | ⟨b, k⟩ | ⟨g, k⟩
      · exact k hacc
      · exact k (hbanks b)
      · exact k (hdebts g)
    obtain ⟨hpart, hrefresh, hexec, hintake, -⟩ := afterArray_awake awake
    refine ⟨?_, ?_, ?_, hexec.trans uproc, hintake.trans uintake⟩
    · rw [hpart, upart]
      exact hs
    · rw [hpart, upart]
    · rw [hrefresh, hu, ← hv]
      rfl

end Request

/-! ### The events that end the entry -/

section Events
variable {s : State} {x : Execution}

/-- The last bank's close ends the entry. -/
theorem bankCloseComplete_asleep (hentry : s.part.sleepEntry = true) (hop : s.maint.op = .none) (hacc : s.accesses = [])
    (hx : s.proc.executing = some x) (hd : x.discard = false) {b : Bank} {w : OpenRow} (hb : (s.bank b).state = .closing w)
    (hothers : ∀ b' : Bank, b' ≠ b → (s.bank b').state = .closed) (hdebts : ∀ g : Group, (s.group g).debt = 0) :
    ∃ t : State, exec (.bankCloseComplete b) s = .next t ∧ FellAsleep s t x := by
  have may : MaySleep (s.setBank b { s.bank b with state := .closed, hitRun := 0 }) := by
    refine ⟨hentry, hacc, fun b' => ?_, hdebts⟩
    by_cases h : b' = b
    · rw [h, State.bank_self]
    · rw [State.bank_other _ _ _ b' h]
      exact hothers b' h
  have run := exec_bankCloseComplete hb
  generalize hu : s.setBank b { s.bank b with state := .closed, hitRun := 0 } = u at may run
  obtain ⟨hpart, htick, hfree, hmem, hmade⟩ :=
    afterArray_asleep (by rw [← hu]; exact hop) may (by rw [← hu]; exact hx) hd
  exact ⟨afterArray u, run, hpart.trans (by rw [← hu]; rfl), htick, hfree, hmem.trans (by rw [← hu]; rfl), hmade⟩

/-- The last group refresh ends the entry. -/
theorem groupRefreshComplete_asleep (hentry : s.part.sleepEntry = true) (hop : s.maint.op = .none) (hacc : s.accesses = [])
    (hx : s.proc.executing = some x) (hd : x.discard = false) {g : Group} (hdebt : (s.group g).debt ≤ 1)
    (hothers : ∀ b : Bank, groupOf b ≠ g → (s.bank b).state = .closed)
    (hdebts : ∀ g' : Group, g' ≠ g → (s.group g').debt = 0) :
    FellAsleep s (afterArray (s.endRefresh g)) x := by
  obtain ⟨hrest, -, hgroup, hother, hbank⟩ := endRefresh_spec s g
  generalize s.endRefresh g = u at *
  obtain ⟨rf, bk, hu⟩ : ∃ rf bk, u = { s with refresh := rf, banks := bk } :=
    ⟨u.refresh, u.banks, (congrArg (fun t : State => { t with refresh := u.refresh, banks := u.banks }) hrest :)⟩
  have asleep : FellAsleep u (afterArray u) x := by
    refine afterArray_asleep (by rw [hu]; exact hop) ⟨by rw [hu]; exact hentry, by rw [hu]; exact hacc, fun b => ?_, fun g' => ?_⟩
      (by rw [hu]; exact hx) hd
    · rw [hbank]
      by_cases h : groupOf b = g
      · rw [if_pos h]
      · rw [if_neg h]
        exact hothers b h
    · by_cases h : g' = g
      · rw [h, hgroup]
        show (s.group g).debt - 1 = 0
        omega
      · rw [hother g' h]
        exact hdebts g' h
  obtain ⟨hpart, htick, hfree, hmem, hmade⟩ := asleep
  exact ⟨hpart.trans (by rw [hu]), htick, hfree, hmem.trans (by rw [hu]), hmade⟩

/-- A group that still owes refreshes again. -/
theorem schedule_refreshes {u : State} {g : Group} (hop : u.maint.op = .none) (hdebt : 1 ≤ (u.group g).debt)
    (hbanks : ∀ b : Bank, groupOf b = g → (u.bank b).state = .closed) (hacc : u.accesses = []) {b : Bank} (hb : groupOf b = g) :
    (u.schedule.bank b).state = .refreshing := by
  have closed (b : Bank) (hb : groupOf b = g) : (u.closeBanks.bank b).state = .closed := by
    have moved := closeBanks_moves u b
    rw [hbanks b hb] at moved
    exact moved.closed id id id
  have hrest := (closeBanks_spec u).2.2
  have noClaim (b : Bank) : ¬RepairDue u.closeBanks b := fun h => by
    have hm := maint_of_banks hrest
    rcases h.1 with ⟨k, -⟩ | ⟨r, k, -⟩ <;> rw [hm, hop] at k <;> cases k
  have first := takeRepairIfFirst_none noClaim
  have due : RefreshDue u.closeBanks g := by
    have hgroup : u.closeBanks.group g = u.group g := by
      generalize u.closeBanks = v at hrest
      exact (congrArg (fun t : State => t.group g) hrest :)
    refine ⟨by rw [hgroup]; exact hdebt, closed, .inr fun a ha => ?_⟩
    rw [accesses_of_banks hrest, hacc] at ha
    cases ha
  have taken : (u.closeBanks.takeClaims.bank b).state = .refreshing := by
    show (u.closeBanks.takeRepairIfFirst.takeRefreshClaims.bank b).state = _
    rw [first, ((takeRefreshClaims_spec u.closeBanks).1 b).1 (hb ▸ due)]
  have moved := afterClaims_moves u.closeBanks.takeClaims b
  rw [taken] at moved
  exact moved.of_busy nofun nofun

theorem groupRefreshComplete_again (hop : s.maint.op = .none) (hacc : s.accesses = []) (hx : s.proc.executing = some x) {g : Group}
    (hdebt : 2 ≤ (s.group g).debt) : (afterArray (s.endRefresh g)).part = s.part ∧
      (afterArray (s.endRefresh g)).proc.executing = some x ∧
      ∀ b : Bank, groupOf b = g → ((afterArray (s.endRefresh g)).bank b).state = .refreshing := by
  obtain ⟨hrest, -, hgroup, -, hbank⟩ := endRefresh_spec s g
  generalize s.endRefresh g = u at *
  obtain ⟨rf, bk, hu⟩ : ∃ rf bk, u = { s with refresh := rf, banks := bk } :=
    ⟨u.refresh, u.banks, (congrArg (fun t : State => { t with refresh := u.refresh, banks := u.banks }) hrest :)⟩
  have owes : 1 ≤ (u.group g).debt := by
    rw [hgroup]
    show 1 ≤ (s.group g).debt - 1
    omega
  have awake : ¬MaySleep u := fun k => by
    have := k.2.2.2 g
    omega
  obtain ⟨hpart, -, hexec, -, hbanks⟩ := afterArray_awake awake
  refine ⟨hpart.trans (by rw [hu]), hexec.trans (by rw [hu]; exact hx), fun b hb => ?_⟩
  rw [hbanks]
  refine schedule_refreshes (by rw [hu]; exact hop) owes (fun c hc => ?_) (by rw [hu]; exact hacc) hb
  rw [hbank, if_pos hc]

/-- A burst's end leaves the entry going on: the bank of the burst is still to close. -/
theorem burstComplete_entry (hs : s.part.state = .ready) {a : Access} (hf : s.flying = some a) {w : OpenRow}
    (hb : (s.bank a.bank).state = .opened w) (decay : List Decay) (lines : PortLines) :
    ∃ t : State, exec (.burstComplete decay lines) s = .next t ∧ t.part = s.part ∧ t.refresh.tick = s.refresh.tick := by
  have run := exec_burstComplete (decay := decay) (lines := lines) hf
  generalize (State.perform { s with mem := s.mem.decay decay } a).2 = rs at run
  have steady := Steady.atResult s decay lines a
  have steady' := steady.trans (Steady.deliver (steady.part ▸ hs) a rs)
  generalize (atResult s decay lines a).deliver a rs = u at run steady'
  refine ⟨_, run, ?_⟩
  obtain ⟨hpart, hrefresh, hbanks⟩ := steady'
  have after : afterResult u = afterArray u := by
    unfold afterResult
    rw [endReset_ready (by rw [hpart]; exact hs)]
    rfl
  have awake : ¬MaySleep u := fun k => by
    have closed := k.2.2.1 a.bank
    rw [hbanks, hb] at closed
    cases closed
  obtain ⟨apart, arefresh, -⟩ := afterArray_awake awake
  rw [after]
  exact ⟨apart.trans hpart, by rw [arefresh, hrefresh]⟩

end Events

/-- Settles O40: the request by the entry it begins, and the entry's end, which comes where the part may sleep and only there. -/
theorem sleepIsEnteredWhenQuiet : Obligations.SleepIsEnteredWhenQuiet := by
  unfold Obligations.SleepIsEnteredWhenQuiet
  refine ⟨fun s r rest h hp hs => ⟨sleep_busy h hp hs, sleep_accepted h hp hs⟩,
    fun s => ⟨endSleepEntry_awake, fun x hmay hx => ?_⟩, fun s x hentry hop hacc hx hd _ => ⟨fun b w hb hothers hdebts =>
      bankCloseComplete_asleep hentry hop hacc hx hd hb hothers hdebts, fun g hg => ⟨afterArray (s.endRefresh g), exec_groupRefreshComplete hg,
        groupRefreshComplete_asleep hentry hop hacc hx hd, groupRefreshComplete_again hop hacc hx⟩⟩,
    fun s decay lines a w hs _ hf hb => burstComplete_entry hs hf hb decay lines⟩
  obtain ⟨hpart, hrefresh⟩ := endSleepEntry_steps hmay
  have executing : (asleep s).proc.executing = some x := hx
  refine ⟨hpart, hrefresh, endSleepEntry_rest s, fun hd _ => ?_, fun hd => ?_⟩
  · rw [endSleepEntry_asleep hmay]
    exact (endExecution_answered (st := .ok) (fs := []) executing hd).1
  · rw [endSleepEntry_asleep hmay, endExecution_discarded (st := .ok) (fs := []) executing hd]
    exact ⟨rfl, rfl⟩

end Sys2Proof.Machine
end

