-- ==== Sys2Proof/Proofs/Words.lean ====
section
/-! PROOF. Words checked, merged and written (R5, R6, R15, R16, R106), the data and masks of a WRITE (R67, R161), and the bytes an IN
job stages (R65 to R67). -/

namespace Sys2Proof.Machine

open Sys2Proof.Safety

-- One thread: the whole text is checked under a memory limit that holds a bounded number of thread stacks.
set_option Elab.async false

/-! ### A word and its bytes -/

/-- Byte `k` of four bytes put together. -/
theorem extract_bytes (b3 b2 b1 b0 : Byte) {k : Nat} (hk : k < 4) :
    (b3 ++ b2 ++ b1 ++ b0 : Word).extractLsb' (8 * k) 8 = ([b0, b1, b2, b3] : List Byte).getD k 0 := by
  apply BitVec.eq_of_getLsbD_eq
  intro i hi
  rw [BitVec.getLsbD_extractLsb']
  simp only [BitVec.getLsbD_append, hi, decide_true, Bool.true_and]
  rcases k with _ | _ | _ | _ | k
  · simp [hi]
  · have h1 : ¬8 * 1 + i < 8 := by omega
    simp [h1, hi]
  · have h1 : ¬8 * 2 + i < 8 := by omega
    have h2 : ¬8 * 2 + i - 8 < 8 := by omega
    have e : 8 * 2 + i - 8 - 8 = i := by omega
    simp [*]
  · have h1 : ¬8 * 3 + i < 8 := by omega
    have h2 : ¬8 * 3 + i - 8 < 8 := by omega
    have h3 : ¬8 * 3 + i - 8 - 8 < 8 := by omega
    have e : 8 * 3 + i - 8 - 8 - 8 = i := by omega
    simp [*]
  · omega

/-- Bit `k` of four flags put together. -/
theorem getLsbD_flags (b3 b2 b1 b0 : Bool) {k : Nat} (hk : k < 4) :
    (BitVec.ofBool b3 ++ BitVec.ofBool b2 ++ BitVec.ofBool b1 ++ BitVec.ofBool b0 : BitVec 4).getLsbD k =
      ([b0, b1, b2, b3] : List Bool).getD k false := by
  have all : ∀ (b3 b2 b1 b0 : Bool) (k : Fin 4),
      (BitVec.ofBool b3 ++ BitVec.ofBool b2 ++ BitVec.ofBool b1 ++ BitVec.ofBool b0 : BitVec 4).getLsbD k.val =
        ([b0, b1, b2, b3] : List Bool).getD k.val false := by decide
  exact all b3 b2 b1 b0 ⟨k, hk⟩

/-- A word merged byte by byte (R15). -/
theorem mergeWord_byte (old new : Word) (mask : BitVec 4) {k : Nat} (hk : k < 4) : (mergeWord old new mask).extractLsb' (8 * k) 8 =
    if mask.getLsbD k then new.extractLsb' (8 * k) 8 else old.extractLsb' (8 * k) 8 := by
  unfold mergeWord
  rw [extract_bytes _ _ _ _ hk]
  rcases k with _ | _ | _ | _ | k
  · rfl
  · rfl
  · rfl
  · rfl
  · omega

/-! ### Checks (R6) -/

theorem checkWord_clean {d : Word} {e : Bits39} (h : wrongCount e = 0) : checkWord d e = (.clean, d) := by
  simp only [checkWord, h]

theorem checkWord_corrected {d : Word} {e : Bits39} (h : wrongCount e = 1) : checkWord d e = (.corrected, d) := by
  simp only [checkWord, h]

theorem checkWord_uncorrectable {d : Word} {e : Bits39} (h : wrongCount e = 2) : (checkWord d e).1 = .uncorrectable := by
  simp only [checkWord, h]

/-! ### Writes (R15, R16, R106) -/

section Write
variable {m : Memory} {a addr : Nat} {d : Word} {mask : BitVec 4}

theorem writeOne_untouched : writeOne m a addr d 0 = (m, { address := addr, data := 0, outcome := none, written := true }) :=
  if_pos rfl

theorem writeOne_whole :
    writeOne m a addr d 15 = (m.setWord a d, { address := addr, data := 0, outcome := none, written := true }) :=
  (if_neg (by decide)).trans (if_pos rfl)

theorem writeOne_uncorrectable (h0 : mask ≠ 0) (h15 : mask ≠ 15) (h : (m.read a).1 = .uncorrectable) : writeOne m a addr d mask =
    (m, { address := addr, data := (m.read a).2, outcome := some .uncorrectable, written := false }) := by
  unfold writeOne
  rw [if_neg h0, if_neg h15]
  dsimp only
  rw [if_pos h, h]

theorem writeOne_merged (h0 : mask ≠ 0) (h15 : mask ≠ 15) (h : (m.read a).1 ≠ .uncorrectable) : writeOne m a addr d mask =
    (m.setWord a (mergeWord (m.read a).2 d mask),
      { address := addr, data := (m.read a).2, outcome := some (m.read a).1, written := true }) := by
  unfold writeOne
  rw [if_neg h0, if_neg h15]
  dsimp only
  rw [if_neg h]

/-- A word's write reaches no other byte of the array. -/
theorem writeOne_elsewhere (x : Nat) (hx : x < a ∨ a + 4 ≤ x) : (writeOne m a addr d mask).1.byte x = m.byte x := by
  unfold writeOne
  split
  · rfl
  · split
    · exact (Memory.setWord_other m d).1 x hx
    · dsimp only
      split
      · rfl
      · exact (Memory.setWord_other m _).1 x hx

theorem rewriteOne_rewritten (h0 : mask ≠ 0) (h : m.read a = (.corrected, d)) : rewriteOne m a addr d mask =
    (m.setWord a d, { address := addr, data := 0, outcome := none, written := true }) := by
  unfold rewriteOne
  rw [if_neg h0, h]
  exact if_pos ⟨rfl, rfl⟩

theorem rewriteOne_left (h : mask = 0 ∨ m.read a ≠ (.corrected, d)) : rewriteOne m a addr d mask =
    (m, { address := addr, data := 0, outcome := none, written := false }) := by
  unfold rewriteOne
  rcases h with h | h
  · exact if_pos h
  · split
    · rfl
    · exact if_neg fun ⟨ho, hd⟩ => h (Prod.ext ho hd)

end Write

/-! ### The data and masks of a WRITE (R67, R161) -/

theorem byteAt_isSome {start : Nat} {bytes : List Byte} {a : Nat} :
    (byteAt start bytes a).isSome = true ↔ start ≤ a ∧ a < start + bytes.length := by
  unfold byteAt
  split
  · rw [isSome_getElem?]
    omega
  · simp
    omega

theorem byteAt_here {start i a : Nat} {bytes : List Byte} (h : start + i = a) :
    (byteAt start bytes a).getD 0 = bytes.getD i 0 := by
  unfold byteAt
  rw [if_pos (by omega), show a - start = i by omega, List.getD_eq_getElem?_getD]

theorem writeWord_bytes (start burst j : Nat) (bytes : List Byte) {k : Nat} (hk : k < 4) :
    ((writeWord start bytes burst j).2.getLsbD k = true ↔
      start ≤ 32 * burst + 4 * j + k ∧ 32 * burst + 4 * j + k < start + bytes.length) ∧
    ∀ i : Nat, i < bytes.length → start + i = 32 * burst + 4 * j + k →
      (writeWord start bytes burst j).1.extractLsb' (8 * k) 8 = bytes.getD i 0 := by
  let at' (k : Nat) : Option Byte := byteAt start bytes (32 * burst + 4 * j + k)
  have mask : (writeWord start bytes burst j).2.getLsbD k =
      ([(at' 0).isSome, (at' 1).isSome, (at' 2).isSome, (at' 3).isSome] : List Bool).getD k false := getLsbD_flags _ _ _ _ hk
  have data : (writeWord start bytes burst j).1.extractLsb' (8 * k) 8 =
      ([(at' 0).getD 0, (at' 1).getD 0, (at' 2).getD 0, (at' 3).getD 0] : List Byte).getD k 0 := extract_bytes _ _ _ _ hk
  have here : ([(at' 0).isSome, (at' 1).isSome, (at' 2).isSome, (at' 3).isSome] : List Bool).getD k false = (at' k).isSome ∧
      ([(at' 0).getD 0, (at' 1).getD 0, (at' 2).getD 0, (at' 3).getD 0] : List Byte).getD k 0 = (at' k).getD 0 := by
    rcases k with _ | _ | _ | _ | k
    · exact ⟨rfl, rfl⟩
    · exact ⟨rfl, rfl⟩
    · exact ⟨rfl, rfl⟩
    · exact ⟨rfl, rfl⟩
    · omega
  rw [mask, data, here.1, here.2]
  exact ⟨byteAt_isSome, fun _ _ h => byteAt_here h⟩

/-- Settles O46: each write by its equation, a merged word byte by byte. -/
theorem wordsAreCheckedAndMerged : Obligations.WordsAreCheckedAndMerged := by
  unfold Obligations.WordsAreCheckedAndMerged
  refine ⟨⟨fun d e => ⟨checkWord_clean, checkWord_corrected, checkWord_uncorrectable⟩, fun m a addr d mask hwf _ =>
    ⟨writeOne_elsewhere, fun h => ?_, fun h => ?_, fun h0 h15 => ⟨writeOne_uncorrectable h0 h15, fun h => ?_⟩,
      fun h0 h => ?_, fun h => ?_⟩⟩, fun start burst j k bytes _ hk => writeWord_bytes start burst j bytes hk⟩
  · rw [h, writeOne_untouched]
  · obtain ⟨hword, hwrong⟩ := setWord_self hwf a d
    rw [h, writeOne_whole]
    exact ⟨hword, hwrong, rfl⟩
  · obtain ⟨hword, hwrong⟩ := setWord_self hwf a (mergeWord (m.read a).2 d mask)
    rw [writeOne_merged h0 h15 h]
    exact ⟨fun k hk => by rw [hword, mergeWord_byte _ _ _ hk], hwrong, rfl⟩
  · obtain ⟨hword, hwrong⟩ := setWord_self hwf a d
    rw [rewriteOne_rewritten h0 h]
    exact ⟨hword, hwrong, (Memory.setWord_other m d).1, rfl⟩
  · rw [rewriteOne_left h]
    exact ⟨rfl, rfl⟩

/-! ### Bytes staged (R65 to R67) -/

/-- A byte that a half has taken: the half is posted where the byte ends its burst or the region. -/
theorem stageBytes_placed {p : Port} {j : Job} {b : Byte} {a start : Nat} {bytes : List Byte} {halves before after : List Half}
    (hplace : placeByte halves a b = some (before ++ .filling (a / 32) start bytes :: after))
    (hnone : NoneFilling (before ++ after) (a / 32)) : State.stageBytes p j [b] a halves [] =
      if a % 32 = 31 ∨ a + 1 = j.address.getD 0 + j.length then
        some (before ++ .awaiting (a / 32) :: after,
          [wordsAccess (.port p j.tag) (max (j.address.getD 0) (32 * (a / 32)))
            (min (j.address.getD 0 + j.length) (32 * (a / 32) + 32)) (writeKind start bytes (a / 32))])
      else some (before ++ .filling (a / 32) start bytes :: after, []) := by
  have posted := State.postFilling_one (.port p j.tag) j.regionStart j.regionEnd (st := start) (bs := bytes) hnone
  rw [State.stageBytes, hplace]
  dsimp only
  split
  · rename_i ends
    refine Eq.trans ?_ (if_pos ends).symm
    show State.stageBytes p j [] (a + 1) _ ([] ++ _) = _
    rw [show (fun k => decide (k = burstOfAddress a)) = fun k => decide (k = a / 32) from rfl, posted]
    rfl
  · rename_i goes
    exact Eq.symm (if_neg goes)

/-- Settles O49: the half that takes the byte, and what becomes of it; a second byte by the rule for the first. -/
theorem stagedBytesGoToTheirBurst : Obligations.StagedBytesGoToTheirBurst := by
  unfold Obligations.StagedBytesGoToTheirBurst
  refine ⟨fun p j b a halves => ⟨fun start bytes before after hh hnone => ?_, fun hnone hroom => ?_, fun hnone hfull => ?_⟩,
    fun p j b c a halves => ⟨fun h => ?_, fun first writes h => ⟨fun hc => ?_, fun second more hc => ?_⟩⟩⟩
  · refine stageBytes_placed ?_ hnone
    unfold placeByte
    rw [hh, show burstOfAddress a = a / 32 from rfl,
      State.fillHalf_some (fun h hm => hnone h (List.mem_append_left _ hm)) b]
  · refine stageBytes_placed (after := []) ?_ (by rw [List.append_nil]; exact hnone)
    unfold placeByte
    rw [show burstOfAddress a = a / 32 from rfl, State.fillHalf_none hnone b]
    exact if_pos hroom
  · have none : placeByte halves a b = none := by
      unfold placeByte
      rw [show burstOfAddress a = a / 32 from rfl, State.fillHalf_none hnone b]
      exact if_neg (Nat.not_lt.2 hfull)
    rw [State.stageBytes, none]
  · rw [State.stageBytes_cons, h]
    rfl
  · rw [State.stageBytes_cons, h]
    show (State.stageBytes p j [c] (a + 1) first []).map _ = _
    rw [hc]
    rfl
  · rw [State.stageBytes_cons, h]
    show (State.stageBytes p j [c] (a + 1) first []).map _ = _
    rw [hc]
    rfl

end Sys2Proof.Machine
end

