-- ==== Sys2Proof/Proofs/Pins.lean ====
section
/-! PROOF. The pins of a port: requests that stand on XREQ (R63), HOLDN (R50, R76) and ATTN (R77, R78, R171). -/

namespace Sys2Proof.Machine

open Sys2Proof.Safety

-- One thread: the whole text is checked under a memory limit that holds a bounded number of thread stacks.
set_option Elab.async false

/-! ### Requests on XREQ -/

/-- A port whose engine runs no job, and which has none to start, does nothing. -/
theorem portStep_idle {s : State} {p : Port} (h : (s.engine p).state = .inert ∨ (s.engine p).state = .control ∨
    ((s.engine p).state = .idle ∧ s.queueOf p = [])) : State.portStep p s = none := by
  unfold State.portStep
  split
  · rcases h with h | h | ⟨h, hq⟩
    · rw [h]
    · rw [h]
    · rw [h]
      show s.startHead p = none
      unfold State.startHead State.headJob
      rw [hq]
  · rfl

theorem exec_unitRequest {s : State} {p : Port} {xdir xend : Bool} {d : BitVec 16} {lines : PortLines} (hr : s.resetn = false)
    (hx : (s.pin p).xreq = none) : exec (.unitRequest p xdir xend d lines) s = .next
      (State.portSettle ((s.sample lines).raiseRequest p { xdir := xdir, xend := xend, d := d }) p).schedule.transmit := by
  have free : ((s.sample lines).pin p).xreq = none := by
    rw [(sample_spec s lines).1 p]
    exact hx
  show execUnitRequest p xdir xend d lines s = _
  unfold execUnitRequest
  generalize s.sample lines = u at *
  simp only [free, hr, Option.isSome_none, Bool.false_eq_true, if_false, State.portGoesOn]

/-- Settles O50: no turn of the port comes after the request; its removal is an update of the port's pins and outputs. -/
theorem requestsStandOnThePins : Obligations.RequestsStandOnThePins := by
  unfold Obligations.RequestsStandOnThePins
  refine ⟨fun s p xdir xend d lines hr hx hstate => ?_, fun s p => ?_⟩
  · rw [exec_unitRequest hr hx]
    generalize hu : (s.sample lines).raiseRequest p { xdir := xdir, xend := xend, d := d } = u
    have idle : State.portStep p u = none := by
      refine portStep_idle ?_
      obtain ⟨pins, e⟩ := sample_eq_pins s lines
      rw [← hu, e]
      exact hstate
    rw [State.portSettle, iterate_none idle]
  · refine ⟨s.dropRequest p, rfl, State.pin_self _ _ _, ?_, fun hc => ?_, ?_, fun q hq => ⟨State.pin_other _ _ _ q hq, ?_⟩, rfl⟩
    · rw [State.dropRequest, State.outp_self]
    · rw [State.dropRequest, State.outp_self]
      show (s.setPin p _).dAfterXack p = .off
      unfold State.dAfterXack
      rw [show (s.setPin p { s.pin p with xreq := none }).engine p = s.engine p from rfl]
      cases hcontrol : (s.engine p).control with
      | none => rfl
      | some x =>
        cases x with
        | portOut steer b => exact absurd hcontrol (hc steer b)
        | portIn steer => rfl
    · rw [State.dropRequest, State.outp_self]
      rfl
    · rw [State.dropRequest, State.outp_other _ _ _ q hq]
      rfl

/-! ### HOLDN -/

/-- The pins of the port once its HOLDN is deasserted. -/
def unheld (s : State) (p : Port) (lines : PortLines) : State :=
  (s.sample lines).setPin p { (s.sample lines).pin p with holdn := false }

theorem unheld_spec (s : State) (p : Port) (lines : PortLines) :
    (unheld s p lines).pin p = { (s.sample lines).pin p with holdn := false } ∧
      (∀ q : Port, q ≠ p → (unheld s p lines).pin q = (s.sample lines).pin q) ∧ { unheld s p lines with pins := s.pins } = s := by
  unfold unheld
  obtain ⟨pins, e⟩ := sample_eq_pins s lines
  rw [e]
  exact ⟨State.pin_self _ _ _, fun q hq => State.pin_other _ _ _ q hq, rfl⟩

theorem exec_holdnDeassert {s : State} (hr : s.resetn = false) (p : Port) (lines : PortLines) :
    exec (.holdnDeassert p lines) s = .next ((unheld s p lines).portSettle p).schedule.transmit := by
  show execHoldnDeassert p lines s = _
  unfold execHoldnDeassert unheld
  simp only [hr, Bool.false_eq_true, if_false, State.portGoesOn]

theorem portStep_offers {s : State} {p : Port} (hready : s.part.state = .ready) (hheld : (s.engine p).state = .held)
    (hh : (s.pin p).holdn = false) (hw : .job p ∉ s.notices.waiting) : State.portStep p s = some (s.offer (.job p)) := by
  have waits : (s.notices.waiting.any fun x => decide (x = .job p)) = false := by
    rw [List.any_eq_false]
    intro x hx
    simpa using fun e : x = .job p => hw (e ▸ hx)
  unfold State.portStep State.offerHeld
  rw [if_pos hready, hheld, hh, waits]
  rfl

theorem portStep_offered {s : State} {p : Port} (hheld : (s.engine p).state = .held) (hw : .job p ∈ s.notices.waiting) :
    State.portStep p s = none := by
  have waits : (s.notices.waiting.any fun x => decide (x = .job p)) = true := List.any_eq_true.2 ⟨_, hw, decide_eq_true rfl⟩
  unfold State.portStep State.offerHeld
  rw [hheld, waits, Bool.or_true]
  split <;> rfl

theorem holdn_deasserted {s : State} {p : Port} {lines : PortLines} {j : Job} {rest : List Tag} (hr : s.resetn = false)
    (hready : s.part.state = .ready) (hheld : (s.engine p).state = .held) (hq : s.queueOf p = j.tag :: rest)
    (hj : s.jobOf j.tag = some j) (hw : .job p ∉ s.notices.waiting) :
    ∃ v u : State, v.pin p = { (s.sample lines).pin p with holdn := false } ∧
      (∀ q : Port, q ≠ p → v.pin q = (s.sample lines).pin q) ∧ { v with pins := s.pins } = s ∧
      (s.notices.outbox.length < 16 → s.ordinaryCount < 12 →
        exec (.holdnDeassert p lines) s = .next ((iterate (State.portStep p) 39 u).schedule.transmit) ∧
        u.jobOf j.tag = some { j with state := .reported, noticeNumber := some s.admissionNumber } ∧
        u.queueOf p = rest ∧ Told v u s.admissionNumber (.job p) ∧
        u.notices = admitted s.notices (freshNotice s.admissionNumber
          (.jobEnd j.tag j.port j.mode j.outcome j.moved j.faultAddress j.holdBroken j.correctedSeen))) ∧
      ((16 ≤ s.notices.outbox.length ∨ 12 ≤ s.ordinaryCount) →
        exec (.holdnDeassert p lines) s = .next u.schedule.transmit ∧
        u = { v with notices := { s.notices with waiting := s.notices.waiting ++ [.job p] } }) := by
  obtain ⟨hpin, hothers, hrest⟩ := unheld_spec s p lines
  have run := exec_holdnDeassert hr p lines
  generalize unheld s p lines = v at *
  obtain ⟨pins, rfl⟩ : ∃ pins, v = { s with pins := pins } :=
    ⟨v.pins, (congrArg (fun t : State => { t with pins := v.pins }) hrest :)⟩
  generalize hv : ({ s with pins := pins } : State) = v at *
  have hnotices : v.notices = s.notices := by rw [← hv]
  have hcount : v.ordinaryCount = s.ordinaryCount := by rw [← hv]; rfl
  have hnumber : v.admissionNumber = s.admissionNumber := by rw [← hv]; rfl
  have vqueue : v.queueOf p = j.tag :: rest := by rw [← hv]; exact hq
  have vjob : v.jobOf j.tag = some j := by rw [← hv]; exact hj
  have vheld : (v.engine p).state = .held := by rw [← hv]; exact hheld
  have step : State.portStep p v = some (v.offer (.job p)) :=
    portStep_offers (by rw [← hv]; exact hready) vheld (by rw [hpin]) (by rw [hnotices]; exact hw)
  have settle : v.portSettle p = iterate (State.portStep p) 39 (v.offer (.job p)) := by
    rw [State.portSettle, iterate, step]
  rw [settle] at run
  refine ⟨v, v.offer (.job p), hpin, hothers, hrest, fun ho hc => ⟨run, ?_⟩, fun hfull => ?_⟩
  · have body : v.bodyOf (.job p) = some
        (.jobEnd j.tag j.port j.mode j.outcome j.moved j.faultAddress j.holdBroken j.correctedSeen) := by
      rw [State.bodyOf_job vqueue, vjob]
      rfl
    obtain ⟨told, notices⟩ := State.offer_admitted (by rw [hnotices]; exact ho) (by rw [hcount]; exact hc) body
    rw [hnumber] at told notices
    obtain ⟨t, l, hqueue, hleft, hjobs, -⟩ := id told
    obtain ⟨rfl, rfl⟩ := List.cons.inj (vqueue.symm.trans hqueue)
    exact ⟨State.jobOf_map (f := fun x => { x with state := .reported, noticeNumber := some s.admissionNumber }) vjob
      (fun _ => rfl) hjobs, hleft, told, by rw [notices, hnotices]⟩
  · have waits := State.offer_waits (s := v) (x := .job p) (by rw [hnotices, hcount]; exact hfull)
    have idle : State.portStep p (v.offer (.job p)) = none := by
      rw [waits]
      exact portStep_offered (s := { v with notices := { v.notices with waiting := v.notices.waiting ++ [.job p] } }) vheld
        (List.mem_append_right _ (List.mem_singleton_self _))
    rw [iterate_none idle] at run
    exact ⟨run, by rw [waits, hnotices]⟩

/-! ### ATTN -/

theorem attentionTaken_iff {s : State} {p : Port} : s.attentionTaken p = true ↔
    (s.portSettings p).enable = true ∧ (s.portSettings p).attention = true ∧
      (s.part.state = .ready ∨ s.part.state = .sleeping ∨ s.part.state = .waking) := by
  unfold State.attentionTaken
  simp [and_assoc, or_assoc]

theorem exec_attnEdge_none {s : State} {p : Port} {lines : PortLines} (h : (s.portSettings p).enable = false ∨
    (s.portSettings p).attention = false ∨ s.part.state = .starting ∨ s.part.state = .resetting) :
    exec (.attnEdge p lines) s = .next (s.sample lines) := by
  have none : (s.sample lines).attentionTaken p = false := by
    obtain ⟨pins, e⟩ := sample_eq_pins s lines
    rw [e]
    refine Bool.eq_false_iff.2 fun k => ?_
    obtain ⟨henable, hattn, hpart⟩ := attentionTaken_iff.1 (show s.attentionTaken p = true from k)
    rcases h with h | h | h | h <;> simp_all
  show execAttnEdge p lines s = _
  unfold execAttnEdge
  dsimp only
  rw [none, Bool.not_false, Bool.or_true]
  rfl

theorem exec_attnEdge {s : State} {p : Port} {lines : PortLines} (hr : s.resetn = false)
    (henable : (s.portSettings p).enable = true) (hattn : (s.portSettings p).attention = true)
    (hpart : s.part.state = .ready ∨ s.part.state = .sleeping ∨ s.part.state = .waking) :
    exec (.attnEdge p lines) s = .next ((s.sample lines).attentionEdge p).transmit := by
  have taken : (s.sample lines).attentionTaken p = true := by
    obtain ⟨pins, e⟩ := sample_eq_pins s lines
    rw [e]
    exact attentionTaken_iff (s := s).2 ⟨henable, hattn, hpart⟩
  show execAttnEdge p lines s = _
  unfold execAttnEdge
  dsimp only
  rw [taken, hr]
  rfl

/-- The offer of a new attention's notice. -/
theorem attention_offered {s : State} {p : Port} {x : Attention} (hnone : (s.engine p).attention = none) (u : State)
    (hu : u = (s.setEngine p { s.engine p with attention := some x }).offer (.attention p)) :
    (∀ q : Port, q ≠ p → u.engine q = s.engine q) ∧ { u with engines := s.engines, notices := s.notices } = s ∧
      (s.notices.outbox.length < 16 → s.ordinaryCount < 12 → u.engine p = s.engine p ∧
        u.notices = admitted s.notices (freshNotice s.admissionNumber (.attention p x.pstat x.merged))) ∧
      ((16 ≤ s.notices.outbox.length ∨ 12 ≤ s.ordinaryCount) →
        u.engine p = { s.engine p with attention := some x } ∧
        u.notices = { s.notices with waiting := s.notices.waiting ++ [.attention p] }) := by
  generalize hv : s.setEngine p { s.engine p with attention := some x } = v at hu
  have self : v.engine p = { s.engine p with attention := some x } := by rw [← hv, State.engine_self]
  have other (q : Port) (hq : q ≠ p) : v.engine q = s.engine q := by
    rw [← hv]
    exact State.engine_other _ _ _ q hq
  have rest : { v with engines := s.engines } = s := by rw [← hv]; rfl
  have hnotices : v.notices = s.notices := by rw [← hv]; rfl
  have hcount : v.ordinaryCount = s.ordinaryCount := by rw [← hv]; rfl
  have hnumber : v.admissionNumber = s.admissionNumber := by rw [← hv]; rfl
  have body : v.bodyOf (.attention p) = some (.attention p x.pstat x.merged) := by
    show (v.engine p).attention.map _ = _
    rw [self]
    rfl
  subst hu
  by_cases room : s.notices.outbox.length < 16 ∧ s.ordinaryCount < 12
  · obtain ⟨told, notices⟩ := State.offer_admitted (by rw [hnotices]; exact room.1) (by rw [hcount]; exact room.2) body
    obtain ⟨tself, tother, trest⟩ := told
    refine ⟨fun q hq => (tother q hq).trans (other q hq), ?_, fun _ _ => ⟨?_, ?_⟩, fun h => by omega⟩
    · exact (congrArg (fun t : State => { t with engines := s.engines, notices := s.notices }) trest).trans
        ((congrArg (fun t : State => { t with notices := s.notices }) rest).trans rfl)
    · rw [tself, self, ← hnone]
    · rw [notices, hnotices, hnumber]
  · have full : 16 ≤ s.notices.outbox.length ∨ 12 ≤ s.ordinaryCount := by omega
    rw [State.offer_waits (s := v) (by rw [hnotices, hcount]; exact full), hnotices]
    exact ⟨other, (congrArg (fun t : State => { t with notices := s.notices }) rest :), fun ho hc => absurd ⟨ho, hc⟩ room,
      fun _ => ⟨self, rfl⟩⟩

/-- A new attention, or one that merges into the attention that waits. -/
theorem attentionEdge_spec (s : State) (p : Port) :
    (s.attentionEdge p).pins = s.pins ∧ (∀ q : Port, q ≠ p → (s.attentionEdge p).engine q = s.engine q) ∧
      { s.attentionEdge p with engines := s.engines, notices := s.notices, part := s.part, refresh := s.refresh } = s ∧
      (∀ x : Attention, (s.engine p).attention = some x →
        (s.attentionEdge p).engine p = { s.engine p with attention := some { x with merged := true } } ∧
        (s.attentionEdge p).notices = s.notices ∧ (s.attentionEdge p).part = s.part ∧
        (s.attentionEdge p).refresh = s.refresh) ∧
      ((s.engine p).attention = none →
        (s.notices.outbox.length < 16 → s.ordinaryCount < 12 → (s.attentionEdge p).engine p = s.engine p ∧
          (s.attentionEdge p).notices =
            admitted s.notices (freshNotice s.admissionNumber (.attention p (s.pin p).pstat false))) ∧
        ((16 ≤ s.notices.outbox.length ∨ 12 ≤ s.ordinaryCount) →
          (s.attentionEdge p).engine p =
            { s.engine p with attention := some { pstat := (s.pin p).pstat, merged := false } } ∧
          (s.attentionEdge p).notices = { s.notices with waiting := s.notices.waiting ++ [.attention p] }) ∧
        ((s.part.state = .sleeping ∧ s.settings.wakeOnAttention = true) →
          (s.attentionEdge p).part = { s.part with state := .waking, wakeTarget := some .ready } ∧
          (s.attentionEdge p).refresh = { s.refresh with tick := some s.effectiveRange }) ∧
        (¬(s.part.state = .sleeping ∧ s.settings.wakeOnAttention = true) →
          (s.attentionEdge p).part = s.part ∧ (s.attentionEdge p).refresh = s.refresh)) := by
  cases hattn : (s.engine p).attention with
  | some x =>
    have merged : s.attentionEdge p = s.setEngine p { s.engine p with attention := some { x with merged := true } } := by
      unfold State.attentionEdge
      rw [hattn]
    rw [merged]
    refine ⟨rfl, fun q hq => State.engine_other _ _ _ q hq, rfl, fun y hy => ?_, nofun⟩
    obtain rfl := Option.some.inj hy
    exact ⟨State.engine_self _ _ _, rfl, rfl, rfl⟩
  | none =>
    have event : s.attentionEdge p = s.attentionEvent p := by
      unfold State.attentionEdge
      rw [hattn]
    obtain ⟨hother, hrest, hadmitted, hwaits⟩ := attention_offered hattn _ rfl
      (x := { pstat := (s.pin p).pstat, merged := false })
    rw [event]
    unfold State.attentionEvent
    generalize (s.setEngine p { s.engine p with attention := some { pstat := (s.pin p).pstat, merged := false } }).offer
      (.attention p) = u at *
    obtain ⟨en, nt, rfl⟩ : ∃ en nt, u = { s with engines := en, notices := nt } :=
      ⟨u.engines, u.notices, (congrArg (fun t : State => { t with engines := u.engines, notices := u.notices }) hrest :)⟩
    by_cases hwake : s.part.state = .sleeping ∧ s.settings.wakeOnAttention = true
    · dsimp only
      rw [if_pos hwake]
      exact ⟨rfl, hother, rfl, nofun, fun _ => ⟨hadmitted, hwaits, fun _ => ⟨rfl, rfl⟩, fun k => absurd hwake k⟩⟩
    · dsimp only
      rw [if_neg hwake]
      exact ⟨rfl, hother, rfl, nofun, fun _ => ⟨hadmitted, hwaits, fun k => absurd k hwake, fun _ => ⟨rfl, rfl⟩⟩⟩

/-- Settles O51: HOLDN by the offer that follows it, ATTN by what a qualifying edge does to the sampled state. -/
theorem holdAndAttentionPins : Obligations.HoldAndAttentionPins := by
  unfold Obligations.HoldAndAttentionPins
  refine ⟨fun s p lines j rest hr hready hheld hq hj hw => holdn_deasserted hr hready hheld hq hj hw,
    fun s p lines hr => ⟨exec_attnEdge_none, fun henable hattn hpart => ?_⟩⟩
  refine ⟨(s.sample lines).attentionEdge p, exec_attnEdge hr henable hattn hpart, ?_⟩
  have spec := attentionEdge_spec (s.sample lines) p
  have pstat : ((s.sample lines).pin p).pstat = lines[p].pstat := by rw [(sample_spec s lines).1 p]
  rw [pstat] at spec
  obtain ⟨pins, e⟩ := sample_eq_pins s lines
  rw [e] at spec ⊢
  obtain ⟨hpins, hother, hrest, hmerged, hnew⟩ := spec
  exact ⟨hpins, hother, (congrArg (fun t : State => { t with pins := s.pins }) hrest :), hmerged, hnew⟩

end Sys2Proof.Machine
end

