-- ==== Sys2Proof/Proofs/Scrub.lean ====
section
/-! PROOF. The patrol scrub (R104 to R110): its rows, the results of its accesses, and its timer. -/

namespace Sys2Proof.Machine

open Sys2Proof.Safety

-- One thread: the whole text is checked under a memory limit that holds a bounded number of thread stacks.
set_option Elab.async false

/-! ### The scrub goes on -/

theorem scrubAllowed_iff {s : State} : s.scrubAllowed = true ↔ 1 ≤ s.settings.scrubRate.toNat ∧ s.part.state = .ready ∧
    s.part.sleepEntry = false ∧ s.maint.op = .none := by
  unfold State.scrubAllowed
  simp [and_assoc]

theorem scrubAdvance_off {s : State} (h : s.scrubAllowed = false) : s.scrubAdvance = s := by
  unfold State.scrubAdvance
  rw [h]
  rfl

section
variable {s : State} (ha : s.scrubAllowed = true)
include ha

theorem scrubAdvance_atPassEnd (hv : s.maint.scrub.visit = .atPassEnd) : s.scrubAdvance = s := by
  unfold State.scrubAdvance
  simp [ha, hv]

theorem scrubAdvance_unowed (hv : s.maint.scrub.visit = .betweenRows) (hc : s.maint.scrub.credit = false) :
    s.scrubAdvance = s := by
  unfold State.scrubAdvance
  simp [ha, hv, hc]

theorem scrubAdvance_owed (hv : s.maint.scrub.visit = .betweenRows) (hc : s.maint.scrub.credit = true)
    (hr : s.maint.scrub.resumeAtExpiry = false) :
    s.scrubAdvance = if s.maintPosted then s.beginRow else s.beginRow.postScrubRead := by
  have visit : s.beginRow.maint.scrub.visit = .inRow := rfl
  have resume : s.beginRow.maint.scrub.resumeAtExpiry = false := hr
  have same : s.beginRow.maintPosted = s.maintPosted := rfl
  unfold State.scrubAdvance
  cases hm : s.maintPosted <;> simp [ha, hv, hc, visit, resume, same, hm]

theorem scrubAdvance_inRow (hv : s.maint.scrub.visit = .inRow) : s.scrubAdvance =
    if s.maint.scrub.resumeAtExpiry = false ∧ s.maintPosted = false then s.postScrubRead else s := by
  unfold State.scrubAdvance
  simp [ha, hv]

end

/-! ### The results of its accesses -/

section
variable {s : State} {a : Access} {rs : List WordResult}

/-- The scrub with the words of a read's result counted (R105). -/
def State.scrubCounted (s : State) (rs : List WordResult) : State := s.setScrub { s.maint.scrub with
  corrected := s.maint.scrub.corrected + correctedWords rs, uncorrectable := s.maint.scrub.uncorrectable + uncorrectableWords rs }

theorem scrubResult_discarded (h : s.maint.scrub.discardResult = true) :
    s.scrubResult a rs = (s.setScrub { s.maint.scrub with discardResult := false }).scrubAdvance := by
  unfold State.scrubResult
  rw [h]
  rfl

theorem scrubResult_read (h : s.maint.scrub.discardResult = false) (ha : a.kind = .read) : s.scrubResult a rs =
    if correctedWords rs = 0 then (s.scrubCounted rs).burstDone.scrubAdvance
    else (s.scrubCounted rs).post { a with kind := rewriteKind rs, condition := .waiting } := by
  unfold State.scrubResult
  rw [h, ha]
  rfl

theorem scrubResult_write {data : List Word} {masks : List (BitVec 4)} (h : s.maint.scrub.discardResult = false)
    (ha : a.kind = .write data masks) : s.scrubResult a rs = s.burstDone.scrubAdvance := by
  unfold State.scrubResult
  rw [h, ha]
  rfl

theorem correctedWords_none (h : ∀ x ∈ rs, x.outcome ≠ some .corrected) : correctedWords rs = 0 := by
  unfold correctedWords
  rw [List.length_eq_zero_iff, List.filter_eq_nil_iff]
  exact fun x hx => by simpa [WordResult.isCorrected] using h x hx

theorem correctedWords_some (h : ∃ x ∈ rs, x.outcome = some .corrected) : correctedWords rs ≠ 0 := by
  obtain ⟨x, hx, he⟩ := h
  exact Nat.pos_iff_ne_zero.1 (List.length_pos_of_mem (List.mem_filter.2 ⟨hx, decide_eq_true he⟩))

theorem rewriteKind_eq (rs : List WordResult) : rewriteKind rs =
    .write (rs.map WordResult.data) (rs.map fun x => if x.outcome = some .corrected then 15 else 0) := by
  unfold rewriteKind WordResult.isCorrected
  simp

theorem scrubResult_spec (s : State) (a : Access) (rs : List WordResult) :
    (s.maint.scrub.discardResult = true → s.scrubResult a rs =
      ({ s with maint := { s.maint with scrub := { s.maint.scrub with discardResult := false } } } : State).scrubAdvance) ∧
    (s.maint.scrub.discardResult = false → ∀ u : State,
      u = { s with maint := { s.maint with scrub := { s.maint.scrub with
        corrected := s.maint.scrub.corrected + (rs.filter fun x => decide (x.outcome = some .corrected)).length,
        uncorrectable := s.maint.scrub.uncorrectable +
          (rs.filter fun x => decide (x.outcome = some .uncorrectable)).length } } } →
      (a.kind = .read → (∃ x ∈ rs, x.outcome = some .corrected) →
        s.scrubResult a rs = u.post { a with
          kind := .write (rs.map WordResult.data) (rs.map fun x => if x.outcome = some .corrected then 15 else 0),
          condition := .waiting }) ∧
      (a.kind = .read → (∀ x ∈ rs, x.outcome ≠ some .corrected) → s.scrubResult a rs = u.burstDone.scrubAdvance) ∧
      ∀ (data : List Word) (masks : List (BitVec 4)), a.kind = .write data masks →
        s.scrubResult a rs = s.burstDone.scrubAdvance) := by
  refine ⟨fun h => scrubResult_discarded h, fun h u hu => ?_⟩
  obtain rfl : u = s.scrubCounted rs := hu
  refine ⟨fun ha hsome => ?_, fun ha hnone => ?_, fun data masks ha => scrubResult_write h ha⟩
  · rw [scrubResult_read h ha, if_neg (correctedWords_some hsome), rewriteKind_eq]
  · rw [scrubResult_read h ha, if_pos (correctedWords_none hnone)]

end

/-! ### The end of a burst, of a row and of a pass -/

section
variable {s : State}

theorem burstDone_inRow (h : s.maint.scrub.burst + 1 < 64) : s.burstDone =
    s.setScrub { s.maint.scrub with burst := s.maint.scrub.burst + 1 } := if_pos h

theorem burstDone_row (h : 64 ≤ s.maint.scrub.burst + 1) (hp : s.maint.scrub.position + 1 < 131072) : s.burstDone =
    s.setScrub { s.maint.scrub with
      position := s.maint.scrub.position + 1, burst := 0, visit := .betweenRows, resumeAtExpiry := false } :=
  (if_neg (Nat.not_lt.2 h)).trans (if_pos hp)

theorem burstDone_pass (h : 64 ≤ s.maint.scrub.burst + 1) (hp : 131072 ≤ s.maint.scrub.position + 1) :
    s.burstDone = s.endPass := (if_neg (Nat.not_lt.2 h)).trans (if_neg (Nat.not_lt.2 hp))

/-- The pass ends with its notice admitted, or with the notice waiting (R107). -/
theorem endPass_spec (s : State) (pass : PassReport) (ended : Scrub)
    (hpass : pass = { passNumber := s.maint.scrub.passNumber + 1, corrected := s.maint.scrub.corrected,
                      uncorrectable := s.maint.scrub.uncorrectable })
    (hended : ended = { s.maint.scrub with
      passNumber := s.maint.scrub.passNumber + 1, position := 0, burst := 0, corrected := 0, uncorrectable := 0,
      resumeAtExpiry := false }) :
    (s.notices.outbox.length < 16 → s.ordinaryCount < 12 →
      s.endPass.maint = { s.maint with scrub := { ended with visit := .betweenRows, waitingPass := none } } ∧
      s.endPass.notices = admitted s.notices (freshNotice s.admissionNumber (.scrubPass pass)) ∧
      { s.endPass with maint := s.maint, notices := s.notices } = s) ∧
    ((16 ≤ s.notices.outbox.length ∨ 12 ≤ s.ordinaryCount) →
      s.endPass = { s with
        maint := { s.maint with scrub := { ended with visit := .atPassEnd, waitingPass := some pass } },
        notices := { s.notices with waiting := s.notices.waiting ++ [.scrub] } }) := by
  have e : s.endPass = (s.setScrub { ended with visit := .atPassEnd, waitingPass := some pass }).offer .scrub := by
    subst hpass hended
    rfl
  rw [e]
  refine ⟨fun ho hc => ?_, fun hfull => State.offer_waits hfull⟩
  obtain ⟨⟨hmaint, hrest⟩, hnotices⟩ := State.offer_admitted
    (s := s.setScrub { ended with visit := .atPassEnd, waitingPass := some pass }) (x := .scrub) ho hc rfl
  exact ⟨hmaint, hnotices, (congrArg (fun t : State => { t with maint := s.maint }) hrest :)⟩

end

/-! ### The scrub timer -/

theorem exec_scrubTimer_stopped {s : State} (h : s.maint.scrub.timer = none) : exec .scrubTimerExpiry s = .next s := by
  show execScrubTimerExpiry s = _
  unfold execScrubTimerExpiry
  rw [h]

theorem exec_scrubTimer_runs {s : State} (h : s.maint.scrub.timer.isSome = true) :
    exec .scrubTimerExpiry s = .next s.restartScrubTimer.scrubExpiry.scrubAdvance.schedule := by
  obtain ⟨x, hx⟩ := Option.isSome_iff_exists.1 h
  show execScrubTimerExpiry s = _
  unfold execScrubTimerExpiry
  rw [hx]

/-- A row is due, and the scrub may begin it. -/
theorem scrubExpiry_row {s : State} (ha : s.scrubAllowed = true) (hv : s.maint.scrub.visit = .betweenRows)
    (hr : s.maint.scrub.resumeAtExpiry = false) :
    s.scrubExpiry.scrubAdvance = if s.maintPosted then s.beginRow else s.beginRow.postScrubRead := by
  have begun : s.scrubExpiry = s.beginRow := if_pos ⟨ha, hv⟩
  rw [begun, scrubAdvance_inRow (show s.beginRow.scrubAllowed = true from ha) rfl]
  show (if s.maint.scrub.resumeAtExpiry = false ∧ s.maintPosted = false then _ else _) = _
  cases hm : s.maintPosted <;> simp [hr]

/-- The row credit is set in any other case. -/
theorem scrubExpiry_credit {s : State} (h : s.scrubAllowed = false ∨ s.maint.scrub.visit ≠ .betweenRows) :
    s.scrubExpiry = s.setScrub { s.maint.scrub with credit := true } :=
  if_neg fun ⟨ha, hv⟩ => h.elim (fun k => by simp [ha] at k) fun k => k hv

/-- A row in hand goes on at its burst. -/
theorem scrubExpiry_inRow {s : State} (ha : s.scrubAllowed = true) (hv : s.maint.scrub.visit = .inRow)
    (hr : s.maint.scrub.resumeAtExpiry = false) : s.scrubExpiry.scrubAdvance =
      if s.maintPosted then s.setScrub { s.maint.scrub with credit := true }
      else (s.setScrub { s.maint.scrub with credit := true }).postScrubRead := by
  rw [scrubExpiry_credit (.inr (by rw [hv]; nofun)),
    scrubAdvance_inRow (show (s.setScrub { s.maint.scrub with credit := true }).scrubAllowed = true from ha) hv]
  show (if s.maint.scrub.resumeAtExpiry = false ∧ s.maintPosted = false then _ else _) = _
  cases hm : s.maintPosted <;> simp [hr]

/-- An expiry that begins nothing sets the credit alone. -/
theorem scrubExpiry_rest {s : State} (h : s.scrubAllowed = false ∨ s.maint.scrub.visit = .atPassEnd) :
    s.scrubExpiry.scrubAdvance = s.setScrub { s.maint.scrub with credit := true } := by
  rw [scrubExpiry_credit (h.imp_right fun hv => by rw [hv]; nofun)]
  by_cases ha : s.scrubAllowed = true
  · exact scrubAdvance_atPassEnd (show (s.setScrub { s.maint.scrub with credit := true }).scrubAllowed = true from ha)
      (h.resolve_left (by simp [ha]))
  · exact scrubAdvance_off (show (s.setScrub { s.maint.scrub with credit := true }).scrubAllowed = false from
        Bool.eq_false_iff.2 ha)

/-- What an expiry of the running timer has done when the scheduler has its turn. -/
structure Expired (s v : State) : Prop where
  scrub : v.maint.scrub.timer = (if s.settings.scrubRate = 0 then none else some s.settings.scrubRate) ∧
    v.maint.scrub.position = s.maint.scrub.position ∧ v.maint.scrub.passNumber = s.maint.scrub.passNumber
  rest : v.mem = s.mem ∧ v.jobs = s.jobs ∧ v.link = s.link ∧ v.notices = s.notices
  row : s.scrubAllowed = true → s.maint.scrub.visit = .betweenRows →
    v.maint.scrub.visit = .inRow ∧ v.maint.scrub.burst = 0 ∧ v.maint.scrub.credit = false ∧
    v.media = { s.media with scrubMark := none } ∧
    (s.maintPosted = false → v.accesses = s.accesses ++ [scrubAccess s.maint.scrub.position 0 .read]) ∧
    (s.maintPosted = true → v.accesses = s.accesses)
  inRow : s.scrubAllowed = true → s.maint.scrub.visit = .inRow →
    v.maint.scrub.burst = s.maint.scrub.burst ∧ v.maint.scrub.resumeAtExpiry = false ∧
    (s.maintPosted = false → v.accesses =
      s.accesses ++ [scrubAccess s.maint.scrub.position s.maint.scrub.burst .read]) ∧
    (s.maintPosted = true → v.accesses = s.accesses)
  credit : (s.scrubAllowed = false ∨ s.maint.scrub.visit ≠ .betweenRows) →
    v.maint.scrub.visit = s.maint.scrub.visit ∧ v.maint.scrub.credit = true ∧ v.media = s.media
  idle : (s.scrubAllowed = false ∨ s.maint.scrub.visit = .atPassEnd) → v.accesses = s.accesses

theorem beginRow_restarted (s : State) : s.restartScrubTimer.beginRow = { s with
    maint := { s.maint with scrub := { s.maint.scrub with
      timer := if s.settings.scrubRate = 0 then none else some s.settings.scrubRate, resumeAtExpiry := false,
      visit := .inRow, burst := 0, credit := false } },
    media := { s.media with scrubMark := none } } := rfl

theorem expired_row {s : State} (ha : s.scrubAllowed = true) (hv : s.maint.scrub.visit = .betweenRows) :
    Expired s s.restartScrubTimer.scrubExpiry.scrubAdvance := by
  rw [scrubExpiry_row (s := s.restartScrubTimer) ha hv rfl, beginRow_restarted,
    show s.restartScrubTimer.maintPosted = s.maintPosted from rfl]
  have away (k : s.scrubAllowed = false) : False := by rw [ha] at k; cases k
  cases hm : s.maintPosted
  · rw [if_neg Bool.false_ne_true]
    exact ⟨⟨rfl, rfl, rfl⟩, ⟨rfl, rfl, rfl, rfl⟩, fun _ _ => ⟨rfl, rfl, rfl, rfl, fun _ => rfl, fun k => absurd (hm.symm.trans k) (by decide)⟩,
      fun _ k => absurd (hv.symm.trans k) (by decide), fun k => k.elim (fun k => (away k).elim) fun k => absurd hv k,
      fun k => k.elim (fun k => (away k).elim) fun k => absurd (hv.symm.trans k) (by decide)⟩
  · rw [if_pos rfl]
    exact ⟨⟨rfl, rfl, rfl⟩, ⟨rfl, rfl, rfl, rfl⟩, fun _ _ => ⟨rfl, rfl, rfl, rfl, fun k => absurd (hm.symm.trans k) (by decide), fun _ => rfl⟩,
      fun _ k => absurd (hv.symm.trans k) (by decide), fun k => k.elim (fun k => (away k).elim) fun k => absurd hv k,
      fun k => k.elim (fun k => (away k).elim) fun k => absurd (hv.symm.trans k) (by decide)⟩

theorem expired_inRow {s : State} (ha : s.scrubAllowed = true) (hv : s.maint.scrub.visit = .inRow) :
    Expired s s.restartScrubTimer.scrubExpiry.scrubAdvance := by
  rw [scrubExpiry_inRow (s := s.restartScrubTimer) ha hv rfl, show s.restartScrubTimer.maintPosted = s.maintPosted from rfl]
  have away (k : s.scrubAllowed = false ∨ s.maint.scrub.visit = .atPassEnd) : False := by
    rw [ha, hv] at k
    rcases k with k | k <;> cases k
  cases hm : s.maintPosted
  · rw [if_neg Bool.false_ne_true]
    exact ⟨⟨rfl, rfl, rfl⟩, ⟨rfl, rfl, rfl, rfl⟩, fun _ k => absurd (hv.symm.trans k) (by decide),
      fun _ _ => ⟨rfl, rfl, fun _ => rfl, fun k => absurd (hm.symm.trans k) (by decide)⟩, fun _ => ⟨rfl, rfl, rfl⟩, fun k => (away k).elim⟩
  · rw [if_pos rfl]
    exact ⟨⟨rfl, rfl, rfl⟩, ⟨rfl, rfl, rfl, rfl⟩, fun _ k => absurd (hv.symm.trans k) (by decide),
      fun _ _ => ⟨rfl, rfl, fun k => absurd (hm.symm.trans k) (by decide), fun _ => rfl⟩, fun _ => ⟨rfl, rfl, rfl⟩, fun k => (away k).elim⟩

theorem expired_rest {s : State} (h : s.scrubAllowed = false ∨ s.maint.scrub.visit = .atPassEnd) :
    Expired s s.restartScrubTimer.scrubExpiry.scrubAdvance := by
  rw [scrubExpiry_rest (s := s.restartScrubTimer) h]
  have away {x : Visit} (ha : s.scrubAllowed = true) (k : s.maint.scrub.visit = x) (hx : x ≠ .atPassEnd) : False := by
    rw [ha, k] at h
    exact h.elim nofun hx
  exact ⟨⟨rfl, rfl, rfl⟩, ⟨rfl, rfl, rfl, rfl⟩, fun ha k => (away ha k (by decide)).elim, fun ha k => (away ha k (by decide)).elim,
    fun _ => ⟨rfl, rfl, rfl⟩, fun _ => rfl⟩

theorem expired (s : State) : Expired s s.restartScrubTimer.scrubExpiry.scrubAdvance := by
  by_cases ha : s.scrubAllowed = true
  · cases hv : s.maint.scrub.visit with
    | betweenRows => exact expired_row ha hv
    | inRow => exact expired_inRow ha hv
    | atPassEnd => exact expired_rest (.inr hv)
  · exact expired_rest (.inl (Bool.eq_false_iff.2 ha))

/-- Settles O52: the cases of `scrubAdvance`, of a result and of a burst's end, and for the timer what stands when the
scheduler has its turn, which posts nothing and leaves the scrub alone. -/
theorem scrubTimerBeginsARow : Obligations.ScrubTimerBeginsARow := by
  unfold Obligations.ScrubTimerBeginsARow
  refine ⟨fun s => ⟨scrubAllowed_iff, scrubAdvance_off, fun ha => ⟨scrubAdvance_atPassEnd ha, scrubAdvance_unowed ha,
    fun hv hc hr => ⟨s.beginRow, rfl, fun hm => ?_, fun hm => ?_⟩, fun hv => ⟨fun h => ?_, fun hr hm => ?_⟩⟩⟩,
    scrubResult_spec, fun s => ⟨burstDone_inRow, burstDone_row, fun h hp pass ended hpass hended => ?_⟩,
    fun s => ⟨exec_scrubTimer_stopped, fun h => ⟨_, exec_scrubTimer_runs h, ?_⟩⟩⟩
  · rw [scrubAdvance_owed ha hv hc hr, if_pos hm]
  · rw [scrubAdvance_owed ha hv hc hr, if_neg (by simp [hm])]
    rfl
  · rw [scrubAdvance_inRow ha hv, if_neg fun ⟨hr, hm⟩ => by simp [hr, hm] at h]
  · rw [scrubAdvance_inRow ha hv, if_pos ⟨hr, hm⟩]
    rfl
  · rw [burstDone_pass h hp]
    exact endPass_spec s pass ended hpass hended
  · obtain ⟨⟨htimer, hposition, hnumber⟩, ⟨hmem, hjobs, hlink, hnotices⟩, hrow, hinRow, hcredit, hidle⟩ := expired s
    generalize s.restartScrubTimer.scrubExpiry.scrubAdvance = v at *
    obtain ⟨⟨ac, bk, op, fc, e⟩, hposted, -⟩ := Scheduled.schedule v
    generalize v.schedule = t at *
    have scrub : t.maint.scrub = v.maint.scrub := by rw [e]
    have media : t.media = v.media := by rw [e]
    rw [scrub, media, hposted]
    refine ⟨htimer, hposition, hnumber, by rw [e]; exact hmem, by rw [e]; exact hjobs, by rw [e]; exact hlink,
      by rw [e]; exact hnotices, fun ha hv => ?_, fun ha hv => ?_, hcredit, fun h => by rw [hidle h]⟩
    · obtain ⟨hvisit, hburst, hnone, hmark, hpost, hstand⟩ := hrow ha hv
      exact ⟨hvisit, hburst, hnone, hmark, fun hm => by rw [hpost hm, List.map_append]; rfl, fun hm => by rw [hstand hm]⟩
    · obtain ⟨hburst, hresume, hpost, hstand⟩ := hinRow ha hv
      exact ⟨hburst, hresume, fun hm => by rw [hpost hm, List.map_append]; rfl, fun hm => by rw [hstand hm]⟩

end Sys2Proof.Machine
end

