-- ==== Sys2Proof/Proofs/Copy.lean ====
section
/-! PROOF. The ends of a repair's copy and of its fuse programming (R118 to R121). -/

namespace Sys2Proof.Machine

open Sys2Proof.Safety

-- One thread: the whole text is checked under a memory limit that holds a bounded number of thread stacks.
set_option Elab.async false

/-! ### The scheduler and the transmitter after it -/

/-- What a row's decisions and the transmitter can change between them. -/
theorem scheduled_transmit_eq (s : State) : ∃ ac bk op fc lk pr nt, s.schedule.transmit = { s with
    accesses := ac, banks := bk, maint := { s.maint with op := op }, freeCtr := fc, link := lk, proc := pr, notices := nt } := by
  obtain ⟨⟨ac, bk, op, fc, e⟩, -, -⟩ := Scheduled.schedule s
  obtain ⟨lk, pr, nt, e'⟩ := Outward.transmit s.schedule
  exact ⟨ac, bk, op, fc, lk, pr, nt, by rw [e', e]⟩

theorem schedule_op_stands {s : State} (h : ∀ r : RepairRecord, s.maint.op = .repair r → r.phase ≠ .claiming) :
    s.schedule.maint.op = s.maint.op :=
  (schedule_op s).resolve_right fun ⟨r, hr, hc, _⟩ => h r hr hc

theorem transmit_op (s : State) : s.transmit.maint.op = s.maint.op := by
  obtain ⟨_, _, _, e⟩ := Outward.transmit s
  rw [e]

theorem not_repairing_scheduled {s : State} {b : Bank} (hb : (s.bank b).state ≠ .repairing) (hc : ¬Claims s b) :
    (s.schedule.transmit.bank b).state ≠ .repairing := by
  rw [transmit_bank]
  exact (schedule_moves s b).not_repairing hb hc

theorem not_claims {s : State} (h : ∀ r : RepairRecord, s.maint.op = .repair r → r.phase ≠ .claiming)
    (hc : ∀ c, s.maint.op ≠ .clear c) (b : Bank) : ¬Claims s b := by
  rintro (⟨k, -⟩ | ⟨r, k, hp, -⟩)
  · exact hc _ k
  · exact h r k hp

/-- The number and the body of a notice. -/
def numbered (n : Notice) : Byte × NoticeBody := (n.number, n.body)

/-- The transmitter leaves each notice its number and its body, and lets no producer go on. -/
theorem transmit_notices (s : State) : s.transmit.notices.outbox.map numbered = s.notices.outbox.map numbered ∧
    s.transmit.notices.waiting = s.notices.waiting := by
  unfold State.transmit
  split
  · exact ⟨rfl, rfl⟩
  · split
    · exact ⟨rfl, rfl⟩
    · split
      · exact ⟨rfl, rfl⟩
      · split
        · rw [releaseHeld_notices]
          exact ⟨rfl, rfl⟩
        · split
          · split
            · refine ⟨?_, rfl⟩
              show (s.notices.outbox.map _).map numbered = _
              rw [List.map_map]
              refine List.map_congr_left fun n _ => ?_
              simp only [Function.comp]
              split <;> rfl
            · exact ⟨rfl, rfl⟩
          · exact ⟨rfl, rfl⟩

/-! ### A repair reports its outcome -/

/-- What `reportRepair` leaves (R121). -/
structure RepairReported (s : State) (r : RepairRecord) (o : RepairOutcome) (t : State) : Prop where
  rest : ∃ mt ac mk nt, t = { s with
    maint := mt, accesses := ac, media := { s.media with scrubMark := mk }, notices := nt }
  room : s.notices.outbox.length < 16 → s.ordinaryCount < 12 → t.maint.op = .none ∧
    t.notices = admitted s.notices (freshNotice s.admissionNumber (.repairEnd r.bank r.row r.kind (some o) r.uncorrectable))
  full : (16 ≤ s.notices.outbox.length ∨ 12 ≤ s.ordinaryCount) →
    t.maint.op = .repair { r with phase := .reporting, outcome := some o } ∧
    t.notices = { s.notices with waiting := s.notices.waiting ++ [.repair] }

theorem reportRepair_spec (s : State) (r : RepairRecord) (o : RepairOutcome) : RepairReported s r o (s.reportRepair r o) := by
  unfold State.reportRepair
  generalize hv : s.setOp (.repair { r with phase := .reporting, outcome := some o }) = v
  have hop : v.maint.op = .repair { r with phase := .reporting, outcome := some o } := by rw [← hv]; rfl
  have hmaint : { v with maint := s.maint } = s := by rw [← hv]; rfl
  have hnotices : v.notices = s.notices := by rw [← hv]; rfl
  have hcount : v.ordinaryCount = s.ordinaryCount := by rw [← hv]; rfl
  have hnumber : v.admissionNumber = s.admissionNumber := by rw [← hv]; rfl
  obtain ⟨ac, sc, mk, e⟩ := scrubAdvance_eq (v.offer .repair)
  rw [e]
  by_cases room : s.notices.outbox.length < 16 ∧ s.ordinaryCount < 12
  · obtain ⟨⟨hop', hrest⟩, hadmitted⟩ := State.offer_admitted (x := .repair) (by rw [hnotices]; exact room.1)
      (by rw [hcount]; exact room.2) (State.bodyOf_repair hop)
    rw [hnumber, hnotices] at hadmitted
    generalize v.offer .repair = u at *
    obtain ⟨mt, nt, rfl⟩ : ∃ mt nt, u = { v with maint := mt, notices := nt } :=
      ⟨u.maint, u.notices, (congrArg (fun w : State => { w with maint := u.maint, notices := u.notices }) hrest :)⟩
    obtain ⟨mt', rfl⟩ : ∃ mt, v = { s with maint := mt } :=
      ⟨v.maint, (congrArg (fun w : State => { w with maint := v.maint }) hmaint :)⟩
    refine ⟨⟨_, _, _, _, rfl⟩, fun _ _ => ⟨?_, hadmitted⟩, fun h => by omega⟩
    exact (congrArg Maint.op hop' :)
  · have full : 16 ≤ s.notices.outbox.length ∨ 12 ≤ s.ordinaryCount := by omega
    rw [State.offer_waits (s := v) (by rw [hnotices, hcount]; exact full)]
    obtain ⟨mt', rfl⟩ : ∃ mt, v = { s with maint := mt } :=
      ⟨v.maint, (congrArg (fun w : State => { w with maint := v.maint }) hmaint :)⟩
    exact ⟨⟨_, _, _, _, rfl⟩, fun ho hc => absurd ⟨ho, hc⟩ room, fun _ => ⟨hop, rfl⟩⟩

namespace RepairReported
variable {s t : State} {r : RepairRecord} {o : RepairOutcome}

theorem op (h : RepairReported s r o t) :
    t.maint.op = .none ∨ t.maint.op = .repair { r with phase := .reporting, outcome := some o } := by
  by_cases room : s.notices.outbox.length < 16 ∧ s.ordinaryCount < 12
  · exact .inl (h.room room.1 room.2).1
  · exact .inr (h.full (by omega)).1

theorem not_claiming (h : RepairReported s r o t) (r' : RepairRecord) (hr : t.maint.op = .repair r') : r'.phase ≠ .claiming := by
  rcases h.op with e | e
  · rw [e] at hr
    cases hr
  · rw [e] at hr
    cases hr
    exact nofun

theorem not_clear (h : RepairReported s r o t) (c : ClearStep) : t.maint.op ≠ .clear c := by
  rcases h.op with e | e <;> rw [e] <;> nofun

/-- The report once the scheduler and the transmitter have had their turns. -/
theorem after (h : RepairReported s r o t) :
    (s.notices.outbox.length < 16 → s.ordinaryCount < 12 → t.schedule.transmit.maint.op = .none ∧
      ∃ n ∈ t.schedule.transmit.notices.outbox, n.number = s.admissionNumber ∧
        n.body = .repairEnd r.bank r.row r.kind (some o) r.uncorrectable) ∧
    ((16 ≤ s.notices.outbox.length ∨ 12 ≤ s.ordinaryCount) →
      t.schedule.transmit.maint.op = .repair { r with phase := .reporting, outcome := some o } ∧
      t.schedule.transmit.notices.waiting = s.notices.waiting ++ [.repair]) := by
  have notices : t.schedule.notices = t.notices := by
    obtain ⟨⟨_, _, _, _, e⟩, -, -⟩ := Scheduled.schedule t
    rw [e]
  obtain ⟨houtbox, hwaiting⟩ := transmit_notices t.schedule
  rw [notices] at houtbox hwaiting
  rw [transmit_op, schedule_op_stands h.not_claiming, hwaiting]
  refine ⟨fun ho hc => ⟨(h.room ho hc).1, ?_⟩, fun hfull => ⟨(h.full hfull).1, by rw [(h.full hfull).2]⟩⟩
  rw [(h.room ho hc).2] at houtbox
  have mem : (s.admissionNumber, NoticeBody.repairEnd r.bank r.row r.kind (some o) r.uncorrectable) ∈
      t.schedule.transmit.notices.outbox.map numbered := by
    rw [houtbox]
    exact List.mem_map.2 ⟨_, List.mem_append_right _ (List.mem_singleton_self _), rfl⟩
  obtain ⟨n, hn, e⟩ := List.mem_map.1 mem
  exact ⟨n, hn, congrArg Prod.fst e, congrArg Prod.snd e⟩

end RepairReported

/-! ### The end of fuse programming -/

theorem fuseOf_self (s : State) (b : Bank) (i : Slot) (x : FuseSlot) : (s.setFuse b i x).fuseOf b i = x := by
  simp [State.setFuse, State.fuseOf]

theorem fuseOf_other (s : State) {b c : Bank} {i m : Slot} (x : FuseSlot) (h : c ≠ b ∨ m ≠ i) :
    (s.setFuse b i x).fuseOf c m = s.fuseOf c m := by
  unfold State.setFuse State.fuseOf
  by_cases hc : b = c
  · subst hc
    have hm : ¬i.val = m.val := fun e => (h.resolve_left (fun k => k rfl)) (Fin.ext e.symm)
    simp [hm]
  · have hb : ¬b.val = c.val := fun e => hc (Fin.ext e)
    simp [hb]

theorem exec_fuseVerify {s : State} {pass : Bool} {r : RepairRecord} {m : Slot} (hop : s.maint.op = .repair r)
    (hphase : r.phase = .programming) (hslot : r.fuseSlot = some m) :
    exec (.fuseVerify pass) s = .next (s.endProgramming r m pass).schedule.transmit := by
  show execFuseVerify pass s = _
  unfold execFuseVerify
  simp only [hop, hphase, hslot]

/-- What a verify result does to the slot and to the entry, before the report (R120). -/
def verified (s : State) (r : RepairRecord) (m : Slot) (pass : Bool) : State :=
  if pass then (s.setFuse r.bank m (.used r.row r.target)).hardenEntry r.bank r.row else s.setFuse r.bank m .spoiled

theorem endProgramming_eq (s : State) (r : RepairRecord) (m : Slot) (pass : Bool) :
    s.endProgramming r m pass = (verified s r m pass).reportRepair r (if pass then .ok else .fuseFail) := by
  cases pass <;> rfl

theorem verified_spec (s : State) (r : RepairRecord) (m : Slot) (pass : Bool) :
    (verified s r m pass).fuseOf r.bank m = (if pass then .used r.row r.target else .spoiled) ∧
      (∀ (b : Bank) (m' : Slot), (b ≠ r.bank ∨ m' ≠ m) → (verified s r m pass).fuseOf b m' = s.fuseOf b m') ∧
      (verified s r m pass).remapOf r.bank =
        (if pass then (s.remapOf r.bank).map fun e => if e.row = r.row then { e with kind := .hard } else e
        else s.remapOf r.bank) ∧
      (∀ b : Bank, b ≠ r.bank → (verified s r m pass).remapOf b = s.remapOf b) ∧
      { verified s r m pass with fuses := s.fuses, remap := s.remap } = s := by
  cases pass
  · exact ⟨fuseOf_self _ _ _ _, fun b m' h => fuseOf_other s _ h, rfl, fun _ _ => rfl, rfl⟩
  · exact ⟨fuseOf_self _ _ _ _, fun b m' h => fuseOf_other s _ h, State.remapOf_self _ _ _,
      fun b hb => State.remapOf_other _ _ _ b hb, rfl⟩

/-- Settles O54: the report that follows leaves the fuses, the entries and the array as the verify result makes them. -/
theorem fuseVerifyEndsProgramming : Obligations.FuseVerifyEndsProgramming := by
  unfold Obligations.FuseVerifyEndsProgramming
  intro s pass r m hop hphase hslot
  refine ⟨_, exec_fuseVerify hop hphase hslot, ?_⟩
  rw [endProgramming_eq]
  obtain ⟨hslot, hslots, hremap, hremaps, hrest⟩ := verified_spec s r m pass
  generalize verified s r m pass = u at *
  obtain ⟨fu, rm, rfl⟩ : ∃ fu rm, u = { s with fuses := fu, remap := rm } :=
    ⟨u.fuses, u.remap, (congrArg (fun w : State => { w with fuses := u.fuses, remap := u.remap }) hrest :)⟩
  have reported := reportRepair_spec { s with fuses := fu, remap := rm } r (if pass then .ok else .fuseFail)
  generalize State.reportRepair _ r (if pass then .ok else .fuseFail) = v at *
  have report := reported.after
  obtain ⟨⟨mt, ac, mk, nt, e⟩, -, -⟩ := reported
  obtain ⟨ac', bk, op, fc, lk, pr, nt', e'⟩ := scheduled_transmit_eq v
  generalize v.schedule.transmit = t at *
  have fuses : t.fuses = fu := by rw [e', e]
  have remap : t.remap = rm := by rw [e', e]
  refine ⟨by rw [e', e], by rw [e', e], ?_, fun b m' h => ?_, ?_, fun b hb => ?_, fun o ho => ho ▸ report⟩
  · exact (congrArg (fun f => f[r.bank][m]) fuses :).trans hslot
  · exact (congrArg (fun f => f[b][m']) fuses :).trans (hslots b m' h)
  · exact (congrArg (fun f => f[r.bank]) remap :).trans hremap
  · exact (congrArg (fun f => f[b]) remap :).trans (hremaps b hb)

end Sys2Proof.Machine
end

