-- ==== Sys2Proof/Proofs/CopyEnd.lean ====
section
/-! PROOF. The end of a repair's copy: the array, the bank and the list (R101, R118 to R120). -/

namespace Sys2Proof.Machine

open Sys2Proof.Safety

-- One thread: the whole text is checked under a memory limit that holds a bounded number of thread stacks.
set_option Elab.async false

/-! ### The words that could not be read -/

theorem byte_decay (m : Memory) (xs : List Decay) (x : Nat) : (m.decay xs).byte x = m.byte x := by
  unfold Memory.decay
  induction xs generalizing m with
  | nil => rfl
  | cons d xs ih =>
    refine (ih (m.decayOne d)).trans ?_
    unfold Memory.decayOne
    split <;> rfl

/-- The copy counts the source's UNCORRECTABLE words (R118). -/
theorem copyWords_bad (src dst : Nat) (hs : src % 4 = 0) (hd : dst % 4 = 0) (n : Nat) : ∀ (m : Memory) (k : Nat),
    (∀ i j : Nat, i < k + n → j < k + n → src + 4 * i ≠ dst + 4 * j) →
    (copyWords src dst m k n).2 =
      ((List.range' k n).filter fun i => decide ((m.read (src + 4 * i)).1 = .uncorrectable)).length := by
  induction n with
  | zero => exact fun _ _ _ => rfl
  | succ n ih =>
    intro m k sep
    have later (d : Word) : ((List.range' (k + 1) n).filter fun i =>
          decide (((m.setWord (dst + 4 * k) d).read (src + 4 * i)).1 = .uncorrectable)) =
        (List.range' (k + 1) n).filter fun i => decide ((m.read (src + 4 * i)).1 = .uncorrectable) := by
      refine List.filter_congr fun i hi => ?_
      obtain ⟨-, hlt⟩ := List.mem_range'_1.1 hi
      rw [read_setWord_other m d (by omega) (by omega) fun h => sep i k (by omega) (by omega) h.symm]
    simp only [copyWords]
    rw [ih _ (k + 1) fun i j hi hj => sep i j (by omega) (by omega), later, List.range'_succ, List.filter_cons]
    split <;> simp_all

theorem copyWords_row_bad (m : Memory) (b : Bank) (row : Row) (i : Spare) :
    (copyWords (rowCell b row .native) (rowCell b row (.spare i)) m 0 512).2 =
      ((List.range 512).filter fun k => decide ((m.read (rowCell b row .native + 4 * k)).1 = .uncorrectable)).length := by
  rw [List.range_eq_range']
  refine copyWords_bad _ _ (by simp only [rowCell]; omega) (by simp only [rowCell, Config.arrayBytes, Config.rowBytes]; omega)
    512 m 0 fun x y hx hy => ?_
  simp only [rowCell, Config.arrayBytes, Config.rowBytes]
  have := b.isLt
  have := row.isLt
  omega

/-! ### The install -/

theorem not_weak_of_dropFirst {l : List WeakEntry} (hl : (l.map fun e => (e.bank, e.row)).Nodup) (b : Bank) (row : Row)
    {e : WeakEntry} (he : e ∈ dropFirst (WeakEntry.isOf b row) l) (hany : l.any (WeakEntry.isOf b row) = true) :
    ¬(e.bank = b ∧ e.row = row) := by
  obtain ⟨x, hx, hof⟩ := List.any_eq_true.1 hany
  obtain ⟨before, after, rfl⟩ := List.append_of_mem hx
  obtain ⟨rfl, rfl⟩ := isOf_iff.1 hof
  rw [List.map_append, List.map_cons, List.nodup_middle] at hl
  have fresh (y : WeakEntry) (hy : y ∈ before ++ after) : ¬(y.bank = x.bank ∧ y.row = x.row) := fun ⟨hb, hr⟩ => by
    refine (List.nodup_cons.1 hl).1 ?_
    rw [← List.map_append, ← hb, ← hr]
    exact List.mem_map_of_mem (f := fun e : WeakEntry => (e.bank, e.row)) hy
  rw [dropFirst_append (fun y hy => isOf_false.2 (fresh y (List.mem_append_left _ hy))) hof] at he
  exact fresh e he

/-- The row's entry, if there is one, leaves the weak-row list, and with it the list-full flag (R101). -/
theorem removeWeak_spec (s : State) (b : Bank) (row : Row) :
    (s.removeWeak b row).media.listFull = (s.media.listFull && !s.media.list.any (WeakEntry.isOf b row)) ∧
      (WeakListBounded s → ∀ e ∈ (s.removeWeak b row).media.list, ¬(e.bank = b ∧ e.row = row)) ∧
      { s.removeWeak b row with media := s.media } = s := by
  unfold State.removeWeak
  split
  · next hany =>
    refine ⟨?_, fun hw e he => not_weak_of_dropFirst hw.2.1 b row he hany, rfl⟩
    rw [hany, Bool.not_true, Bool.and_false]
  · next hnone =>
    rw [Bool.not_eq_true] at hnone
    refine ⟨by rw [hnone, Bool.not_false, Bool.and_true], fun _ e he hof => ?_, rfl⟩
    exact Bool.eq_false_iff.1 hnone (List.any_eq_true.2 ⟨e, he, isOf_iff.2 hof⟩)

theorem install_spec (s : State) (r : RepairRecord) :
    (s.install r).media.listFull = (s.media.listFull &&
        !s.media.list.any fun e => decide (e.bank = r.bank) && decide (e.row = r.row)) ∧
      (WeakListBounded s → ∀ e ∈ (s.install r).media.list, ¬(e.bank = r.bank ∧ e.row = r.row)) ∧
      (s.install r).remapOf r.bank = s.remapOf r.bank ++ [{ row := r.row, spare := r.target, kind := .soft }] ∧
      (∀ b : Bank, b ≠ r.bank → (s.install r).remapOf b = s.remapOf b) ∧
      ((s.install r).bank r.bank).state = .closed ∧
      { s.install r with remap := s.remap, media := s.media, banks := s.banks } = s := by
  unfold State.install
  dsimp only
  generalize hu : s.setRemap r.bank (s.remapOf r.bank ++ [{ row := r.row, spare := r.target, kind := .soft }]) = u
  have hself : u.remapOf r.bank = s.remapOf r.bank ++ [{ row := r.row, spare := r.target, kind := .soft }] := by
    rw [← hu, State.remapOf_self]
  have hother (b : Bank) (hb : b ≠ r.bank) : u.remapOf b = s.remapOf b := by
    rw [← hu, State.remapOf_other _ _ _ b hb]
  obtain ⟨rm, rfl⟩ : ∃ rm, u = { s with remap := rm } := ⟨_, hu.symm⟩
  obtain ⟨hfull, hlist, hrest⟩ := removeWeak_spec { s with remap := rm } r.bank r.row
  generalize State.removeWeak _ r.bank r.row = v at *
  obtain ⟨md, rfl⟩ : ∃ md, v = { s with remap := rm, media := md } :=
    ⟨v.media, (congrArg (fun w : State => { w with media := v.media }) hrest :)⟩
  exact ⟨hfull, hlist, hself, hother, by rw [State.bank_self], rfl⟩

/-! ### Programming begins -/

/-- The lowest FREE slot. -/
theorem freeSlot_some {s : State} {b : Bank} {m : Slot} (h : s.fuseOf b m = .free)
    (hlow : ∀ m' : Slot, m' < m → s.fuseOf b m' ≠ .free) : s.freeSlot b = some m := by
  have split : ∀ m : Slot, ∃ before after : List Slot,
      ([0, 1, 2, 3] : List Slot) = before ++ m :: after ∧ ∀ x ∈ before, x < m := fun m =>
    ⟨(List.finRange 4).take m.val, (List.finRange 4).drop (m.val + 1), by revert m; decide⟩
  obtain ⟨before, after, e, hbefore⟩ := split m
  unfold State.freeSlot
  rw [e, List.find?_append, List.find?_eq_none.2 fun x hx => by simpa using hlow x (hbefore x hx)]
  simp [h]

/-- A repair whose fuse is being programmed. -/
theorem beginProgramming_spec (s : State) (r : RepairRecord) : ∃ fu slot, s.beginProgramming r = { s with
    fuses := fu, maint := { s.maint with op := .repair { r with phase := .programming, fuseSlot := slot } } } ∧
    ∀ m : Slot, s.fuseOf r.bank m = .free → (∀ m' : Slot, m' < m → s.fuseOf r.bank m' ≠ .free) →
      fu[r.bank][m] = .programming ∧ slot = some m := by
  unfold State.beginProgramming
  cases hfree : s.freeSlot r.bank with
  | none =>
    refine ⟨s.fuses, r.fuseSlot, rfl, fun m hm _ => ?_⟩
    have := freeSlot_isSome hm
    rw [hfree] at this
    cases this
  | some i =>
    refine ⟨_, some i, rfl, fun m hm hlow => ?_⟩
    obtain rfl : i = m := Option.some.inj (hfree.symm.trans (freeSlot_some hm hlow))
    exact ⟨fuseOf_self s r.bank i .programming, rfl⟩

/-! ### The end of a copy -/

theorem exec_repairCopyEnd {s : State} {decay : List Decay} {r : RepairRecord} (hop : s.maint.op = .repair r)
    (hphase : r.phase = .copying) :
    exec (.repairCopyEnd decay) s = .next (({ s with mem := s.mem.decay decay } : State).endCopy r).schedule.transmit := by
  show execRepairCopyEnd decay s = _
  unfold execRepairCopyEnd
  simp only [hop, hphase, if_true]

/-- What every end of a copy keeps of the state in which the spare has been installed. -/
structure CopyEnded (u v : State) : Prop where
  rest : ∃ mt ac mk nt fu, v = { u with
    maint := mt, accesses := ac, media := { u.media with scrubMark := mk }, notices := nt, fuses := fu }
  not_claiming : ∀ r : RepairRecord, v.maint.op = .repair r → r.phase ≠ .claiming
  not_clear : ∀ c, v.maint.op ≠ .clear c

theorem RepairReported.copyEnded {u v : State} {r : RepairRecord} {o : RepairOutcome} (h : RepairReported u r o v) :
    CopyEnded u v := by
  obtain ⟨mt, ac, mk, nt, e⟩ := h.rest
  exact ⟨⟨mt, ac, mk, nt, u.fuses, e⟩, h.not_claiming, h.not_clear⟩

theorem copyEnded_hard (u : State) (r : RepairRecord) : CopyEnded u (u.beginProgramming r) := by
  obtain ⟨fu, slot, e, -⟩ := beginProgramming_spec u r
  rw [e]
  refine ⟨⟨_, _, _, _, _, rfl⟩, fun r' hr => ?_, nofun⟩
  cases hr
  exact nofun

/-- What the copy of a repair leaves in the array, and how many words it found UNCORRECTABLE. -/
def repairCopy (m : Memory) (r : RepairRecord) : Memory × Nat :=
  copyWords (rowCell r.bank r.row .native) (rowCell r.bank r.row (.spare r.target)) m 0 512

/-- The repair with its UNCORRECTABLE words counted, and the state in which the spare has been installed. -/
def counted (m : Memory) (r : RepairRecord) : RepairRecord := { r with uncorrectable := (repairCopy m r).2 }
def copied (s : State) (m : Memory) (r : RepairRecord) : State :=
  ({ s with mem := (repairCopy m r).1 } : State).install (counted m r)

theorem endCopy_soft {s : State} {r : RepairRecord} (m : Memory) (hk : r.kind = .soft) :
    ({ s with mem := m } : State).endCopy r = (copied s m r).reportRepair (counted m r) .ok := by
  obtain ⟨b, row, k, i, phase, slot, bad, o⟩ := r
  cases hk
  rfl

theorem endCopy_hard {s : State} {r : RepairRecord} (m : Memory) (hk : r.kind = .hard) :
    ({ s with mem := m } : State).endCopy r = (copied s m r).beginProgramming (counted m r) := by
  obtain ⟨b, row, k, i, phase, slot, bad, o⟩ := r
  cases hk
  rfl

theorem endCopy_ended (s : State) (m : Memory) (r : RepairRecord) :
    CopyEnded (copied s m r) (({ s with mem := m } : State).endCopy r) := by
  cases hk : r.kind with
  | soft =>
    rw [endCopy_soft m hk]
    exact (reportRepair_spec _ _ _).copyEnded
  | hard =>
    rw [endCopy_hard m hk]
    exact copyEnded_hard _ _

/-- The array after the copy: the spare holds the row, and nothing else has changed but what had decayed (R118). -/
theorem repairCopy_spec (s : State) (decay : List Decay) (r : RepairRecord) (m : Memory)
    (hm : m = (repairCopy (s.mem.decay decay) r).1) :
    (ArrayCanonical s → ∀ k : Nat, k < 512 →
      m.word (rowCell r.bank r.row (.spare r.target) + 4 * k) =
        (if ((s.mem.decay decay).read (rowCell r.bank r.row .native + 4 * k)).1 = .uncorrectable then 0
          else ((s.mem.decay decay).read (rowCell r.bank r.row .native + 4 * k)).2) ∧
      m.wrong (rowCell r.bank r.row (.spare r.target) / 4 + k) = 0) ∧
    (∀ x : Nat, (x < rowCell r.bank r.row (.spare r.target) ∨ rowCell r.bank r.row (.spare r.target) + 2048 ≤ x) →
      m.byte x = s.mem.byte x) ∧
    (∀ w : Nat, (w < rowCell r.bank r.row (.spare r.target) / 4 ∨
        rowCell r.bank r.row (.spare r.target) / 4 + 512 ≤ w) → m.wrong w = (s.mem.decay decay).wrong w) := by
  obtain ⟨hwords, hbytes, hwrong⟩ := copyWords_copied (s.mem.decay decay) r.bank r.row r.target 512 (Nat.le_refl _)
  rw [hm]
  exact ⟨fun hc => hwords (Memory.wf_decay hc decay), fun x hx => (hbytes x hx).trans (byte_decay _ _ _), hwrong⟩

theorem counted_eq (m : Memory) (r : RepairRecord) : counted m r = { r with uncorrectable := ((List.range 512).filter fun k =>
    decide ((m.read (rowCell r.bank r.row .native + 4 * k)).1 = .uncorrectable)).length } := by
  rw [← copyWords_row_bad m r.bank r.row r.target]
  rfl

/-- What a copy that found `bad` words UNCORRECTABLE leaves beside the array. -/
structure SpareInstalled (s : State) (r : RepairRecord) (bad : Nat) (t : State) : Prop where
  listFull : t.media.listFull = (s.media.listFull &&
    !s.media.list.any fun e => decide (e.bank = r.bank) && decide (e.row = r.row))
  remap : t.remapOf r.bank = s.remapOf r.bank ++ [{ row := r.row, spare := r.target, kind := .soft }]
  remaps : ∀ b : Bank, b ≠ r.bank → t.remapOf b = s.remapOf b
  bank : (t.bank r.bank).state ≠ .repairing
  list : WeakListBounded s → ∀ e ∈ t.media.list, ¬(e.bank = r.bank ∧ e.row = r.row)
  jobs : t.jobs = s.jobs
  soft : r.kind = .soft → t.fuses = s.fuses ∧
    (s.notices.outbox.length < 16 → s.ordinaryCount < 12 → t.maint.op = .none ∧
      ∃ n ∈ t.notices.outbox, n.number = s.admissionNumber ∧ n.body = .repairEnd r.bank r.row .soft (some .ok) bad) ∧
    ((16 ≤ s.notices.outbox.length ∨ 12 ≤ s.ordinaryCount) →
      t.maint.op = .repair { r with phase := .reporting, uncorrectable := bad, outcome := some .ok } ∧
      t.notices.waiting = s.notices.waiting ++ [.repair])
  hard : r.kind = .hard → ∀ m : Slot, s.fuseOf r.bank m = .free → (∀ m' : Slot, m' < m → s.fuseOf r.bank m' ≠ .free) →
    t.fuseOf r.bank m = .programming ∧
    t.maint.op = .repair { r with phase := .programming, fuseSlot := some m, uncorrectable := bad }

/-- The install stands through the report or the fuse programming that follows it, and the bank it leaves CLOSED is not
claimed again. -/
theorem installed_after {s u v : State} {m : Memory} {r r' : RepairRecord} {bad : Nat}
    (hr : r' = { r with uncorrectable := bad }) (hu : u = ({ s with mem := m } : State).install r') (ended : CopyEnded u v)
    (soft : r.kind = .soft → v = u.reportRepair r' .ok) (hard : r.kind = .hard → v = u.beginProgramming r') :
    v.schedule.transmit.mem = m ∧ SpareInstalled s r bad v.schedule.transmit := by
  obtain ⟨hfull, hlist, hself, hother, hclosed, hrest⟩ := install_spec { s with mem := m } r'
  rw [← hu] at hfull hlist hself hother hclosed hrest
  obtain ⟨⟨mt, ac, mk, nt, fu, e⟩, hclaiming, hclear⟩ := ended
  obtain ⟨rm, md, bk, rfl⟩ : ∃ rm md bk, u = { s with mem := m, remap := rm, media := md, banks := bk } :=
    ⟨u.remap, u.media, u.banks,
      (congrArg (fun w : State => { w with remap := u.remap, media := u.media, banks := u.banks }) hrest :)⟩
  have report := reportRepair_spec { s with mem := m, remap := rm, media := md, banks := bk } r' .ok
  have programs := beginProgramming_spec { s with mem := m, remap := rm, media := md, banks := bk } r'
  have bank : (v.schedule.transmit.bank r.bank).state ≠ .repairing := by
    refine not_repairing_scheduled ?_ (not_claims hclaiming hclear r.bank)
    rw [e]
    rw [hr] at hclosed
    intro k
    cases hclosed.symm.trans k
  have reported (h : r.kind = .soft) := (soft h ▸ report).after
  have fuses (h : r.kind = .soft) : v.fuses = s.fuses := by
    obtain ⟨_, _, _, _, e'⟩ := (soft h ▸ report).rest
    rw [e']
  have op : v.schedule.transmit.maint.op = v.maint.op := (transmit_op _).trans (schedule_op_stands hclaiming)
  obtain ⟨ac', bk', op', fc, lk, pr, nt', e'⟩ := scheduled_transmit_eq v
  generalize v.schedule.transmit = t at *
  have tfuses : t.fuses = v.fuses := by rw [e']
  have media : t.media = { md with scrubMark := mk } := by rw [e', e]
  have remap : t.remap = rm := by rw [e', e]
  subst hr
  refine ⟨by rw [e', e], ?_, ?_, fun b hb => ?_, bank, ?_, by rw [e', e], fun h => ⟨tfuses.trans (fuses h), ?_⟩,
    fun h n hn hlow => ?_⟩
  · rw [media]
    exact hfull
  · exact (congrArg (fun f => f[r.bank]) remap :).trans hself
  · exact (congrArg (fun f => f[b]) remap :).trans (hother b hb)
  · rw [media]
    exact hlist
  · rw [← h]
    exact reported h
  · obtain ⟨fu', slot, ev, hfuse⟩ := programs
    rw [← hard h] at ev
    obtain ⟨hslot, rfl⟩ := hfuse n hn hlow
    refine ⟨?_, op.trans (by rw [ev])⟩
    exact (congrArg (fun f => f[r.bank][n]) (tfuses.trans (congrArg State.fuses ev)) :).trans hslot

/-- Settles O53: the array after the copy, and beside it the install that stands. -/
theorem repairCopyInstallsTheSpare : Obligations.RepairCopyInstallsTheSpare := by
  unfold Obligations.RepairCopyInstallsTheSpare
  intro s decay r hop hphase
  refine ⟨_, exec_repairCopyEnd hop hphase, ?_⟩
  obtain ⟨hmem, listFull, remap, remaps, bank, list, jobs, soft, hard⟩ := installed_after (counted_eq (s.mem.decay decay) r) rfl
    (endCopy_ended s (s.mem.decay decay) r) (endCopy_soft (s.mem.decay decay)) (endCopy_hard (s.mem.decay decay))
  obtain ⟨hwords, hbytes, hwrong⟩ := repairCopy_spec s decay r _ hmem
  refine ⟨hwords, hbytes, hwrong, listFull, remap, remaps, bank, list, jobs, fun bad hb => ?_⟩
  rw [hb]
  exact ⟨soft, hard⟩

end Sys2Proof.Machine
end

