-- ==== Sys2Proof/Proofs/PowerOn.lean ====
section
/-! PROOF. Power-on: the fuse load and the first claim of the start-up clear (R113, R167, R168). -/

namespace Sys2Proof.Machine

open Sys2Proof.Safety

-- One thread: the whole text is checked under a memory limit that holds a bounded number of thread stacks.
set_option Elab.async false

/-! ### The fuse load -/

/-- The fuse load of one bank. -/
def loadBank (s : State) (b : Bank) : State :=
  ({ s with fuses := s.fuses.set b (loadSlots s.fuses[b]) } : State).setRemap b (hardEntries s.fuses[b])

theorem loadBank_self (s : State) (b : Bank) :
    (loadBank s b).fuses[b] = loadSlots s.fuses[b] ∧ (loadBank s b).remap[b] = hardEntries s.fuses[b] := by
  unfold loadBank State.setRemap
  simp

theorem loadBank_other (s : State) {b c : Bank} (h : c ≠ b) :
    (loadBank s b).fuses[c] = s.fuses[c] ∧ (loadBank s b).remap[c] = s.remap[c] := by
  have h' : ¬b.val = c.val := fun e => h (Fin.ext e.symm)
  unfold loadBank State.setRemap
  simp [h']

theorem foldl_loadBank (l : List Bank) (hl : l.Nodup) (s : State) :
    (∀ b : Bank, (b ∈ l → (l.foldl loadBank s).fuses[b] = loadSlots s.fuses[b] ∧
        (l.foldl loadBank s).remap[b] = hardEntries s.fuses[b]) ∧
      (b ∉ l → (l.foldl loadBank s).fuses[b] = s.fuses[b] ∧ (l.foldl loadBank s).remap[b] = s.remap[b])) ∧
      { l.foldl loadBank s with fuses := s.fuses, remap := s.remap } = s := by
  induction l generalizing s with
  | nil => exact ⟨fun b => ⟨fun h => (by cases h), fun _ => ⟨rfl, rfl⟩⟩, rfl⟩
  | cons c l ih =>
    obtain ⟨hc, hl⟩ := List.nodup_cons.1 hl
    obtain ⟨hbank, hrest⟩ := ih hl (loadBank s c)
    rw [List.foldl_cons]
    refine ⟨fun b => ⟨fun hb => ?_, fun hb => ?_⟩,
      (congrArg (fun t : State => { t with fuses := s.fuses, remap := s.remap }) hrest :)⟩
    · by_cases e : b = c
      · subst e
        obtain ⟨hf, hr⟩ := (hbank b).2 hc
        obtain ⟨hf', hr'⟩ := loadBank_self s b
        exact ⟨hf.trans hf', hr.trans hr'⟩
      · obtain ⟨hf, hr⟩ := (hbank b).1 ((List.mem_cons.1 hb).resolve_left e)
        rw [hf, hr, (loadBank_other s e).1]
        exact ⟨rfl, rfl⟩
    · obtain ⟨hne, hb⟩ := not_or.1 (mt List.mem_cons.2 hb)
      obtain ⟨hf, hr⟩ := (hbank b).2 hb
      obtain ⟨hf', hr'⟩ := loadBank_other s hne
      exact ⟨hf.trans hf', hr.trans hr'⟩

/-- Each bank's slots are loaded, each bank's table is made of them, and nothing else changes. -/
theorem loadFuses_spec (s : State) :
    (∀ b : Bank, s.loadFuses.fuses[b] = loadSlots s.fuses[b] ∧ s.loadFuses.remap[b] = hardEntries s.fuses[b]) ∧
      ∃ fu rm, s.loadFuses = { s with fuses := fu, remap := rm } := by
  have e : s.loadFuses = allBanks.foldl loadBank s := rfl
  obtain ⟨hbank, hrest⟩ := foldl_loadBank allBanks allBanks_nodup s
  rw [e]
  generalize allBanks.foldl loadBank s = t at *
  exact ⟨fun b => (hbank b).1 (mem_allBanks b), t.fuses, t.remap,
    (congrArg (fun u : State => { u with fuses := t.fuses, remap := t.remap }) hrest :)⟩

theorem loadSlots_get (v : Vector FuseSlot 4) (i : Slot) : (loadSlots v)[i] = loadSlot v[i] := by
  match i with
  | 0 => rfl
  | 1 => rfl
  | 2 => rfl
  | 3 => rfl

theorem loadSlot_eq (x : FuseSlot) : loadSlot x = if x = .programming then .spoiled else x := by
  cases x <;> rfl

theorem mem_hardEntries {v : Vector FuseSlot 4} {e : RemapEntry} :
    e ∈ hardEntries v ↔ e.kind = .hard ∧ ∃ i : Slot, v[i] = .used e.row e.spare := by
  have slots (x : FuseSlot) : x ∈ [v[0], v[1], v[2], v[3]] ↔ ∃ i : Slot, v[i] = x := by
    simp only [List.mem_cons, List.not_mem_nil, or_false]
    refine ⟨?_, fun ⟨i, h⟩ => ?_⟩
    · rintro (h | h | h | h)
      exacts [⟨0, h.symm⟩, ⟨1, h.symm⟩, ⟨2, h.symm⟩, ⟨3, h.symm⟩]
    · match i, h with
      | 0, h => exact .inl h.symm
      | 1, h => exact .inr (.inl h.symm)
      | 2, h => exact .inr (.inr (.inl h.symm))
      | 3, h => exact .inr (.inr (.inr h.symm))
  unfold hardEntries
  rw [List.mem_filterMap]
  constructor
  · rintro ⟨x, hx, he⟩
    cases x with
    | used row spare =>
      obtain rfl := Option.some.inj he
      exact ⟨rfl, (slots _).1 hx⟩
    | _ => cases he
  · rintro ⟨hk, hi⟩
    refine ⟨.used e.row e.spare, (slots _).2 hi, ?_⟩
    rw [← hk]

/-! ### The first claim -/

theorem same_of_banks {s t : State} (h : ∀ b : Bank, t.bank b = s.bank b) (k : { t with banks := s.banks } = s) : t = s := by
  have e : t.banks = s.banks := Vector.ext fun i hi => h ⟨i, hi⟩
  exact (congrArg (fun v : Vector BankRecord 16 => { t with banks := v }) e).trans k

theorem takeRefreshClaims_none {s : State} (h : ∀ g : Group, (s.group g).debt = 0) : s.takeRefreshClaims = s := by
  obtain ⟨hbank, hrest⟩ := takeRefreshClaims_spec s
  refine same_of_banks (fun b => (hbank b).2 fun hd => ?_) hrest
  have := hd.1
  rw [h] at this
  omega

theorem grantAll_none {s : State} (h : s.accesses = []) : s.grantAll = s := by
  have step (l : List Bank) : l.foldl State.grant s = s := by
    induction l with
    | nil => rfl
    | cons b l ih =>
      rw [List.foldl_cons, grant_none fun a ha => by rw [h] at ha; cases ha]
      exact ih
  exact step allBanks

theorem closeBanks_none {s : State} (h : ∀ (b : Bank) (w : OpenRow), (s.bank b).state ≠ .opened w) : s.closeBanks = s := by
  obtain ⟨-, hstay, hrest⟩ := closeBanks_spec s
  exact same_of_banks (fun b => hstay b fun w k => h b w k.1) hrest

theorem closeForMisses_none {s : State} (h : ∀ (b : Bank) (w : OpenRow), (s.bank b).state ≠ .opened w) :
    s.closeForMisses = s := by
  obtain ⟨-, hstay, hrest⟩ := closeForMisses_spec s
  exact same_of_banks (fun b => hstay b fun w k => h b w k.1) hrest

theorem lockTimers_none {s : State} (h : ∀ b : Bank, (s.bank b).lockHolder = none ∧ (s.bank b).lockTimer = none) :
    s.lockTimers = s := by
  obtain ⟨hbank, hrest⟩ := lockTimers_spec s
  refine same_of_banks (fun b => ?_) hrest
  rw [hbank, lockTimerOf_stopped (.inl (h b).1), ← (h b).2]

/-- With every bank at its reset value, no access and no debt, the scheduler does one thing: it takes the claim of the start-up
clear on bank 0 (R168). -/
theorem schedule_firstClaim {s : State} (hop : s.maint.op = .clear (.spares 0)) (hbanks : ∀ b : Bank, s.bank b = BankRecord.reset)
    (hgroups : ∀ g : Group, (s.group g).debt = 0 ∧ (s.group g).urgent = false) (hacc : s.accesses = []) :
    s.schedule = claimTaken s 0 := by
  have due : RepairDue s 0 := by
    refine ⟨.inl ⟨hop, ?_⟩, ?_, ?_, (hgroups _).2, fun a ha => ?_⟩
    · rw [hbanks]
      nofun
    · rw [hbanks]
      rfl
    · rw [hbanks]
      rfl
    · rw [hacc] at ha
      cases ha
  have unready : s.refreshReady (groupOf 0) = false := by
    refine Bool.eq_false_iff.2 fun k => ?_
    have := (State.refreshReady_iff.1 k).1
    rw [(hgroups _).1] at this
    omega
  have bank (b : Bank) : (claimTaken s 0).bank b =
      if b = 0 then { BankRecord.reset with state := .repairing } else BankRecord.reset := by
    rw [claimTaken_bank, hbanks, hbanks]
  have unopened (b : Bank) (w : OpenRow) : ((claimTaken s 0).bank b).state ≠ .opened w := by
    rw [bank]
    split <;> nofun
  have empty : (claimTaken s 0).accesses = [] := hacc
  show s.closeBanks.takeRepairIfFirst.takeRefreshClaims.grantAll.closeForMisses.startBurst.lockTimers = _
  rw [closeBanks_none fun b w => by rw [hbanks]; nofun, takeRepairIfFirst_claim due, unready, if_neg Bool.false_ne_true,
    takeRefreshClaims_none (s := claimTaken s 0) fun g => (hgroups g).1, grantAll_none empty, closeForMisses_none unopened,
    startBurst_none fun a ha => (by rw [empty] at ha; cases ha), lockTimers_none]
  intro b
  rw [bank]
  split <;> exact ⟨rfl, rfl⟩

/-! ### Power-on -/

/-- The state from which start-up begins, before the fuse load. -/
def poweredUp (s : State) (baud : BitVec 3) (temp : Int) : State :=
  { s.resetBlocks with baud := baud, range := State.firstRange temp, refresh := Refresh.reset (State.firstRange temp) }

theorem group_reset {s : State} {r : TempRange} (h : s.refresh = Refresh.reset r) (g : Group) :
    s.group g = { debt := 0, urgent := false, rotation := 0 } := by
  unfold State.group
  rw [h]
  exact Vector.getElem_replicate _

theorem exec_powerOn (s : State) (baud : BitVec 3) (temp : Int) :
    exec (.powerOn baud temp) s = .next (claimTaken (poweredUp s baud temp).loadFuses 0) := by
  obtain ⟨-, fu, rm, e⟩ := loadFuses_spec (poweredUp s baud temp)
  have first : (poweredUp s baud temp).loadFuses.schedule = claimTaken (poweredUp s baud temp).loadFuses 0 := by
    rw [e]
    exact schedule_firstClaim rfl (fun b => Vector.getElem_replicate _)
      (fun g => by rw [group_reset (r := State.firstRange temp) rfl]; exact ⟨rfl, rfl⟩) rfl
  exact congrArg Host.Outcome.next first

/-- Settles O3: the fuse load changes the fuses and the tables alone, and the scheduler then takes one claim. -/
theorem powerOnBeginsStartUp : Obligations.PowerOnBeginsStartUp := by
  unfold Obligations.PowerOnBeginsStartUp
  refine ⟨fun s baud temp => ⟨_, exec_powerOn s baud temp, ?_⟩, fun s baud temp b => ⟨_, exec_powerOn s baud temp, ?_⟩⟩
  · obtain ⟨-, fu, rm, e⟩ := loadFuses_spec (poweredUp s baud temp)
    rw [e]
    have bank := claimTaken_bank { poweredUp s baud temp with fuses := fu, remap := rm } 0
    obtain ⟨bk, started⟩ : ∃ bk, claimTaken { poweredUp s baud temp with fuses := fu, remap := rm } 0 = { State.reset with
      pending := s.pending, pins := s.pins, mem := s.mem, freeCtr := s.freeCtr, baud := baud, fuses := fu, remap := rm,
      range := State.firstRange temp, refresh := Refresh.reset (State.firstRange temp), banks := bk } := ⟨_, rfl⟩
    rw [started] at bank ⊢
    refine ⟨rfl, rfl, rfl, rfl, rfl, fun g => group_reset (r := State.firstRange temp) rfl g, rfl, rfl, rfl, rfl,
      fun p => ⟨Vector.getElem_replicate _, Vector.getElem_replicate _, Vector.getElem_replicate _⟩, rfl, rfl, rfl, rfl, ?_,
      fun b hb => ?_, rfl, rfl⟩
    · rw [bank, if_pos rfl]
    · rw [bank, if_neg hb]
      exact Vector.getElem_replicate _
  · obtain ⟨hbank, -⟩ := loadFuses_spec (poweredUp s baud temp)
    obtain ⟨hfuses, hremap⟩ := hbank b
    rw [show (poweredUp s baud temp).fuses = s.fuses from rfl] at hfuses hremap
    generalize (poweredUp s baud temp).loadFuses = w at *
    refine ⟨fun x => ?_, fun i => ?_⟩
    · show x ∈ w.remap[b] ↔ _
      rw [hremap]
      exact mem_hardEntries
    · show w.fuses[b][i] = _
      rw [hfuses]
      exact (loadSlots_get _ i).trans (loadSlot_eq _)

end Sys2Proof.Machine
end

