-- ==== Sys2Proof/Proofs/Clear.lean ====
section
/-! PROOF. The start-up clear: the spare steps and the walk over the logical rows (R168). -/

namespace Sys2Proof.Machine

open Sys2Proof.Safety

-- One thread: the whole text is checked under a memory limit that holds a bounded number of thread stacks.
set_option Elab.async false

/-! ### The spare step -/

theorem zeroSpares_spec (m : Memory) (b : Bank) :
    (∀ a : Nat, (m.zeroSpares b).byte a =
      if 268435456 + b.val * 16384 ≤ a ∧ a < 268435456 + b.val * 16384 + 16384 then 0 else m.byte a) ∧
    ∀ w : Nat, (m.zeroSpares b).wrong w =
      if 67108864 + b.val * 4096 ≤ w ∧ w < 67108864 + b.val * 4096 + 4096 then 0 else m.wrong w := by
  have cell : rowCell b 0 (.spare 0) = 268435456 + b.val * 16384 := by
    simp only [rowCell, Config.arrayBytes, Config.rowBytes]
    simp
    omega
  have first : (268435456 + b.val * 16384) / 4 = 67108864 + b.val * 4096 := by omega
  have last : (268435456 + b.val * 16384 + 16384) / 4 = 67108864 + b.val * 4096 + 4096 := by omega
  unfold Memory.zeroSpares
  rw [cell, show 8 * Config.rowBytes = 16384 from rfl]
  refine ⟨fun a => Sparse.get_clear 0 m.cells _ _ a, fun w => ?_⟩
  rw [← last, ← first]
  exact Sparse.get_clear 0 m.faults _ _ w

theorem exec_spareStepEnd {s : State} {b : Bank} (hop : s.maint.op = .clear (.spares b)) (hb : (s.bank b).state = .repairing) :
    exec .spareStepEnd s = .next (s.endSpareStep b).schedule := by
  show execSpareStepEnd s = _
  unfold execSpareStepEnd
  simp only [hop, hb]
  rfl

/-- The bank of the step CLOSED, its spares zero, and the operation not yet moved on. -/
def spareStepDone (s : State) (b : Bank) : State :=
  ({ s with mem := s.mem.zeroSpares b } : State).setBank b { s.bank b with state := .closed, hitRun := 0 }

theorem endSpareStep_next {s : State} {b : Bank} (h : b.val + 1 < 16) :
    s.endSpareStep b = (spareStepDone s b).setOp (.clear (.spares ⟨b.val + 1, h⟩)) := dif_pos h

theorem endSpareStep_last {s : State} {b : Bank} (h : ¬b.val + 1 < 16) :
    s.endSpareStep b = (spareStepDone s b).clearAt 0 0 := dif_neg h

/-- What the end of a spare step keeps, whichever way the clear goes on. -/
theorem endSpareStep_spec (s : State) (b : Bank) : (s.endSpareStep b).mem = s.mem.zeroSpares b ∧
    ((s.endSpareStep b).bank b).state = .closed ∧ ¬Claims (s.endSpareStep b) b ∧
    ∀ r : RepairRecord, (s.endSpareStep b).maint.op ≠ .repair r := by
  have closed : ((spareStepDone s b).bank b).state = .closed := by
    unfold spareStepDone
    rw [State.bank_self]
  by_cases h : b.val + 1 < 16
  · rw [endSpareStep_next h]
    refine ⟨rfl, closed, ?_, nofun⟩
    rintro (⟨k, -⟩ | ⟨r, k, -⟩)
    · have := congrArg Fin.val (ClearStep.spares.inj (MaintOp.clear.inj k))
      simp at this
    · cases k
  · rw [endSpareStep_last h]
    refine ⟨rfl, closed, ?_, nofun⟩
    rintro (⟨k, -⟩ | ⟨r, k, -⟩) <;> cases k

theorem spareStep (s : State) (b : Bank) :
    (∀ a : Nat, (s.endSpareStep b).schedule.mem.byte a =
      if 268435456 + b.val * 16384 ≤ a ∧ a < 268435456 + b.val * 16384 + 16384 then 0 else s.mem.byte a) ∧
    (∀ w : Nat, (s.endSpareStep b).schedule.mem.wrong w =
      if 67108864 + b.val * 4096 ≤ w ∧ w < 67108864 + b.val * 4096 + 4096 then 0 else s.mem.wrong w) ∧
    ((s.endSpareStep b).schedule.bank b).state ≠ .repairing ∧
    (∀ h : b.val + 1 < 16, (s.endSpareStep b).schedule.maint.op = .clear (.spares ⟨b.val + 1, h⟩) ∧
      (s.endSpareStep b).schedule.accesses.map posted = s.accesses.map posted) ∧
    (b.val = 15 → (s.endSpareStep b).schedule.maint.op = .clear (.logical 0 0) ∧
      (s.endSpareStep b).schedule.accesses.map posted = s.accesses.map posted ++
        [{ client := .maint .clear, bank := 0, row := 0, firstWord := 0, wordCount := 8,
           kind := .write (List.replicate 8 0) (List.replicate 8 15), condition := .waiting }]) := by
  obtain ⟨hmem, hclosed, hclaims, hop⟩ := endSpareStep_spec s b
  have op := schedule_op_stands (s := s.endSpareStep b) fun r hr => absurd hr (hop r)
  have bank := (schedule_moves (s.endSpareStep b) b).not_repairing (by rw [hclosed]; nofun) hclaims
  obtain ⟨⟨ac, bk, o, fc, e⟩, hposted, -⟩ := Scheduled.schedule (s.endSpareStep b)
  have mem : (s.endSpareStep b).schedule.mem = s.mem.zeroSpares b := by
    rw [e]
    exact hmem
  obtain ⟨hbyte, hwrong⟩ := zeroSpares_spec s.mem b
  rw [op, hposted, mem]
  refine ⟨hbyte, hwrong, bank, fun h => ?_, fun h => ?_⟩
  · rw [endSpareStep_next h]
    exact ⟨rfl, rfl⟩
  · rw [endSpareStep_last (by omega)]
    exact ⟨rfl, List.map_append⟩

/-! ### A CLEAR access completes -/

/-- The words of a CLEAR access are written whole: none of them is read (R15). -/
theorem clear_unreported {s : State} {a : Access} (hc : a.client = .maint .clear)
    (hk : a.kind = .write (List.replicate 8 0) (List.replicate 8 15)) : reported (s.perform a).2 = false := by
  have whole (k : Nat) : (List.replicate 8 (15 : BitVec 4)).getD (k % 8) 0 = 15 := by
    rw [List.getD_eq_getElem?_getD, List.getElem?_replicate_of_lt (Nat.mod_lt k (by omega))]
    rfl
  unfold State.perform reported
  rw [hk, hc]
  dsimp only
  rw [show (Client.maint .clear).isScrub = false from rfl, writeWords_results false (openCell_aligned s a.bank a.row),
    List.any_eq_false]
  intro x hx
  obtain ⟨k, -, rfl⟩ := List.mem_map.1 hx
  rw [if_neg Bool.false_ne_true, whole, writeOne_whole]
  exact nofun

/-- Where the result of a CLEAR access is returned. -/
theorem atResult_clear {s : State} {a : Access} (hc : a.client = .maint .clear) (decay : List Decay) (lines : PortLines) :
    ∃ bk m pins, atResult s decay lines a = { s with
      banks := bk, mem := m, pins := pins, accesses := dropFirst Access.isInFlight s.accesses } := by
  obtain ⟨bk, e⟩ := countHit_banks s a
  unfold atResult
  rw [State.placeLock_none (.inr (.inl fun p t => by rw [hc]; nofun)), e]
  exact ⟨_, _, _, rfl⟩

theorem deliver_clear {s : State} {a : Access} {rs : List WordResult} (hc : a.client = .maint .clear)
    (hr : reported rs = false) : s.deliver a rs = s.clearResult := by
  unfold State.deliver State.clientResult
  rw [hr, hc]
  rfl

section
variable {s : State} {position burst : Nat} (hop : s.maint.op = .clear (.logical position burst))
include hop

theorem clearResult_burst (h : burst + 1 < 64) : s.clearResult = s.clearAt position (burst + 1) := by
  unfold State.clearResult
  rw [hop]
  exact if_pos h

theorem clearResult_row (h : 64 ≤ burst + 1) (hp : position + 1 < 131072) : s.clearResult = s.clearAt (position + 1) 0 := by
  unfold State.clearResult
  rw [hop]
  exact (if_neg (Nat.not_lt.2 h)).trans (if_pos hp)

theorem clearResult_end (h : 64 ≤ burst + 1) (hp : 131072 ≤ position + 1) : s.clearResult = s.endClear := by
  unfold State.clearResult
  rw [hop]
  exact (if_neg (Nat.not_lt.2 h)).trans (if_neg (Nat.not_lt.2 hp))

end

/-! ### The end of the clear -/

/-- The part READY, its ports with it, and STARTED not yet offered. -/
def clearDone (s : State) : State :=
  ({ s.setOp .none with part := { s.part with state := .ready } } : State).readyEngines

theorem clearDone_spec (s : State) :
    (∀ p : Port, (s.portSettings p).enable = true →
      (clearDone s).engine p = atRest (s.engine p) .idle ∧ (clearDone s).outp p = { s.outp p with sel := 0 }) ∧
    (∀ p : Port, (s.portSettings p).enable = false →
      (clearDone s).engine p = s.engine p ∧ (clearDone s).outp p = s.outp p) ∧
    ∃ en ou, clearDone s = { s with
      maint := { s.maint with op := .none }, part := { s.part with state := .ready }, engines := en, outs := ou } :=
  readyEngines_spec { s.setOp .none with part := { s.part with state := .ready } }

/-- What the end of the clear leaves (R168). -/
structure ClearEnded (s u : State) : Prop where
  rest : ∃ ac sc mk nt en ou, u = { s with
    maint := { s.maint with op := .none, scrub := sc }, part := { s.part with state := .ready }, engines := en, outs := ou,
    accesses := ac, media := { s.media with scrubMark := mk }, notices := nt }
  enabled : ∀ p : Port, (s.portSettings p).enable = true → (u.engine p).state = .idle ∧ (u.outp p).sel = 0
  disabled : ∀ p : Port, (s.portSettings p).enable = false → u.engine p = s.engine p ∧ u.outp p = s.outp p
  accesses : s.settings.scrubRate = 0 → u.accesses = s.accesses
  room : s.notices.outbox.length < 16 → s.ordinaryCount < 12 →
    u.notices = admitted s.notices (freshNotice s.admissionNumber .started)
  full : (16 ≤ s.notices.outbox.length ∨ 12 ≤ s.ordinaryCount) →
    u.notices = { s.notices with waiting := s.notices.waiting ++ [.partControl] }

/-- The offer of STARTED changes the Notice Unit alone. -/
theorem offer_started (s : State) : ∃ nt, s.offer .partControl = { s with notices := nt } ∧
    (s.notices.outbox.length < 16 → s.ordinaryCount < 12 →
      nt = admitted s.notices (freshNotice s.admissionNumber .started)) ∧
    ((16 ≤ s.notices.outbox.length ∨ 12 ≤ s.ordinaryCount) →
      nt = { s.notices with waiting := s.notices.waiting ++ [.partControl] }) := by
  by_cases room : s.notices.outbox.length < 16 ∧ s.ordinaryCount < 12
  · obtain ⟨hrest, hnotices⟩ := State.offer_admitted (x := .partControl) room.1 room.2 rfl
    generalize s.offer .partControl = u at *
    exact ⟨u.notices, (congrArg (fun t : State => { t with notices := u.notices }) hrest :), fun _ _ => hnotices,
      fun h => by omega⟩
  · exact ⟨_, State.offer_waits (by omega), fun ho hc => absurd ⟨ho, hc⟩ room, fun _ => rfl⟩

theorem clearEnded (s : State) : ClearEnded s s.endClear := by
  have e : s.endClear = ((clearDone s).offer .partControl).scrubAdvance := rfl
  rw [e]
  obtain ⟨henabled, hdisabled, en, ou, hdone⟩ := clearDone_spec s
  generalize clearDone s = v at *
  subst hdone
  obtain ⟨nt, ho, hroom, hfull⟩ := offer_started { s with
    maint := { s.maint with op := .none }, part := { s.part with state := .ready }, engines := en, outs := ou }
  rw [ho]
  have off (h : s.settings.scrubRate = 0) := scrubAdvance_off (s := { s with
      maint := { s.maint with op := .none }, part := { s.part with state := .ready }, engines := en, outs := ou,
      notices := nt }) <| Bool.eq_false_iff.2 fun k => by
    have rate : 1 ≤ s.settings.scrubRate.toNat := (scrubAllowed_iff.1 k).1
    rw [h] at rate
    exact absurd rate (by decide)
  obtain ⟨ac, sc, mk, hscrub⟩ := scrubAdvance_eq { s with
    maint := { s.maint with op := .none }, part := { s.part with state := .ready }, engines := en, outs := ou, notices := nt }
  refine ⟨⟨ac, sc, mk, nt, en, ou, hscrub⟩, fun p hp => ?_, fun p hp => ?_, fun h => by rw [off h], ?_, ?_⟩
  · rw [hscrub]
    obtain ⟨he, ho⟩ := henabled p hp
    exact ⟨(congrArg Engine.state he :), (congrArg Outs.sel ho :)⟩
  · rw [hscrub]
    exact hdisabled p hp
  · rw [hscrub]
    exact hroom
  · rw [hscrub]
    exact hfull

/-! ### What follows the result -/

theorem transmit_accesses (s : State) : s.transmit.accesses = s.accesses := by
  obtain ⟨_, _, _, e⟩ := Outward.transmit s
  rw [e]

/-- What a completed CLEAR access leaves before the scheduler has its turn: awake, with no repair under way. -/
theorem clear_follows {u : State} (hstate : u.part.state = .starting ∨ u.part.state = .ready) (hsleep : u.part.sleepEntry = false)
    (hop : ∀ r : RepairRecord, u.maint.op ≠ .repair r) :
    (afterResult u).maint.op = u.maint.op ∧ (afterResult u).accesses.map posted = u.accesses.map posted ∧
      (afterResult u).notices.outbox.map numbered = u.notices.outbox.map numbered ∧
      (afterResult u).notices.waiting = u.notices.waiting ∧
      ∃ ac bk op fc lk pr nt, afterResult u = { u with
        accesses := ac, banks := bk, maint := { u.maint with op := op }, freeCtr := fc, link := lk, proc := pr, notices := nt } := by
  have stays : u.endReset = u := if_neg fun ⟨k, _⟩ => by rcases hstate with h | h <;> simp [h] at k
  have op := schedule_op_stands (s := u) fun r hr => absurd hr (hop r)
  obtain ⟨hframe, hposted, -⟩ := Scheduled.schedule u
  have awake : u.schedule.part.sleepEntry = false := by
    obtain ⟨_, _, _, _, e⟩ := hframe
    rw [e]
    exact hsleep
  have notices : u.schedule.notices = u.notices := by
    obtain ⟨_, _, _, _, e⟩ := hframe
    rw [e]
  have after : afterResult u = u.schedule.transmit := by
    rw [afterResult_awake (by rw [stays]; exact awake), stays]
  obtain ⟨houtbox, hwaiting⟩ := transmit_notices u.schedule
  rw [notices] at houtbox hwaiting
  rw [after]
  refine ⟨(transmit_op _).trans op, ?_, houtbox, hwaiting, scheduled_transmit_eq u⟩
  rw [transmit_accesses]
  exact hposted

/-- The walk goes on with the next burst's access posted. -/
theorem clear_walks {w : State} {position burst : Nat} (hstate : w.part.state = .starting) (hsleep : w.part.sleepEntry = false) :
    (afterResult (w.clearAt position burst)).maint.op = .clear (.logical position burst) ∧
      (afterResult (w.clearAt position burst)).part = w.part ∧
      (afterResult (w.clearAt position burst)).accesses.map posted = w.accesses.map posted ++
        [{ client := .maint .clear, bank := Fin.ofNat 16 position, row := Fin.ofNat 8192 (position / 16),
           firstWord := burst * 8, wordCount := 8, kind := .write (List.replicate 8 0) (List.replicate 8 15),
           condition := .waiting }] := by
  obtain ⟨hop, hposted, -, -, _, _, _, _, _, _, _, e⟩ := clear_follows (u := w.clearAt position burst) (.inl hstate) hsleep nofun
  exact ⟨hop, (congrArg State.part e :), hposted.trans List.map_append⟩

/-- The clear ends: the part is READY, and STARTED stands in the outbox or waits. -/
theorem clear_ends {w : State} (hsleep : w.part.sleepEntry = false) :
    (afterResult w.endClear).maint.op = .none ∧ (afterResult w.endClear).part = { w.part with state := .ready } ∧
      (∀ p : Port, (w.portSettings p).enable = true →
        ((afterResult w.endClear).engine p).state = .idle ∧ ((afterResult w.endClear).outp p).sel = 0) ∧
      (∀ p : Port, (w.portSettings p).enable = false →
        (afterResult w.endClear).engine p = w.engine p ∧ (afterResult w.endClear).outp p = w.outp p) ∧
      (w.settings.scrubRate = 0 → (afterResult w.endClear).accesses.map posted = w.accesses.map posted) ∧
      (w.notices.outbox.length < 16 → w.ordinaryCount < 12 →
        ∃ n ∈ (afterResult w.endClear).notices.outbox, n.number = w.admissionNumber ∧ n.body = .started) ∧
      ((16 ≤ w.notices.outbox.length ∨ 12 ≤ w.ordinaryCount) →
        (afterResult w.endClear).notices.waiting = w.notices.waiting ++ [.partControl]) := by
  obtain ⟨⟨ac, sc, mk, nt, en, ou, hrest⟩, henabled, hdisabled, haccesses, hroom, hfull⟩ := clearEnded w
  generalize w.endClear = u at *
  obtain ⟨hop, hposted, houtbox, hwaiting, ac', bk, op', fc, lk, pr, nt', e⟩ :=
    clear_follows (u := u) (.inr (by rw [hrest])) (by rw [hrest]; exact hsleep) (by rw [hrest]; nofun)
  generalize afterResult u = t at *
  have engine (p : Port) : t.engine p = u.engine p := by rw [e]; rfl
  have outp (p : Port) : t.outp p = u.outp p := by rw [e]; rfl
  refine ⟨hop.trans (by rw [hrest]), by rw [e, hrest], fun p hp => ?_, fun p hp => ?_, fun h => by rw [hposted, haccesses h],
    fun ho hc => ?_, fun h => by rw [hwaiting, hfull h]⟩
  · rw [engine, outp]
    exact henabled p hp
  · rw [engine, outp]
    exact hdisabled p hp
  · have mem : (w.admissionNumber, NoticeBody.started) ∈ t.notices.outbox.map numbered := by
      rw [houtbox, hroom ho hc]
      exact List.mem_map.2 ⟨_, List.mem_append_right _ (List.mem_singleton_self _), rfl⟩
    obtain ⟨n, hn, hnum⟩ := List.mem_map.1 mem
    exact ⟨n, hn, congrArg Prod.fst hnum, congrArg Prod.snd hnum⟩

/-- Settles O5: the spare step by what the scheduler leaves of it; a CLEAR access by where its result is returned, the case of
the walk, and what follows. -/
theorem spareStepWritesZero : Obligations.SpareStepWritesZero := by
  unfold Obligations.SpareStepWritesZero
  refine ⟨fun s b hop hb => ⟨_, exec_spareStepEnd hop hb, spareStep s b⟩,
    fun s decay lines a position burst hstate hsleep hop hfly hc hk => ⟨_, exec_burstComplete hfly, ?_⟩⟩
  have unreported := clear_unreported (s := { s with mem := s.mem.decay decay }) hc hk
  obtain ⟨bk, m, pins, hw⟩ := atResult_clear (s := s) hc decay lines
  rw [deliver_clear hc unreported, hw]
  have wop : ({ s with banks := bk, mem := m, pins := pins, accesses := dropFirst Access.isInFlight s.accesses } :
    State).maint.op = .clear (.logical position burst) := hop
  refine ⟨fun position' burst' h => ?_, fun h hp => ?_⟩
  · rcases h with ⟨h, rfl, rfl⟩ | ⟨h, hp, rfl, rfl⟩
    · rw [clearResult_burst wop h]
      exact clear_walks (by exact hstate) (by exact hsleep)
    · rw [clearResult_row wop h hp]
      exact clear_walks (by exact hstate) (by exact hsleep)
  · rw [clearResult_end wop h hp]
    exact clear_ends (by exact hsleep)

end Sys2Proof.Machine
end

