-- ==== Sys2Proof/Proofs/Resetn.lean ====
section
/-! PROOF. RESETN: what its assertion leaves, and what moves while it is asserted (R167). -/

namespace Sys2Proof.Machine

open Sys2Proof.Safety

-- One thread: the whole text is checked under a memory limit that holds a bounded number of thread stacks.
set_option Elab.async false

/-- The command changes the levels of the input pins at most. -/
def MovesPins (s : State) (c : Instr) : Prop := ∃ pins : Vector Pins 4, exec c s = .next { s with pins := pins }

theorem movesPins_of_stands {s : State} {c : Instr} (h : exec c s = .next s) : MovesPins s c := ⟨s.pins, h⟩

theorem movesPins_of_sample {s : State} {c : Instr} {lines : PortLines} (h : exec c s = .next (s.sample lines)) :
    MovesPins s c := by
  obtain ⟨pins, e⟩ := sample_eq_pins s lines
  exact ⟨pins, h.trans (congrArg _ e)⟩

/-! ### While RESETN is asserted -/

section
variable {s : State} (hr : s.resetn = true)
include hr

theorem receive_reset (chars : List Byte) : s.receive chars = s := if_pos hr

theorem runRequest_reset (p : Byte → Bool) (f : Request → State → State) : s.runRequest p f = s := if_pos hr

theorem sample_resetn (lines : PortLines) : (s.sample lines).resetn = true := by
  obtain ⟨pins, e⟩ := sample_eq_pins s lines
  rw [e]
  exact hr

theorem noticeAck_reset (chars : List Byte) (lines : PortLines) : exec (.noticeAck chars lines) s = .next (s.sample lines) :=
  congrArg Host.Outcome.next (receive_reset (sample_resetn hr lines) chars)

theorem gapTimer_reset : exec .gapTimerExpiry s = .next s := congrArg Host.Outcome.next (if_pos hr)

theorem frameTransmitEnd_reset : exec .frameTransmitEnd s = .next s := congrArg Host.Outcome.next (if_pos hr)

theorem noticeResend_reset (number : Byte) : exec (.noticeResendExpiry number) s = .next s :=
  congrArg Host.Outcome.next (if_pos hr)

theorem unknownRequest_reset : exec .unknownRequest s = .next s := congrArg Host.Outcome.next (runRequest_reset hr _ _)

theorem temperature_reset (temp : Int) : exec (.temperatureChange temp) s = .next s :=
  congrArg Host.Outcome.next (if_pos (by rw [hr]; rfl))

theorem attnEdge_reset (p : Port) (lines : PortLines) : exec (.attnEdge p lines) s = .next (s.sample lines) :=
  congrArg Host.Outcome.next (if_pos (by rw [hr]; rfl))

theorem holdn_reset (p : Port) (lines : PortLines) : MovesPins s (.holdnDeassert p lines) := by
  obtain ⟨pins, e⟩ := sample_eq_pins s lines
  have stands : exec (.holdnDeassert p lines) s =
      .next ((s.sample lines).setPin p { (s.sample lines).pin p with holdn := false }) :=
    congrArg Host.Outcome.next (if_pos hr)
  rw [e] at stands
  exact ⟨_, stands⟩

theorem unitRequest_reset (p : Port) (xdir xend : Bool) (d : BitVec 16) (lines : PortLines) :
    MovesPins s (.unitRequest p xdir xend d lines) := by
  obtain ⟨pins, e⟩ := sample_eq_pins s lines
  by_cases hx : ((s.sample lines).pin p).xreq.isSome = true
  · exact movesPins_of_sample (lines := lines) (congrArg Host.Outcome.next (if_pos hx))
  · have raised : exec (.unitRequest p xdir xend d lines) s =
        .next ((s.sample lines).raiseRequest p { xdir := xdir, xend := xend, d := d }) :=
      congrArg Host.Outcome.next ((if_neg hx).trans (if_pos hr))
    rw [e] at raised
    exact ⟨_, raised⟩

theorem lookedAt_reset (lines : PortLines) (c : Instr) : (lookedAt lines s c).resetn = true := by
  unfold lookedAt
  split
  · exact sample_resetn hr lines
  · exact sample_resetn hr lines
  · exact sample_resetn hr lines
  · exact hr

theorem request_reset {lines : PortLines} {code : Byte} {c : Instr} (h : (code, c) ∈ requestRows lines) :
    exec c s = .next (lookedAt lines s c) := by
  obtain ⟨f, run, -⟩ := runsAs_of_requestRows h
  rw [run s, runRequest_reset (lookedAt_reset hr lines c)]

theorem movesPins_of_request {lines : PortLines} {code : Byte} {c : Instr} (h : (code, c) ∈ requestRows lines) :
    MovesPins s c := by
  have stands := request_reset hr h
  unfold lookedAt at stands
  split at stands
  · exact movesPins_of_sample stands
  · exact movesPins_of_sample stands
  · exact movesPins_of_sample stands
  · exact movesPins_of_stands stands

end

/-! ### Held in reset -/

section
variable {s : State}

theorem held_resetn (h : HeldInReset s) : s.resetn = true := congrArg State.resetn h

theorem held_op (h : HeldInReset s) : s.maint.op = .none := (congrArg (fun t : State => t.maint.op) h :)

theorem held_timer (h : HeldInReset s) : s.maint.scrub.timer = none := (congrArg (fun t : State => t.maint.scrub.timer) h :)

theorem held_tick (h : HeldInReset s) : s.refresh.tick = none := (congrArg (fun t : State => t.refresh.tick) h :)

theorem held_partState (h : HeldInReset s) : s.part.state = .starting := (congrArg (fun t : State => t.part.state) h :)

theorem held_accesses (h : HeldInReset s) : s.accesses = [] := (congrArg State.accesses h :)

theorem held_proc (h : HeldInReset s) : s.proc.executing = none := (congrArg (fun t : State => t.proc.executing) h :)

theorem held_bank (h : HeldInReset s) (b : Bank) : s.bank b = BankRecord.reset :=
  (congrArg (fun t : State => t.banks[b]) h).trans (Vector.getElem_replicate _)

theorem held_engine (h : HeldInReset s) (p : Port) : s.engine p = Engine.reset :=
  (congrArg (fun t : State => t.engines[p]) h).trans (Vector.getElem_replicate _)

theorem held_outs (h : HeldInReset s) : s.outs = Vector.replicate 4 Outs.reset := (congrArg State.outs h :)

end

theorem heldInReset_of_assert (s : State) : HeldInReset s.holdInReset := rfl

section
variable {s : State} (h : HeldInReset s)
include h

theorem xreqRemoved_held (p : Port) : MovesPins s (.xreqRemoved p) := by
  have out : (s.setPin p { s.pin p with xreq := none }).outp p = Outs.reset := by
    show s.outs[p] = _
    rw [held_outs h]
    exact Vector.getElem_replicate _
  have drive : (s.setPin p { s.pin p with xreq := none }).dAfterXack p = .off := by
    unfold State.dAfterXack
    rw [show (s.setPin p { s.pin p with xreq := none }).engine p = Engine.reset from held_engine h p]
    rfl
  have outs : s.outs.set p Outs.reset = s.outs := by
    rw [held_outs h]
    refine Vector.ext fun i hi => ?_
    rw [Vector.getElem_set, Vector.getElem_replicate]
    split <;> rfl
  have dropped : s.dropRequest p = (s.setPin p { s.pin p with xreq := none }).setOutp p Outs.reset := by
    unfold State.dropRequest
    dsimp only
    rw [out, drive]
    rfl
  refine ⟨(s.setPin p { s.pin p with xreq := none }).pins, congrArg Host.Outcome.next (dropped.trans ?_)⟩
  exact (congrArg (fun o : Vector Outs 4 => { s.setPin p { s.pin p with xreq := none } with outs := o }) outs :)

theorem bankOpen_held (b : Bank) : exec (.bankOpenComplete b) s = .next s := by
  show execBankOpenComplete b s = _
  unfold execBankOpenComplete
  rw [held_bank h]
  rfl

theorem bankClose_held (b : Bank) : exec (.bankCloseComplete b) s = .next s := by
  show execBankCloseComplete b s = _
  unfold execBankCloseComplete
  rw [held_bank h]
  rfl

theorem burst_held (decay : List Decay) (lines : PortLines) : exec (.burstComplete decay lines) s = .next (s.sample lines) := by
  have none : (s.sample lines).flying = none := by
    obtain ⟨pins, e⟩ := sample_eq_pins s lines
    rw [e]
    unfold State.flying
    show s.accesses.find? _ = _
    rw [held_accesses h]
    rfl
  show execBurstComplete decay lines s = _
  unfold execBurstComplete
  dsimp only
  rw [none]

theorem strobe_held (lines : PortLines) : exec (.strobeEnd lines) s = .next (s.sample lines) := by
  have none : (s.sample lines).work = none := by
    obtain ⟨pins, e⟩ := sample_eq_pins s lines
    rw [e]
    unfold State.work
    show s.proc.executing.map _ = _
    rw [held_proc h]
    rfl
  show execStrobeEnd lines s = _
  unfold execStrobeEnd
  dsimp only
  rw [none]

theorem refreshTick_held : exec .refreshTick s = .next s := by
  show execRefreshTick s = _
  unfold execRefreshTick
  rw [held_tick h]

theorem groupRefresh_held (g : Group) : exec (.groupRefreshComplete g) s = .next s := by
  have first : ∀ g : Group, ∃ b, b ∈ banksOf g := by decide
  refine congrArg Host.Outcome.next (if_neg fun k => ?_)
  obtain ⟨b, hb⟩ := first g
  have refreshing := List.all_eq_true.1 k b hb
  rw [held_bank h] at refreshing
  cases refreshing

theorem spareStep_held : exec .spareStepEnd s = .next s := by
  show execSpareStepEnd s = _
  unfold execSpareStepEnd
  rw [held_op h]

theorem repairCopy_held (decay : List Decay) : exec (.repairCopyEnd decay) s = .next s := by
  show execRepairCopyEnd decay s = _
  unfold execRepairCopyEnd
  rw [held_op h]

theorem fuseVerify_held (pass : Bool) : exec (.fuseVerify pass) s = .next s := by
  show execFuseVerify pass s = _
  unfold execFuseVerify
  rw [held_op h]

theorem lockWait_held (b : Bank) : exec (.lockWaitExpiry b) s = .next s := by
  refine congrArg Host.Outcome.next (if_neg fun k => ?_)
  rw [held_bank h] at k
  cases k

theorem wakeComplete_held : exec .wakeComplete s = .next s := by
  show execWakeComplete s = _
  unfold execWakeComplete
  rw [held_partState h]

/-- Held in reset, no command but POWER_ON moves anything but the input pins. -/
theorem held_movesPins (c : Instr) (hc : ∀ (baud : BitVec 3) (temp : Int), c ≠ .powerOn baud temp) : MovesPins s c := by
  have hr := held_resetn h
  have row {lines : PortLines} {code : Byte} (k : (code, c) ∈ requestRows lines) : MovesPins s c := movesPins_of_request hr k
  cases c with
  | powerOn baud temp => exact absurd rfl (hc baud temp)
  | resetnAssert => exact movesPins_of_stands (congrArg Host.Outcome.next h.symm)
  | spareStepEnd => exact movesPins_of_stands (spareStep_held h)
  | requestArrival chars => exact movesPins_of_stands (congrArg Host.Outcome.next (receive_reset hr chars))
  | frameError chars => exact movesPins_of_stands (congrArg Host.Outcome.next (receive_reset hr chars))
  | gapTimerExpiry => exact movesPins_of_stands (gapTimer_reset hr)
  | linkOpen chars => exact movesPins_of_stands (congrArg Host.Outcome.next (receive_reset hr chars))
  | noticeAck chars lines => exact movesPins_of_sample (noticeAck_reset hr chars lines)
  | unknownRequest => exact movesPins_of_stands (unknownRequest_reset hr)
  | identify => exact row (lines := anyLines) (code := 0x02) (by simp [requestRows])
  | status lines => exact row (lines := lines) (code := 0x03) (by simp [requestRows])
  | getSetting => exact row (lines := anyLines) (code := 0x04) (by simp [requestRows])
  | setSetting => exact row (lines := anyLines) (code := 0x05) (by simp [requestRows])
  | submit lines => exact row (lines := lines) (code := 0x10) (by simp [requestRows])
  | cancel lines => exact row (lines := lines) (code := 0x11) (by simp [requestRows])
  | jobQuery => exact row (lines := anyLines) (code := 0x12) (by simp [requestRows])
  | hostWrite => exact row (lines := anyLines) (code := 0x20) (by simp [requestRows])
  | hostRead => exact row (lines := anyLines) (code := 0x21) (by simp [requestRows])
  | portOut => exact row (lines := anyLines) (code := 0x22) (by simp [requestRows])
  | portIn => exact row (lines := anyLines) (code := 0x23) (by simp [requestRows])
  | readWeakList => exact row (lines := anyLines) (code := 0x30) (by simp [requestRows])
  | clearWeakEntry => exact row (lines := anyLines) (code := 0x31) (by simp [requestRows])
  | repairRow => exact row (lines := anyLines) (code := 0x32) (by simp [requestRows])
  | readRemap => exact row (lines := anyLines) (code := 0x33) (by simp [requestRows])
  | readErrorLog => exact row (lines := anyLines) (code := 0x40) (by simp [requestRows])
  | clearError => exact row (lines := anyLines) (code := 0x41) (by simp [requestRows])
  | engineReset => exact row (lines := anyLines) (code := 0x50) (by simp [requestRows])
  | sleep => exact row (lines := anyLines) (code := 0x51) (by simp [requestRows])
  | wake => exact row (lines := anyLines) (code := 0x52) (by simp [requestRows])
  | frameTransmitEnd => exact movesPins_of_stands (frameTransmitEnd_reset hr)
  | noticeResendExpiry number => exact movesPins_of_stands (noticeResend_reset hr number)
  | refreshTick => exact movesPins_of_stands (refreshTick_held h)
  | groupRefreshComplete g => exact movesPins_of_stands (groupRefresh_held h g)
  | temperatureChange temp => exact movesPins_of_stands (temperature_reset hr temp)
  | bankOpenComplete b => exact movesPins_of_stands (bankOpen_held h b)
  | bankCloseComplete b => exact movesPins_of_stands (bankClose_held h b)
  | burstComplete decay lines => exact movesPins_of_sample (burst_held h decay lines)
  | lockWaitExpiry b => exact movesPins_of_stands (lockWait_held h b)
  | unitRequest p xdir xend d lines => exact unitRequest_reset hr p xdir xend d lines
  | xreqRemoved p => exact xreqRemoved_held h p
  | holdnDeassert p lines => exact holdn_reset hr p lines
  | attnEdge p lines => exact movesPins_of_sample (attnEdge_reset hr p lines)
  | strobeEnd lines => exact movesPins_of_sample (strobe_held h lines)
  | scrubTimerExpiry => exact movesPins_of_stands (exec_scrubTimer_stopped (held_timer h))
  | repairCopyEnd decay => exact movesPins_of_stands (repairCopy_held h decay)
  | fuseVerify pass => exact movesPins_of_stands (fuseVerify_held h pass)
  | wakeComplete => exact movesPins_of_stands (wakeComplete_held h)
  | characterArrival c => exact movesPins_of_stands (congrArg Host.Outcome.next (receive_reset hr [c]))

end

/-- Settles O4: the assertion leaves the state held in reset, in which each command finds nothing to do. -/
theorem resetnEndsEverything : Obligations.ResetnEndsEverything := by
  unfold Obligations.ResetnEndsEverything
  refine ⟨fun s => ⟨s.holdInReset, rfl, rfl, rfl, fun p => Vector.getElem_replicate _, rfl, rfl, rfl, rfl, rfl, rfl, rfl,
    fun b => Vector.getElem_replicate _, rfl, rfl, heldInReset_of_assert s⟩, fun s h c hc => held_movesPins h c hc,
    fun s hr => ⟨fun chars => ?_, fun c => congrArg Host.Outcome.next (receive_reset hr [c]), noticeAck_reset hr,
      gapTimer_reset hr, frameTransmitEnd_reset hr, unknownRequest_reset hr, noticeResend_reset hr, temperature_reset hr,
      fun p lines => ⟨attnEdge_reset hr p lines, holdn_reset hr p lines⟩, unitRequest_reset hr,
      fun _ _ _ h => request_reset hr h⟩⟩
  have stands := congrArg (Host.Outcome.next (φ := Fault) (ρ := Refusal)) (receive_reset hr chars)
  exact ⟨stands, stands, stands⟩

end Sys2Proof.Machine
end

