-- ==== Sys2Proof/Proofs/BurstArray.lean ====
section
/-! PROOF. What a burst does to the array (R5, R7, R15, R16, R28, R106), and what leaves the array alone. -/

namespace Sys2Proof.Machine

open Sys2Proof.Safety

-- One thread: the whole text is checked under a memory limit that holds a bounded number of thread stacks.
set_option Elab.async false

/-! ### The words of a WRITE, one by one -/

/-- The write of one word, guarded for a scrub rewrite. -/
def oneWord (guarded : Bool) (m : Memory) (a addr : Nat) (d : Word) (mask : BitVec 4) : Memory × WordResult :=
  if guarded then rewriteOne m a addr d mask else writeOne m a addr d mask

/-- Two arrays hold the same at a cell. -/
def SameCell (m m' : Memory) (a : Nat) : Prop := m.word a = m'.word a ∧ m.wrong (a / 4) = m'.wrong (a / 4)

theorem SameCell.read {m m' : Memory} {a : Nat} (h : SameCell m m' a) : m.read a = m'.read a := by
  unfold Memory.read
  rw [h.1, h.2]

theorem sameCell_setWord {m m' : Memory} (w : m.wf = true) (w' : m'.wf = true) (a : Nat) (d : Word) :
    SameCell (m.setWord a d) (m'.setWord a d) a := by
  obtain ⟨hd, hw⟩ := setWord_self w a d
  obtain ⟨hd', hw'⟩ := setWord_self w' a d
  exact ⟨hd.trans hd'.symm, hw.trans hw'.symm⟩

/-- What a word's write leaves at its cell depends on the cell alone. -/
theorem sameCell_oneWord {m m' : Memory} (w : m.wf = true) (w' : m'.wf = true) {a : Nat} (h : SameCell m m' a) (guarded : Bool)
    (addr addr' : Nat) (d : Word) (mask : BitVec 4) :
    SameCell (oneWord guarded m a addr d mask).1 (oneWord guarded m' a addr' d mask).1 a := by
  cases guarded
  · unfold oneWord writeOne
    rw [if_neg Bool.false_ne_true, if_neg Bool.false_ne_true, h.read]
    split
    · exact h
    · split
      · exact sameCell_setWord w w' a d
      · dsimp only
        split
        · exact h
        · exact sameCell_setWord w w' a _
  · unfold oneWord rewriteOne
    rw [if_pos rfl, if_pos rfl, h.read]
    split
    · exact h
    · dsimp only
      split
      · exact sameCell_setWord w w' a d
      · exact h

/-- A word's write reaches its own cell alone. -/
theorem oneWord_other (guarded : Bool) (m : Memory) (a addr : Nat) (d : Word) (mask : BitVec 4) :
    (∀ x : Nat, (x < a ∨ a + 4 ≤ x) → (oneWord guarded m a addr d mask).1.byte x = m.byte x) ∧
      ∀ w : Nat, w ≠ a / 4 → (oneWord guarded m a addr d mask).1.wrong w = m.wrong w := by
  have written (d : Word) := Memory.setWord_other m (a := a) d
  cases guarded
  · unfold oneWord writeOne
    rw [if_neg Bool.false_ne_true]
    split
    · exact ⟨fun _ _ => rfl, fun _ _ => rfl⟩
    · split
      · exact written d
      · dsimp only
        split
        · exact ⟨fun _ _ => rfl, fun _ _ => rfl⟩
        · exact written _
  · unfold oneWord rewriteOne
    rw [if_pos rfl]
    split
    · exact ⟨fun _ _ => rfl, fun _ _ => rfl⟩
    · dsimp only
      split
      · exact written d
      · exact ⟨fun _ _ => rfl, fun _ _ => rfl⟩

theorem wf_oneWord {m : Memory} (w : m.wf = true) (guarded : Bool) (a addr : Nat) (d : Word) (mask : BitVec 4) :
    (oneWord guarded m a addr d mask).1.wf = true := by
  cases guarded
  · exact wf_writeOne w a addr d mask
  · exact wf_rewriteOne w a addr d mask

section
variable (guarded : Bool) {base : Nat} (hb : base % 4 = 0) (b : Bank) (r : Row) (data : List Word) (masks : List (BitVec 4))

/-- The first word of a WRITE, and the rest. -/
theorem writeWords_succ (base : Nat) (m : Memory) (w n : Nat) :
    (writeWords guarded base b r data masks m w (n + 1)).1 = (writeWords guarded base b r data masks
      (oneWord guarded m (base + 4 * w) (wordAddress b r w) (data.getD (w % 8) 0) (masks.getD (w % 8) 0)).1 (w + 1) n).1 := rfl

include hb in
/-- A WRITE reaches its own words alone. -/
theorem writeWords_other (n : Nat) : ∀ (m : Memory) (w : Nat),
    (∀ x : Nat, (x < base + 4 * w ∨ base + 4 * (w + n) ≤ x) → (writeWords guarded base b r data masks m w n).1.byte x = m.byte x) ∧
      ∀ y : Nat, (y < base / 4 + w ∨ base / 4 + w + n ≤ y) →
        (writeWords guarded base b r data masks m w n).1.wrong y = m.wrong y := by
  induction n with
  | zero => exact fun m w => ⟨fun _ _ => rfl, fun _ _ => rfl⟩
  | succ n ih =>
    intro m w
    rw [writeWords_succ]
    obtain ⟨hbyte, hwrong⟩ := oneWord_other guarded m (base + 4 * w) (wordAddress b r w) (data.getD (w % 8) 0) (masks.getD (w % 8) 0)
    generalize (oneWord guarded m (base + 4 * w) (wordAddress b r w) (data.getD (w % 8) 0) (masks.getD (w % 8) 0)).1 = m1 at *
    obtain ⟨ibyte, iwrong⟩ := ih m1 (w + 1)
    exact ⟨fun x hx => (ibyte x (by omega)).trans (hbyte x (by omega)),
      fun y hy => (iwrong y (by omega)).trans (hwrong y (by omega))⟩

include hb in
/-- Each word of a WRITE is written as if it were alone. -/
theorem writeWords_word (n : Nat) : ∀ (m : Memory) (w k addr : Nat), m.wf = true → k < n →
    SameCell (writeWords guarded base b r data masks m w n).1
      (oneWord guarded m (base + 4 * (w + k)) addr (data.getD ((w + k) % 8) 0) (masks.getD ((w + k) % 8) 0)).1
      (base + 4 * (w + k)) := by
  induction n with
  | zero => exact fun m w k addr _ hk => absurd hk (Nat.not_lt_zero k)
  | succ n ih =>
    intro m w k addr hwf hk
    rw [writeWords_succ]
    have own := sameCell_oneWord hwf hwf (a := base + 4 * w) ⟨rfl, rfl⟩ guarded (wordAddress b r w) addr (data.getD (w % 8) 0)
      (masks.getD (w % 8) 0)
    obtain ⟨hbyte, hwrong⟩ := oneWord_other guarded m (base + 4 * w) (wordAddress b r w) (data.getD (w % 8) 0) (masks.getD (w % 8) 0)
    have hwf1 := wf_oneWord hwf guarded (base + 4 * w) (wordAddress b r w) (data.getD (w % 8) 0) (masks.getD (w % 8) 0)
    generalize (oneWord guarded m (base + 4 * w) (wordAddress b r w) (data.getD (w % 8) 0) (masks.getD (w % 8) 0)).1 = m1 at *
    obtain ⟨obyte, owrong⟩ := writeWords_other guarded hb b r data masks n m1 (w + 1)
    cases k with
    | zero =>
      have later : SameCell (writeWords guarded base b r data masks m1 (w + 1) n).1 m1 (base + 4 * w) := by
        unfold SameCell Memory.word
        rw [obyte _ (by omega), obyte _ (by omega), obyte _ (by omega), obyte _ (by omega), owrong _ (by omega)]
        exact ⟨rfl, rfl⟩
      exact ⟨later.1.trans own.1, later.2.trans own.2⟩
    | succ k =>
      have earlier : SameCell m1 m (base + 4 * (w + 1 + k)) := by
        unfold SameCell Memory.word
        rw [hbyte _ (by omega), hbyte _ (by omega), hbyte _ (by omega), hbyte _ (by omega), hwrong _ (by omega)]
        exact ⟨rfl, rfl⟩
      have step := ih m1 (w + 1) k addr hwf1 (by omega)
      have same := sameCell_oneWord hwf1 hwf earlier guarded addr addr (data.getD ((w + 1 + k) % 8) 0)
        (masks.getD ((w + 1 + k) % 8) 0)
      rw [show w + (k + 1) = w + 1 + k by omega]
      exact ⟨step.1.trans same.1, step.2.trans same.2⟩

end

theorem perform_write {s : State} {a : Access} {data : List Word} {masks : List (BitVec 4)} (h : a.kind = .write data masks) :
    s.perform a = writeWords a.client.isScrub (s.openCell a.bank a.row) a.bank a.row data masks s.mem a.firstWord a.wordCount := by
  unfold State.perform
  rw [h]

theorem perform_read {s : State} {a : Access} (h : a.kind = .read) : s.perform a =
    (s.mem, readWords s.mem (s.openCell a.bank a.row) a.bank a.row a.firstWord a.wordCount) := by
  unfold State.perform
  rw [h]

theorem isScrub_iff {c : Client} : c.isScrub = true ↔ c = .maint .scrub := by
  cases c with
  | maint purpose => cases purpose <;> simp [Client.isScrub]
  | _ => simp [Client.isScrub]

/-- The array after the words of a burst (R7, R15, R16, R106). -/
theorem perform_mem (s : State) (a : Access) :
    (a.kind = .read → (s.perform a).1 = s.mem) ∧
    (∀ x : Nat, (x < s.openCell a.bank a.row + 4 * a.firstWord ∨
        s.openCell a.bank a.row + 4 * (a.firstWord + a.wordCount) ≤ x) → (s.perform a).1.byte x = s.mem.byte x) ∧
    (∀ w : Nat, (w < s.openCell a.bank a.row / 4 + a.firstWord ∨
        s.openCell a.bank a.row / 4 + a.firstWord + a.wordCount ≤ w) → (s.perform a).1.wrong w = s.mem.wrong w) ∧
    ∀ (data : List Word) (masks : List (BitVec 4)) (k : Nat), s.mem.wf = true → a.kind = .write data masks → k < a.wordCount →
      SameCell (s.perform a).1 (oneWord a.client.isScrub s.mem (s.openCell a.bank a.row + 4 * (a.firstWord + k)) 0
        (data.getD ((a.firstWord + k) % 8) 0) (masks.getD ((a.firstWord + k) % 8) 0)).1
        (s.openCell a.bank a.row + 4 * (a.firstWord + k)) := by
  cases hk : a.kind with
  | read =>
    rw [perform_read hk]
    exact ⟨fun _ => rfl, fun _ _ => rfl, fun _ _ => rfl, nofun⟩
  | write data masks =>
    rw [perform_write hk]
    have aligned := openCell_aligned s a.bank a.row
    obtain ⟨hbyte, hwrong⟩ := writeWords_other a.client.isScrub aligned a.bank a.row data masks a.wordCount s.mem a.firstWord
    refine ⟨nofun, hbyte, hwrong, fun data' masks' k hwf h hk => ?_⟩
    obtain ⟨rfl, rfl⟩ := AccessKind.write.inj h
    exact writeWords_word a.client.isScrub aligned a.bank a.row data masks a.wordCount s.mem a.firstWord k 0 hwf hk

/-! ### What follows a burst leaves the array alone -/

section
variable (s : State)

theorem Outward.mem {s t : State} (h : Outward s t) : t.mem = s.mem := by
  obtain ⟨_, _, _, rfl⟩ := h
  rfl

theorem record_internal (src : Source) (b : Bank) (row : Row) (c u : Nat) : Internal s (s.record src b row c u) := by
  unfold State.record
  repeat' split
  all_goals exact Internal.media s _

theorem alertUncorrectable_internal (src : Source) (b : Bank) (row : Row) (addr : Nat) :
    Internal s (s.alertUncorrectable src b row addr) := by
  unfold State.alertUncorrectable
  split
  · split
    · exact Internal.refl s
    · exact (Internal.media s _).trans (Internal.offerAlert _ _)
  · exact Internal.offerAlert s _

theorem alertListFull_internal (b : Bank) (row : Row) : Internal s (s.alertListFull b row) := by
  unfold State.alertListFull
  split
  · exact Internal.refl s
  · exact (Internal.media s _).trans (Internal.offerAlert _ _)

theorem report_mem (a : Access) (rs : List WordResult) : (s.report a rs).mem = s.mem := by
  have alerted (u : State) : Internal u (u.uncorrectableAlerted a rs) := by
    unfold State.uncorrectableAlerted
    split
    · exact alertUncorrectable_internal u _ _ _ _
    · exact Internal.refl u
  have first := (record_internal s a.client.source a.bank a.row (correctedWords rs) (uncorrectableWords rs)).trans (alerted _)
  rw [report_eq]
  split
  · exact (first.trans (alertListFull_internal _ _ _)).mem
  · exact first.mem

theorem portResult_mem (p : Port) (tag : Tag) (a : Access) (rs : List WordResult) :
    (s.portResult p tag a rs).mem = s.mem := by
  have marked (t : Tag) : Internal s (s.markCorrected t rs) := by
    unfold State.markCorrected
    split
    · exact Internal.updateJob s _ _
    · exact Internal.refl s
  unfold State.portResult
  split
  · dsimp only
    split
    · exact (congrArg State.mem (stopPort_spec (s.freeHalf p a.burst) p).2.2.2 :)
    · rfl
  · split
    · rfl
    · next j hj =>
      split
      · refine (Internal.trans ?_ (Internal.portSettle _ p)).mem
        unfold State.portRead
        dsimp only
        split
        · exact ((marked _).trans (Internal.setEngine _ _ _)).trans (Internal.checkMark _ _ _)
        · exact (marked _).trans (Internal.setEngine _ _ _)
      · refine (Internal.trans ?_ (Internal.portSettle _ p)).mem
        have freed : Internal s ((s.markCorrected j.tag rs).freeHalf p a.burst) := (marked _).trans (Internal.setEngine _ _ _)
        unfold State.portWrite
        dsimp only
        split
        · exact freed
        · split
          · exact freed.trans (Internal.stopJob _ _ _ _ _)
          · exact freed

theorem linkResult_mem (a : Access) (rs : List WordResult) : (s.linkResult a rs).mem = s.mem := by
  unfold State.linkResult
  split
  · unfold State.hostReadDone
    split
    · exact (Outward.endExecution s _ _).mem
    · dsimp only
      split
      · rfl
      · exact (Outward.endExecution s _ _).mem
  · unfold State.hostWriteDone
    split
    · exact (Outward.endExecution s _ _).mem
    · split
      · rfl
      · exact (Outward.endExecution s _ _).mem
  · rfl

theorem clearResult_mem : s.clearResult.mem = s.mem := by
  unfold State.clearResult
  split
  · split
    · rfl
    · split
      · rfl
      · obtain ⟨_, _, _, _, _, _, e⟩ := (clearEnded s).rest
        rw [e]
  · rfl

theorem burstDone_internal : Internal s s.burstDone := by
  unfold State.burstDone
  dsimp only
  split
  · exact Internal.setScrub s _
  · split
    · exact Internal.setScrub s _
    · exact (Internal.setScrub s _).trans (Internal.offer _ _)

theorem scrubResult_mem (a : Access) (rs : List WordResult) : (s.scrubResult a rs).mem = s.mem := by
  unfold State.scrubResult
  split
  · exact ((Internal.setScrub s _).trans (Internal.scrubAdvance _)).mem
  · split
    · unfold State.scrubRead
      dsimp only
      split
      · exact ((Internal.setScrub s _).trans ((burstDone_internal _).trans (Internal.scrubAdvance _))).mem
      · exact ((Internal.setScrub s _).trans (Internal.post _ _)).mem
    · exact ((burstDone_internal s).trans (Internal.scrubAdvance _)).mem

theorem clientResult_mem (a : Access) (rs : List WordResult) : (s.clientResult a rs).mem = s.mem := by
  unfold State.clientResult
  split
  · exact portResult_mem s _ _ a rs
  · exact linkResult_mem s a rs
  · exact clearResult_mem s
  · exact scrubResult_mem s a rs

theorem deliver_mem (a : Access) (rs : List WordResult) : (s.deliver a rs).mem = s.mem := by
  unfold State.deliver
  split
  · split
    · exact (clientResult_mem _ a rs).trans (report_mem s a rs)
    · dsimp only
      split
      · exact (clientResult_mem _ a rs).trans (report_mem _ a rs)
      · exact (report_mem _ a rs).trans (clientResult_mem _ a rs)
  · exact clientResult_mem s a rs

theorem endReset_mem : s.endReset.mem = s.mem := by
  by_cases h : s.part.state = .resetting ∧ ∀ p : Port, (s.engine p).state = .inert
  · rw [endReset_ends h.1 h.2]
    refine (Outward.endExecution _ _ _).mem.trans ((Internal.scrubAdvance _).mem.trans ?_)
    obtain ⟨-, -, en, ou, e⟩ := readyEngines_spec { (jobsDropped s).admitWaiting with
      part := { (jobsDropped s).admitWaiting.part with state := .ready } }
    rw [e]
    exact (Internal.admitWaiting (jobsDropped s)).mem
  · rw [endReset_stands]
    by_cases hr : s.part.state = .resetting
    · exact .inr (by simpa [hr] using h)
    · exact .inl hr

theorem afterResult_mem : (afterResult s).mem = s.mem := by
  have asleep (u : State) : u.endSleepEntry.mem = u.mem := (congrArg State.mem (endSleepEntry_rest u) :)
  exact (Outward.transmit _).mem.trans ((asleep _).trans ((Internal.schedule _).mem.trans (endReset_mem s)))

end

theorem placeLock_mem (s : State) (a : Access) : (s.placeLock a).mem = s.mem := by
  have locked (b : Bank) (t : Tag) : Internal s (s.lockBank b t) := by
    unfold State.lockBank
    split
    · exact Internal.refl s
    · exact (Internal.releaseLocksOf s t).trans (Internal.setBank _ _ _)
  unfold State.placeLock
  split
  · rfl
  · split
    · rfl
    · split
      · dsimp only
        split
        · exact ((locked _ _).trans (Internal.breakLock _ _)).mem
        · exact (locked _ _).mem
      · rfl

theorem atResult_mem (s : State) (decay : List Decay) (lines : PortLines) (a : Access) :
    (atResult s decay lines a).mem = (State.perform { s with mem := s.mem.decay decay } a).1 :=
  placeLock_mem _ a

/-- The array after a burst's completion is what the burst's words leave. -/
theorem burst_mem (s : State) (decay : List Decay) (lines : PortLines) (a : Access) (rs : List WordResult) :
    (afterResult ((atResult s decay lines a).deliver a rs)).mem = (State.perform { s with mem := s.mem.decay decay } a).1 :=
  (afterResult_mem _).trans ((deliver_mem _ a rs).trans (atResult_mem s decay lines a))

end Sys2Proof.Machine
end

