-- ==== Sys2Proof/Proofs/Burst.lean ====
section
/-! PROOF. The result of a burst: its words, where it goes, and what a port does with it (R28 to R30, R68 to R75, R82). -/

namespace Sys2Proof.Machine

open Sys2Proof.Safety

-- One thread: the whole text is checked under a memory limit that holds a bounded number of thread stacks.
set_option Elab.async false

/-! ### The array -/

theorem exec_burstComplete_none {s : State} (h : s.flying = none) (decay : List Decay) (lines : PortLines) :
    exec (.burstComplete decay lines) s = .next (s.sample lines) := by
  have none : (s.sample lines).flying = none := by
    obtain ⟨pins, e⟩ := sample_eq_pins s lines
    rw [e]
    exact h
  show execBurstComplete decay lines s = _
  unfold execBurstComplete
  dsimp only
  rw [none]

/-- What a burst's completion leaves of the array. -/
theorem burst_array {s : State} (decay : List Decay) (a : Access) (m : Memory)
    (hm : m = (State.perform { s with mem := s.mem.decay decay } a).1) :
    (a.kind = .read → m = s.mem.decay decay) ∧
    (∀ x : Nat, (x < s.openCell a.bank a.row + 4 * a.firstWord ∨
        s.openCell a.bank a.row + 4 * (a.firstWord + a.wordCount) ≤ x) → m.byte x = s.mem.byte x) ∧
    (∀ w : Nat, (w < s.openCell a.bank a.row / 4 + a.firstWord ∨
        s.openCell a.bank a.row / 4 + a.firstWord + a.wordCount ≤ w) → m.wrong w = (s.mem.decay decay).wrong w) ∧
    ∀ (data : List Word) (masks : List (BitVec 4)) (k cell : Nat) (one : Memory), ArrayCanonical s →
      a.kind = .write data masks → k < a.wordCount → cell = s.openCell a.bank a.row + 4 * (a.firstWord + k) →
      one = (if a.client = .maint .scrub then
          (rewriteOne (s.mem.decay decay) cell 0 (data.getD ((a.firstWord + k) % 8) 0)
            (masks.getD ((a.firstWord + k) % 8) 0)).1
        else (writeOne (s.mem.decay decay) cell 0 (data.getD ((a.firstWord + k) % 8) 0)
            (masks.getD ((a.firstWord + k) % 8) 0)).1) →
      m.word cell = one.word cell ∧ m.wrong (cell / 4) = one.wrong (cell / 4) := by
  obtain ⟨hread, hbyte, hwrong, hword⟩ := perform_mem { s with mem := s.mem.decay decay } a
  rw [← hm] at hread hbyte hwrong hword
  refine ⟨hread, fun x hx => (hbyte x hx).trans (byte_decay _ _ _), hwrong, fun data masks k cell one hwf hk hlt hcell hone => ?_⟩
  subst hcell hone
  have same := hword data masks k (Memory.wf_decay hwf decay) hk hlt
  unfold oneWord at same
  by_cases hs : a.client = .maint .scrub
  · rw [if_pos (isScrub_iff.2 hs)] at same
    rw [if_pos hs]
    exact same
  · rw [if_neg (mt isScrub_iff.1 hs)] at same
    rw [if_neg hs]
    exact same

/-! ### Where the result goes -/

section
variable {s : State} {a : Access} {rs : List WordResult}

theorem deliver_unreported (h : ¬CallsForReport rs) : s.deliver a rs = s.clientResult a rs := if_neg (mt reported_iff.1 h)

theorem deliver_scrub (h : CallsForReport rs) (hc : a.client = .maint .scrub) :
    s.deliver a rs = (s.report a rs).clientResult a rs := (if_pos (reported_iff.2 h)).trans (if_pos (isScrub_iff.2 hc))

theorem deliver_free (h : CallsForReport rs) (hc : a.client ≠ .maint .scrub) {v : State}
    (hv : v = { s with freeCtr := s.freeCtr + 1 }) :
    s.deliver a rs = (v.report a rs).clientResult a rs ∨ s.deliver a rs = (v.clientResult a rs).report a rs := by
  have choice : s.deliver a rs = if Config.freeChoice s.freeCtr then (v.report a rs).clientResult a rs
      else (v.clientResult a rs).report a rs := by
    subst hv
    exact (if_pos (reported_iff.2 h)).trans (if_neg (mt isScrub_iff.1 hc))
  rw [choice]
  split
  · exact .inl rfl
  · exact .inr rfl

end

/-- The words of a result in address order (R28, R29). -/
theorem perform_results (s : State) (decay : List Decay) (a : Access) (rs : List WordResult)
    (hrs : rs = (State.perform { s with mem := s.mem.decay decay } a).2) :
    (a.kind = .read → rs = (List.range a.wordCount).map fun k =>
      { address := a.row.val * 32768 + a.bank.val * 2048 + (a.firstWord + k) * 4,
        data := ((s.mem.decay decay).read (s.openCell a.bank a.row + 4 * (a.firstWord + k))).2,
        outcome := some ((s.mem.decay decay).read (s.openCell a.bank a.row + 4 * (a.firstWord + k))).1,
        written := false }) ∧
    (∀ (data : List Word) (masks : List (BitVec 4)), a.kind = .write data masks →
      rs = (List.range a.wordCount).map fun k =>
        if a.client = .maint .scrub then
          (rewriteOne (s.mem.decay decay) (s.openCell a.bank a.row + 4 * (a.firstWord + k))
            (a.row.val * 32768 + a.bank.val * 2048 + (a.firstWord + k) * 4) (data.getD ((a.firstWord + k) % 8) 0)
            (masks.getD ((a.firstWord + k) % 8) 0)).2
        else
          (writeOne (s.mem.decay decay) (s.openCell a.bank a.row + 4 * (a.firstWord + k))
            (a.row.val * 32768 + a.bank.val * 2048 + (a.firstWord + k) * 4) (data.getD ((a.firstWord + k) % 8) 0)
            (masks.getD ((a.firstWord + k) % 8) 0)).2) ∧
    rs.Pairwise fun x y => x.address < y.address := by
  subst hrs
  refine ⟨fun hk => ?_, fun data masks hk => ?_, perform_rising _ a⟩
  · rw [perform_read hk]
    exact readWords_results _ _ _ _ _ _
  · rw [perform_write hk]
    refine (writeWords_results a.client.isScrub (openCell_aligned { s with mem := s.mem.decay decay } a.bank a.row) a.bank a.row
      data masks a.wordCount _ a.firstWord).trans (List.map_congr_left fun k _ => ?_)
    by_cases hs : a.client = .maint .scrub
    · rw [if_pos (isScrub_iff.2 hs), if_pos hs]
      rfl
    · rw [if_neg (mt isScrub_iff.1 hs), if_neg hs]
      rfl

/-! ### A port's result -/

section
variable {s : State} {p : Port} {a : Access} {rs : List WordResult} {before after : List Half}

theorem freeHalf_awaiting (hh : (s.engine p).halves = before ++ .awaiting a.burst :: after) (hb : .awaiting a.burst ∉ before) :
    s.freeHalf p a.burst = s.setEngine p { s.engine p with halves := before ++ after } := by
  unfold State.freeHalf State.setHalves
  rw [hh, dropFirst_awaiting hb]

/-- The job's record after a result, CORRECTED SEEN with it (R48). -/
def seenBy (rs : List WordResult) (j : Job) : Job :=
  { j with correctedSeen := j.correctedSeen || rs.any fun x => decide (x.outcome = some .corrected) }

theorem markCorrected_spec {j : Job} (hj : s.jobOf j.tag = some j) :
    (s.markCorrected j.tag rs).jobOf j.tag = some (seenBy rs j) ∧
      (∀ t : Tag, t ≠ j.tag → (s.markCorrected j.tag rs).jobOf t = s.jobOf t) ∧
      ∃ jb, s.markCorrected j.tag rs = { s with jobs := jb } := by
  unfold State.markCorrected seenBy
  have same : (rs.any fun x => decide (x.outcome = some .corrected)) = rs.any WordResult.isCorrected := rfl
  rw [same]
  by_cases h : rs.any WordResult.isCorrected = true
  · rw [if_pos h, h, Bool.or_true]
    exact ⟨State.jobOf_updateJob (f := fun x => { x with correctedSeen := true }) (fun _ => rfl) hj,
      fun t ht => State.jobOf_updateJob_other (f := fun x => { x with correctedSeen := true }) (fun _ => rfl) ht, _, rfl⟩
  · rw [if_neg h, Bool.eq_false_iff.2 h, Bool.or_false]
    exact ⟨hj, fun _ _ => rfl, _, rfl⟩

/-- What a port's result may change before the port goes on. -/
structure ResultAt (s u : State) (p : Port) (tag : Tag) : Prop where
  rest : { u with jobs := s.jobs, engines := s.engines, banks := s.banks } = s
  engines : ∀ q : Port, q ≠ p → u.engine q = s.engine q
  jobs : ∀ t : Tag, t ≠ tag → u.jobOf t = s.jobOf t

/-- The job's record rewritten and the engine's set: nothing is posted, no lock moves. -/
theorem resultAt_set {jb : List Job} {tag : Tag} (hother : ∀ t : Tag, t ≠ tag → ({ s with jobs := jb } : State).jobOf t = s.jobOf t)
    (e : Engine) : ResultAt s (({ s with jobs := jb } : State).setEngine p e) p tag :=
  ⟨rfl, fun q hq => State.engine_other _ _ _ q hq, hother⟩

/-- A job stopped for MEDIA: its locks released, what it had staged discarded, nothing posted (R46, R75). -/
theorem stopMedia_spec {j x : Job} (hj : s.jobOf j.tag = some x) (f : Option Nat) :
    ResultAt s (s.stopJob p j .media f) p j.tag ∧
      (s.stopJob p j .media f).jobOf j.tag = some { x with state := .stopping, outcome := some .media, faultAddress := f } ∧
      (s.stopJob p j .media f).engine p =
        { s.engine p with state := .stopping, halves := onlyAwaiting (s.engine p).halves } ∧
      LocksReleased s (s.stopJob p j .media f) j.tag := by
  obtain ⟨hjob, hengine, hengines, -, haccesses, jb, en, bk, ac, e⟩ := State.stopJob_spec (p := p) (o := .media) (f := f) hj
  obtain ⟨⟨-, hjobs, -, -, -⟩, -⟩ := State.turnOf_stopJob (p := p) (o := .media) (f := f) hj
  rw [if_pos rfl] at haccesses hengine
  rw [List.append_nil] at haccesses
  refine ⟨⟨?_, hengines, hjobs⟩, hjob, hengine, (stopJob_jobs s p j .media f).2⟩
  rw [e] at haccesses ⊢
  exact (congrArg (fun v : List Access => { s with accesses := v }) haccesses :)

theorem ResultAt.trans {u v : State} {tag : Tag} (h : ResultAt s u p tag) (k : ResultAt u v p tag) : ResultAt s v p tag where
  rest := (congrArg (fun t : State => { t with jobs := s.jobs, engines := s.engines, banks := s.banks }) k.rest).trans h.rest
  engines q hq := (k.engines q hq).trans (h.engines q hq)
  jobs t ht := (k.jobs t ht).trans (h.jobs t ht)

/-- Whether the fault mark stops the job at its next unit (R71), the mark wholly past the unit or the unit within its word. -/
theorem markStops_past {m n size : Nat} (h : n + size ≤ m) (h1 : 1 ≤ size) : markStops (some m) n size = false := by
  unfold markStops
  have early : ¬m ≤ n := by omega
  simp only [early, decide_false, Bool.false_and, Bool.false_or]
  by_cases h2 : size = 2
  · have apart : ¬n + 1 = m := by omega
    simp [apart]
  · simp [h2]

theorem markStops_within {m n size : Nat} (h : m ≤ n) (h4 : n < m + 4) : markStops (some m) n size = true := by
  unfold markStops
  simp [h, h4]

theorem unitBytes_eq (s : State) (p : Port) (j : Job) :
    unitBytes (s.portSettings p).width (j.length - j.moved) = unitSize s p j := by
  unfold unitBytes unitSize
  cases (s.portSettings p).width with
  | w8 => simp
  | w16 =>
    have same : 2 ≤ j.length - j.moved ↔ j.moved + 2 ≤ j.length := by omega
    simp [same]

theorem unitSize_pos (s : State) (p : Port) (j : Job) : 1 ≤ unitSize s p j := by
  unfold unitSize
  split <;> omega

theorem lowerMark_eq (old new : Option Nat) : State.lowerMark old new = markAfter old new := by
  cases old <;> cases new <;> rfl

end

/-! ### A port's result, case by case -/

section
variable {s : State} {p : Port} {a : Access} {rs : List WordResult} {before after : List Half} {j : Job}
  (hh : (s.engine p).halves = before ++ .awaiting a.burst :: after) (hb : .awaiting a.burst ∉ before)
  (hj : s.jobOf j.tag = some j)

include hh hb in
theorem portResult_resetting (hr : s.part.state = .resetting) (tag : Tag) :
    (s.outstanding p ≠ 0 → s.portResult p tag a rs = s.setEngine p { s.engine p with halves := before ++ after }) ∧
    (s.outstanding p = 0 → ((s.portResult p tag a rs).engine p).state = .inert ∧
      ((s.portResult p tag a rs).outp p).pclrPulses = (s.outp p).pclrPulses + 1 ∧
      ((s.portResult p tag a rs).outp p).sel = 0 ∧ ((s.portResult p tag a rs).outp p).xack = false ∧
      { s.portResult p tag a rs with engines := s.engines, outs := s.outs } = s) := by
  have result : s.portResult p tag a rs =
      if s.outstanding p = 0 then (s.setEngine p { s.engine p with halves := before ++ after }).stopPort p
      else s.setEngine p { s.engine p with halves := before ++ after } := by
    rw [← freeHalf_awaiting hh hb]
    exact if_pos hr
  rw [result]
  refine ⟨fun h => if_neg h, fun h => ?_⟩
  rw [if_pos h]
  obtain ⟨hengine, houtp, -, hrest⟩ := stopPort_spec (s.setEngine p { s.engine p with halves := before ++ after }) p
  rw [hengine, houtp]
  exact ⟨rfl, rfl, rfl, rfl, (congrArg (fun t : State => { t with engines := s.engines }) hrest :)⟩

/-- The AWAITING half becomes FREE, and CORRECTED SEEN follows the result: nothing else of the port changes. -/
theorem freed_spec {u : State} (hu : u = (s.markCorrected j.tag rs).freeHalf p a.burst)
    (hh : (s.engine p).halves = before ++ .awaiting a.burst :: after) (hb : .awaiting a.burst ∉ before)
    (hj : s.jobOf j.tag = some j) :
    ResultAt s u p j.tag ∧ u.jobOf j.tag = some (seenBy rs j) ∧
      u.engine p = { s.engine p with halves := before ++ after } ∧ u.banks = s.banks := by
  obtain ⟨hseen, hother, jb, e⟩ := markCorrected_spec (rs := rs) hj
  rw [e] at hu hseen hother
  rw [hu, freeHalf_awaiting (s := { s with jobs := jb }) hh hb]
  exact ⟨resultAt_set hother _, hseen, State.engine_self _ _ _, rfl⟩

include hh hb hj in
/-- A READ's result that comes to a job no longer ACTIVE is dropped (R75). -/
theorem portRead_dropped (hs : j.state ≠ .active) :
    ResultAt s (s.portRead p j a rs) p j.tag ∧ (s.portRead p j a rs).jobOf j.tag = some (seenBy rs j) ∧
      (s.portRead p j a rs).engine p = { s.engine p with halves := before ++ after } ∧ (s.portRead p j a rs).banks = s.banks :=
  freed_spec (if_neg hs) hh hb hj

/-- The engine once a READ's result is LOADED, the fault mark lowered with it (R69, R71). -/
def loadedEngine (s : State) (p : Port) (a : Access) (rs : List WordResult) (before after : List Half) : Engine :=
  { s.engine p with
    halves := before ++ .loaded a.burst (a.row.val * 32768 + a.bank.val * 2048 + a.firstWord * 4)
      (rs.flatMap fun x => wordBytes x.data) :: after,
    faultMark := markAfter (s.engine p).faultMark (firstFaulty rs) }

include hh hb hj in
/-- A READ's result at a job that is ACTIVE: the half is LOADED, and the mark is looked at (R69, R71). -/
theorem portRead_loaded (hs : j.state = .active) : ∃ v : State, s.portRead p j a rs = v.checkMark p j ∧
    ResultAt s v p j.tag ∧ v.jobOf j.tag = some (seenBy rs j) ∧ v.engine p = loadedEngine s p a rs before after ∧
    v.banks = s.banks ∧ v.portSettings p = s.portSettings p := by
  obtain ⟨hseen, hother, jb, e⟩ := markCorrected_spec (rs := rs) hj
  rw [e] at hseen hother
  refine ⟨({ s with jobs := jb } : State).setEngine p (loadedEngine s p a rs before after), ?_, resultAt_set hother _, hseen,
    State.engine_self _ _ _, rfl, rfl⟩
  have loaded : loadHalf a.burst (wordAddress a.bank a.row a.firstWord) (resultBytes rs) (s.engine p).halves =
      (loadedEngine s p a rs before after).halves := by
    rw [hh]
    exact loadHalf_awaiting hb
  have engine : (loadedEngine s p a rs before after) = { s.engine p with
      halves := loadHalf a.burst (wordAddress a.bank a.row a.firstWord) (resultBytes rs) (s.engine p).halves,
      faultMark := State.lowerMark (s.engine p).faultMark (firstFaulty rs) } := by
    rw [loaded, lowerMark_eq]
    rfl
  rw [engine]
  unfold State.portRead
  dsimp only
  rw [if_pos hs, e]
  rfl

theorem checkMark_of_markStops {v : State} {e : Engine} (he : v.engine p = e) : v.checkMark p j =
    if markStops e.faultMark (e.nextAddress.getD 0) (unitSize v p j) = true then v.stopJob p j .media e.faultMark else v := by
  unfold State.checkMark
  rw [unitBytes_eq, he]

theorem onlyAwaiting_loaded (k start : Nat) (bytes : List Byte) :
    onlyAwaiting (before ++ .loaded k start bytes :: after) = onlyAwaiting (before ++ after) := by
  unfold onlyAwaiting
  simp [Half.isLoaded]

include hh hb hj in
theorem portRead_active (hs : j.state = .active) (mark : Option Nat)
    (hm : mark = markAfter (s.engine p).faultMark (firstFaulty rs)) :
    ResultAt s (s.portRead p j a rs) p j.tag ∧
    ((∀ m : Nat, mark = some m → (s.engine p).nextAddress.getD 0 + unitSize s p j ≤ m) →
      (s.portRead p j a rs).jobOf j.tag = some (seenBy rs j) ∧ (s.portRead p j a rs).banks = s.banks ∧
      (s.portRead p j a rs).engine p = loadedEngine s p a rs before after) ∧
    (∀ m : Nat, mark = some m → m ≤ (s.engine p).nextAddress.getD 0 → (s.engine p).nextAddress.getD 0 < m + 4 →
      (s.portRead p j a rs).jobOf j.tag =
        some { seenBy rs j with state := .stopping, outcome := some .media, faultAddress := some m } ∧
      (s.portRead p j a rs).engine p = { s.engine p with
        state := .stopping, halves := onlyAwaiting (before ++ after), faultMark := mark } ∧
      LocksReleased s (s.portRead p j a rs) j.tag) := by
  obtain ⟨v, hv, hat, hseen, hengine, hbanks, hsettings⟩ := portRead_loaded (rs := rs) hh hb hj hs
  have size : unitSize v p j = unitSize s p j := by
    unfold unitSize
    rw [hsettings]
  have next : (loadedEngine s p a rs before after).nextAddress = (s.engine p).nextAddress := rfl
  have fault : (loadedEngine s p a rs before after).faultMark = mark := hm.symm
  obtain ⟨stopAt, stopJob, stopEngine, stopLocks⟩ := stopMedia_spec (p := p) hseen mark
  rw [hv, checkMark_of_markStops hengine, size, next, fault]
  refine ⟨?_, fun h => ?_, fun m hmark hle hlt => ?_⟩
  · split
    · exact hat.trans stopAt
    · exact hat
  · have stays : markStops mark ((s.engine p).nextAddress.getD 0) (unitSize s p j) = false := by
      cases mark with
      | none => rfl
      | some m => exact markStops_past (h m rfl) (unitSize_pos s p j)
    rw [stays, if_neg Bool.false_ne_true]
    exact ⟨hseen, hbanks, hengine⟩
  · rw [hmark, markStops_within hle hlt, if_pos rfl, ← hmark]
    refine ⟨by rw [stopJob, hmark], ?_, fun b => ?_⟩
    · rw [stopEngine, hengine, ← fault]
      unfold loadedEngine
      dsimp only
      rw [onlyAwaiting_loaded]
    · rw [stopLocks b, show v.bank b = s.bank b from (congrArg (fun t => t[b]) hbanks :)]

include hh hb hj in
/-- A WRITE's result: the half is FREE, and a word not written stops a job that is ACTIVE or DRAINING (R68). -/
theorem portWrite_spec :
    ResultAt s (s.portWrite p j a rs) p j.tag ∧
    ((firstUnwritten rs = none ∨ (j.state ≠ .active ∧ j.state ≠ .draining)) →
      (s.portWrite p j a rs).jobOf j.tag = some (seenBy rs j) ∧
      (s.portWrite p j a rs).engine p = { s.engine p with halves := before ++ after } ∧
      (s.portWrite p j a rs).banks = s.banks) ∧
    (∀ w : Nat, firstUnwritten rs = some w → (j.state = .active ∨ j.state = .draining) →
      (s.portWrite p j a rs).jobOf j.tag =
        some { seenBy rs j with state := .stopping, outcome := some .media, faultAddress := some w } ∧
      (s.portWrite p j a rs).engine p = { s.engine p with state := .stopping, halves := onlyAwaiting (before ++ after) } ∧
      LocksReleased s (s.portWrite p j a rs) j.tag) := by
  obtain ⟨hat, hseen, hengine, hbanks⟩ := freed_spec (rs := rs) rfl hh hb hj
  have written : s.portWrite p j a rs = match firstUnwritten rs with
    | none => (s.markCorrected j.tag rs).freeHalf p a.burst
    | some w => if j.state = .active ∨ j.state = .draining then
        ((s.markCorrected j.tag rs).freeHalf p a.burst).stopJob p j .media (some w)
      else (s.markCorrected j.tag rs).freeHalf p a.burst := rfl
  rw [written]
  generalize (s.markCorrected j.tag rs).freeHalf p a.burst = v at *
  cases hw : firstUnwritten rs with
  | none => exact ⟨hat, fun _ => ⟨hseen, hengine, hbanks⟩, nofun⟩
  | some w =>
    dsimp only
    by_cases hs : j.state = .active ∨ j.state = .draining
    · obtain ⟨stopAt, stopJob, stopEngine, stopLocks⟩ := stopMedia_spec (p := p) hseen (some w)
      rw [if_pos hs]
      refine ⟨hat.trans stopAt, fun h => ?_, fun w' hw' _ => ?_⟩
      · obtain ⟨h1, h2⟩ := h.resolve_left nofun
        exact absurd hs (by simp [h1, h2])
      · obtain rfl := Option.some.inj hw'
        refine ⟨stopJob, by rw [stopEngine, hengine], fun b => ?_⟩
        rw [stopLocks b, show v.bank b = s.bank b from (congrArg (fun t => t[b]) hbanks :)]
    · rw [if_neg hs]
      exact ⟨hat, fun _ => ⟨hseen, hengine, hbanks⟩, fun _ _ h => absurd h hs⟩

end

theorem portResult_read {s : State} {p : Port} {tag : Tag} {a : Access} {rs : List WordResult} {j : Job}
    (hr : s.part.state ≠ .resetting) (hj : s.jobOf tag = some j) (hk : a.kind = .read) :
    s.portResult p tag a rs = (s.portRead p j a rs).portSettle p := by
  unfold State.portResult
  rw [if_neg hr, hj, hk]

theorem portResult_write {s : State} {p : Port} {tag : Tag} {a : Access} {rs : List WordResult} {j : Job} {data : List Word}
    {masks : List (BitVec 4)} (hr : s.part.state ≠ .resetting) (hj : s.jobOf tag = some j) (hk : a.kind = .write data masks) :
    s.portResult p tag a rs = (s.portWrite p j a rs).portSettle p := by
  unfold State.portResult
  rw [if_neg hr, hj, hk]

/-- Settles O45: the array by the words of the burst, which nothing after them touches; the result by its client; a port's
result by what it leaves of the port before the port goes on. -/
theorem burstTouchesItsWordsAlone : Obligations.BurstTouchesItsWordsAlone := by
  unfold Obligations.BurstTouchesItsWordsAlone
  refine ⟨fun s decay lines => ⟨fun h => exec_burstComplete_none h decay lines, fun a h => ⟨_, exec_burstComplete h,
      burst_mem s decay lines a _, burst_array decay a _ (burst_mem s decay lines a _)⟩⟩,
    fun s decay lines a rs w h hrs hw => ?_, fun rs hrs => ⟨firstFaulty_iff hrs, firstFaulty_none, firstUnwritten_iff hrs,
      firstUnwritten_none⟩, fun s a rs => ⟨fun h => ?_, fun h => ?_, fun h => ?_, fun p tag h => ?_⟩,
    fun s p tag a rs before after k hk hh hb => ?_⟩
  · have run := exec_burstComplete (decay := decay) (lines := lines) h
    rw [← hrs, ← hw] at run
    refine ⟨fun hc => ?_, fun hc hs => ?_, fun hc hs v hv => ?_, perform_results s decay a rs hrs⟩
    · rw [run, deliver_unreported hc]
    · rw [run, deliver_scrub hc hs]
    · rw [run]
      exact (deliver_free hc hs hv).imp (fun e => by rw [e]) fun e => by rw [e]
  · unfold State.clientResult
    rw [h]
  · unfold State.clientResult
    rw [h]
  · unfold State.clientResult
    rw [h]
  · unfold State.clientResult
    rw [h]
  · obtain rfl : k = a.burst := hk
    refine ⟨fun hr => portResult_resetting hh hb hr tag, fun j seen hr hj hseen => ?_⟩
    obtain rfl := State.jobOf_tag hj
    obtain rfl : seen = seenBy rs j := hseen
    cases hkind : a.kind with
    | read =>
      refine ⟨s.portRead p j a rs, portResult_read hr hj hkind, ?_⟩
      by_cases hs : j.state = .active
      · have active := portRead_active (rs := rs) hh hb hj hs
        obtain ⟨hat, -, -⟩ := active _ rfl
        exact ⟨hat.rest, hat.engines, hat.jobs, fun h => absurd hs h.2, fun mark _ _ hm => by
          obtain ⟨-, hload, hstop⟩ := active mark hm
          subst hm
          exact ⟨hload, hstop⟩, nofun⟩
      · obtain ⟨hat, hjob, hengine, hbanks⟩ := portRead_dropped (rs := rs) hh hb hj hs
        exact ⟨hat.rest, hat.engines, hat.jobs, fun _ => ⟨hjob, hengine, hbanks⟩, fun _ _ h => absurd h hs, nofun⟩
    | write data masks =>
      obtain ⟨hat, hfree, hstop⟩ := portWrite_spec (rs := rs) hh hb hj
      exact ⟨s.portWrite p j a rs, portResult_write hr hj hkind, hat.rest, hat.engines, hat.jobs, fun h => (by cases h.1), nofun,
        fun _ _ _ => ⟨hfree, hstop⟩⟩

end Sys2Proof.Machine
end

