-- ==== Sys2Proof/Proofs/Units.lean ====
section
/-! PROOF. One unit at a RUNNING engine: the turn of the port that takes it (R63 to R74). -/

namespace Sys2Proof.Machine

open Sys2Proof.Safety

-- One thread: the whole text is checked under a memory limit that holds a bounded number of thread stacks.
set_option Elab.async false

/-! ### A request that the port's turn takes -/

/-- A request stands on XREQ, not acknowledged, at a port whose engine runs the job in a READY part (R63). -/
structure Standing (s : State) (p : Port) (j : Job) (req : UnitRequest) : Prop where
  ready : s.part.state = .ready
  xreq : (s.pin p).xreq = some req
  xack : (s.outp p).xack = false
  running : (s.engine p).state = .running
  active : (s.engine p).activeJob = some j.tag
  job : s.jobOf j.tag = some j
  port : j.port = p

/-- What the job's mode makes of a request whose direction is right (R67, R70, R72, R73). -/
def unitTurn (s : State) (p : Port) (j : Job) (req : UnitRequest) : Option State :=
  match j.mode with
  | .inn => s.unitIn p j req (unitSize s p j)
  | .out => s.unitOut p j req (unitSize s p j)
  | .compare => s.unitCompare p j req (unitSize s p j)
  | .count => s.unitCount p j req (unitSize s p j)

section
variable {s : State} {p : Port} {j : Job} {req : UnitRequest}

theorem Standing.portStep (h : Standing s p j req) : State.portStep p s =
    if j.mode.directionOk req.xdir = false then some (s.stopJob p j .direction none) else unitTurn s p j req := by
  have active : s.activeJob p = some j := by
    unfold State.activeJob
    rw [h.active]
    exact h.job
  unfold State.portStep
  rw [if_pos h.ready, h.running]
  dsimp only
  unfold State.takeUnit unitTurn
  rw [h.xreq, active]
  dsimp only
  rw [h.xack, if_neg Bool.false_ne_true, unitBytes_eq]
  cases j.mode.directionOk req.xdir <;> rfl

theorem directionOk_iff {m : Mode} {xdir : Bool} : m.directionOk xdir = false ↔ m ≠ .count ∧ xdir = decide (m = .out) := by
  cases m <;> cases xdir <;> decide

theorem Standing.portStep_wrong (h : Standing s p j req) (hc : j.mode ≠ .count) (hx : req.xdir = decide (j.mode = .out)) :
    State.portStep p s = some (s.stopJob p j .direction none) := by
  rw [h.portStep, if_pos (directionOk_iff.2 ⟨hc, hx⟩)]

theorem Standing.portStep_right (h : Standing s p j req) (hx : j.mode = .count ∨ req.xdir = !decide (j.mode = .out)) :
    State.portStep p s = unitTurn s p j req := by
  rw [h.portStep, if_neg fun k => ?_]
  obtain ⟨hc, hd⟩ := directionOk_iff.1 k
  rw [hd] at hx
  exact hx.elim hc (by cases decide (j.mode = .out) <;> decide)

/-- A RUNNING engine whose XACK is asserted takes no request: a port's turns end with an acknowledgement. -/
theorem portStep_acknowledged (hr : (s.engine p).state = .running) (ha : (s.outp p).xack = true) :
    State.portStep p s = none := by
  unfold State.portStep
  split
  · rw [hr]
    dsimp only
    unfold State.takeUnit
    split
    · rw [ha]
      rfl
    · rfl
  · rfl

end

/-! ### The unit acknowledged -/

/-- A unit of `n` bytes is acknowledged: counted, the next address past it, D driven, the halves and the WRITEs as the mode has
them (R43, R63). -/
structure Acked (s v : State) (p : Port) (j : Job) (n : Nat) (d : Drive) (halves : List Half) (writes : List Access) : Prop where
  turn : TurnOf s v p j { j with moved := j.moved + n }
  outp : v.outp p = { s.outp p with xack := true, d := d }
  banks : v.banks = s.banks
  engine : v.engine p = { s.engine p with halves := halves, nextAddress := (s.engine p).nextAddress.map (· + n) }
  accesses : v.accesses = s.accesses ++ writes

section
variable {s : State} {p : Port} {j : Job} (hj : s.jobOf j.tag = some j) (n : Nat)
include hj

theorem acked_acknowledge : Acked s (s.acknowledge p j n) p j n (s.outp p).d (s.engine p).halves [] := by
  obtain ⟨hturn, houtp, hbanks, hengine, haccesses⟩ := State.turnOf_acknowledge (p := p) n hj
  exact ⟨hturn, houtp, hbanks, hengine, by rw [haccesses, List.append_nil]⟩

theorem acked_staged (halves : List Half) (writes : List Access) :
    Acked s (((s.acknowledge p j n).setHalves p halves).postAll writes) p j n (s.outp p).d halves writes := by
  obtain ⟨hturn, houtp, hbanks, hengine, haccesses⟩ := State.turnOf_acknowledge (p := p) n hj
  generalize s.acknowledge p j n = v at *
  refine ⟨State.turnOf_postAll (State.turnOf_setEngine hturn _) _, houtp, hbanks, ?_, ?_⟩
  · refine (State.engine_self v p _).trans ?_
    rw [hengine]
  · exact (congrArg (· ++ writes) haccesses :)

theorem acked_given (d : Drive) :
    Acked s ((s.acknowledge p j n).setOutp p { (s.acknowledge p j n).outp p with d := d }) p j n d (s.engine p).halves [] := by
  obtain ⟨hturn, houtp, hbanks, hengine, haccesses⟩ := State.turnOf_acknowledge (p := p) n hj
  generalize s.acknowledge p j n = v at *
  refine ⟨State.turnOf_setOutp hturn _, ?_, hbanks, hengine, by rw [List.append_nil]; exact haccesses⟩
  refine (State.outp_self v p _).trans ?_
  rw [houtp]

end

section
variable {s v : State} {p : Port} {j : Job} {n : Nat} {d : Drive} {halves : List Half} {writes : List Access}

/-- The unit ends the job: what is staged is posted, what is LOADED discarded (R45, R74). -/
theorem Acked.drained (h : Acked s v p j n d halves writes) (o : JobOutcome) :
    TurnOf s (v.drainJob p j o) p j { j with state := .draining, moved := j.moved + n, outcome := some o } ∧
      (v.drainJob p j o).outp p = { s.outp p with xack := true, d := d } ∧ (v.drainJob p j o).banks = s.banks ∧
      (v.drainJob p j o).engine p = { s.engine p with
        state := .draining, halves := awaitingHalves halves, nextAddress := (s.engine p).nextAddress.map (· + n) } ∧
      (v.drainJob p j o).accesses = s.accesses ++ writes ++ stagedWrites j p halves := by
  obtain ⟨hturn, houts, hbanks, hengine, haccesses⟩ := State.turnOf_drainJob (p := p) (o := o) h.turn.1
  rw [h.engine] at hengine haccesses
  rw [h.accesses] at haccesses
  refine ⟨State.turnOf_trans h.turn hturn h.banks, ?_, hbanks.trans h.banks, hengine, haccesses⟩
  rw [← h.outp]
  exact (congrArg (fun o : Vector Outs 4 => o[p]) houts :)

end

/-! ### A unit given, and the job goes on (R69 to R71) -/

/-- The port has given the unit, freed the halves wholly given, and read ahead. -/
def readAhead (v : State) (p : Port) (j : Job) (next : Option Nat) : State :=
  (v.setHalves p (notGiven j (next.getD 0) (v.engine p).halves)).prefetch p j

section
variable {s v : State} {p : Port} {j : Job} {n : Nat} {d : Drive}

theorem Acked.afterUnit (h : Acked s v p j n d (s.engine p).halves []) {xend : Bool} (he : State.judgeEnd j n xend = none) :
    v.afterUnit p j n xend = (readAhead v p j ((s.engine p).nextAddress.map (· + n))).checkMark p { j with moved := j.moved + n } := by
  have next : (v.engine p).nextAddress = (s.engine p).nextAddress.map (· + n) := by rw [h.engine]
  unfold State.afterUnit readAhead
  rw [he, ← next]
  dsimp only
  rw [filter_not_given]

/-- The refill after a unit: it posts the READs of the next bursts and changes the halves, nothing else. -/
theorem Acked.readAhead_spec (h : Acked s v p j n d (s.engine p).halves []) (hp : j.port = p) {next : Option Nat}
    (hn : next = (s.engine p).nextAddress.map (· + n)) :
    ∃ (halves : List Half) (burst : Option Nat) (reads : List Access),
      Refilled p j (notGiven j (next.getD 0) (s.engine p).halves) (s.engine p).nextBurst halves burst reads ∧
      TurnOf s (readAhead v p j next) p j { j with moved := j.moved + n } ∧ (readAhead v p j next).banks = s.banks ∧
      (readAhead v p j next).outp p = { s.outp p with xack := true, d := d } ∧
      (readAhead v p j next).engine p = { s.engine p with nextAddress := next, halves := halves, nextBurst := burst } ∧
      (readAhead v p j next).accesses = s.accesses ++ reads := by
  have hturn := State.turnOf_prefetch (State.turnOf_setEngine h.turn
    { v.engine p with halves := notGiven j (next.getD 0) (v.engine p).halves })
  obtain ⟨hh, burst, reads, hrefilled, hengine, haccesses, en, ac, e⟩ :=
    State.prefetch_spec (v.setHalves p (notGiven j (next.getD 0) (v.engine p).halves)) hp
  have kept : (v.setHalves p (notGiven j (next.getD 0) (v.engine p).halves)).engine p =
      { s.engine p with nextAddress := next, halves := notGiven j (next.getD 0) (s.engine p).halves } := by
    refine (State.engine_self v p _).trans ?_
    rw [h.engine, hn]
  rw [kept] at hrefilled hengine
  refine ⟨hh, burst, reads, hrefilled, hturn, ?_, ?_, hengine, ?_⟩
  · exact (congrArg State.banks e).trans h.banks
  · exact (congrArg (fun t : State => t.outs[p]) e).trans h.outp
  · refine haccesses.trans ?_
    rw [show (v.setHalves p (notGiven j (next.getD 0) (v.engine p).halves)).accesses = v.accesses from rfl, h.accesses,
      List.append_nil]

end

theorem turnOf_settings {s u : State} {p : Port} {j x : Job} (h : TurnOf s u p j x) : u.settings = s.settings :=
  (congrArg State.settings h.2.2.2.2 :)

theorem turnOf_mem {s u : State} {p : Port} {j x : Job} (h : TurnOf s u p j x) : u.mem = s.mem :=
  (congrArg State.mem h.2.2.2.2 :)

theorem unitSize_of_settings {s u : State} (h : u.settings = s.settings) (p : Port) (j : Job) : unitSize u p j = unitSize s p j := by
  unfold unitSize State.portSettings
  rw [h]

/-- The mark lies wholly apart from the next unit: the job goes on. -/
theorem checkMark_apart {u : State} {p : Port} {j : Job}
    (h : ∀ m : Nat, (u.engine p).faultMark = some m →
      m + 4 ≤ (u.engine p).nextAddress.getD 0 ∨ (u.engine p).nextAddress.getD 0 + unitSize u p j ≤ m) :
    u.checkMark p j = u := by
  rw [checkMark_of_markStops rfl]
  refine if_neg fun k => ?_
  cases hm : (u.engine p).faultMark with
  | none => rw [hm] at k; cases k
  | some m =>
    rw [hm] at k
    rcases h m hm with h | h
    · unfold markStops at k
      have past : ¬(u.engine p).nextAddress.getD 0 < m + 4 := by omega
      have beyond : ¬(u.engine p).nextAddress.getD 0 + 1 = m := by omega
      simp [past, beyond] at k
    · rw [markStops_past h (unitSize_pos u p j)] at k
      cases k

/-- The next byte lies in the marked word: the job stops with MEDIA. -/
theorem checkMark_reached {u : State} {p : Port} {j : Job} {m : Nat} (hm : (u.engine p).faultMark = some m)
    (hle : m ≤ (u.engine p).nextAddress.getD 0) (hlt : (u.engine p).nextAddress.getD 0 < m + 4) :
    u.checkMark p j = u.stopJob p j .media (some m) := by
  rw [checkMark_of_markStops rfl, hm, markStops_within hle hlt, if_pos rfl]

/-! ### The turn, by the job's mode -/

/-- The halves, the WRITEs and D of a unit that is taken without a look at the array: COUNT, and IN (R67, R73). -/
def TakenIn (s : State) (p : Port) (j : Job) (req : UnitRequest) (n : Nat) (halves : List Half) (writes : List Access) : Prop :=
  (j.mode = .count ∧ halves = (s.engine p).halves ∧ writes = []) ∨
    (j.mode = .inn ∧ req.xdir = true ∧ State.stageBytes p j (laneBytes n req.d) ((s.engine p).nextAddress.getD 0)
      (s.engine p).halves [] = some (halves, writes))

theorem unitSize_cases (s : State) (p : Port) (j : Job) : unitSize s p j = 1 ∨ unitSize s p j = 2 := by
  unfold unitSize
  split <;> simp

theorem length_of_unitLoaded {s : State} {p : Port} {j : Job} {n : Nat} (hn : n = unitSize s p j) {bytes : List Byte}
    (hl : s.unitLoaded p n = some bytes) : bytes.length = n :=
  ((State.unitLoaded_iff (by rw [hn]; exact unitSize_cases s p j) bytes).1 hl).1

section
variable {s : State} {p : Port} {j : Job} {req : UnitRequest} {n : Nat} (h : Standing s p j req) (hn : n = unitSize s p j)
include h hn

theorem Standing.taken {halves : List Half} {writes : List Access} (ht : TakenIn s p j req n halves writes) :
    ∃ v : State, Acked s v p j n (s.outp p).d halves writes ∧
      (State.judgeEnd j n req.xend = none → State.portStep p s = some v) ∧
      ∀ o : JobOutcome, State.judgeEnd j n req.xend = some o → State.portStep p s = some (v.drainJob p j o) := by
  rcases ht with ⟨hm, rfl, rfl⟩ | ⟨hm, hx, hst⟩
  · have turn : State.portStep p s = s.unitCount p j req n := by
      rw [h.portStep_right (.inl hm), unitTurn, hm, ← hn]
    refine ⟨_, acked_acknowledge h.job n, fun he => ?_, fun o he => ?_⟩
    · rw [turn, State.unitCount, he]
    · rw [turn, State.unitCount, he]
  · have turn : State.portStep p s = s.unitIn p j req n := by
      rw [h.portStep_right (.inr (by rw [hm, hx]; rfl)), unitTurn, hm, ← hn]
    refine ⟨_, acked_staged h.job n halves writes, fun he => ?_, fun o he => ?_⟩
    · rw [turn, State.unitIn]
      dsimp only
      rw [hst]
      dsimp only
      rw [he]
    · rw [turn, State.unitIn]
      dsimp only
      rw [hst]
      dsimp only
      rw [he]

/-- A unit whose bytes find no room in staging, or are not LOADED, is withheld (R67, R70). -/
theorem Standing.withheld (hw : (j.mode = .inn ∧ req.xdir = true ∧ State.stageBytes p j (laneBytes n req.d)
      ((s.engine p).nextAddress.getD 0) (s.engine p).halves [] = none) ∨
    (((j.mode = .out ∧ req.xdir = false) ∨ (j.mode = .compare ∧ req.xdir = true)) ∧ s.unitLoaded p n = none)) :
    State.portStep p s = none := by
  rcases hw with ⟨hm, hx, hst⟩ | ⟨⟨hm, hx⟩ | ⟨hm, hx⟩, hl⟩
  · rw [h.portStep_right (.inr (by rw [hm, hx]; rfl)), unitTurn, hm, ← hn, State.unitIn]
    dsimp only
    rw [hst]
  · rw [h.portStep_right (.inr (by rw [hm, hx]; rfl)), unitTurn, hm, ← hn, State.unitOut]
    dsimp only
    rw [hl]
  · rw [h.portStep_right (.inr (by rw [hm, hx]; rfl)), unitTurn, hm, ← hn, State.unitCompare]
    dsimp only
    rw [hl]

/-- A unit of OUT, or an equal one of COMPARE, is given (R70, R72). -/
theorem Standing.given {d : Drive} (hg : UnitGiven s p j req n d) : ∃ v : State, Acked s v p j n d (s.engine p).halves [] ∧
    State.portStep p s = some (v.afterUnit p j n req.xend) := by
  obtain ⟨bytes, hl, ⟨hm, hx, rfl⟩ | ⟨hm, hx, hsame, rfl⟩⟩ := hg
  · refine ⟨_, acked_given h.job n _, ?_⟩
    rw [h.portStep_right (.inr (by rw [hm, hx]; rfl)), unitTurn, hm, ← hn, State.unitOut]
    dsimp only
    rw [hl]
    dsimp only
    rw [State.driveOf_eq]
  · refine ⟨_, acked_acknowledge h.job n, ?_⟩
    rw [h.portStep_right (.inr (by rw [hm, hx]; rfl)), unitTurn, hm, ← hn, State.unitCompare]
    dsimp only
    rw [hl]
    dsimp only
    rw [hsame, State.equalPrefix_self, length_of_unitLoaded hn hl, if_pos rfl]

/-- A unit of COMPARE that differs: the bytes before the first that does are counted, and the job stops (R72). -/
theorem Standing.mismatched {bytes : List Byte} {k : Nat} (hm : j.mode = .compare) (hx : req.xdir = true)
    (hl : s.unitLoaded p n = some bytes) (hk : k < n) (htake : (laneBytes n req.d).take k = bytes.take k)
    (hdiff : (laneBytes n req.d).getD k 0 ≠ bytes.getD k 0) :
    State.portStep p s = some (((s.acknowledge p j n).updateJob j.tag fun x => { x with moved := j.moved + k }).stopJob p j
      .mismatch (some (j.address.getD 0 + (j.moved + k)))) := by
  have hlen := length_of_unitLoaded hn hl
  have lanes : k < (laneBytes n req.d).length := by
    unfold laneBytes
    rcases (hn ▸ unitSize_cases s p j : n = 1 ∨ n = 2) with rfl | rfl
    · exact hk
    · exact hk
  have same := State.equalPrefix_lt lanes (by omega) htake hdiff
  rw [h.portStep_right (.inr (by rw [hm, hx]; rfl)), unitTurn, hm, ← hn, State.unitCompare]
  dsimp only
  rw [hl]
  dsimp only
  rw [same, if_neg (by omega)]

end

/-- The record rewritten within the turn. -/
theorem turnOf_updateJob {s v : State} {p : Port} {j x : Job} (h : TurnOf s v p j x) {f : Job → Job} (hf : ∀ x, (f x).tag = x.tag) :
    TurnOf s (v.updateJob j.tag f) p j (f x) := by
  obtain ⟨hjob, hjobs, hports, hbanks, hrest⟩ := h
  exact ⟨State.jobOf_updateJob hf hjob, fun t ht => (State.jobOf_updateJob_other hf ht).trans (hjobs t ht), hports, hbanks,
    (congrArg (fun t : State => { t with jobs := s.jobs }) hrest :)⟩

/-- A stop within the turn, for another outcome than MEDIA: what is staged is posted (R46, R75). -/
theorem turnOf_stopped {s v : State} {p : Port} {j x : Job} (h : TurnOf s v p j x) (hb : v.banks = s.banks) (o : JobOutcome)
    (f : Option Nat) :
    TurnOf s (v.stopJob p j o f) p j { x with state := .stopping, outcome := some o, faultAddress := f } ∧
      (v.stopJob p j o f).outp p = v.outp p ∧ LocksReleased s (v.stopJob p j o f) j.tag ∧
      (v.stopJob p j o f).engine p = { v.engine p with
        state := .stopping,
        halves := if o = .media then onlyAwaiting (v.engine p).halves else awaitingHalves (v.engine p).halves } ∧
      (v.stopJob p j o f).accesses = v.accesses ++ (if o = .media then [] else stagedWrites j p (v.engine p).halves) := by
  obtain ⟨-, hengine, -, -, haccesses, -⟩ := State.stopJob_spec (p := p) (o := o) (f := f) h.1
  obtain ⟨hturn, houts⟩ := State.turnOf_stopJob (p := p) (o := o) (f := f) h.1
  refine ⟨State.turnOf_trans h hturn hb, (congrArg (fun o : Vector Outs 4 => o[p]) houts :), fun b => ?_, hengine, haccesses⟩
  rw [(stopJob_jobs v p j o f).2 b, show v.bank b = s.bank b from (congrArg (fun t => t[b]) hb :)]

/-- The stop at a unit that differs. -/
theorem Acked.mismatch {s v : State} {p : Port} {j : Job} {n : Nat} (h : Acked s v p j n (s.outp p).d (s.engine p).halves [])
    (k : Nat) (f : Option Nat) (u : State)
    (hu : u = (v.updateJob j.tag fun x => { x with moved := j.moved + k }).stopJob p j .mismatch f) :
    TurnOf s u p j { j with state := .stopping, moved := j.moved + k, outcome := some .mismatch, faultAddress := f } ∧
      LocksReleased s u j.tag ∧ u.outp p = { s.outp p with xack := true } ∧
      u.engine p = { s.engine p with
        state := .stopping, nextAddress := (s.engine p).nextAddress.map (· + n),
        halves := awaitingHalves (s.engine p).halves } ∧
      u.accesses = s.accesses ++ stagedWrites j p (s.engine p).halves := by
  obtain ⟨hturn, houtp, hlocks, hengine, haccesses⟩ := turnOf_stopped
    (turnOf_updateJob h.turn (f := fun x => { x with moved := j.moved + k }) fun _ => rfl) h.banks .mismatch f
  have engine : (v.updateJob j.tag fun x => { x with moved := j.moved + k }).engine p = v.engine p := rfl
  rw [engine, if_neg (by decide), h.engine] at hengine haccesses
  rw [hu]
  refine ⟨hturn, hlocks, houtp.trans h.outp, hengine, haccesses.trans ?_⟩
  rw [show (v.updateJob j.tag fun x => { x with moved := j.moved + k }).accesses = v.accesses from rfl, h.accesses, List.append_nil]

end Sys2Proof.Machine
end

