-- ==== Sys2Proof/Proofs/UnitsTaken.lean ====
section
/-! PROOF. UNIT_REQUEST at a RUNNING engine: what the unit's turn makes of the port, and what the command leaves (R63 to R74). -/

namespace Sys2Proof.Machine

open Sys2Proof.Safety

-- One thread: the whole text is checked under a memory limit that holds a bounded number of thread stacks.
set_option Elab.async false

/-! ### The end judged -/

theorem judgeEnd_none {j : Job} {n : Nat} {xend : Bool} (h : j.moved + n < j.length) (hx : xend = false) :
    State.judgeEnd j n xend = none := by
  unfold State.judgeEnd
  rw [if_neg (by omega), hx]
  rfl

theorem judgeEnd_some {j : Job} {n : Nat} {xend : Bool} (h : j.moved + n = j.length ∨ xend = true) :
    State.judgeEnd j n xend = some (if j.moved + n = j.length then .done else .short) := by
  unfold State.judgeEnd
  by_cases hl : j.moved + n = j.length
  · rw [if_pos hl, if_pos hl]
  · rw [if_neg hl, if_neg hl, h.resolve_left hl]
    rfl

/-! ### A unit that stands on XREQ when the port has its turn -/

section
variable {s : State} {p : Port} {j : Job} {req : UnitRequest} {n : Nat} (h : Standing s p j req) (hn : n = unitSize s p j)
include h

/-- The direction is wrong (R64). -/
theorem Standing.direction (hc : j.mode ≠ .count) (hx : req.xdir = decide (j.mode = .out)) :
    ∃ u : State, State.portStep p s = some u ∧
      TurnOf s u p j { j with state := .stopping, outcome := some .direction, faultAddress := none } ∧
      u.outs = s.outs ∧ LocksReleased s u j.tag ∧
      u.engine p = { s.engine p with state := .stopping, halves := awaitingHalves (s.engine p).halves } ∧
      u.accesses = s.accesses ++ stagedWrites j p (s.engine p).halves := by
  obtain ⟨-, hengine, -, -, haccesses, -⟩ := State.stopJob_spec (p := p) (o := .direction) (f := none) h.job
  obtain ⟨hturn, houts⟩ := State.turnOf_stopJob (p := p) (o := .direction) (f := none) h.job
  rw [if_neg (by decide)] at hengine haccesses
  exact ⟨_, h.portStep_wrong hc hx, hturn, houts, (stopJob_jobs s p j .direction none).2, hengine, haccesses⟩

include hn

/-- A unit of COUNT or IN, or one of OUT or COMPARE that ends the job, is acknowledged; at the end the job goes to DRAINING. -/
theorem Standing.acknowledged {d : Drive} {halves : List Half} {writes : List Access}
    (hc : (TakenIn s p j req n halves writes ∧ d = (s.outp p).d) ∨
      (State.judgeEnd j n req.xend ≠ none ∧ UnitGiven s p j req n d ∧ halves = (s.engine p).halves ∧ writes = [])) :
    ∃ v : State, Acked s v p j n d halves writes ∧
      (State.judgeEnd j n req.xend = none → State.portStep p s = some v) ∧
      ∀ o : JobOutcome, State.judgeEnd j n req.xend = some o → State.portStep p s = some (v.drainJob p j o) := by
  rcases hc with ⟨ht, rfl⟩ | ⟨he, hg, rfl, rfl⟩
  · exact h.taken hn ht
  · obtain ⟨v, hack, hstep⟩ := h.given hn hg
    refine ⟨v, hack, fun k => absurd k he, fun o ho => hstep.trans ?_⟩
    rw [State.afterUnit, ho]

/-- A unit of OUT or COMPARE is given and the job goes on: halves are refilled, and the fault mark looked at (R69 to R71). -/
theorem Standing.goesOn {d : Drive} (hg : UnitGiven s p j req n d) (he : State.judgeEnd j n req.xend = none)
    {next : Option Nat} (hnext : next = (s.engine p).nextAddress.map (· + n)) :
    ∃ (halves : List Half) (burst : Option Nat) (reads : List Access),
      Refilled p j (notGiven j (next.getD 0) (s.engine p).halves) (s.engine p).nextBurst halves burst reads ∧
      ((∀ m : Nat, (s.engine p).faultMark = some m →
          m + 4 ≤ next.getD 0 ∨ next.getD 0 + unitSize s p { j with moved := j.moved + n } ≤ m) →
        ∃ u : State, State.portStep p s = some u ∧ TurnOf s u p j { j with moved := j.moved + n } ∧
          u.banks = s.banks ∧ u.outp p = { s.outp p with xack := true, d := d } ∧
          u.engine p = { s.engine p with nextAddress := next, halves := halves, nextBurst := burst } ∧
          u.accesses = s.accesses ++ reads) ∧
      ∀ m : Nat, (s.engine p).faultMark = some m → m ≤ next.getD 0 → next.getD 0 < m + 4 →
        ∃ u : State, State.portStep p s = some u ∧
          TurnOf s u p j { j with
            state := .stopping, moved := j.moved + n, outcome := some .media, faultAddress := some m } ∧
          LocksReleased s u j.tag ∧ u.outp p = { s.outp p with xack := true, d := d } ∧
          u.engine p = { s.engine p with
            state := .stopping, nextAddress := next, halves := onlyAwaiting halves, nextBurst := burst } ∧
          u.accesses = s.accesses ++ reads := by
  obtain ⟨v, hack, hstep⟩ := h.given hn hg
  rw [hack.afterUnit he, ← hnext] at hstep
  obtain ⟨halves, burst, reads, hrefilled, hturn, hbanks, houtp, hengine, haccesses⟩ := hack.readAhead_spec h.port hnext
  generalize readAhead v p j next = w at *
  have size := unitSize_of_settings (turnOf_settings hturn) p { j with moved := j.moved + n }
  have mark : (w.engine p).faultMark = (s.engine p).faultMark := by rw [hengine]
  have address : (w.engine p).nextAddress = next := by rw [hengine]
  refine ⟨halves, burst, reads, hrefilled, fun hmark => ⟨w, ?_, hturn, hbanks, houtp, hengine, haccesses⟩,
    fun m hm hle hlt => ⟨_, hstep, ?_⟩⟩
  · rw [hstep, checkMark_apart fun m hm => ?_]
    rw [address, size]
    exact hmark m (mark ▸ hm)
  · rw [checkMark_reached (mark.trans hm) (by rw [address]; exact hle) (by rw [address]; exact hlt)]
    obtain ⟨stopTurn, stopOutp, stopLocks, stopEngine, stopAccesses⟩ :=
      turnOf_stopped (j := { j with moved := j.moved + n }) hturn hbanks .media (some m)
    rw [if_pos rfl, hengine] at stopEngine
    rw [if_pos rfl, List.append_nil, haccesses] at stopAccesses
    exact ⟨stopTurn, stopLocks, stopOutp.trans houtp, stopEngine, stopAccesses⟩

end

/-! ### The command -/

/-- A port at which a request can be asserted, and at which its turn then takes it. -/
structure Asking (s : State) (p : Port) (j : Job) : Prop where
  resetn : s.resetn = false
  ready : s.part.state = .ready
  xreq : (s.pin p).xreq = none
  xack : (s.outp p).xack = false
  running : (s.engine p).state = .running
  active : (s.engine p).activeJob = some j.tag
  job : s.jobOf j.tag = some j
  port : j.port = p

/-- The request on XREQ, before the port's turn: the pins alone have changed. -/
theorem Asking.raised {s : State} {p : Port} {j : Job} (h : Asking s p j) (xdir xend : Bool) (d : BitVec 16) (lines : PortLines) :
    ∃ pins, exec (.unitRequest p xdir xend d lines) s =
        .next ((iterate (State.portStep p) 40 { s with pins := pins }).schedule.transmit) ∧
      Standing { s with pins := pins } p j { xdir := xdir, xend := xend, d := d } := by
  have run := exec_unitRequest (xdir := xdir) (xend := xend) (d := d) (lines := lines) h.resetn h.xreq
  obtain ⟨pins, e⟩ := sample_eq_pins s lines
  rw [e] at run
  refine ⟨_, run, h.ready, ?_, h.xack, h.running, h.active, h.job, h.port⟩
  exact congrArg Pins.xreq (State.pin_self { s with pins := pins } p _)

theorem turnOf_raised_mem {s u : State} {pins : Vector Pins 4} {p : Port} {j x : Job} (h : TurnOf { s with pins := pins } u p j x) :
    u.mem = s.mem := turnOf_mem (s := { s with pins := pins }) h

theorem schedule_transmit_spec (u : State) : u.schedule.transmit.jobs = u.jobs ∧ u.schedule.transmit.outs = u.outs ∧
    u.schedule.transmit.engines = u.engines ∧ u.schedule.transmit.mem = u.mem ∧
    u.schedule.transmit.accesses.map posted = u.accesses.map posted := by
  obtain ⟨ac, bk, op, fc, lk, pr, nt, e⟩ := scheduled_transmit_eq u
  refine ⟨by rw [e], by rw [e], by rw [e], by rw [e], ?_⟩
  rw [transmit_accesses]
  exact (Scheduled.schedule u).accesses

/-- Where the port's turns end at `u`. -/
theorem settled_at {s u : State} {c : Instr} (h : exec c s = .next u.schedule.transmit) (p : Port) (tag : Tag) :
    ∃ t : State, exec c s = .next t ∧ t.jobOf tag = u.jobOf tag ∧ t.outp p = u.outp p ∧ t.engine p = u.engine p ∧
      t.mem = u.mem ∧ t.accesses.map posted = u.accesses.map posted := by
  obtain ⟨hjobs, houts, hengines, hmem, hposted⟩ := schedule_transmit_spec u
  generalize u.schedule.transmit = t at *
  exact ⟨t, h, (congrArg (fun l : List Job => l.find? fun j => decide (j.tag = tag)) hjobs :),
    (congrArg (fun o : Vector Outs 4 => o[p]) houts :), (congrArg (fun e : Vector Engine 4 => e[p]) hengines :), hmem, hposted⟩

/-- The turn leaves the engine RUNNING with XACK asserted: the port's turns are over. -/
theorem settles_acknowledged {s u : State} {p : Port} {c : Instr} {pins : Vector Pins 4} (tag : Tag)
    (run : exec c s =
      .next ((iterate (State.portStep p) 40 { s with pins := pins }).schedule.transmit))
    (hstep : State.portStep p { s with pins := pins } = some u) (hr : (u.engine p).state = .running) (ha : (u.outp p).xack = true) :
    ∃ t : State, exec c s = .next t ∧ t.jobOf tag = u.jobOf tag ∧ t.outp p = u.outp p ∧
      t.engine p = u.engine p ∧ t.mem = u.mem ∧ t.accesses.map posted = u.accesses.map posted := by
  rw [iterate, hstep] at run
  dsimp only at run
  rw [iterate_none (portStep_acknowledged hr ha)] at run
  exact settled_at run p tag

theorem stagedWrites_none {j : Job} {p : Port} {halves : List Half} (h : ∀ x ∈ halves, x.isFilling = false) :
    stagedWrites j p halves = [] := by
  unfold stagedWrites
  rw [List.filterMap_eq_nil_iff]
  intro x hx
  cases x with
  | filling k start bytes => cases h _ hx
  | awaiting k => rfl
  | loaded k start bytes => rfl

/-- The READs of a refill are as they are posted. -/
theorem refilled_posted {p : Port} {j : Job} {kept halves : List Half} {next next' : Option Nat} {reads : List Access}
    (h : Refilled p j kept next halves next' reads) : reads.map posted = reads := by
  obtain ⟨hstay, hread⟩ := h
  have one (k : Nat) : posted (partRead p j k) = partRead p j k := rfl
  by_cases hfull : 2 ≤ kept.length
  · rw [(hstay (.inl hfull)).2.2]
    rfl
  · cases hnext : next with
    | none =>
      rw [(hstay (.inr fun k hk => by rw [hnext] at hk; cases hk)).2.2]
      rfl
    | some k =>
      by_cases hend : j.address.getD 0 + j.length ≤ 32 * k
      · rw [(hstay (.inr fun k' hk => by rw [hnext] at hk; cases hk; exact hend)).2.2]
        rfl
      · obtain ⟨hone, htwo⟩ := hread k hnext (by omega)
        by_cases hk : kept.length = 1 ∨ (kept = [] ∧ j.address.getD 0 + j.length ≤ 32 * (k + 1))
        · rw [(hone hk).2.2, List.map_singleton, one]
        · have empty : kept = [] := List.length_eq_zero_iff.1 (by omega)
          rw [(htwo empty (by
            by_contra hle
            exact hk (.inr ⟨empty, by omega⟩))).2.2, List.map_cons, List.map_singleton, one, one]

section
variable {s : State} {p : Port} {j : Job} {n : Nat} (h : Asking s p j) (hn : n = unitSize s p j)
  (xdir xend : Bool) (d : BitVec 16) (lines : PortLines)
include h

/-- The direction is wrong. -/
theorem Asking.direction (hc : j.mode ≠ .count) (hx : xdir = decide (j.mode = .out)) :
    ∃ u : State, UnitRuns s p xdir xend d lines u ∧
      u.jobOf j.tag = some { j with state := .stopping, outcome := some .direction, faultAddress := none } ∧
      (u.outp p).xack = false ∧ u.mem = s.mem := by
  obtain ⟨pins, run, standing⟩ := h.raised xdir xend d lines
  obtain ⟨u, hstep, hturn, houts, -, -, -⟩ := standing.direction hc hx
  rw [iterate, hstep] at run
  refine ⟨u, run, hturn.1, ?_, turnOf_raised_mem hturn⟩
  exact (congrArg (fun o : Vector Outs 4 => o[p].xack) houts).trans h.xack

/-- The turn finds nothing it may take. -/
theorem Asking.withheld (hstep : ∀ pins, Standing { s with pins := pins } p j { xdir := xdir, xend := xend, d := d } →
      State.portStep p { s with pins := pins } = none) :
    ∃ t : State, exec (.unitRequest p xdir xend d lines) s = .next t ∧ t.jobOf j.tag = some j ∧
      t.outp p = s.outp p ∧ t.engine p = s.engine p := by
  obtain ⟨pins, run, standing⟩ := h.raised xdir xend d lines
  rw [iterate_none (hstep pins standing)] at run
  obtain ⟨t, ht, hjob, houtp, hengine, -, -⟩ := settled_at run p j.tag
  exact ⟨t, ht, hjob.trans h.job, houtp, hengine⟩

include hn

/-- A unit of COUNT or IN that does not end the job. -/
theorem Asking.taken {halves : List Half} {writes : List Access}
    (ht : TakenIn s p j { xdir := xdir, xend := xend, d := d } n halves writes) (he : State.judgeEnd j n xend = none) :
    ∃ t : State, exec (.unitRequest p xdir xend d lines) s = .next t ∧
      t.jobOf j.tag = some { j with moved := j.moved + n } ∧ t.outp p = { s.outp p with xack := true } ∧
      t.engine p = { s.engine p with halves := halves, nextAddress := (s.engine p).nextAddress.map (· + n) } ∧
      t.mem = s.mem ∧ t.accesses.map posted = s.accesses.map posted ++ writes.map posted := by
  obtain ⟨pins, run, standing⟩ := h.raised xdir xend d lines
  obtain ⟨v, hack, hstep, -⟩ := standing.taken hn ht
  obtain ⟨t, hexec, hjob, houtp, hengine, hmem, hposted⟩ :=
    settles_acknowledged j.tag run (hstep he) (by rw [hack.engine]; exact h.running) (by rw [hack.outp])
  refine ⟨t, hexec, hjob.trans hack.turn.1, houtp.trans hack.outp, hengine.trans hack.engine, hmem.trans (turnOf_raised_mem hack.turn), ?_⟩
  rw [hposted, hack.accesses, List.map_append]

/-- A unit that ends the job: it goes to DRAINING, and the port goes on from there. -/
theorem Asking.ends {halves : List Half} {writes : List Access} {drive : Drive}
    (hc : (TakenIn s p j { xdir := xdir, xend := xend, d := d } n halves writes ∧ drive = (s.outp p).d) ∨
      (UnitGiven s p j { xdir := xdir, xend := xend, d := d } n drive ∧ halves = (s.engine p).halves ∧ writes = []))
    (he : j.moved + n = j.length ∨ xend = true) :
    ∃ u : State, UnitRuns s p xdir xend d lines u ∧
      u.jobOf j.tag = some { j with
        state := .draining, moved := j.moved + n,
        outcome := some (if j.moved + n = j.length then .done else .short) } ∧
      u.outp p = { s.outp p with xack := true, d := drive } ∧ (u.engine p).state = .draining ∧
      (u.engine p).halves = awaitingHalves halves ∧ u.mem = s.mem ∧
      u.accesses = s.accesses ++ writes ++ stagedWrites j p halves := by
  obtain ⟨pins, run, standing⟩ := h.raised xdir xend d lines
  have ending := judgeEnd_some he
  obtain ⟨v, hack, -, hstep⟩ := standing.acknowledged hn (d := drive) (halves := halves) (writes := writes)
    (hc.imp_right fun k => ⟨by rw [ending]; nofun, k⟩)
  obtain ⟨hturn, houtp, -, hengine, haccesses⟩ := hack.drained (if j.moved + n = j.length then .done else .short)
  rw [iterate, hstep _ ending] at run
  exact ⟨_, run, hturn.1, houtp, by rw [hengine], by rw [hengine], turnOf_raised_mem hturn, haccesses⟩

/-- A unit of OUT or COMPARE that does not end the job. -/
theorem Asking.goesOn {drive : Drive} (hg : UnitGiven s p j { xdir := xdir, xend := xend, d := d } n drive)
    (he : State.judgeEnd j n xend = none)
    (hmark : ∀ m : Nat, (s.engine p).faultMark = some m →
      (s.engine p).nextAddress.getD 0 + n + unitSize s p { j with moved := j.moved + n } ≤ m) :
    ∃ t : State, exec (.unitRequest p xdir xend d lines) s = .next t ∧
      t.jobOf j.tag = some { j with moved := j.moved + n } ∧ t.mem = s.mem ∧
      t.outp p = { s.outp p with xack := true, d := drive } ∧
      ∀ a : Nat, (s.engine p).nextAddress = some a → ∃ (halves : List Half) (next : Option Nat) (reads : List Access),
        Refilled p j (notGiven j (a + n) (s.engine p).halves) (s.engine p).nextBurst halves next reads ∧
        t.engine p = { s.engine p with nextAddress := some (a + n), halves := halves, nextBurst := next } ∧
        t.accesses.map posted = s.accesses.map posted ++ reads := by
  obtain ⟨pins, run, standing⟩ := h.raised xdir xend d lines
  obtain ⟨halves, burst, reads, hrefilled, hpast, -⟩ := standing.goesOn hn hg he rfl
  have next : ((s.engine p).nextAddress.map (· + n)).getD 0 ≤ (s.engine p).nextAddress.getD 0 + n := by
    cases (s.engine p).nextAddress with
    | none => exact Nat.zero_le _
    | some x => exact Nat.le_refl _
  obtain ⟨u, hstep, hturn, -, houtp, hengine, haccesses⟩ := hpast fun m hm => .inr (by
    have := hmark m hm
    exact Nat.le_trans (Nat.add_le_add_right next _) this)
  obtain ⟨t, hexec, hjob, toutp, tengine, hmem, hposted⟩ :=
    settles_acknowledged j.tag run hstep (by rw [hengine]; exact h.running) (by rw [houtp])
  refine ⟨t, hexec, hjob.trans hturn.1, hmem.trans (turnOf_raised_mem hturn), toutp.trans houtp, fun a ha => ⟨halves, burst, reads, ?_, ?_, ?_⟩⟩
  · have address : (s.engine p).nextAddress.map (· + n) = some (a + n) := by rw [ha]; rfl
    rw [show (State.engine { s with pins := pins } p) = s.engine p from rfl, address] at hrefilled
    exact hrefilled
  · rw [tengine, hengine, show (State.engine { s with pins := pins } p) = s.engine p from rfl, ha]
    rfl
  · rw [hposted, haccesses, List.map_append, refilled_posted hrefilled]

/-- The next byte lies in the marked word: the job stops with MEDIA, and the port goes on from there. -/
theorem Asking.media {drive : Drive} (hg : UnitGiven s p j { xdir := xdir, xend := xend, d := d } n drive)
    (he : State.judgeEnd j n xend = none) {a m : Nat} (ha : (s.engine p).nextAddress = some a)
    (hm : (s.engine p).faultMark = some m) (hle : m ≤ a + n) (hlt : a + n < m + 4) :
    ∃ u : State, UnitRuns s p xdir xend d lines u ∧
      u.jobOf j.tag = some { j with
        state := .stopping, moved := j.moved + n, outcome := some .media, faultAddress := some m } ∧
      (u.outp p).xack = true ∧ u.mem = s.mem ∧ ∃ (halves : List Half) (next : Option Nat) (reads : List Access),
        Refilled p j (notGiven j (a + n) (s.engine p).halves) (s.engine p).nextBurst halves next reads ∧
        u.engine p = { s.engine p with
          state := .stopping, nextAddress := some (a + n), halves := onlyAwaiting halves, nextBurst := next } ∧
        u.accesses = s.accesses ++ reads := by
  obtain ⟨pins, run, standing⟩ := h.raised xdir xend d lines
  have address : some (a + n) = (State.engine { s with pins := pins } p).nextAddress.map (· + n) := by
    rw [show (State.engine { s with pins := pins } p) = s.engine p from rfl, ha]
    rfl
  obtain ⟨halves, burst, reads, hrefilled, -, hreached⟩ := standing.goesOn hn hg he address
  obtain ⟨u, hstep, hturn, -, houtp, hengine, haccesses⟩ := hreached m hm hle hlt
  rw [iterate, hstep] at run
  exact ⟨u, run, hturn.1, by rw [houtp], turnOf_raised_mem hturn, halves, burst, reads, hrefilled, hengine, haccesses⟩

/-- A unit of COMPARE that differs: the job stops with MISMATCH, and the port goes on from there. -/
theorem Asking.mismatch {bytes : List Byte} {k : Nat} (hm : j.mode = .compare) (hx : xdir = true)
    (hl : s.unitLoaded p n = some bytes) (hk : k < n) (htake : (laneBytes n d).take k = bytes.take k)
    (hdiff : (laneBytes n d).getD k 0 ≠ bytes.getD k 0) :
    ∃ u : State, UnitRuns s p xdir xend d lines u ∧ (u.outp p).xack = true ∧
      u.jobOf j.tag = some { j with
        state := .stopping, outcome := some .mismatch, moved := j.moved + k,
        faultAddress := some (j.address.getD 0 + (j.moved + k)) } ∧
      (u.engine p).halves = awaitingHalves (s.engine p).halves ∧ u.mem = s.mem ∧
      u.accesses = s.accesses ++ stagedWrites j p (s.engine p).halves := by
  obtain ⟨pins, run, standing⟩ := h.raised xdir xend d lines
  have hstep := standing.mismatched hn hm hx hl hk htake hdiff
  obtain ⟨hturn, -, houtp, hengine, haccesses⟩ := (acked_acknowledge standing.job n).mismatch k _ _ rfl
  generalize State.stopJob _ p j .mismatch _ = u at *
  rw [iterate, hstep] at run
  exact ⟨u, run, congrArg Outs.xack houtp, hturn.1, congrArg Engine.halves hengine, turnOf_raised_mem hturn, haccesses⟩

end

/-! ### The obligation -/

/-- A request that stands on XREQ (the second part of O48). -/
theorem standing_taken {s : State} {p : Port} {j : Job} {req : UnitRequest} {n : Nat} {ending : Option JobOutcome}
    (h : Standing s p j req) (hn : n = unitSize s p j) (he : ending = State.judgeEnd j n req.xend) {d : Drive}
    {halves : List Half} {writes : List Access}
    (hc : (TakenIn s p j req n halves writes ∧ d = (s.outp p).d) ∨
      (ending ≠ none ∧ UnitGiven s p j req n d ∧ halves = (s.engine p).halves ∧ writes = [])) :
    ∃ u : State, State.portStep p s = some u ∧ u.outp p = { s.outp p with xack := true, d := d } ∧ u.banks = s.banks ∧
      (ending = none → TurnOf s u p j { j with moved := j.moved + n } ∧
        u.engine p = { s.engine p with halves := halves, nextAddress := (s.engine p).nextAddress.map (· + n) } ∧
        u.accesses = s.accesses ++ writes) ∧
      ∀ o : JobOutcome, ending = some o →
        TurnOf s u p j { j with state := .draining, moved := j.moved + n, outcome := some o } ∧
        u.engine p = { s.engine p with
          state := .draining, halves := awaitingHalves halves, nextAddress := (s.engine p).nextAddress.map (· + n) } ∧
        u.accesses = s.accesses ++ writes ++ stagedWrites j p halves := by
  subst he
  obtain ⟨v, hack, hnone, hsome⟩ := h.acknowledged hn hc
  cases he : State.judgeEnd j n req.xend with
  | none => exact ⟨v, hnone he, hack.outp, hack.banks, fun _ => ⟨hack.turn, hack.engine, hack.accesses⟩, nofun⟩
  | some o =>
    obtain ⟨hturn, houtp, hbanks, hengine, haccesses⟩ := hack.drained o
    refine ⟨_, hsome o he, houtp, hbanks, nofun, fun o' ho => ?_⟩
    obtain rfl := Option.some.inj ho
    exact ⟨hturn, hengine, haccesses⟩

theorem unitGiven_of {s : State} {p : Port} {j : Job} {req : UnitRequest} {n : Nat} {bytes : List Byte}
    (hl : s.unitLoaded p n = some bytes)
    (h : (j.mode = .out ∧ req.xdir = false) ∨ (j.mode = .compare ∧ req.xdir = true ∧ laneBytes n req.d = bytes)) :
    ∃ d : Drive, UnitGiven s p j req n d := by
  rcases h with ⟨hm, hx⟩ | ⟨hm, hx, hsame⟩
  · exact ⟨_, bytes, hl, .inl ⟨hm, hx, rfl⟩⟩
  · exact ⟨_, bytes, hl, .inr ⟨hm, hx, hsame, rfl⟩⟩

/-- Settles O48: the turn by the job's mode, with the state acknowledged between; the command by the turn, from the pins alone
changed, and by what follows the turn. -/
theorem unitsAreTaken : Obligations.UnitsAreTaken := by
  unfold Obligations.UnitsAreTaken
  refine ⟨fun s p => ⟨rfl, fun d => ⟨rfl, rfl⟩, fun n a bytes hn ha => ?_⟩,
    fun s p j req a n ending hready hx hack hrun hact hj hp hlt ha hn he => ?_,
    fun s p xdir xend d lines j a n hr hready hx hack hrun hact hj hp hlt ha hn => ?_⟩
  · subst ha
    exact State.unitLoaded_iff hn bytes
  · subst ha
    have h : Standing s p j req := ⟨hready, hx, hack, hrun, hact, hj, hp⟩
    have ends : ending = State.judgeEnd j n req.xend := he
    refine ⟨h.direction, h.withheld hn, fun d halves writes hc => standing_taken h hn ends ?_, fun d hg hnone ha => ?_,
      fun bytes k hm hx hl hk htake hdiff => ?_⟩
    · rcases hc with ⟨hm, hd, hh, hw⟩ | ⟨hm, hx, hd, hst⟩ | hg
      · exact .inl ⟨.inl ⟨hm, hh, hw⟩, hd⟩
      · exact .inl ⟨.inr ⟨hm, hx, hst⟩, hd⟩
      · exact .inr hg
    · exact h.goesOn hn hg (ends ▸ hnone) (next := some ((s.engine p).nextAddress.getD 0 + n)) (by rw [ha]; rfl)
    · exact ⟨_, h.mismatched hn hm hx hl hk htake hdiff, (acked_acknowledge h.job n).mismatch k _ _ rfl⟩
  · subst ha
    have h : Asking s p j := ⟨hr, hready, hx, hack, hrun, hact, hj, hp⟩
    refine ⟨fun hc hx => h.direction xdir xend d lines hc hx, fun hm hle hxe => ?_, fun hm he => ?_, fun hm hx hst => ?_,
      fun halves writes hm hx hle hxe hst => ?_, fun halves writes hm hx he hst => ?_, fun hm hx hl => ?_,
      fun bytes hm hx hl hmark hle hxe => ?_, fun bytes hl hg => ⟨fun he => ?_, fun m hle hxe ha hm hmn hnm => ?_⟩,
      fun bytes hm hx hl => ⟨fun hsame hmark hle hxe => ?_, fun k hk htake hdiff => ?_⟩⟩
    · exact h.taken hn xdir xend d lines (.inl ⟨hm, rfl, rfl⟩) (judgeEnd_none hle hxe) |>.imp fun t ⟨ht, hjob, houtp, hengine, hmem, hacc⟩ =>
        ⟨ht, hjob, houtp, hengine, hmem, hacc.trans (List.append_nil _)⟩
    · obtain ⟨u, hu, hjob, houtp, hstate, -, -, hacc⟩ := h.ends hn xdir xend d lines (.inl ⟨.inl ⟨hm, rfl, rfl⟩, rfl⟩) he
      refine ⟨u, hu, hjob, by rw [houtp], hstate, fun hnil => ?_⟩
      rw [hacc, hnil, List.append_nil]
      exact List.append_nil _
    · exact h.withheld xdir xend d lines fun pins standing => standing.withheld hn (.inl ⟨hm, hx, hst⟩)
    · exact h.taken hn xdir xend d lines (.inr ⟨hm, hx, hst⟩) (judgeEnd_none hle hxe)
    · exact h.ends hn xdir xend d lines (.inl ⟨.inr ⟨hm, hx, hst⟩, rfl⟩) he
    · refine h.withheld xdir xend d lines fun pins standing => standing.withheld hn (.inr ⟨?_, hl⟩)
      rcases hm with hm | hm
      · exact .inl ⟨hm, by rw [hx, hm]; rfl⟩
      · exact .inr ⟨hm, by rw [hx, hm]; rfl⟩
    · obtain ⟨t, ht, hjob, hmem, houtp, hengine⟩ := h.goesOn hn xdir xend d lines ⟨bytes, hl, .inl ⟨hm, hx, rfl⟩⟩
        (judgeEnd_none hle hxe) hmark
      exact ⟨t, ht, hjob, hmem, houtp, hengine _⟩
    · obtain ⟨drive, given⟩ := unitGiven_of (req := { xdir := xdir, xend := xend, d := d }) hl hg
      obtain ⟨u, hu, hjob, houtp, hstate, hhalves, hmem, hacc⟩ := h.ends hn xdir xend d lines (.inr ⟨given, rfl, rfl⟩) he
      refine ⟨u, hu, hjob, by rw [houtp], hstate, hmem, hhalves, fun hnone => ?_⟩
      rw [hacc, stagedWrites_none hnone, List.append_nil, List.append_nil]
    · obtain ⟨drive, given⟩ := unitGiven_of (req := { xdir := xdir, xend := xend, d := d }) hl hg
      exact h.media hn xdir xend d lines given (judgeEnd_none hle hxe) ha hm hmn hnm
    · obtain ⟨t, ht, hjob, hmem, houtp, hengine⟩ := h.goesOn hn xdir xend d lines ⟨bytes, hl, .inr ⟨hm, hx, hsame, rfl⟩⟩
        (judgeEnd_none hle hxe) hmark
      exact ⟨t, ht, hjob, hmem, houtp, hengine _⟩
    · obtain ⟨u, hu, hack, hjob, hhalves, hmem, hacc⟩ := h.mismatch hn xdir xend d lines hm hx hl hk htake hdiff
      refine ⟨u, hu, hack, hjob, hhalves, hmem, fun hnone => ?_⟩
      rw [hacc, stagedWrites_none hnone, List.append_nil]

end Sys2Proof.Machine
end
